-- ==== Sys2Proof/Word.lean ====
section
/-! DEFINITION. The word types of the remapping hardware unit.

Bit numbering is the manual's: bit 0 is the least significant bit (spec 00_scope.md R12). -/

namespace Sys2Proof

/-- One byte of host physical memory. -/
abbrev Byte := BitVec 8

/-- A 16-bit source-id: bus 15:8, device 7:3, function 2:0 (30_encoding.md R202). -/
abbrev SourceId := BitVec 16

/-- A 16-bit domain-id field; how many of its bits an implementation uses is CAP.ND (21_structures.md R176). -/
abbrev DomainId := BitVec 16

/-- The number of a 4KB page: bits 63:12 of a host physical address. -/
abbrev PageNumber := BitVec 52

end Sys2Proof
end

