-- ==== Sys2Proof/Machine/Bits.lean ====
section
/-! DEFINITION. Bit-field, mask and byte-order helpers, used by the decoder and the machine.

Byte order is little-endian everywhere (spec 20_memory.md R141, decision D1; log 1). -/

namespace Sys2Proof

/-- `v` with bit `i` made `b` (a bit beyond the width changes nothing). -/
def setBit {w : Nat} (v : BitVec w) (i : Nat) (b : Bool) : BitVec w :=
  if b then v ||| (1#w <<< i) else v &&& ~~~(1#w <<< i)

/-- The mask with ones in bits `hi` down to `lo`. -/
def maskBits (w hi lo : Nat) : BitVec w := BitVec.ofNat w (2 ^ (hi + 1) - 2 ^ lo)

/-- `v` with the field of `x`'s width at bit `lo` made `x`. -/
def setField {w n : Nat} (v : BitVec w) (lo : Nat) (x : BitVec n) : BitVec w :=
  (v &&& ~~~(maskBits w (lo + n - 1) lo)) ||| (x.setWidth w <<< lo)

/-- A Bool as a bit. -/
def bit (b : Bool) : BitVec 1 := BitVec.ofBool b

/-- The value of a list of bytes, the first byte the least significant (R141). -/
def natOfBytes : List Byte → Nat
  | [] => 0
  | b :: bs => b.toNat + 256 * natOfBytes bs

/-- The `n` low bytes of `v`, least significant first (R141). -/
def bytesOfNat : Nat → Nat → List Byte
  | 0, _ => []
  | n + 1, v => BitVec.ofNat 8 v :: bytesOfNat n (v / 256)

/-- The 128-bit value whose low quadword is `lo` and whose high quadword is `hi` (R12). -/
def joinQuads (hi lo : BitVec 64) : BitVec 128 := hi ++ lo

/-- Some byte of `[a, a+n)` lies in `[b, b+m)`. -/
def overlaps (a n b m : Nat) : Bool := decide (a < b + m) && decide (b < a + n)

end Sys2Proof
end

