-- ==== Sys2Proof/Config.lean ====
section
/-! DEFINITION. What an implementation or the platform fixes (spec 00_scope.md R9, R10), and the free values.

The parameters are a plain record held in State, so that a statement about every state holds for every
implementation. The fields of CAP_REG and ECAP_REG are read from the two registers by Machine/Caps.lean. -/

namespace Sys2Proof

/-- The platform kind (R4). -/
inductive Arch
  | intel64
  | itanium
  deriving DecidableEq, Repr

/-- CROSS_PAGE: how requests that cross a 4KB boundary are handled (40_dma_remapping.md R252). -/
inductive CrossPage
  | platformBlocks
  | unitSplits
  deriving DecidableEq, Repr

/-- BLOCK_METHOD: what a blocked read of a requester that is not PCI Express is given (R258, U11). -/
inductive BlockMethod
  | errorStatus
  | dummyData
  deriving DecidableEq, Repr

/-- MULTI_TRANSLATION: how a translation request for several pages is answered (41_device_iotlb.md R278). -/
inductive MultiTranslation
  | single
  | multiple
  deriving DecidableEq, Repr

/-- One descriptor form of a layout other than the spec's: the Type code in bits 3:0 (30_encoding.md R211), the reference
type (1 to 5, R212 to R217) that it stands for, and, for each bit of the reference form from bit 0 up, the bit of the
descriptor that holds it. -/
structure DscForm where
  code : BitVec 4
  kind : Nat
  places : List Nat
  deriving DecidableEq, Repr

/-- DSC_LAYOUT (R10; 93_implementation_defined.md G2): where the descriptors' fields stand, as far as it can be written down
(log 45). -/
inductive DscLayout
  /-- The layout of 30_encoding.md R212 to R217 (log 9). -/
  | reference
  | other (forms : List DscForm)
  deriving DecidableEq, Repr

/-- invalid_dsc (R10; 30_encoding.md R216): which descriptors of a known type are invalid. An unknown type always is. -/
inductive InvalidDsc
  /-- Decision D7: an absent facility, or a reserved bit Set (log 11). -/
  | decisionD7
  /-- The descriptors, in the reference layout, that agree with a pattern's value in the bits of its mask. -/
  | patterns (ps : List (BitVec 128 × BitVec 128))
  deriving DecidableEq, Repr

/-- The host physical addresses `base` to `base + size - 1`. -/
structure AddrRange where
  base : Nat
  size : Nat
  deriving DecidableEq, Repr

/-- What a Device Scope Entry puts under a unit's scope (50_bios_reporting.md R457): one requester, or a bridge with the buses
downstream of it, `secondary` to `subordinate` (given by the host: R458). -/
inductive ScopeDevice
  | device (sid : SourceId)
  | hierarchy (bridge : SourceId) (secondary subordinate : Byte)
  deriving DecidableEq, Repr

/-- The parameters of one unit and its platform (R10; 93_implementation_defined.md section 3). -/
structure Config where
  /-- CAP_REG (11_registers_a.md R61). -/
  cap : BitVec 64
  /-- ECAP_REG (R62). -/
  ecap : BitVec 64
  /-- Host address width (50_bios_reporting.md R452). -/
  haw : Nat
  arch : Arch
  /-- REG_BASE (R455), 4KB-aligned. -/
  regBase : Nat
  /-- PCI segment of the unit (R455). -/
  segment : BitVec 16
  /-- The devices that the unit serves (R456, R457). -/
  scope : List ScopeDevice
  /-- INCLUDE_PCI_ALL: the unit serves all of the segment but `scopeExcept`, the devices under its other units (R456). -/
  scopeAll : Bool
  scopeExcept : List ScopeDevice
  /-- N of the protected low / high memory registers (12_registers_b.md R108, R110). -/
  plmN : Nat
  phmN : Nat
  /-- Number of ITags, 1 to 32 (41_device_iotlb.md R290). -/
  nItags : Nat
  /-- INV_TIMEOUT, carried as a name only (D22). -/
  invTimeout : Nat
  faultCompression : Bool
  /-- 32-bit event message data. -/
  eimd : Bool
  /-- 64-bit event message address. -/
  uaddr : Bool
  /-- Read Completion Boundary in bytes. -/
  rcb : Nat
  crossPage : CrossPage
  blockMethod : BlockMethod
  multiTranslation : MultiTranslation
  /-- A request beyond MGAW is reported through AER, not by a fault record (R236, U10). -/
  mgawAer : Bool
  /-- IRTE delivery modes SMI and INIT are supported (21_structures.md R188, U8). -/
  smiDlm : Bool
  initDlm : Bool
  /-- WAIT_IN_ORDER (44_queued_invalidation.md R402, D32). -/
  waitInOrder : Bool
  dscLayout : DscLayout
  invalidDsc : InvalidDsc
  /-- AccessError: further addresses at which the unit's accesses fail (20_memory.md R150). -/
  accessErrors : List AddrRange
  /-- Addresses that decode to peer devices and not to system memory (R147 item 4). -/
  nonMemory : List AddrRange
  deriving DecidableEq, Repr

/-- A free value: nothing constrains it. It is taken at the state's counter `draws` and at a site that names
the question the manual leaves open (log 4). -/
opaque Config.free : Nat → Nat → Nat

/-- An implementation with every optional facility; the configuration of State.reset (log 3, DESIGN CHOICE). -/
def Config.full : Config where
  cap := 0x00C907BC20FF1F7E
  ecap := 0x0000000000F010EF
  haw := 40
  arch := .intel64
  regBase := 0xFED90000
  segment := 0
  scope := []
  scopeAll := true
  scopeExcept := []
  plmN := 20
  phmN := 20
  nItags := 32
  invTimeout := 0
  faultCompression := false
  eimd := true
  uaddr := true
  rcb := 64
  crossPage := .unitSplits
  blockMethod := .errorStatus
  multiTranslation := .single
  mgawAer := false
  smiDlm := true
  initDlm := true
  waitInOrder := false
  dscLayout := .reference
  invalidDsc := .decisionD7
  accessErrors := []
  nonMemory := []

/-- Configuration T of 95_test_vectors.md section 1.1, used by the tests. -/
def Config.vectorT : Config :=
  { Config.full with
    cap := 0x00C90184206F0662
    ecap := 0x0000000000F010CF
    eimd := false
    smiDlm := false
    initDlm := false }

end Sys2Proof
end

