-- ==== Sys2Proof/Machine/Caps.lean ====
section
/-! DEFINITION. The fields of CAP_REG and ECAP_REG of a configuration (spec 11_registers_a.md R61, R62) and the
constraints between parameters that the manual states (00_scope.md R11). -/

namespace Sys2Proof

/-- CAP.ND. -/
def Config.nd (c : Config) : Nat := (c.cap.extractLsb' 0 3).toNat
/-- CAP.AFL: advanced fault logging. -/
def Config.afl (c : Config) : Bool := c.cap.getLsbD 3
/-- CAP.RWBF: software must flush write buffers. -/
def Config.rwbf (c : Config) : Bool := c.cap.getLsbD 4
/-- CAP.PLMR: protected low-memory region. -/
def Config.plmr (c : Config) : Bool := c.cap.getLsbD 5
/-- CAP.PHMR: protected high-memory region. -/
def Config.phmr (c : Config) : Bool := c.cap.getLsbD 6
/-- CAP.CM: caching mode. -/
def Config.cm (c : Config) : Bool := c.cap.getLsbD 7
/-- CAP.SAGAW, one bit per AW code. -/
def Config.sagaw (c : Config) : BitVec 5 := c.cap.extractLsb' 8 5
/-- The maximum guest address width in bits: CAP.MGAW + 1. -/
def Config.mgawBits (c : Config) : Nat := (c.cap.extractLsb' 16 6).toNat + 1
/-- CAP.ZLR: zero-length reads to write-only pages succeed. -/
def Config.zlr (c : Config) : Bool := c.cap.getLsbD 22
/-- CAP.ISOCH: isochronous requesters are in scope; no behaviour depends on it. -/
def Config.isoch (c : Config) : Bool := c.cap.getLsbD 23
/-- CAP.FRO: the fault recording registers start at 16 * FRO. -/
def Config.fro (c : Config) : Nat := (c.cap.extractLsb' 24 10).toNat
/-- CAP.SPS, one bit per super-page size. -/
def Config.sps (c : Config) : BitVec 4 := c.cap.extractLsb' 34 4
/-- CAP.PSI: page-selective invalidation. -/
def Config.psi (c : Config) : Bool := c.cap.getLsbD 39
/-- The number of fault recording registers: CAP.NFR + 1. -/
def Config.faultRegs (c : Config) : Nat := (c.cap.extractLsb' 40 8).toNat + 1
/-- CAP.MAMV: the largest address mask. -/
def Config.mamv (c : Config) : Nat := (c.cap.extractLsb' 48 6).toNat
/-- CAP.DWD: write draining. -/
def Config.dwd (c : Config) : Bool := c.cap.getLsbD 54
/-- CAP.DRD: read draining. -/
def Config.drd (c : Config) : Bool := c.cap.getLsbD 55

/-- ECAP.C: structure accesses are snooped. -/
def Config.coherent (c : Config) : Bool := c.ecap.getLsbD 0
/-- ECAP.QI: queued invalidation. -/
def Config.qi (c : Config) : Bool := c.ecap.getLsbD 1
/-- ECAP.DI: Device-IOTLBs. -/
def Config.di (c : Config) : Bool := c.ecap.getLsbD 2
/-- ECAP.IR: interrupt remapping. -/
def Config.ir (c : Config) : Bool := c.ecap.getLsbD 3
/-- ECAP.CH: caching hints. -/
def Config.ch (c : Config) : Bool := c.ecap.getLsbD 5
/-- ECAP.PT: pass-through. -/
def Config.pt (c : Config) : Bool := c.ecap.getLsbD 6
/-- ECAP.SC: snoop control. -/
def Config.sc (c : Config) : Bool := c.ecap.getLsbD 7
/-- ECAP.IVO: IVA_REG stands at 16 * IVO. -/
def Config.ivo (c : Config) : Nat := (c.ecap.extractLsb' 8 10).toNat
/-- ECAP.MHMV: the largest index mask. -/
def Config.mhmv (c : Config) : Nat := (c.ecap.extractLsb' 20 4).toNat

/-- The width of a domain-id (21_structures.md R176). -/
def Config.domainBits (c : Config) : Nat := 4 + 2 * c.nd

/-- A domain-id with the bits at and above the supported width cleared: hardware ignores them (R121, R176). -/
def Config.domain (c : Config) (did : DomainId) : DomainId := did &&& BitVec.ofNat 16 (2 ^ c.domainBits - 1)

/-- The number of 4KB register pages: the first, and those that hold IVA_REG, IOTLB_REG and FRCD_REG (10_state.md R22). -/
def Config.registerPages (c : Config) : Nat :=
  (max (16 * c.ivo + 16) (max (16 * c.fro + 16 * c.faultRegs) 4096) + 4095) / 4096

/-- A layout has one form for each of the five types, with distinct codes; a form reads every bit of a descriptor once, and its
fields leave the Type bits 3:0 to the Type. -/
def DscLayout.legal : DscLayout → Bool
  | .reference => true
  | .other forms =>
      forms.all (fun f => decide (f.places.length = 128) && (List.range 128).all f.places.contains
        && (f.places.take 4 == [0, 1, 2, 3]))
      && decide (forms.length = 5) && [1, 2, 3, 4, 5].all (forms.map DscForm.kind).contains
      && decide ((forms.map DscForm.code).Nodup)

/-- The constraints between parameters that the manual states (00_scope.md R11), with the legal sets of R10. Of HAW no range is
given: 12 to 64 is the model's; REG_BASE is a host physical address, and so is every address of the register pages (log 3).
IVA_REG with IOTLB_REG, and the fault recording registers, lie at reserved addresses: beyond the fixed registers, of which every
16 bytes below 0C0h hold one, and apart from each other (10_state.md R22). -/
def Config.legal (c : Config) : Bool :=
  decide (c.nd ≤ 6) && (!c.di || c.qi) && (!c.ir || c.qi)
  && (c.sps == 0 || c.sps == 1 || c.sps == 3 || c.sps == 7 || c.sps == 15)
  && (c.cap &&& 0xFF0000400000E000 == 0) && (c.ecap &&& 0xFFFFFFFFFF0C0010 == 0)
  && decide (1 ≤ c.nItags) && decide (c.nItags ≤ 32)
  && c.dscLayout.legal && decide (c.regBase % 4096 = 0) && decide (12 ≤ c.haw) && decide (c.haw ≤ 64)
  && decide (c.regBase + 4096 * c.registerPages ≤ 2 ^ c.haw)
  && decide (12 ≤ c.ivo) && decide (12 ≤ c.fro) && (decide (c.ivo < c.fro) || decide (c.fro + c.faultRegs ≤ c.ivo))

end Sys2Proof
end

