-- ==== Sys2Proof/Syntax.lean ====
section
/-! DEFINITION. The instructions: the five invalidation descriptors (spec 30_encoding.md R211 to R217) and the twelve
register commands (R218), one constructor per row of opcode_table.json.

Operands are the fields of the encoding. Granularity codes keep their width: their meaning, reserved codes among
them, is R219. -/

namespace Sys2Proof

/-- One row of the opcode table with its operands. -/
inductive Instr
  /-- cc_inv_dsc (R212, R380). -/
  | ccInvDsc (g : BitVec 2) (did : DomainId) (sid : SourceId) (fm : BitVec 2)
  /-- iotlb_inv_dsc (R214, R383); `addr` is address bits 63:12. -/
  | iotlbInvDsc (g : BitVec 2) (dw dr : Bool) (did : DomainId) (am : BitVec 6) (ih : Bool) (addr : PageNumber)
  /-- dev_iotlb_inv_dsc (R213, R386); `addr` is address bits 63:12. -/
  | devIotlbInvDsc (maxInvsPend : BitVec 5) (sid : SourceId) (s : Bool) (addr : PageNumber)
  /-- iec_inv_dsc (R215, R390); `g` Set is index-selective. -/
  | iecInvDsc (g : Bool) (im : BitVec 5) (iidx : BitVec 16)
  /-- inv_wait_dsc (R217, R395); `statusAddr` is address bits 63:2. -/
  | invWaitDsc (iflag sw fn : Bool) (statusData : BitVec 32) (statusAddr : BitVec 62)
  /-- GCMD.TE, enable or disable DMA remapping (R422). -/
  | gcmdTe (enable : Bool)
  /-- GCMD.SRTP, set root table pointer (R423). -/
  | gcmdSrtp
  /-- GCMD.SFL, set fault log (R424). -/
  | gcmdSfl
  /-- GCMD.EAFL, enable or disable advanced fault logging (R425). -/
  | gcmdEafl (enable : Bool)
  /-- GCMD.WBF, write buffer flush (R426). -/
  | gcmdWbf
  /-- GCMD.QIE, enable or disable queued invalidation (R427). -/
  | gcmdQie (enable : Bool)
  /-- GCMD.IRE, enable or disable interrupt remapping (R428). -/
  | gcmdIre (enable : Bool)
  /-- GCMD.SIRTP, set interrupt remap table pointer (R429). -/
  | gcmdSirtp
  /-- GCMD.CFI, enable or disable compatibility format interrupts (R430). -/
  | gcmdCfi (enable : Bool)
  /-- CCMD.ICC, invalidate the context cache (R340). -/
  | ccmdIcc (cirg : BitVec 2) (fm : BitVec 2) (sid : SourceId) (did : DomainId)
  /-- IOTLB.IVT, invalidate the IOTLB (R345); the page operands are in IVA_REG. -/
  | iotlbIvt (iirg : BitVec 3) (dr dw : Bool) (did : DomainId)
  /-- PMEN.EPM, enable or disable the protected memory regions (R435). -/
  | pmenEpm (enable : Bool)
  deriving DecidableEq, Repr

/-- The four registers through which commands are given (30_encoding.md R218). -/
inductive CmdReg
  | gcmd
  | ccmd
  | iotlb
  | pmen
  deriving DecidableEq, Repr

/-- A command as written: the register and the written word (of a 32-bit register, in bits 31:0). -/
structure CmdWrite where
  reg : CmdReg
  value : BitVec 64
  deriving DecidableEq, Repr

/-- The status a level command is compared with (45_global_commands.md R421, R435): GSTS_REG and PMEN.PRS. -/
structure CmdContext where
  gsts : BitVec 32
  prs : Bool
  deriving DecidableEq, Repr

/-- The instruction is a descriptor of the invalidation queue. -/
def Instr.isDescriptor : Instr → Bool
  | .ccInvDsc _ _ _ _ => true
  | .iotlbInvDsc _ _ _ _ _ _ _ => true
  | .devIotlbInvDsc _ _ _ _ => true
  | .iecInvDsc _ _ _ => true
  | .invWaitDsc _ _ _ _ _ => true
  | .gcmdTe _ => false
  | .gcmdSrtp => false
  | .gcmdSfl => false
  | .gcmdEafl _ => false
  | .gcmdWbf => false
  | .gcmdQie _ => false
  | .gcmdIre _ => false
  | .gcmdSirtp => false
  | .gcmdCfi _ => false
  | .ccmdIcc _ _ _ _ => false
  | .iotlbIvt _ _ _ _ => false
  | .pmenEpm _ => false

end Sys2Proof
end

