-- ==== Sys2Proof/WellFormed.lean ====
section
/-! DEFINITION. Which instructions an implementation has: each is "valid only" with its capability
(spec 45_global_commands.md R431, 30_encoding.md R216 item b, 10_state.md R39). -/

namespace Sys2Proof

/-- The implementation `c` has the facility that the instruction names. -/
def wellFormed (c : Config) : Instr → Bool
  | .ccInvDsc _ _ _ _ => c.qi
  | .iotlbInvDsc _ _ _ _ _ _ _ => c.qi
  | .devIotlbInvDsc _ _ _ _ => c.qi && c.di
  | .iecInvDsc _ _ _ => c.qi && c.ir
  | .invWaitDsc _ _ _ _ _ => c.qi
  | .gcmdTe _ => true
  | .gcmdSrtp => true
  | .gcmdSfl => c.afl
  | .gcmdEafl _ => c.afl
  | .gcmdWbf => c.rwbf
  | .gcmdQie _ => c.qi
  | .gcmdIre _ => c.ir
  | .gcmdSirtp => c.ir
  | .gcmdCfi _ => c.ir && (c.arch == .intel64)
  | .ccmdIcc _ _ _ _ => true
  | .iotlbIvt _ _ _ _ => true
  | .pmenEpm _ => c.plmr || c.phmr

end Sys2Proof
end

