-- ==== Sys2Proof/Decode.lean ====
section
/-! DEFINITION. Decoding of descriptors (spec 30_encoding.md R211 to R220) and of command writes
(45_global_commands.md R421, 30_encoding.md R218), and the encoder.

The descriptor layout and the type codes are the reference layout of DSC_LAYOUT, from general knowledge (G2; log 9,
PRESUMED); `queueDescriptor` reads another layout through it. -/

namespace Sys2Proof

/-- Why bits are no instruction. -/
inductive DecodeError
  /-- The descriptor's Type is not 1h to 5h (R216 item a). -/
  | unknownType (code : BitVec 4)
  /-- A reserved bit of the layout is Set (R216 item c), or a bit of GCMD_REG 22:0, CCMD_REG 58:34, IOTLB_REG 56:50. -/
  | reservedBits
  /-- One write to GCMD_REG requests more than one modification (R421). -/
  | severalCommands
  /-- The bytes are not the 16 bytes of one descriptor. -/
  | notSixteenBytes
  deriving DecidableEq, Repr

/-- What bits stand for. -/
inductive Decoded
  /-- One instruction. -/
  | instr (i : Instr)
  /-- A register write that requests nothing (R421). -/
  | nothing
  | rejected (e : DecodeError)
  deriving DecidableEq, Repr

/-- The instruction that the bits stand for, if any. -/
def Decoded.instr? : Decoded → Option Instr
  | .instr i => some i
  | .nothing => none
  | .rejected _ => none

/-! ## Descriptors -/

/-- The reserved bits of each descriptor type (the reserved rows of R212 to R217). -/
def reservedMask : Nat → BitVec 128
  | 1 => 0xFFFFFFFFFFFFFFFFFFFC00000000FFC0
  | 2 => 0x0000000000000F80FFFFFFFF0000FF00
  | 3 => 0x0000000000000FFEFFFF0000FFE0FFF0
  | 4 => 0xFFFFFFFFFFFFFFFFFFFF000007FFFFE0
  | 5 => 0x000000000000000300000000FFFFFF80
  | _ => 0

/-- The fields of a descriptor of a known type (R220). -/
def descriptorFields (d : BitVec 128) : Nat → Option Instr
  | 1 => some (.ccInvDsc (d.extractLsb' 4 2) (d.extractLsb' 16 16) (d.extractLsb' 32 16) (d.extractLsb' 48 2))
  | 2 => some (.iotlbInvDsc (d.extractLsb' 4 2) (d.getLsbD 6) (d.getLsbD 7) (d.extractLsb' 16 16)
      (d.extractLsb' 64 6) (d.getLsbD 70) (d.extractLsb' 76 52))
  | 3 => some (.devIotlbInvDsc (d.extractLsb' 16 5) (d.extractLsb' 32 16) (d.getLsbD 64) (d.extractLsb' 76 52))
  | 4 => some (.iecInvDsc (d.getLsbD 4) (d.extractLsb' 27 5) (d.extractLsb' 32 16))
  | 5 => some (.invWaitDsc (d.getLsbD 4) (d.getLsbD 5) (d.getLsbD 6) (d.extractLsb' 32 32) (d.extractLsb' 66 62))
  | _ => none

/-- The descriptor whose 128 bits are `d` (R220; invalid by R216 items a and c). -/
def decodeDescriptor (d : BitVec 128) : Decoded :=
  match descriptorFields d (d.extractLsb' 0 4).toNat with
  | none => .rejected (.unknownType (d.extractLsb' 0 4))
  | some i => if d &&& reservedMask (d.extractLsb' 0 4).toNat = 0 then .instr i else .rejected .reservedBits

/-- The descriptor in 16 bytes of memory, lowest address first (20_memory.md R141). -/
def decodeBytes (bs : List Byte) : Decoded :=
  if bs.length = 16 then decodeDescriptor (BitVec.ofNat 128 (natOfBytes bs)) else .rejected .notSixteenBytes

/-! ## The descriptor parameters: DSC_LAYOUT and invalid_dsc (00_scope.md R10) -/

/-- The bits of `d` at the places listed, the first place the least significant bit. -/
def gatherBits (d : BitVec 128) : List Nat → Nat
  | [] => 0
  | k :: ks => (d.getLsbD k).toNat + 2 * gatherBits d ks

/-- A descriptor of the layout, written in the reference layout; one of no listed code gets the unknown Type 0. -/
def DscLayout.toReference (l : DscLayout) (d : BitVec 128) : BitVec 128 :=
  match l with
  | .reference => d
  | .other forms =>
      match forms.find? (fun f => f.code == d.extractLsb' 0 4) with
      | none => 0
      | some f => BitVec.ofNat 128 (gatherBits d f.places / 16 * 16 + f.kind)

/-- The instruction that a descriptor stands for on an implementation; none is an invalid one (30_encoding.md R216, R220). -/
def queueDescriptor (cfg : Config) (bits : BitVec 128) : Option Instr :=
  let d := cfg.dscLayout.toReference bits
  match cfg.invalidDsc with
  | .decisionD7 => (decodeDescriptor d).instr?.filter (wellFormed cfg)
  | .patterns ps => if ps.any (fun p => d &&& p.1 == p.2) then none else descriptorFields d (d.extractLsb' 0 4).toNat

/-- The instruction in the 16 bytes of a slot. -/
def queueBytes (cfg : Config) (bs : List Byte) : Option Instr :=
  if bs.length = 16 then queueDescriptor cfg (BitVec.ofNat 128 (natOfBytes bs)) else none

/-! ## Register commands -/

/-- A level field at bit `b` of a GCMD_REG write: requested when it differs from its GSTS_REG bit (R421, decision D34). -/
def levelRequest (gsts v : BitVec 32) (b : Nat) (i : Bool → Instr) : List Instr :=
  if v.getLsbD b = gsts.getLsbD b then [] else [i (v.getLsbD b)]

/-- A one-shot field at bit `b`: requested when it is written 1 (R421). -/
def oneShotRequest (v : BitVec 32) (b : Nat) (i : Instr) : List Instr :=
  if v.getLsbD b then [i] else []

/-- Everything that a write of `v` to GCMD_REG requests, from bit 31 down to bit 23 (R63, R421). -/
def gcmdRequests (gsts v : BitVec 32) : List Instr :=
  levelRequest gsts v 31 .gcmdTe ++ (oneShotRequest v 30 .gcmdSrtp ++ (oneShotRequest v 29 .gcmdSfl
    ++ (levelRequest gsts v 28 .gcmdEafl ++ (oneShotRequest v 27 .gcmdWbf ++ (levelRequest gsts v 26 .gcmdQie
    ++ (levelRequest gsts v 25 .gcmdIre ++ (oneShotRequest v 24 .gcmdSirtp ++ levelRequest gsts v 23 .gcmdCfi)))))))

/-- A write of `v` to GCMD_REG (R421). -/
def decodeGcmd (gsts v : BitVec 32) : Decoded :=
  if v &&& 0x007FFFFF = 0 then
    match gcmdRequests gsts v with
    | [] => .nothing
    | [i] => .instr i
    | _ :: _ :: _ => .rejected .severalCommands
  else .rejected .reservedBits

/-- A write of `v` to CCMD_REG (R66, R340). -/
def decodeCcmd (v : BitVec 64) : Decoded :=
  if v &&& 0x07FFFFFC00000000 = 0 then
    if v.getLsbD 63 then .instr (.ccmdIcc (v.extractLsb' 61 2) (v.extractLsb' 32 2) (v.extractLsb' 16 16) (v.extractLsb' 0 16))
    else .nothing
  else .rejected .reservedBits

/-- A write of `v` to IOTLB_REG (R67, R345); bits 31:0 are RsvdP. -/
def decodeIotlb (v : BitVec 64) : Decoded :=
  if v &&& 0x01FC000000000000 = 0 then
    if v.getLsbD 63 then .instr (.iotlbIvt (v.extractLsb' 60 3) (v.getLsbD 49) (v.getLsbD 48) (v.extractLsb' 32 16))
    else .nothing
  else .rejected .reservedBits

/-- A write of `v` to PMEN_REG: a command when EPM differs from PRS (R435); bits 30:1 are RsvdP. -/
def decodePmen (prs : Bool) (v : BitVec 32) : Decoded :=
  if v.getLsbD 31 = prs then .nothing else .instr (.pmenEpm (v.getLsbD 31))

/-- The command that a register write stands for. -/
def decodeCommand (ctx : CmdContext) (w : CmdWrite) : Decoded :=
  match w.reg with
  | .gcmd => decodeGcmd ctx.gsts (w.value.setWidth 32)
  | .ccmd => decodeCcmd w.value
  | .iotlb => decodeIotlb w.value
  | .pmen => decodePmen ctx.prs (w.value.setWidth 32)

/-! ## The encoder -/

/-- The bits of an instruction: a descriptor, or a register write. -/
inductive Encoded
  | descriptor (d : BitVec 128)
  | command (w : CmdWrite)
  deriving DecidableEq, Repr

/-- The instruction that an encoding stands for. -/
def decode (ctx : CmdContext) : Encoded → Decoded
  | .descriptor d => decodeDescriptor d
  | .command w => decodeCommand ctx w

/-- The GCMD_REG value that keeps the level fields of GSTS_REG and puts `v` at bit `b` (R421: 9680_0000h keeps bits 31,
28, 26, 25 and 23). -/
def gcmdValue (gsts : BitVec 32) (b : Nat) (v : Bool) : BitVec 32 := setBit (gsts &&& 0x96800000) b v

/-- A GCMD_REG write. -/
def gcmdWrite (ctx : CmdContext) (b : Nat) (v : Bool) : Encoded :=
  .command { reg := .gcmd, value := (gcmdValue ctx.gsts b v).setWidth 64 }

/-- The words of an instruction, from the layouts of R212 to R217, R63, R66, R67 and R107. -/
def encode (ctx : CmdContext) : Instr → Encoded
  | .ccInvDsc g did sid fm =>
      .descriptor ((0#78 : BitVec 78) ++ fm ++ sid ++ did ++ 0#10 ++ g ++ 1#4)
  | .iotlbInvDsc g dw dr did am ih addr =>
      .descriptor (addr ++ 0#5 ++ bit ih ++ am ++ 0#32 ++ did ++ 0#8 ++ bit dr ++ bit dw ++ g ++ 2#4)
  | .devIotlbInvDsc mip sid s addr =>
      .descriptor (addr ++ 0#11 ++ bit s ++ 0#16 ++ sid ++ 0#11 ++ mip ++ 0#12 ++ 3#4)
  | .iecInvDsc g im iidx =>
      .descriptor ((0#80 : BitVec 80) ++ iidx ++ im ++ 0#22 ++ bit g ++ 4#4)
  | .invWaitDsc iflag sw fn statusData statusAddr =>
      .descriptor (statusAddr ++ 0#2 ++ statusData ++ 0#25 ++ bit fn ++ bit sw ++ bit iflag ++ 5#4)
  | .gcmdTe b => gcmdWrite ctx 31 b
  | .gcmdSrtp => gcmdWrite ctx 30 true
  | .gcmdSfl => gcmdWrite ctx 29 true
  | .gcmdEafl b => gcmdWrite ctx 28 b
  | .gcmdWbf => gcmdWrite ctx 27 true
  | .gcmdQie b => gcmdWrite ctx 26 b
  | .gcmdIre b => gcmdWrite ctx 25 b
  | .gcmdSirtp => gcmdWrite ctx 24 true
  | .gcmdCfi b => gcmdWrite ctx 23 b
  | .ccmdIcc cirg fm sid did =>
      .command { reg := .ccmd, value := 1#1 ++ cirg ++ 0#27 ++ fm ++ sid ++ did }
  | .iotlbIvt iirg dr dw did =>
      .command { reg := .iotlb, value := 1#1 ++ iirg ++ 0#10 ++ bit dr ++ bit dw ++ did ++ 0#32 }
  | .pmenEpm b => .command { reg := .pmen, value := (bit b ++ 0#31 : BitVec 32).setWidth 64 }

/-- A level command is a request only where it changes its status bit (R421, R435). -/
def requestable (ctx : CmdContext) : Instr → Bool
  | .ccInvDsc _ _ _ _ => true
  | .iotlbInvDsc _ _ _ _ _ _ _ => true
  | .devIotlbInvDsc _ _ _ _ => true
  | .iecInvDsc _ _ _ => true
  | .invWaitDsc _ _ _ _ _ => true
  | .gcmdTe b => b != ctx.gsts.getLsbD 31
  | .gcmdSrtp => true
  | .gcmdSfl => true
  | .gcmdEafl b => b != ctx.gsts.getLsbD 28
  | .gcmdWbf => true
  | .gcmdQie b => b != ctx.gsts.getLsbD 26
  | .gcmdIre b => b != ctx.gsts.getLsbD 25
  | .gcmdSirtp => true
  | .gcmdCfi b => b != ctx.gsts.getLsbD 23
  | .ccmdIcc _ _ _ _ => true
  | .iotlbIvt _ _ _ _ => true
  | .pmenEpm b => b != ctx.prs

/-! ## The host's numbered words -/

/-- Words of one width can be writes to two registers (GCMD_REG or PMEN_REG, CCMD_REG or IOTLB_REG); the numbered word
does not say which. The first register is taken where its layout admits the word, else the second (log 8). -/
def firstReading (a b : Decoded) : Option Instr :=
  match a with
  | .instr i => some i
  | .nothing => b.instr?
  | .rejected _ => b.instr?

/-- Where a table word is stored: a descriptor in the queue, or a write to a command register (log 8). -/
inductive TableWord
  | queue (d : BitVec 128)
  | write32 (v : BitVec 32)
  | write64 (v : BitVec 64)
  deriving DecidableEq, Repr

/-- The kind of a table word: more than 64 bits, or a low nibble that is a Type without the trigger bit 63, is a
descriptor; otherwise up to 32 bits are a 32-bit register write and up to 64 bits a 64-bit one (log 8). -/
def tableWord (nbits w : Nat) : TableWord :=
  if 64 < nbits ∨ (w % 16 ≠ 0 ∧ w / 2 ^ 63 = 0) then .queue (BitVec.ofNat 128 w)
  else if nbits ≤ 32 then .write32 (BitVec.ofNat 32 w)
  else .write64 (BitVec.ofNat 64 w)

/-- The instruction that the decoder reads from the table's word `w` of `nbits` bits, right after reset (a level command
is then an enabling one). A descriptor is laid out in memory and decoded from its bytes. -/
def decodeTableWord (nbits w : Nat) : Option Instr :=
  match tableWord nbits w with
  | .queue d => (decodeBytes (bytesOfNat 16 d.toNat)).instr?
  | .write32 v => firstReading (decodeGcmd 0 v) (decodePmen false v)
  | .write64 v => firstReading (decodeCcmd v) (decodeIotlb v)

end Sys2Proof
end

