-- ==== Sys2Proof/Machine/Memory.lean ====
section
/-! DEFINITION. Host physical memory (spec 20_memory.md R140, R141, R157): a list of (address, byte) in one canonical
form, addresses strictly rising and no entry equal to what an unlisted address reads as. -/

namespace Sys2Proof.Machine

/-- Host physical memory, one entry per byte that differs from `Memory.unlisted`. -/
abbrev Memory := List Host.Cell

/-- What a byte that nothing has written reads as (70_reset_and_hazards.md R534 gives none; log 5, DESIGN CHOICE). -/
def Memory.unlisted : Byte := 0

/-- The byte at `a`. -/
def Memory.read : Memory → Nat → Byte
  | [], _ => Memory.unlisted
  | (k, v) :: rest, a => if a < k then Memory.unlisted else if a = k then v else Memory.read rest a

/-- Memory with the byte at `a` made `b`. -/
def Memory.write : Memory → Nat → Byte → Memory
  | [], a, b => if b = Memory.unlisted then [] else [(a, b)]
  | (k, v) :: rest, a, b =>
      if a < k then (if b = Memory.unlisted then (k, v) :: rest else (a, b) :: (k, v) :: rest)
      else if a = k then (if b = Memory.unlisted then rest else (a, b) :: rest)
      else (k, v) :: Memory.write rest a b

/-- The entries from the address `lo` on are in canonical form. -/
def Memory.wfFrom : Nat → Memory → Bool
  | _, [] => true
  | lo, (k, v) :: rest => decide (lo ≤ k) && !(v == Memory.unlisted) && Memory.wfFrom (k + 1) rest

/-- The canonical form: addresses strictly rise, and no entry equals what an unlisted address reads as. -/
def Memory.wf (m : Memory) : Bool := Memory.wfFrom 0 m

/-- The `n` bytes from `a` on, lowest address first. -/
def Memory.readBytes (m : Memory) (a : Nat) : Nat → List Byte
  | 0 => []
  | n + 1 => m.read a :: Memory.readBytes m (a + 1) n

/-- Memory with each cell of `cells` written, in order. -/
def Memory.writeCells (m : Memory) (cells : List Host.Cell) : Memory :=
  cells.foldl (fun m c => m.write c.1 c.2) m

/-- The cells that put `bs` at `a` and the addresses above it. -/
def cellsAt (a : Nat) : List Byte → List Host.Cell
  | [] => []
  | b :: bs => (a, b) :: cellsAt (a + 1) bs

/-- Memory with `bs` at `a` and the addresses above it. -/
def Memory.writeBytes (m : Memory) (a : Nat) (bs : List Byte) : Memory := m.writeCells (cellsAt a bs)

/-- Memory with every store of the list performed, oldest first. -/
def Memory.performStores (m : Memory) (stores : List (List Host.Cell)) : Memory :=
  stores.foldl Memory.writeCells m

/-- The value of the `n` bytes at `a` (R141: little-endian). -/
def Memory.readValue (m : Memory) (a n : Nat) : Nat := natOfBytes (m.readBytes a n)

end Sys2Proof.Machine
end

