-- ==== Sys2Proof/Machine/State.lean ====
section
/-! DEFINITION. The state of one remapping hardware unit and its surroundings, as plain data (spec 10_state.md R20 to R39),
the reasons a step can stop, and the state after reset (70_reset_and_hazards.md R530, R532). -/

namespace Sys2Proof.Machine

/-- The machine stops with a fault. The unit itself never does: its own faults are next states (60_exceptions.md). -/
inductive Fault
  /-- A processor load or store at or above 2^HAW: no such address exists (20_memory.md R140). Raised by the load, store
  and write-back events; safe: the machine stops where hardware would go on. -/
  | noSuchAddress
  deriving DecidableEq, Repr

/-- The machine refuses: the sources give the situation no meaning (`refuse`, 00_scope.md R14). All are safe: the model
stops where hardware goes on in a way that the sources do not give. -/
inductive Refusal
  /-- The instruction has no meaning in the model; raised by an arm of exec that is not filled in. Safe. -/
  | notModelled (mnemonic : String)
  /-- A register access of another width or alignment, or one that only partly lies in the register pages (10_state.md R23:
  "no behaviour given by VTD", U1); raised by register accesses. Safe. -/
  | badRegisterAccess
  /-- 1 written to a RsvdZ bit or to GCMD_REG 22:0, or a RsvdP bit changed from the value last read (10_state.md R35, U2),
  but for the write of ones that finds N (12 R108, R110); raised by register writes. Safe. -/
  | reservedBitWritten
  /-- A command bit written 1 without its capability (U3); raised by the submission of a command. Safe. -/
  | unsupportedField
  /-- One GCMD_REG write that requests several modifications (R421); raised by the submission. Safe. -/
  | severalCommands
  /-- A command register or IVA_REG written while a command is pending (R545); raised by register writes. Safe. -/
  | commandPending
  /-- The operand register of the pending command written: the spec says it of RTADDR_REG and of the region registers (45 R423,
  R435); of AFLOG_REG, IRTA_REG and IQA_REG it is DEDUCED (R365; log 31). Raised by register writes. Safe. -/
  | registerOwned
  /-- A register-based invalidation, or a write to IQA_REG, while QIES = 1 (R545); raised by register writes. Safe. -/
  | queueEnabled
  /-- The queue disabled while it is not quiesced (R372, R290); raised by GCMD.QIE. Safe. -/
  | queueNotQuiesced
  /-- EAFL changed while TES or IRES is 1 (R490); raised by GCMD.EAFL. Safe. -/
  | loggingMethodActive
  /-- A protected-memory base or limit register written while PRS = 1 or PMEN is pending (R435); raised by register
  writes. Safe. -/
  | protectedEnabled
  /-- A protected region placed over FEEx_xxxxh (91_not_in_source.md, 45_global_commands.md entry); raised by PMEN.EPM.
  Safe. -/
  | protectedOverInterrupts
  /-- TE, IRE or EAFL enabled with its pointer never set (R533); raised by those commands. Safe. -/
  | pointerNeverSet
  /-- A DMA request whose host physical address lies in FEEx_xxxxh (U5); raised by requests that are forwarded. Safe. -/
  | interruptRangeTarget
  /-- An untranslated write to an address in FEEx_xxxxh that is not one doubleword (30_encoding.md R200; 91_not_in_source.md N9:
  "The spec does not classify such a write: `refuse`"); raised by requests. Safe. -/
  | interruptRangeWrite
  /-- A DMA request to the unit's own register pages (N5); raised by requests. Safe. -/
  | registerPageDma
  /-- A write by the unit (fault record, status word) to an address that is not memory, or that fails (U6); raised by
  fault logging and by inv_wait_dsc. Safe. -/
  | unitWriteError
  deriving DecidableEq, Repr

/-! ## Registers and latches -/

/-- The software-visible registers (10_state.md R22). VER_REG is a constant; CAP_REG and ECAP_REG are in the
configuration; GCMD_REG is write-only and holds nothing. FSTS_REG.PPF (bit 1) is computed (60_exceptions.md R492). -/
structure Regs where
  gsts : BitVec 32
  rtaddr : BitVec 64
  ccmd : BitVec 64
  iotlb : BitVec 64
  iva : BitVec 64
  fsts : BitVec 32
  fectl : BitVec 32
  fedata : BitVec 32
  feaddr : BitVec 32
  feuaddr : BitVec 32
  /-- FRCD_REG[0] to FRCD_REG[CAP.NFR] (R38). -/
  frcd : List (BitVec 128)
  aflog : BitVec 64
  pmen : BitVec 32
  plmbase : BitVec 32
  plmlimit : BitVec 32
  phmbase : BitVec 64
  phmlimit : BitVec 64
  iqh : BitVec 64
  iqt : BitVec 64
  iqa : BitVec 64
  ics : BitVec 32
  iectl : BitVec 32
  iedata : BitVec 32
  ieaddr : BitVec 32
  ieuaddr : BitVec 32
  irta : BitVec 64
  deriving DecidableEq, Repr

/-- hw_flp and hw_fls (R27). -/
structure FaultLogPointer where
  base : PageNumber
  size : BitVec 3
  deriving DecidableEq, Repr

/-- hw_irtp and hw_irts (R27). -/
structure InterruptTablePointer where
  base : PageNumber
  size : BitVec 4
  deriving DecidableEq, Repr

/-- The latched pointers (R27); none is "never set" (70_reset_and_hazards.md R532). -/
structure Latches where
  /-- hw_rtp. -/
  rtp : Option PageNumber
  flp : Option FaultLogPointer
  irtp : Option InterruptTablePointer
  deriving DecidableEq, Repr

/-- The RsvdP bits of the four registers that have such fields, as software last read them (10_state.md R35: a write that
changes one is refused); the other bits are 0. -/
structure Preserved where
  fectl : BitVec 32
  pmen : BitVec 32
  iectl : BitVec 32
  iotlb : BitVec 32
  deriving DecidableEq, Repr

/-! ## Fault reasons and caches -/

/-- The fault reasons (60_exceptions.md R480); their codes are `FaultReason.code`. -/
inductive FaultReason
  /-- 1h -/
  | rootNotPresent
  /-- 2h -/
  | contextNotPresent
  /-- 3h -/
  | contextInvalid
  /-- 4h -/
  | beyondWidth
  /-- 5h -/
  | writeDenied
  /-- 6h -/
  | readDenied
  /-- 7h -/
  | tableAccess
  /-- 8h -/
  | rootAccess
  /-- 9h -/
  | contextAccess
  /-- Ah -/
  | rootReserved
  /-- Bh -/
  | contextReserved
  /-- Ch -/
  | pageReserved
  /-- Dh -/
  | typeBlocked
  /-- 20h -/
  | requestReserved
  /-- 21h -/
  | indexTooLarge
  /-- 22h -/
  | irteNotPresent
  /-- 23h -/
  | irteAccess
  /-- 24h -/
  | irteReserved
  /-- 25h -/
  | compatibilityBlocked
  /-- 26h -/
  | sourceIdMismatch
  deriving DecidableEq, Repr

/-- What a context-cache entry holds: the context-entry as fetched, or (CAP.CM = 1 only) the fault of a lookup that found
no context-entry (43_caching_and_register_invalidation.md R331, R335). -/
inductive CtxContent
  | entry (e : BitVec 128)
  | fault (r : FaultReason)
  deriving DecidableEq, Repr

/-- A context-cache entry (R331). -/
structure CtxLine where
  sid : SourceId
  content : CtxContent
  deriving DecidableEq, Repr

/-- A translation that a page walk reached: the page's host physical address, its level, the cumulative permissions, and
SNP and TM of the leaf (R332). -/
structure Mapping where
  hpa : Nat
  level : Nat
  r : Bool
  w : Bool
  snp : Bool
  tm : Bool
  deriving DecidableEq, Repr

/-- What an IOTLB entry holds: a mapping, or (CAP.CM = 1 only) a present leaf entry with a reserved bit Set, or a fault (R332,
R335). -/
inductive IotlbContent
  | mapping (m : Mapping)
  /-- The leaf's level, and the cumulative permissions of its path. -/
  | erroneous (level : Nat) (r w : Bool)
  | fault (r : FaultReason) (fpd : Bool)
  deriving DecidableEq, Repr

/-- An IOTLB entry (R332): tagged with the domain-id, and a faulting one with the source-id too (10_state.md R28).
`page` is the DMA virtual address divided by the page size of `level`. -/
structure IotlbLine where
  did : DomainId
  sid : Option SourceId
  level : Nat
  page : Nat
  content : IotlbContent
  deriving DecidableEq, Repr

/-- A PDE-cache entry (R333): the non-leaf entry fetched at `level`, for the addresses whose bits above the level's span
are `span`, with the cumulative permissions of the levels above it. -/
structure PdeLine where
  did : DomainId
  level : Nat
  span : Nat
  entry : BitVec 64
  r : Bool
  w : Bool
  deriving DecidableEq, Repr

/-- An interrupt entry cache entry (R334). -/
structure IecLine where
  index : Nat
  entry : BitVec 128
  deriving DecidableEq, Repr

/-- The translation caches (10_state.md R28): finite sets whose size and policy are not architected (R330). -/
structure Caches where
  ctx : List CtxLine
  iotlb : List IotlbLine
  pde : List PdeLine
  iec : List IecLine
  deriving DecidableEq, Repr

/-- The four kinds of cache. -/
inductive CacheKind
  | ctx
  | iotlb
  | pde
  | iec
  deriving DecidableEq, Repr

/-- Fault-logging bookkeeping (10_state.md R29). -/
structure LogState where
  /-- pf_index. -/
  pfIndex : Nat
  /-- af_index. -/
  afIndex : Nat
  afWrapped : Bool
  afPrevSid : Option SourceId
  deriving DecidableEq, Repr

/-! ## The invalidation queue and Device-IOTLB tags -/

/-- A descriptor fetched and not yet complete (44_queued_invalidation.md R370). `epoch` counts the wait descriptors
fetched before it, so that two descriptors with one epoch have no wait between them (R402). -/
structure Pending where
  seq : Nat
  epoch : Nat
  instr : Instr
  deriving DecidableEq, Repr

/-- A descriptor read ahead of the head (20_memory.md R153): its slot and its bits. -/
structure Ahead where
  slot : Nat
  bits : BitVec 128
  deriving DecidableEq, Repr

/-- The queue engine (10_state.md R31, 44_queued_invalidation.md R370). -/
structure QueueEngine where
  pending : List Pending
  nextSeq : Nat
  epoch : Nat
  /-- The sequence number of the descriptor being executed: the `dsc` that 41_device_iotlb.md R291 puts in the tag. -/
  current : Nat
  /-- last_completed_is_wait. -/
  lastWait : Bool
  ahead : List Ahead
  deriving DecidableEq, Repr

/-- An allocated invalidation tag (41_device_iotlb.md R290); its timer runs while it is allocated. -/
structure ITag where
  sid : SourceId
  /-- InvCmpCnt. -/
  count : Nat
  /-- The sequence number of the descriptor it serves. -/
  seq : Nat
  deriving DecidableEq, Repr

/-! ## Requests, in-flight work, outputs -/

/-- The kind of an inbound request. -/
inductive ReqKind
  | read
  | write
  deriving DecidableEq, Repr

/-- An inbound request (30_encoding.md R200), with whether its requester is a PCI Express device (40_dma_remapping.md
R258). `atype` is the Address Type field (R201). -/
structure Request where
  kind : ReqKind
  atype : BitVec 2
  sid : SourceId
  addr : BitVec 64
  lenDw : Nat
  firstBe : BitVec 4
  lastBe : BitVec 4
  ns : Bool
  data : List Byte
  pcie : Bool
  deriving DecidableEq, Repr

/-- A processed, non-committed DMA request to memory (10_state.md R33, 43_caching_and_register_invalidation.md R360). -/
structure InFlight where
  kind : ReqKind
  atype : BitVec 2
  sid : SourceId
  /-- The domain it was translated in; none while remapping is disabled, and for translated requests. -/
  did : Option DomainId
  dva : Nat
  hpa : Nat
  /-- The byte enables, one per byte of the request. -/
  enables : List Bool
  data : List Byte
  snoop : Bool
  deriving DecidableEq, Repr

/-- A remapped interrupt (30_encoding.md R209, 42_interrupt_remapping.md R312). -/
structure Remapped where
  dest : BitVec 16
  /-- Destination mode: Set is logical. -/
  dm : Bool
  /-- Redirection hint. -/
  rh : Bool
  /-- Delivery mode code (21_structures.md R187). -/
  dlm : BitVec 3
  /-- Trigger mode: Set is level. -/
  tm : Bool
  vector : BitVec 8
  deriving DecidableEq, Repr

/-- What is delivered for an interrupt request. -/
inductive IrqMessage
  /-- The request unchanged (R303, R304). -/
  | forwarded (sid : SourceId) (addr : BitVec 64) (data : BitVec 32)
  | remapped (m : Remapped)
  deriving DecidableEq, Repr

/-- A processed, non-committed interrupt request (43_caching_and_register_invalidation.md R364); `index` is its
interrupt_index where one was computed. -/
structure IrqInFlight where
  index : Option Nat
  message : IrqMessage
  deriving DecidableEq, Repr

/-- Which of the unit's two events a message belongs to (60_exceptions.md R503, R507). -/
inductive EventSource
  | fault
  | invalidation
  deriving DecidableEq, Repr

/-- Writes and messages that the unit issued and that are not yet visible (10_state.md R32). -/
inductive Posted
  /-- The status write of a wait descriptor. -/
  | statusWrite (addr : Nat) (data : BitVec 32)
  /-- One 64-bit half of a fault record in the memory log. -/
  | logWrite (addr : Nat) (data : BitVec 64)
  /-- An event message (30_encoding.md R210). -/
  | message (source : EventSource) (addr : BitVec 64) (data : BitVec 32)
  deriving DecidableEq, Repr

/-- One translation completion data entry (30_encoding.md R207); `addr` is its translated address field. -/
structure TranslationEntry where
  r : Bool
  w : Bool
  n : Bool
  u : Bool
  s : Bool
  addr : Nat
  deriving DecidableEq, Repr

/-- The header fields of a successful completion that the manual names (R207, 41_device_iotlb.md R278). -/
structure CompletionHeader where
  lengthDw : Nat
  byteCount : Nat
  lowerAddress : Nat
  deriving DecidableEq, Repr

/-- The completion of a translation request (R207). -/
inductive Completion
  | success (header : CompletionHeader) (entries : List TranslationEntry)
  | unsupportedRequest
  | completerAbort
  deriving DecidableEq, Repr

/-- What the unit sends to its surroundings. -/
inductive Output
  /-- The value of a register read. -/
  | regValue (off bytes : Nat) (value : BitVec 64)
  /-- The bytes of a processor load. -/
  | loadValue (addr : Nat) (data : List Byte)
  /-- Read data; a byte whose enable is Clear is a free value. -/
  | readData (sid : SourceId) (addr : Nat) (data : List Byte)
  /-- A read completed with an error status (Unsupported Request for PCI Express). -/
  | readError (sid : SourceId) (addr : Nat)
  /-- Data that is independent of memory, for a blocked read (BLOCK_METHOD). -/
  | dummyData (sid : SourceId) (addr : Nat) (data : List Byte)
  /-- A write discarded. -/
  | writeDropped (sid : SourceId) (addr : Nat)
  /-- A malformed packet, left to PCI Express error handling (30_encoding.md R203). -/
  | malformed (sid : SourceId)
  /-- A message answered Unsupported Request. -/
  | unsupported (sid : SourceId)
  /-- A request forwarded to a host physical address that is not system memory (20_memory.md R147 item 4). -/
  | peer (f : InFlight)
  | translation (sid : SourceId) (c : Completion)
  /-- An ATS Invalidation Request (30_encoding.md R208). -/
  | invRequest (sid : SourceId) (itag : Nat) (addr : PageNumber) (s : Bool)
  | interrupt (m : IrqMessage)
  | eventMessage (source : EventSource) (addr : BitVec 64) (data : BitVec 32)
  deriving DecidableEq, Repr

/-! ## What the environment and the free scheduling do next -/

/-- A move on memory of the processor `cpu`. -/
inductive CpuMove
  | store (cpu addr : Nat) (data : List Byte)
  /-- The abstract software step of decision D4. -/
  | writeback (cpu addr : Nat)
  /-- The write buffer performs its oldest store (20_memory.md R155). -/
  | drain
  deriving DecidableEq, Repr

/-- One move of an agent of 00_scope.md R8. -/
inductive Event
  | cpu (m : CpuMove)
  | load (addr n : Nat)
  | regRead (bytes off : Nat)
  | regWrite (bytes off : Nat) (value : BitVec 64)
  /-- An inbound request, with the processor moves that race with the unit's reads for it (20_memory.md R144). -/
  | request (r : Request) (race : List CpuMove)
  /-- An ATS Invalidation Request message travelling upstream (30_encoding.md R203). -/
  | upstreamInvRequest (sid : SourceId)
  /-- An ATS Invalidation Completion (30_encoding.md R206). -/
  | atsCompletion (sid : SourceId) (vec : BitVec 32) (cc : BitVec 3)
  /-- The timer of a tag expires (41_device_iotlb.md R293). -/
  | timeout (tag : Nat)
  | powergood
  | runCommand
  | fetch (race : List CpuMove)
  /-- The queue engine reads a slot ahead of the head (20_memory.md R153). -/
  | fetchAhead (slot : Nat) (race : List CpuMove)
  | execute (seq : Nat)
  | commit (k : Nat)
  | commitIrq (k : Nat)
  | deliver (k : Nat)
  | evict (c : CacheKind) (k : Nat)
  /-- A prefetch (21_structures.md R173 ALH, 40_dma_remapping.md R255). -/
  | prefetch (sid : SourceId) (dva : Nat) (race : List CpuMove)
  /-- The fault logger records the oldest fault that waits for it (60_exceptions.md R488, R490). -/
  | logFault
  /-- The transient conditions that hold event messages (12_registers_b.md R101, R116). -/
  | hold (fault inv : Bool)
  deriving DecidableEq, Repr

/-- A byte that the processor `cpu` stored and did not write back (20_memory.md R152). -/
structure DirtyByte where
  cpu : Nat
  cell : Host.Cell
  deriving DecidableEq, Repr

/-! ## The state -/

/-- The state of the unit, of host memory and of the surroundings. -/
structure State where
  /-- The parameters (00_scope.md R9, R10); no step changes them. -/
  cfg : Config
  reg : Regs
  /-- The model's own: the RsvdP bits as last read (log 31). -/
  preserved : Preserved
  latch : Latches
  cache : Caches
  log : LogState
  /-- The records of faults that were raised and that the fault logger has not taken yet, oldest first (00_scope.md R8,
  60_exceptions.md R488). -/
  unlogged : List (BitVec 128)
  /-- The pending register command (10_state.md R30). -/
  cmd : Option CmdWrite
  iq : QueueEngine
  /-- The ITag table: free, or allocated (41_device_iotlb.md R290). -/
  itags : List (Option ITag)
  /-- A transient condition holds the fault event message (12_registers_b.md R101). -/
  feHold : Bool
  /-- A transient condition holds the invalidation event message (R116). -/
  ieHold : Bool
  /-- Oldest first. -/
  posted : List Posted
  inflight : List InFlight
  irqs : List IrqInFlight
  /-- The root-complex write buffer, oldest store first (10_state.md R34). -/
  wbuf : List (List Host.Cell)
  /-- Bytes stored and not written back, each under the processor that stored it last (20_memory.md R152, ECAP.C = 0; decision
  D4, log 16). -/
  dirty : List DirtyByte
  mem : Memory
  /-- The model's own: what the environment and the free scheduling do next (log 17). -/
  agenda : List Event
  /-- The model's own: what the unit has sent, newest first. -/
  out : List Output
  /-- The model's own: the counter that free values are taken at (log 4). -/
  draws : Nat
  deriving DecidableEq, Repr

/-- The outcome of a step. -/
abbrev Result := Host.Outcome State Fault Refusal

/-! ## Reset -/

/-- The registers after powergood reset (70_reset_and_hazards.md R530). The X fields that hold something (CAIG, IAIG and
the fields of FRCD other than F) are 0: log 6, DESIGN CHOICE. -/
def Regs.initial (cfg : Config) : Regs where
  gsts := 0
  rtaddr := 0
  ccmd := 0
  iotlb := 0
  iva := 0
  fsts := 0
  fectl := 0x80000000
  fedata := 0
  feaddr := 0
  feuaddr := 0
  frcd := List.replicate cfg.faultRegs 0
  aflog := 0
  pmen := 0
  plmbase := 0
  plmlimit := 0
  phmbase := 0
  phmlimit := 0
  iqh := 0
  iqt := 0
  iqa := 0
  ics := 0
  iectl := 0x80000000
  iedata := 0
  ieaddr := 0
  ieuaddr := 0
  irta := 0

/-- The state after powergood reset of the implementation `cfg` (R530, R532; hidden values: logs 7 and 28). -/
def State.initial (cfg : Config) : State where
  cfg := cfg
  reg := Regs.initial cfg
  preserved := { fectl := 0, pmen := 0, iectl := 0, iotlb := 0 }
  latch := { rtp := none, flp := none, irtp := none }
  cache := { ctx := [], iotlb := [], pde := [], iec := [] }
  log := { pfIndex := 0, afIndex := 0, afWrapped := false, afPrevSid := none }
  unlogged := []
  cmd := none
  iq := { pending := [], nextSeq := 0, epoch := 0, current := 0, lastWait := true, ahead := [] }
  itags := List.replicate cfg.nItags none
  feHold := false
  ieHold := false
  posted := []
  inflight := []
  irqs := []
  wbuf := []
  dirty := []
  mem := []
  agenda := []
  out := []
  draws := 0

/-- The machine right after reset: the configuration of log 3. -/
def State.reset : State := State.initial Config.full

end Sys2Proof.Machine
end

