-- ==== Sys2Proof/Machine/Structures.lean ====
section
/-! DEFINITION. The memory-resident structures (spec 21_structures.md): fields, reserved-bit checks, address formation
(20_memory.md R143), and the fault record (R185). -/

namespace Sys2Proof.Machine

/-! ## Pointers -/

/-- Address bits HAW-1:12 of a quadword, as an address (R143, 12_registers_b.md R121). -/
def pageAddress (cfg : Config) (v : BitVec 64) : Nat := (v.toNat / 4096 % 2 ^ (cfg.haw - 12)) * 4096

/-- Bits HAW-1:12 of a register, as the page number that a pointer command latches (45_global_commands.md R423). -/
def pageNumber (cfg : Config) (v : BitVec 64) : PageNumber := BitVec.ofNat 52 (v.toNat / 4096 % 2 ^ (cfg.haw - 12))

/-- Some bit 63:HAW is Set. -/
def aboveHaw (cfg : Config) (v : BitVec 64) : Bool := decide (2 ^ cfg.haw ≤ v.toNat)

/-- The low quadword of an entry. -/
def lowQuad (e : BitVec 128) : BitVec 64 := e.extractLsb' 0 64

/-! ## Root-entry (R171) -/

def rootPresent (e : BitVec 128) : Bool := e.getLsbD 0

/-- `root_reserved` (R171). -/
def rootReserved (cfg : Config) (e : BitVec 128) : Bool :=
  !(e.extractLsb' 64 64 == 0) || aboveHaw cfg (lowQuad e) || !(e.extractLsb' 1 11 == 0)

/-- The root-entry of a source-id: indexed by the bus number (R143). -/
def rootEntryAddress (rtp : PageNumber) (sid : SourceId) : Nat := rtp.toNat * 4096 + 16 * (sid.toNat / 256)

/-- The context-entry of a source-id: indexed by bits 7:0 (R143). -/
def contextEntryAddress (cfg : Config) (root : BitVec 128) (sid : SourceId) : Nat :=
  pageAddress cfg (lowQuad root) + 16 * (sid.toNat % 256)

/-! ## Context-entry (R172 to R176) -/

def ctxPresent (e : BitVec 128) : Bool := e.getLsbD 0
/-- FPD, evaluated whatever P is (R189). -/
def ctxFpd (e : BitVec 128) : Bool := e.getLsbD 1
/-- Translation type T (R175). -/
def ctxType (e : BitVec 128) : BitVec 2 := e.extractLsb' 2 2
/-- AW (R172). -/
def ctxAw (e : BitVec 128) : Nat := (e.extractLsb' 64 3).toNat
/-- The 16 bits of the DID field. -/
def ctxDid (e : BitVec 128) : DomainId := e.extractLsb' 72 16
/-- The domain-id: the supported bits of DID (R176). -/
def ctxDomain (cfg : Config) (e : BitVec 128) : DomainId := cfg.domain (ctxDid e)
/-- The address that ASR points to. -/
def ctxRoot (cfg : Config) (e : BitVec 128) : Nat := pageAddress cfg (lowQuad e)

/-- The AGAW of an AW code (R172). -/
def agaw (aw : Nat) : Nat := min (30 + 9 * aw) 64
/-- The number of the top page-table level of an AW code; the leaf level is 0 (R172, R177). -/
def topLevel (aw : Nat) : Nat := aw + 1

/-- T is 00b or 01b: multi-level page tables (R175). -/
def ctxUsesTables (e : BitVec 128) : Bool := ctxType e == 0 || ctxType e == 1

/-- `ctx_reserved` (R174). -/
def ctxReserved (cfg : Config) (e : BitVec 128) : Bool :=
  !(e.extractLsb' 88 40 == 0) || e.getLsbD 71 || !(e.extractLsb' 6 6 == 0)
  || !(ctxDid e >>> cfg.domainBits == 0)
  || (!cfg.ch && (e.getLsbD 5 || e.getLsbD 4))
  || (ctxUsesTables e && aboveHaw cfg (lowQuad e))

/-- `ctx_invalid` (R174, decision D10). -/
def ctxInvalid (cfg : Config) (e : BitVec 128) : Bool :=
  ctxType e == 3
  || (ctxType e == 1 && !cfg.di)
  || (ctxType e == 2 && !cfg.pt)
  || (ctxUsesTables e && (decide (5 ≤ ctxAw e) || !cfg.sagaw.getLsbD (ctxAw e)))

/-- The bound of DMA virtual addresses through an entry with page tables: X = min(CAP.MGAW + 1, AGAW) (R236). -/
def addressWidth (cfg : Config) (e : BitVec 128) : Nat := min cfg.mgawBits (agaw (ctxAw e))

/-! ## Page-table entry (R177 to R180) -/

def pteR (e : BitVec 64) : Bool := e.getLsbD 0
def pteW (e : BitVec 64) : Bool := e.getLsbD 1
def pteSp (e : BitVec 64) : Bool := e.getLsbD 7
def pteSnp (e : BitVec 64) : Bool := e.getLsbD 11
def pteTm (e : BitVec 64) : Bool := e.getLsbD 62

/-- `sp_supported` (R178): super pages are defined at levels 1 to 4. -/
def superPageSupported (cfg : Config) (level : Nat) : Bool :=
  decide (1 ≤ level) && decide (level ≤ 4) && cfg.sps.getLsbD (level - 1)

/-- `is_leaf` (R178). -/
def isLeaf (cfg : Config) (e : BitVec 64) (level : Nat) : Bool :=
  level == 0 || (superPageSupported cfg level && pteSp e)

/-- `pte_reserved` (R179), looked at only when R or W is Set. -/
def pteReserved (cfg : Config) (e : BitVec 64) (level : Nat) : Bool :=
  decide (2 ^ cfg.haw ≤ (e.extractLsb' 0 62).toNat)
  || (decide (1 ≤ level) && !superPageSupported cfg level && pteSp e)
  || (!isLeaf cfg e level && (pteTm e || pteSnp e))
  || (isLeaf cfg e level && pteTm e && !cfg.ch && !cfg.di)
  || (isLeaf cfg e level && pteSnp e && !cfg.sc)

/-- The bits of an address below the pages of a level: 12 + 9 * level (R177). -/
def pageBits (level : Nat) : Nat := 12 + 9 * level

/-- The page-table index of an address at a level (R143). -/
def tableIndex (level dva : Nat) : Nat := dva / 2 ^ pageBits level % 512

/-- The address of the next table (R180). -/
def nextTable (cfg : Config) (e : BitVec 64) : Nat := pageAddress cfg ((e.extractLsb' 0 62).setWidth 64)

/-- The page frame of a leaf at `level`: e.ADDR[HAW-1:N] << N (R180). -/
def pageFrame (cfg : Config) (e : BitVec 64) (level : Nat) : Nat :=
  (e.extractLsb' 0 62).toNat % 2 ^ cfg.haw / 2 ^ pageBits level * 2 ^ pageBits level

/-! ## Interrupt remapping table entry (R183 to R188) -/

def irtePresent (e : BitVec 128) : Bool := e.getLsbD 0
def irteFpd (e : BitVec 128) : Bool := e.getLsbD 1
def irteDlm (e : BitVec 128) : BitVec 3 := e.extractLsb' 5 3
def irteSid (e : BitVec 128) : BitVec 16 := e.extractLsb' 64 16
def irteSq (e : BitVec 128) : BitVec 2 := e.extractLsb' 80 2
def irteSvt (e : BitVec 128) : BitVec 2 := e.extractLsb' 82 2

/-- The source-id bits that an SQ or FM code compares (R184, 30_encoding.md R219). -/
def functionMask (code : BitVec 2) : BitVec 16 :=
  if code = 0 then 0xFFFF else if code = 1 then 0xFFFB else if code = 2 then 0xFFF9 else 0xFFF8

/-- `irte_sid_ok` (R184). SVT = 11b never comes here: it is a reserved encoding (R188). -/
def irteSidOk (e : BitVec 128) (sid : SourceId) : Bool :=
  if irteSvt e = 1 then (sid &&& functionMask (irteSq e)) == (irteSid e &&& functionMask (irteSq e))
  else if irteSvt e = 2 then
    decide ((irteSid e).extractLsb' 8 8 ≤ sid.extractLsb' 8 8) && decide (sid.extractLsb' 8 8 ≤ (irteSid e).extractLsb' 0 8)
  else true

/-- `irte_reserved` (R188, decision D12, U7, U8). -/
def irteReserved (cfg : Config) (e : BitVec 128) : Bool :=
  !(e.extractLsb' 84 44 == 0) || !(e.extractLsb' 24 8 == 0) || !(e.extractLsb' 12 4 == 0)
  || !(e.extractLsb' 48 16 == 0)
  || (cfg.arch == .intel64 && !(e.extractLsb' 32 8 == 0))
  || irteSvt e == 3
  || irteDlm e == 3 || irteDlm e == 6
  || (irteDlm e == 2 && !cfg.smiDlm) || (irteDlm e == 5 && !cfg.initDlm)

/-- The destination of an IRTE (R186). -/
def irteDest (cfg : Config) (e : BitVec 128) : BitVec 16 :=
  match cfg.arch with
  | .intel64 => (e.extractLsb' 40 8).setWidth 16
  | .itanium => e.extractLsb' 32 16

/-- `remapped` (42_interrupt_remapping.md R312): only Fixed and Lowest Priority keep the trigger mode. -/
def remappedInterrupt (cfg : Config) (e : BitVec 128) : Remapped where
  dest := irteDest cfg e
  dm := e.getLsbD 2
  rh := e.getLsbD 3
  dlm := irteDlm e
  tm := (irteDlm e == 0 || irteDlm e == 1) && e.getLsbD 4
  vector := e.extractLsb' 16 8

/-! ## Fault record (R185) -/

/-- The fault reason codes (60_exceptions.md R480). -/
def FaultReason.code : FaultReason → BitVec 8
  | .rootNotPresent => 0x01
  | .contextNotPresent => 0x02
  | .contextInvalid => 0x03
  | .beyondWidth => 0x04
  | .writeDenied => 0x05
  | .readDenied => 0x06
  | .tableAccess => 0x07
  | .rootAccess => 0x08
  | .contextAccess => 0x09
  | .rootReserved => 0x0A
  | .contextReserved => 0x0B
  | .pageReserved => 0x0C
  | .typeBlocked => 0x0D
  | .requestReserved => 0x20
  | .indexTooLarge => 0x21
  | .irteNotPresent => 0x22
  | .irteAccess => 0x23
  | .irteReserved => 0x24
  | .compatibilityBlocked => 0x25
  | .sourceIdMismatch => 0x26

/-- Qualified reasons: reported only when the FPD bit of the entry used is Clear (R191, 60_exceptions.md R480). -/
def FaultReason.qualified : FaultReason → Bool
  | .rootNotPresent => false
  | .contextNotPresent => true
  | .contextInvalid => true
  | .beyondWidth => true
  | .writeDenied => true
  | .readDenied => true
  | .tableAccess => true
  | .rootAccess => false
  | .contextAccess => false
  | .rootReserved => false
  | .contextReserved => true
  | .pageReserved => true
  | .typeBlocked => true
  | .requestReserved => false
  | .indexTooLarge => false
  | .irteNotPresent => true
  | .irteAccess => false
  | .irteReserved => true
  | .compatibilityBlocked => false
  | .sourceIdMismatch => true

/-- A fault record with bit 127 Clear (R185). -/
def faultRecord (reason : BitVec 8) (sid : SourceId) (info : BitVec 52) (t : Bool) (atype : BitVec 2) : BitVec 128 :=
  0#1 ++ bit t ++ atype ++ 0#20 ++ reason ++ 0#16 ++ sid ++ info ++ 0#12

/-- The F bit of FRCD_REG (12_registers_b.md R105). -/
def recordF (rec : BitVec 128) : Bool := rec.getLsbD 127
def recordSid (rec : BitVec 128) : SourceId := rec.extractLsb' 64 16

/-- Fault Info of a DMA fault: the page address in the request, truncated to the maximum guest address width
(12_registers_b.md R105, 60_exceptions.md R482). -/
def dmaFaultInfo (cfg : Config) (addr : Nat) : BitVec 52 := BitVec.ofNat 52 (addr % 2 ^ cfg.mgawBits / 4096)

/-- Fault Info of an interrupt fault: the index in bits 63:48 (R185; its low 16 bits, 42_interrupt_remapping.md R308). -/
def interruptFaultInfo (index : Nat) : BitVec 52 := BitVec.ofNat 16 index ++ 0#36

/-! ## Software's side -/

/-- AGAW from a guest address width (R181). -/
def agawOfGaw (gaw : Nat) : Nat := min (if (gaw - 12) % 9 = 0 then gaw else gaw + 9 - (gaw - 12) % 9) 64

end Sys2Proof.Machine
end

