-- ==== Sys2Proof/Machine/Flags.lean ====
section
/-! DEFINITION. Status flags (spec 10_state.md R26) and the two events they generate (60_exceptions.md R500 to R510). -/

namespace Sys2Proof.Machine

/-! ## GSTS_REG (11_registers_a.md R64) -/

def State.tes (s : State) : Bool := s.reg.gsts.getLsbD 31
def State.rtps (s : State) : Bool := s.reg.gsts.getLsbD 30
def State.fls (s : State) : Bool := s.reg.gsts.getLsbD 29
def State.afls (s : State) : Bool := s.reg.gsts.getLsbD 28
def State.wbfs (s : State) : Bool := s.reg.gsts.getLsbD 27
def State.qies (s : State) : Bool := s.reg.gsts.getLsbD 26
def State.ires (s : State) : Bool := s.reg.gsts.getLsbD 25
def State.irtps (s : State) : Bool := s.reg.gsts.getLsbD 24
def State.cfis (s : State) : Bool := s.reg.gsts.getLsbD 23
/-- PMEN_REG.PRS (12_registers_b.md R107). -/
def State.prs (s : State) : Bool := s.reg.pmen.getLsbD 0

/-- Hardware changes bit `b` of GSTS_REG. -/
def State.setGsts (s : State) (b : Nat) (v : Bool) : State :=
  { s with reg := { s.reg with gsts := setBit s.reg.gsts b v } }

/-- The status that level commands are compared with (45_global_commands.md R421, R435). -/
def State.cmdContext (s : State) : CmdContext := { gsts := s.reg.gsts, prs := s.prs }

/-! ## FSTS_REG (12_registers_b.md R100) -/

def State.pfo (s : State) : Bool := s.reg.fsts.getLsbD 0
/-- PPF: the OR of the F fields of all fault recording registers (60_exceptions.md R492). -/
def State.ppf (s : State) : Bool := s.reg.frcd.any recordF
def State.afo (s : State) : Bool := s.reg.fsts.getLsbD 2
def State.apf (s : State) : Bool := s.reg.fsts.getLsbD 3
def State.iqe (s : State) : Bool := s.reg.fsts.getLsbD 4
def State.ice (s : State) : Bool := s.reg.fsts.getLsbD 5
def State.ite (s : State) : Bool := s.reg.fsts.getLsbD 6

/-- Hardware sets bit `b` of FSTS_REG. -/
def State.setFsts (s : State) (b : Nat) : State :=
  { s with reg := { s.reg with fsts := setBit s.reg.fsts b true } }

/-- Hardware writes FSTS_REG.FRI. -/
def State.setFri (s : State) (i : Nat) : State :=
  { s with reg := { s.reg with fsts := setField s.reg.fsts 8 (BitVec.ofNat 8 i) } }

/-- `any_status` (R501): a condition that software has not serviced. -/
def State.anyStatus (s : State) : Bool :=
  s.ppf || s.pfo || s.iqe || s.ice || s.ite || (s.afls && (s.apf || s.afo))

/-! ## The fault event (R500 to R503) -/

def State.feMask (s : State) : Bool := s.reg.fectl.getLsbD 31
def State.fePending (s : State) : Bool := s.reg.fectl.getLsbD 30

/-- FECTL_REG.IP <- v. -/
def State.setFePending (s : State) (v : Bool) : State :=
  { s with reg := { s.reg with fectl := setBit s.reg.fectl 30 v } }

/-- The address of a message: the upper register, then bits 31:2 of the address register, then 00b
(12_registers_b.md R104, R119). -/
def messageAddress (upper addr : BitVec 32) : BitVec 64 := upper ++ (addr &&& 0xFFFFFFFC)

/-- `send_fault_event` (R503): one DWORD write, not yet delivered (20_memory.md R159). -/
def State.sendFaultEvent (s : State) : State :=
  { s with posted := s.posted ++ [.message .fault (messageAddress s.reg.feuaddr s.reg.feaddr) s.reg.fedata] }

/-- A pending fault event message is issued when neither the mask nor a transient condition holds it (R501, R502). -/
def State.releaseFaultEvent (s : State) : State :=
  if s.fePending && !s.feMask && !s.feHold then (s.sendFaultEvent).setFePending false else s

/-- `fault_event_condition` (R501). -/
def State.faultEventCondition (s : State) : State := (s.setFePending true).releaseFaultEvent

/-- IP is cleared when every status field has been serviced (R502). -/
def State.serviceFaultEvent (s : State) : State := if s.anyStatus then s else s.setFePending false

/-- `raise X` for a bit of FSTS_REG (R510): an event only where no status was Set before. -/
def State.raiseStatus (s : State) (b : Nat) : State :=
  if s.anyStatus then s.setFsts b else (s.setFsts b).faultEventCondition

/-- `raise ICE`. -/
def State.raiseIce (s : State) : State := s.raiseStatus 5

/-- `raise ITE`; the bit is reserved, and never Set, without Device-IOTLB support (12_registers_b.md R100; log 45). -/
def State.raiseIte (s : State) : State := if s.cfg.di then s.raiseStatus 6 else s

/-! ## The invalidation completion event (R505 to R507) -/

def State.iwc (s : State) : Bool := s.reg.ics.getLsbD 0
def State.ieMask (s : State) : Bool := s.reg.iectl.getLsbD 31
def State.iePending (s : State) : Bool := s.reg.iectl.getLsbD 30

/-- ICS_REG.IWC <- 1. -/
def State.setIwc (s : State) : State := { s with reg := { s.reg with ics := setBit s.reg.ics 0 true } }

/-- IECTL_REG.IP <- v. -/
def State.setIePending (s : State) (v : Bool) : State :=
  { s with reg := { s.reg with iectl := setBit s.reg.iectl 30 v } }

/-- `send_inv_event` (R507). -/
def State.sendInvEvent (s : State) : State :=
  { s with posted := s.posted ++ [.message .invalidation (messageAddress s.reg.ieuaddr s.reg.ieaddr) s.reg.iedata] }

/-- A pending invalidation event message is issued when neither the mask nor a transient condition holds it. -/
def State.releaseInvEvent (s : State) : State :=
  if s.iePending && !s.ieMask && !s.ieHold then (s.sendInvEvent).setIePending false else s

/-- `complete_with_interrupt` (R506, 44_queued_invalidation.md R397). -/
def State.completeWithInterrupt (s : State) : State :=
  if s.iwc then s else ((s.setIwc).setIePending true).releaseInvEvent

/-- IP is cleared when IWC has been serviced (R507). -/
def State.serviceInvEvent (s : State) : State := if s.iwc then s else s.setIePending false

/-! ## Transient conditions that hold event messages (R101, R116) -/

/-- Transient conditions that hold event messages begin or end (12_registers_b.md R101, R116). Where one event, or the idle step,
ends both, the fault event message is issued before the invalidation event message: 60_exceptions.md R503 states no priority between
the two (log 34, DESIGN CHOICE). -/
def State.setHolds (s : State) (fault inv : Bool) : State :=
  (({ s with feHold := fault, ieHold := inv }).releaseFaultEvent).releaseInvEvent

/-- An event message that software has not masked is held by a transient condition. -/
def State.heldBack (s : State) : Bool :=
  (s.fePending && !s.feMask && s.feHold) || (s.iePending && !s.ieMask && s.ieHold)

end Sys2Proof.Machine
end

