-- ==== Sys2Proof/Machine/Operands.lean ====
section
/-! DEFINITION. Operand forms: granularity codes (spec 30_encoding.md R219), function, address and index masks, and the
sets of cache entries and of in-flight requests that they select (43_caching_and_register_invalidation.md R341 to R348,
R363). -/

namespace Sys2Proof.Machine

/-! ## Descriptor kinds -/

/-- The kinds of descriptor that the ordering rules name (44_queued_invalidation.md R400 to R403). -/
inductive DscKind
  | context
  | iotlb
  | device
  | iec
  /-- A wait, with its fence flag. -/
  | wait (fence : Bool)
  | command
  deriving DecidableEq, Repr

/-- The kind of an instruction. -/
def dscKind : Instr → DscKind
  | .ccInvDsc _ _ _ _ => .context
  | .iotlbInvDsc _ _ _ _ _ _ _ => .iotlb
  | .devIotlbInvDsc _ _ _ _ => .device
  | .iecInvDsc _ _ _ => .iec
  | .invWaitDsc _ _ fn _ _ => .wait fn
  | .gcmdTe _ => .command
  | .gcmdSrtp => .command
  | .gcmdSfl => .command
  | .gcmdEafl _ => .command
  | .gcmdWbf => .command
  | .gcmdQie _ => .command
  | .gcmdIre _ => .command
  | .gcmdSirtp => .command
  | .gcmdCfi _ => .command
  | .ccmdIcc _ _ _ _ => .command
  | .iotlbIvt _ _ _ _ => .command
  | .pmenEpm _ => .command

/-- A wait descriptor. -/
def isWait (i : Instr) : Bool := dscKind i == .wait true || dscKind i == .wait false
/-- A Device-IOTLB invalidation descriptor. -/
def isDevInv (i : Instr) : Bool := dscKind i == .device

/-! ## Granularity -/

/-- The granularities of context-cache invalidation. -/
inductive CtxGran
  | global
  | domain
  | device
  deriving DecidableEq, Repr

/-- The granularities of IOTLB invalidation. -/
inductive IotlbGran
  | global
  | domain
  | page
  deriving DecidableEq, Repr

/-- CIRG and cc_inv_dsc.G (R219); 00b is reserved. -/
def ctxGranOf (code : BitVec 2) : Option CtxGran :=
  if code = 1 then some .global else if code = 2 then some .domain else if code = 3 then some .device else none

/-- IIRG (R219); 000b and 100b to 111b are reserved. iotlb_inv_dsc.G is its low two bits. -/
def iotlbGranOf (code : BitVec 3) : Option IotlbGran :=
  if code = 1 then some .global else if code = 2 then some .domain else if code = 3 then some .page else none

/-- The CAIG code of what was performed; none is the reserved code 00b (R341, decision D27). -/
def ctxGranCode : Option CtxGran → BitVec 2
  | none => 0
  | some .global => 1
  | some .domain => 2
  | some .device => 3

/-- The IAIG code of what was performed; none is 000b, an incorrect request that was ignored (R346). -/
def iotlbGranCode : Option IotlbGran → BitVec 3
  | none => 0
  | some .global => 1
  | some .domain => 2
  | some .page => 3

/-- The granularity performed for a context-cache request, by the draw `k`: at least as coarse as requested (R341). -/
def coarsenCtx (asked : CtxGran) (k : Nat) : CtxGran :=
  match asked with
  | .global => .global
  | .domain => if k % 2 = 0 then .domain else .global
  | .device => if k % 3 = 0 then .device else if k % 3 = 1 then .domain else .global

/-- An IOTLB request is incorrect and ignored (R346, 44_queued_invalidation.md R384): a reserved code, or a page-selective
one with AM above CAP.MAMV. Where CAP.PSI = 0 CAP.MAMV says nothing (11_registers_a.md R61), and a page-selective request
of the register form, which can report it (`reports`), is ignored or coarsened by the draw `k` (decision D28); one of the
queue is coarsened (R384). -/
def iotlbIgnored (cfg : Config) (reports : Bool) (code : BitVec 3) (am : BitVec 6) (k : Nat) : Bool :=
  match iotlbGranOf code with
  | none => true
  | some .global => false
  | some .domain => false
  | some .page => if cfg.psi then decide (cfg.mamv < am.toNat) else reports && k % 3 == 2

/-- The granularity performed for an IOTLB request, by the draw `k`: at least as coarse as requested, and not page-selective
where CAP.PSI = 0 (R346). -/
def coarsenIotlb (cfg : Config) (asked : IotlbGran) (k : Nat) : IotlbGran :=
  match asked with
  | .global => .global
  | .domain => if k % 2 = 0 then .domain else .global
  | .page => if cfg.psi && k % 3 == 0 then .page else if k % 2 = 0 then .domain else .global

/-! ## Ranges -/

/-- Two ranges of addresses share a byte. -/
def rangesMeet (a n b m : Nat) : Bool := overlaps a n b m

/-- The first address of a page-selective range: bits 63:MGAW ignored, bits (11+AM):12 masked (R347, 11_registers_a.md
R68). -/
def pageRangeBase (cfg : Config) (addr : PageNumber) (am : BitVec 6) : Nat :=
  addr.toNat * 4096 % 2 ^ cfg.mgawBits / 2 ^ (12 + am.toNat) * 2 ^ (12 + am.toNat)

/-- The bytes of a page-selective range: 2^AM pages. -/
def pageRangeSize (am : BitVec 6) : Nat := 2 ^ (12 + am.toNat)

/-- The number of low ones of a page number, up to 52 (30_encoding.md R213). -/
def lowOnes (addr : PageNumber) : Nat → Nat → Nat
  | 0, k => k
  | fuel + 1, k => if addr.getLsbD k then lowOnes addr fuel (k + 1) else k

/-- `range(S, A)` of a dev_iotlb_inv_dsc: the base and the number of bytes (R213). -/
def deviceRange (s : Bool) (addr : PageNumber) : Nat × Nat :=
  if s then
    if lowOnes addr 52 0 = 52 then (0, 2 ^ 64)
    else (addr.toNat / 2 ^ (lowOnes addr 52 0 + 1) * 2 ^ (lowOnes addr 52 0 + 1) * 4096, 2 ^ (lowOnes addr 52 0 + 13))
  else (addr.toNat * 4096, 4096)

/-- The first interrupt index of an index-selective IEC invalidation: IIDX with bits IM-1:0 cleared (30_encoding.md R215,
44_queued_invalidation.md R390). -/
def indexRangeBase (iidx : BitVec 16) (im : BitVec 5) : Nat := iidx.toNat / 2 ^ im.toNat * 2 ^ im.toNat

/-- The index is one of the 2^IM selected. -/
def inIndexRange (iidx : BitVec 16) (im : BitVec 5) (index : Nat) : Bool :=
  decide (indexRangeBase iidx im ≤ index) && decide (index < indexRangeBase iidx im + 2 ^ im.toNat)

/-! ## Cache entries -/

/-- The domain-id tag of a context-cache entry and of a faulting IOTLB entry: 0 where no present context-entry was found
(R335, R342). -/
def CtxContent.domain (cfg : Config) : CtxContent → DomainId
  | .entry e => if ctxPresent e then ctxDomain cfg e else 0
  | .fault _ => 0

/-- The source-ids agree in the bits that FM does not mask (R342). -/
def sidMatches (fm : BitVec 2) (a b : SourceId) : Bool := (a &&& functionMask fm) == (b &&& functionMask fm)

/-- The context-cache entries that an invalidation removes (R342). A device-selective one surely removes the entries that
match both the source-ids and the domain-id; those that match the source-ids alone it removes by the draw `extra`. -/
def ctxSelected (cfg : Config) (g : CtxGran) (did : DomainId) (sid : SourceId) (fm : BitVec 2) (extra : Bool)
    (l : CtxLine) : Bool :=
  match g with
  | .global => true
  | .domain => l.content.domain cfg == did
  | .device => sidMatches fm l.sid sid && (l.content.domain cfg == did || extra)

/-- The IOTLB entries that an invalidation removes: super pages by overlap (R347, decision D29). -/
def iotlbSelected (g : IotlbGran) (did : DomainId) (base size : Nat) (l : IotlbLine) : Bool :=
  match g with
  | .global => true
  | .domain => l.did == did
  | .page => l.did == did && rangesMeet (l.page * 2 ^ pageBits l.level) (2 ^ pageBits l.level) base size

/-- The PDE-cache entries that an IOTLB invalidation removes; with IH Set a page-selective one preserves them (R348). -/
def pdeSelected (g : IotlbGran) (did : DomainId) (base size : Nat) (ih : Bool) (l : PdeLine) : Bool :=
  match g with
  | .global => true
  | .domain => l.did == did
  | .page => !ih && l.did == did && rangesMeet (l.span * 2 ^ pageBits l.level) (2 ^ pageBits l.level) base size

/-! ## In-flight requests -/

/-- Draining applies to untranslated requests of one kind (R360; C13). -/
def drainable (kind : ReqKind) (f : InFlight) : Bool := f.kind == kind && f.atype == 0

/-- The in-flight requests in the scope of the requested granularity (R363). -/
def inDrainScope (g : IotlbGran) (did : DomainId) (base size : Nat) (f : InFlight) : Bool :=
  match g with
  | .global => true
  | .domain => f.did == some did
  | .page => f.did == some did && rangesMeet f.dva f.enables.length base size

/-! ## Protected memory regions (12_registers_b.md R108 to R111) -/

/-- A base register with its N + 1 low bits decoded as zeros. -/
def regionBase (v n : Nat) : Nat := v / 2 ^ (n + 1) * 2 ^ (n + 1)
/-- A limit register with its N + 1 low bits decoded as ones. -/
def regionLimit (v n : Nat) : Nat := regionBase v n + 2 ^ (n + 1) - 1

/-- Some byte of `[a, a+n)` lies in `[base, limit]`; a limit below the base disables the region. -/
def inRegion (base limit a n : Nat) : Bool := decide (base ≤ limit) && overlaps a n base (limit + 1 - base)

/-- `overlaps_protected` (40_dma_remapping.md R231; the whole extent, decision D16). -/
def overlapsProtected (cfg : Config) (r : Regs) (a n : Nat) : Bool :=
  (cfg.plmr && inRegion (regionBase r.plmbase.toNat cfg.plmN) (regionLimit r.plmlimit.toNat cfg.plmN) a n)
  || (cfg.phmr && inRegion (regionBase (r.phmbase.toNat % 2 ^ cfg.haw) cfg.phmN)
        (regionLimit (r.phmlimit.toNat % 2 ^ cfg.haw) cfg.phmN) a n)

/-! ## Addresses -/

/-- Some byte of `[a, a+n)` lies in the interrupt address range FEE0_0000h to FEEF_FFFFh (20_memory.md R140). -/
def meetsInterruptRange (a n : Nat) : Bool := overlaps a n 0xFEE00000 0x100000

/-- Some byte of `[a, a+n)` lies in the unit's register pages. -/
def meetsRegisterPages (cfg : Config) (a n : Nat) : Bool := overlaps a n cfg.regBase (4096 * cfg.registerPages)

/-- A scope's device is, or is downstream of, the one listed (50_bios_reporting.md R457). -/
def ScopeDevice.covers (sid : SourceId) : ScopeDevice → Bool
  | .device d => d == sid
  | .hierarchy bridge secondary subordinate =>
      bridge == sid || (decide (secondary ≤ sid.extractLsb' 8 8) && decide (sid.extractLsb' 8 8 ≤ subordinate))

/-- The unit serves the source-id: explicitly, or with INCLUDE_PCI_ALL unless another unit of the segment does (R456). -/
def inScope (cfg : Config) (sid : SourceId) : Bool :=
  cfg.scope.any (ScopeDevice.covers sid) || (cfg.scopeAll && !cfg.scopeExcept.any (ScopeDevice.covers sid))

/-- Some byte of `[a, a+n)` lies in one of the ranges. -/
def meetsRanges (rs : List AddrRange) (a n : Nat) : Bool := rs.any (fun r => overlaps a n r.base r.size)

/-- The access fails (20_memory.md R150): at or above 2^HAW (decision D2), or by the platform's AccessError. -/
def accessError (cfg : Config) (a n : Nat) : Bool :=
  decide (2 ^ cfg.haw < a + n) || meetsRanges cfg.accessErrors a n || meetsRanges cfg.nonMemory a n

/-- `[a, a+n)` is system memory that the unit can write (U6). -/
def unitWritable (cfg : Config) (a n : Nat) : Bool :=
  !accessError cfg a n && !meetsInterruptRange a n && !meetsRegisterPages cfg a n

/-- `[a, a+n)` is system memory as a target of DMA: every byte lies below 2^HAW, in no peer device and outside FEEx_xxxxh. A range
that lies only partly in system memory counts as none (log 36, DESIGN CHOICE). -/
def isSystemMemory (cfg : Config) (a n : Nat) : Bool :=
  decide (a + n ≤ 2 ^ cfg.haw) && !meetsRanges cfg.nonMemory a n && !meetsInterruptRange a n

end Sys2Proof.Machine
end

