-- ==== Sys2Proof/Machine/Ops.lean ====
section
/-! DEFINITION. The named operations over memory, caches, in-flight work and the fault logger, shared by every meaning:
visibility of stores (spec 20_memory.md R151 to R160), flushing and draining (R155,
43_caching_and_register_invalidation.md R350, R360 to R364), cache invalidation (R340 to R348), and taking a fault
(60_exceptions.md R490 to R496). The return from one is software's servicing (R511): `State.serviceFaultEvent` and
`State.serviceInvEvent` of Machine/Flags.lean, called by the register writes. -/

namespace Sys2Proof.Machine

/-! ## Outcomes -/

/-- Go on from a next state; a fault or a refusal ends the step. -/
def andThen (r : Result) (f : State → Result) : Result :=
  match r with
  | .next s => f s
  | .fault e => .fault e
  | .refused e => .refused e

/-! ## Free values (log 4) -/

/-- The site of the `i`-th instance of a question. -/
def siteOf (question i : Nat) : Nat := question + 256 * i

/-- The free value at a site. -/
def State.free (s : State) (site : Nat) : Nat := Config.free s.draws site
/-- A choice of hardware that the manual leaves open. -/
def State.coin (s : State) (site : Nat) : Bool := s.free site % 2 == 1
/-- `n` free bytes. -/
def State.freeBytes (s : State) (question : Nat) (n : Nat) : List Byte :=
  (List.range n).map (fun i => BitVec.ofNat 8 (s.free (siteOf question i)))
/-- The free values of an operation have been taken. -/
def State.tick (s : State) : State := { s with draws := s.draws + 1 }

/-- What the unit sends. -/
def State.emit (s : State) (o : Output) : State := { s with out := o :: s.out }

/-! ## Processor stores and their visibility -/

/-- The bytes at the address `a` of a cell list's keys. -/
def touches (cells : List Host.Cell) (a : Nat) : Bool := cells.any (fun c => c.1 == a)

/-- The cells of `old` that `cells` does not overwrite. -/
def untouched (cells old : List Host.Cell) : List Host.Cell := old.filter (fun c => !touches cells c.1)

/-- The unwritten-back bytes that `cells` does not overwrite. -/
def undirtied (cells : List Host.Cell) (old : List DirtyByte) : List DirtyByte := old.filter (fun d => !touches cells d.cell.1)

/-- Memory as processors and snooped accesses see it (20_memory.md R152, R155). -/
def State.cpuView (s : State) : Memory := (s.mem.performStores s.wbuf).writeCells (s.dirty.map DirtyByte.cell)

/-- A coherent write: it reaches memory, and older copies in the write buffer and in processor caches are superseded
(log 15). -/
def State.writeCoherent (s : State) (cells : List Host.Cell) : State :=
  { s with
    mem := s.mem.writeCells cells
    wbuf := s.wbuf.map (untouched cells)
    dirty := undirtied cells s.dirty }

/-- Stores that leave the processor: held in the write buffer when CAP.RWBF = 1 (R155). -/
def State.storeToMemory (s : State) (cells : List Host.Cell) : State :=
  if s.cfg.rwbf then { s with wbuf := s.wbuf ++ [cells] } else { s with mem := s.mem.writeCells cells }

/-- A store of the processor `cpu`, of whatever length, at one instant (log 46): with ECAP.C = 0 it is visible to the unit's
structure reads only after write-back, and takes the place of any processor's older bytes (R152, decision D4; log 16). -/
def State.processorStore (s : State) (cpu a : Nat) (data : List Byte) : State :=
  if s.cfg.coherent then s.storeToMemory (cellsAt a data)
  else { s with dirty := (cellsAt a data).map (DirtyByte.mk cpu) ++ undirtied (cellsAt a data) s.dirty }

/-- A write-back by `cpu` of the address `a` covers the byte: its own ones of the aligned quadword (log 16). -/
def DirtyByte.coveredBy (cpu a : Nat) (d : DirtyByte) : Bool := d.cpu == cpu && d.cell.1 / 8 == a / 8

/-- The abstract software step `writeback(addr)` of decision D4 on the processor `cpu`. -/
def State.writeback (s : State) (cpu a : Nat) : State :=
  ({ s with dirty := s.dirty.filter (fun d => !d.coveredBy cpu a) }).storeToMemory
    ((s.dirty.filter (DirtyByte.coveredBy cpu a)).map DirtyByte.cell)

/-- The write buffer performs its oldest store: it may drain at any time (R155). -/
def State.drainStore (s : State) : State :=
  match s.wbuf with
  | [] => s
  | cells :: rest => { s with mem := s.mem.writeCells cells, wbuf := rest }

/-- `flush_write_buffer` (R155): every buffered store, in order; without CAP.RWBF there is no buffer. -/
def State.flushWriteBuffer (s : State) : State :=
  if s.cfg.rwbf then { s with mem := s.mem.performStores s.wbuf, wbuf := [] } else s

/-- A processor's move on memory; a store to the register pages is none (10_state.md R23). -/
def State.move (s : State) : CpuMove → State
  | .store cpu a data => if meetsRegisterPages s.cfg a data.length then s else s.processorStore cpu a data
  | .writeback cpu a => s.writeback cpu a
  | .drain => s.drainStore

/-- The contents of memory before, between and after the moves that race with an operation of the unit. Only processor moves race:
that no DMA write commits and no posted write becomes visible between the two 64-bit reads of one entry, which R144 does not
promise, is the model's choice (log 13, DESIGN CHOICE). -/
def State.views (s : State) : List CpuMove → List Memory
  | [] => [s.mem]
  | m :: ms => s.mem :: (s.move m).views ms

/-- The same, as coherent reads see them (20_memory.md R153). -/
def State.coherentViews (s : State) : List CpuMove → List Memory
  | [] => [s.cpuView]
  | m :: ms => s.cpuView :: (s.move m).coherentViews ms

/-! ## The unit's structure reads (20_memory.md R144, R150; decision D3) -/

/-- The memory that one 64-bit read sees: without a race there is one; with one, a free choice (log 13). -/
def State.view (s : State) (vs : List Memory) (site : Nat) : Memory :=
  match vs with
  | [] => s.mem
  | [m] => m
  | m :: _ :: _ => vs.getD (s.free site % vs.length) m

/-- `MemRead(a, 8)`: none is Error. -/
def State.readQuad (s : State) (vs : List Memory) (site a : Nat) : Option (BitVec 64) :=
  if accessError s.cfg a 8 then none else some (BitVec.ofNat 64 ((s.view vs site).readValue a 8))

/-- `MemRead(a, 16)`: two 64-bit reads with no order between them (decision D3). -/
def State.readEntry (s : State) (vs : List Memory) (question a : Nat) : Option (BitVec 128) :=
  match s.readQuad vs (siteOf question 0) a, s.readQuad vs (siteOf question 1) (a + 8) with
  | some lo, some hi => some (joinQuads hi lo)
  | none, _ => none
  | _, none => none

/-- The 16 bytes of a descriptor, by the same two 64-bit reads (R144; decision D3). -/
def State.readSlot (s : State) (vs : List Memory) (question a : Nat) : List Byte :=
  (s.view vs (siteOf question 0)).readBytes a 8 ++ (s.view vs (siteOf question 1)).readBytes (a + 8) 8

/-! ## Posted writes and messages (20_memory.md R158 to R160) -/

/-- A posted write or message becomes visible. A message to system memory is a DWORD write there
(70_reset_and_hazards.md R542). -/
def State.perform (s : State) : Posted → State
  | .statusWrite a d => s.writeCoherent (cellsAt a (bytesOfNat 4 d.toNat))
  | .logWrite a d => s.writeCoherent (cellsAt a (bytesOfNat 8 d.toNat))
  | .message src a d =>
      if unitWritable s.cfg a.toNat 4 then
        (s.writeCoherent (cellsAt a.toNat (bytesOfNat 4 d.toNat))).emit (.eventMessage src a d)
      else s.emit (.eventMessage src a d)

/-- Every posted write and message becomes visible: what a register read pushes (R158, R159). R157 leaves them unordered: that the
oldest comes first, so that of two status writes to one address the younger stays, is the model's choice (log 51, DESIGN
CHOICE). -/
def State.flushPosted (s : State) : State := s.posted.foldl State.perform { s with posted := [] }

/-- A status write. -/
def Posted.isStatus : Posted → Bool
  | .statusWrite _ _ => true
  | .logWrite _ _ => false
  | .message _ _ _ => false

/-- An invalidation completion event message. -/
def Posted.isInvMessage : Posted → Bool
  | .statusWrite _ _ => false
  | .logWrite _ _ => false
  | .message .fault _ _ => false
  | .message .invalidation _ _ => true

/-- The `k`-th posted item becomes visible. An invalidation event message pushes the status writes issued before it (R160), the
oldest first (log 51, DESIGN CHOICE). -/
def State.deliver (s : State) (k : Nat) : State :=
  match s.posted[k]? with
  | none => s
  | some p =>
      if p.isInvMessage then
        (((s.posted.take k).filter Posted.isStatus).foldl State.perform
          { s with posted := (s.posted.take k).filter (fun q => !q.isStatus) ++ s.posted.drop (k + 1) }).perform p
      else ({ s with posted := s.posted.take k ++ s.posted.drop (k + 1) }).perform p

/-! ## In-flight requests: commit and drain (20_memory.md R162, 43_caching_and_register_invalidation.md R360, R364) -/

/-- The cells that a write's enabled bytes go to. -/
def enabledCells : Nat → List Bool → List Byte → List Host.Cell
  | _, [], _ => []
  | a, en :: es, ds => (if en then [(a, ds.headD 0)] else []) ++ enabledCells (a + 1) es ds.tail

/-- The bytes of a read: those enabled from memory, the others free (40_dma_remapping.md R250: a zero-length read returns
data independent of memory). -/
def enabledBytes (m : Memory) : Nat → List Bool → List Byte → List Byte
  | _, [], _ => []
  | a, en :: es, fs => (if en then m.read a else fs.headD 0) :: enabledBytes m (a + 1) es fs.tail

/-- A read that is not snooped may miss newer copies in the write buffer and in processor caches: a free choice, where there is a
difference (40_dma_remapping.md R256; log 15). -/
def State.snooped (s : State) (f : InFlight) : Bool :=
  f.snoop || (s.wbuf.isEmpty && s.dirty.isEmpty) || s.coin 1

/-- An in-flight request completes: a write becomes visible to processors, snooped or not, a read's data is fetched (R162, R360,
40_dma_remapping.md R257). All its bytes do so at one instant, also where there are more than 64 bits (R157 leaves that open; log
46). -/
def State.commitRequest (s : State) (f : InFlight) : State :=
  match f.kind with
  | .write => s.writeCoherent (enabledCells f.hpa f.enables f.data)
  | .read =>
      (s.emit (.readData f.sid f.dva
        (enabledBytes (if s.snooped f then s.cpuView else s.mem) f.hpa f.enables (s.freeBytes 2 f.enables.length)))).tick

/-- Every in-flight request that `p` selects completes. The spec keeps a multiset and gives a drain no order (10_state.md R33;
91, N6): the oldest first, reads and writes intermixed, is log 50 (DESIGN CHOICE). -/
def State.drainWhere (s : State) (p : InFlight → Bool) : State :=
  (s.inflight.filter p).foldl State.commitRequest { s with inflight := s.inflight.filter (fun f => !p f) }

/-- `drain_reads(all)` and `drain_writes(all)`: untranslated requests (45_global_commands.md R422, C13). -/
def State.drainAll (s : State) : State := s.drainWhere (fun f => drainable .read f || drainable .write f)

/-- An in-flight interrupt is accepted. -/
def State.commitInterrupt (s : State) (q : IrqInFlight) : State := s.emit (.interrupt q.message)

/-- Every in-flight interrupt that `p` selects is accepted (R364), the oldest first (log 50, DESIGN CHOICE). -/
def State.drainInterrupts (s : State) (p : IrqInFlight → Bool) : State :=
  (s.irqs.filter p).foldl State.commitInterrupt { s with irqs := s.irqs.filter (fun q => !p q) }

/-- The in-flight request at place `k` completes by itself. -/
def State.commitAt (s : State) (k : Nat) : State :=
  match s.inflight[k]? with
  | none => s
  | some f => ({ s with inflight := s.inflight.take k ++ s.inflight.drop (k + 1) }).commitRequest f

/-- The in-flight interrupt at place `k` is accepted by itself. -/
def State.commitIrqAt (s : State) (k : Nat) : State :=
  match s.irqs[k]? with
  | none => s
  | some q => ({ s with irqs := s.irqs.take k ++ s.irqs.drop (k + 1) }).commitInterrupt q

/-! ## Cache invalidation -/

/-- The granularity that a context-cache invalidation performs; none for the reserved code (R341, decision D27). -/
def State.contextGranularity (s : State) (code : BitVec 2) : Option CtxGran :=
  (ctxGranOf code).map (fun asked => coarsenCtx asked (s.free 3))

/-- The context-cache removal of CCMD.ICC and cc_inv_dsc, after the implicit write-buffer flush (R340 to R342, R350,
44_queued_invalidation.md R380). -/
def State.invalidateContext (s : State) (code : BitVec 2) (did : DomainId) (sid : SourceId) (fm : BitVec 2) : State :=
  match ctxGranOf code with
  | none => s.flushWriteBuffer.tick
  | some asked =>
      { s.flushWriteBuffer.tick with
        cache := { s.cache with
          ctx := s.cache.ctx.filter
            (fun l => !ctxSelected s.cfg (coarsenCtx asked (s.free 3)) (s.cfg.domain did) sid fm (s.coin 4) l) } }

/-- The granularity that an IOTLB invalidation performs; none is an incorrect request, ignored (R346). -/
def State.iotlbGranularity (s : State) (reports : Bool) (code : BitVec 3) (am : BitVec 6) : Option IotlbGran :=
  if iotlbIgnored s.cfg reports code am (s.free 5) then none
  else (iotlbGranOf code).map (fun asked => coarsenIotlb s.cfg asked (s.free 5))

/-- The removal from the IOTLB and from the PDE caches (R347, R348). -/
def State.removeTranslations (s : State) (g : IotlbGran) (did : DomainId) (addr : PageNumber) (am : BitVec 6) (ih : Bool) :
    State :=
  { s with
    cache := { s.cache with
      iotlb := s.cache.iotlb.filter (fun l => !iotlbSelected g did (pageRangeBase s.cfg addr am) (pageRangeSize am) l)
      pde := s.cache.pde.filter (fun l => !pdeSelected g did (pageRangeBase s.cfg addr am) (pageRangeSize am) ih l) } }

/-- The drain that an IOTLB invalidation asks for, in the scope of the requested granularity (R361, R363). -/
def State.drainScope (s : State) (g : IotlbGran) (dr dw : Bool) (did : DomainId) (addr : PageNumber) (am : BitVec 6) : State :=
  s.drainWhere (fun f =>
    ((dr && s.cfg.drd && drainable .read f) || (dw && s.cfg.dwd && drainable .write f))
      && inDrainScope g did (pageRangeBase s.cfg addr am) (pageRangeSize am) f)

/-- The IOTLB invalidation of IOTLB.IVT, which reports what was done, and of iotlb_inv_dsc, which does not (R345 to R350,
44_queued_invalidation.md R383, R384). -/
def State.invalidateIotlb (s : State) (reports : Bool) (code : BitVec 3) (dr dw : Bool) (did : DomainId)
    (addr : PageNumber) (am : BitVec 6) (ih : Bool) : State :=
  match iotlbGranOf code with
  | none => s.flushWriteBuffer.tick
  | some asked =>
      if iotlbIgnored s.cfg reports code am (s.free 5) then s.flushWriteBuffer.tick
      else
        (s.flushWriteBuffer.tick.removeTranslations (coarsenIotlb s.cfg asked (s.free 5)) (s.cfg.domain did) addr am
          ih).drainScope asked dr dw (s.cfg.domain did) addr am

/-- The interrupt indexes that an IEC invalidation selects: none where the request is ignored (44_queued_invalidation.md
R390, R391, decision D33). -/
def State.iecSelects (s : State) (g : Bool) (im : BitVec 5) (iidx : BitVec 16) (index : Nat) : Bool :=
  if g then
    if s.cfg.mhmv < im.toNat then s.coin 6 else inIndexRange iidx im index
  else true

/-- The in-flight interrupts that an IEC invalidation drains: by index; a global one drains all of them (R364). -/
def State.iecDrains (s : State) (g : Bool) (im : BitVec 5) (iidx : BitVec 16) (q : IrqInFlight) : Bool :=
  match q.index with
  | some index => s.iecSelects g im iidx index
  | none => if g then decide (s.cfg.mhmv < im.toNat) && s.coin 6 else true

/-- The IEC invalidation of iec_inv_dsc (R390, R364). -/
def State.invalidateIec (s : State) (g : Bool) (im : BitVec 5) (iidx : BitVec 16) : State :=
  ({ s.flushWriteBuffer.tick with
      cache := { s.cache with iec := s.cache.iec.filter (fun l => !s.iecSelects g im iidx l.index) } }).drainInterrupts
    (s.iecDrains g im iidx)

/-- Hardware removes the `k`-th entry of a cache: it may at any time (R330). -/
def State.evict (s : State) (c : CacheKind) (k : Nat) : State :=
  match c with
  | .ctx => { s with cache := { s.cache with ctx := s.cache.ctx.eraseIdx k } }
  | .iotlb => { s with cache := { s.cache with iotlb := s.cache.iotlb.eraseIdx k } }
  | .pde => { s with cache := { s.cache with pde := s.cache.pde.eraseIdx k } }
  | .iec => { s with cache := { s.cache with iec := s.cache.iec.eraseIdx k } }

/-! ## Taking a fault (60_exceptions.md R490 to R496) -/

/-- FRCD_REG[i]. -/
def State.faultReg (s : State) (i : Nat) : BitVec 128 := s.reg.frcd.getD i 0

/-- Hardware collapses a fault from a source-id that already has a pending record: it may, where the implementation
compresses (R491). -/
def State.collapses (s : State) (sid : SourceId) : Bool :=
  s.cfg.faultCompression && s.reg.frcd.any (fun r => recordF r && recordSid r == sid) && s.coin 7

/-- FRCD_REG[pf_index] takes the record with F Set; AT is not implemented without Device-IOTLB support (10_state.md
R39 item f). -/
def State.writeFaultReg (s : State) (rec : BitVec 128) : State :=
  { s with reg := { s.reg with
      frcd := s.reg.frcd.set s.log.pfIndex (setBit (if s.cfg.di then rec else rec &&& ~~~(maskBits 128 125 124)) 127 true) } }

/-- pf_index advances, wrapping from CAP.NFR to 0; while both remappings are disabled it is 0, also when a fault that waited for
the logger is recorded then (10_state.md R29, 70_reset_and_hazards.md R535; log 48). -/
def State.advancePfIndex (s : State) : State :=
  { s with log := { s.log with pfIndex := if s.tes || s.ires then (s.log.pfIndex + 1) % s.cfg.faultRegs else 0 } }

/-- `log_primary` (R491). -/
def State.logPrimary (s : State) (rec : BitVec 128) : State :=
  if s.pfo then s
  else if s.collapses (recordSid rec) then s
  else if recordF (s.faultReg s.log.pfIndex) then s.setFsts 0
  else if s.ppf then (s.writeFaultReg rec).advancePfIndex
  else if s.anyStatus then ((s.writeFaultReg rec).setFri s.log.pfIndex).advancePfIndex
  else (((s.writeFaultReg rec).setFri s.log.pfIndex).faultEventCondition).advancePfIndex

/-- af_index advances; at the end of the log it wraps to 0 and the wrap is remembered (R495). -/
def State.advanceAfIndex (s : State) (size : BitVec 3) (sid : SourceId) : State :=
  if s.log.afIndex + 1 = 2 ^ (size.toNat + 8) then
    { s with log := { s.log with afIndex := 0, afWrapped := true, afPrevSid := some sid } }
  else { s with log := { s.log with afIndex := s.log.afIndex + 1, afPrevSid := some sid } }

/-- The record is written with bit 127 = 0 (60_exceptions.md R495), its two 64-bit halves in either order (20_memory.md R144). -/
def State.postRecord (s : State) (a : Nat) (rec : BitVec 128) : State :=
  { s with posted := s.posted ++
      (if s.coin 8 then [.logWrite (a + 8) (rec.extractLsb' 64 64 &&& 0x7FFFFFFFFFFFFFFF), .logWrite a (rec.extractLsb' 0 64)]
       else [.logWrite a (rec.extractLsb' 0 64), .logWrite (a + 8) (rec.extractLsb' 64 64 &&& 0x7FFFFFFFFFFFFFFF)]) }

/-- Setting AFO may be a fault-event condition: AFO_EVENT (R500, C28). -/
def State.overflowAdvanced (s : State) : State :=
  if !s.anyStatus && s.coin 9 then (s.setFsts 2).faultEventCondition else s.setFsts 2

/-- APF is Set by the first record of the log, and is then a fault-event condition (R495, R501). -/
def State.reportAdvanced (s : State) : State :=
  if s.apf || !(s.log.afIndex == 0) then s
  else if s.anyStatus then s.setFsts 3
  else (s.setFsts 3).faultEventCondition

/-- `log_advanced` (R495). A log that is not memory: refused (U6). -/
def State.logAdvanced (s : State) (rec : BitVec 128) : Result :=
  match s.latch.flp with
  | none => .refused .pointerNeverSet
  | some p =>
      if s.afo then .next s
      else if s.cfg.faultCompression && s.log.afPrevSid == some (recordSid rec) && s.coin 7 then .next s
      else if s.log.afWrapped then .next s.overflowAdvanced
      else if unitWritable s.cfg (p.base.toNat * 4096 + 16 * s.log.afIndex) 16 then
        .next (((s.postRecord (p.base.toNat * 4096 + 16 * s.log.afIndex) rec).reportAdvanced).advanceAfIndex p.size
          (recordSid rec))
      else .refused .unitWriteError

/-- `log_fault` (R490): GSTS.AFLS selects the logger (45_global_commands.md R425). -/
def State.logFault (s : State) (rec : BitVec 128) : Result :=
  andThen (if s.afls then s.logAdvanced rec else .next (s.logPrimary rec)) (fun t => .next t.tick)

/-- A raised fault waits for the fault logger, behind those raised before it, and the request that met it is over (R488; log
48). -/
def State.raiseFault (s : State) (rec : BitVec 128) : State := { s with unlogged := s.unlogged ++ [rec] }

/-- The fault logger's step: the oldest fault that waits is recorded (R488, R490). -/
def State.logOldestFault (s : State) : Result :=
  match s.unlogged with
  | [] => .next s
  | rec :: rest => { s with unlogged := rest }.logFault rec

/-- `raise Fault` of a DMA request: a qualified fault with FPD = 1 is not recorded (40_dma_remapping.md R235). -/
def State.raiseDmaFault (s : State) (r : FaultReason) (fpd : Bool) (sid : SourceId) (addr : Nat) (t : Bool)
    (atype : BitVec 2) : State :=
  if r.qualified && fpd then s
  else s.raiseFault (faultRecord r.code sid (dmaFaultInfo s.cfg addr) t atype)

/-- `raise Fault` of an interrupt request: T and AT are free (decision D13), and so is the index where none was computed
(R487, decision D36). -/
def State.raiseInterruptFault (s : State) (r : FaultReason) (fpd : Bool) (sid : SourceId) (index : Option Nat) : State :=
  if r.qualified && fpd then s
  else (s.raiseFault (faultRecord r.code sid (interruptFaultInfo (index.getD (s.free 10))) (s.coin 11)
    (BitVec.ofNat 2 (s.free 12)))).tick

/-- pf_index returns to 0 while both remappings are disabled (10_state.md R29, 45_global_commands.md R422, R428). -/
def State.resetPfIndex (s : State) : State :=
  if s.tes || s.ires then s else { s with log := { s.log with pfIndex := 0 } }

/-! ## Disposal of blocked requests -/

/-- `dispose_blocked` (40_dma_remapping.md R258): a blocked write changes nothing, a blocked read discloses nothing. -/
def State.disposeBlocked (s : State) (r : Request) (addr n : Nat) : State :=
  match r.kind with
  | .write => s.emit (.writeDropped r.sid addr)
  | .read =>
      if r.pcie then s.emit (.readError r.sid addr)
      else match s.cfg.blockMethod with
        | .errorStatus => s.emit (.readError r.sid addr)
        | .dummyData => (s.emit (.dummyData r.sid addr (s.freeBytes 13 n))).tick

/-! ## The invalidation queue's pointers (12_registers_b.md R112 to R114) -/

/-- IQH_REG.QH. -/
def State.qh (s : State) : Nat := (s.reg.iqh.extractLsb' 4 15).toNat
/-- IQT_REG.QT. -/
def State.qt (s : State) : Nat := (s.reg.iqt.extractLsb' 4 15).toNat
/-- The number of slots: 2^(QS + 8) (C21). -/
def State.queueSlots (s : State) : Nat := 2 ^ ((s.reg.iqa.extractLsb' 0 3).toNat + 8)
/-- The address of a slot (20_memory.md R143). -/
def State.slotAddress (s : State) (slot : Nat) : Nat := pageAddress s.cfg s.reg.iqa + 16 * slot
/-- A queue register whose index field is `i`. -/
def queueIndex (i : Nat) : BitVec 64 := BitVec.ofNat 64 (16 * i)

/-- The slot lies between head and tail (20_memory.md R153). With an invalid tail none does (44_queued_invalidation.md R377, decision
D31). -/
def State.slotQueued (s : State) (slot : Nat) : Bool :=
  decide (slot < s.queueSlots) && decide (s.qt < s.queueSlots) &&
    (if s.qh ≤ s.qt then decide (s.qh ≤ slot) && decide (slot < s.qt) else decide (s.qh ≤ slot) || decide (slot < s.qt))

/-- A copy read ahead is held only while its slot stays between head and tail (20_memory.md R153; log 27, DEDUCED). -/
def State.dropUnqueued (s : State) : State :=
  { s with iq := { s.iq with ahead := s.iq.ahead.filter (fun a => s.slotQueued a.slot) } }

/-- `raise IQE` (60_exceptions.md R510). A copy read ahead of the head's slot is dropped, so that the fetch after IQE is
cleared reads memory again (44_queued_invalidation.md R376, decision D30). -/
def State.raiseIqe (s : State) : State :=
  ({ s with iq := { s.iq with ahead := s.iq.ahead.filter (fun a => !(a.slot == s.qh)) } }).raiseStatus 4

/-- The queue is quiesced: empty, the last descriptor completed is a wait, and no invalidation request is pending in hardware:
no fetched descriptor and no allocated tag (44_queued_invalidation.md R372, 41_device_iotlb.md R290; log 28). -/
def State.quiesced (s : State) : Bool :=
  s.qh == s.qt && s.iq.lastWait && s.iq.pending.isEmpty && s.itags.all Option.isNone

end Sys2Proof.Machine
end

