-- ==== Sys2Proof/Machine/GlobalCommands.lean ====
section
/-! DEFINITION. The meanings of the nine GCMD commands (spec 45_global_commands.md R422 to R430): the `complete` step of
each. The submitting half is Machine/Registers.lean. -/

namespace Sys2Proof.Machine

/-- Draining is required by an implementation that supports draining (R422, 43_caching_and_register_invalidation.md
R362). -/
def State.drainsDma (s : State) : Bool := s.cfg.drd || s.cfg.dwd

/-- GCMD.TE (R422, 70_reset_and_hazards.md R533): the drain on disable is hardware's choice. -/
def execGcmdTe (enable : Bool) (s : State) : Result :=
  if enable then
    if s.latch.rtp.isNone then .refused .pointerNeverSet
    else .next ((if s.drainsDma then s.drainAll else s).setGsts 31 true)
  else
    .next ((((s.drainWhere (fun f => (drainable .read f || drainable .write f) && s.coin 60)).tick).setGsts 31 false).resetPfIndex)

/-- GCMD.SRTP (R423): the caches are not touched. Until this step walks use the old pointer; R423 lets a model use either from
the write on (log 49). -/
def execGcmdSrtp (s : State) : Result :=
  .next (({ s with latch := { s.latch with rtp := some (pageNumber s.cfg s.reg.rtaddr) } }).setGsts 30 true)

/-- GCMD.SFL (R424): the pointer is latched and the log starts anew. -/
def execGcmdSfl (s : State) : Result :=
  .next (({ s with
      latch := { s.latch with
        flp := some { base := pageNumber s.cfg s.reg.aflog, size := s.reg.aflog.extractLsb' 9 3 } }
      log := { s.log with afIndex := 0, afWrapped := false, afPrevSid := none } }).setGsts 29 true)

/-- GCMD.EAFL (R425, R533; 60_exceptions.md R490). -/
def execGcmdEafl (enable : Bool) (s : State) : Result :=
  if s.tes || s.ires then .refused .loggingMethodActive
  else if enable && s.latch.flp.isNone then .refused .pointerNeverSet
  else .next (s.setGsts 28 enable)

/-- GCMD.WBF (R426): WBFS is Clear when the flush is complete. -/
def execGcmdWbf (s : State) : Result := .next (s.flushWriteBuffer.setGsts 27 false)

/-- QH <- 0, and no descriptor is held read ahead. -/
def State.resetHead (s : State) : State :=
  { s with reg := { s.reg with iqh := 0 }, iq := { s.iq with ahead := [] } }

/-- GCMD.QIE (R427; 44_queued_invalidation.md R371, R372): disabling a queue that is not quiesced is refused. -/
def execGcmdQie (enable : Bool) (s : State) : Result :=
  if enable then .next (s.setGsts 26 true)
  else if s.quiesced then .next ((s.setGsts 26 false).resetHead)
  else .refused .queueNotQuiesced

/-- GCMD.IRE (R428, 70_reset_and_hazards.md R533): the interrupt drain on disable is hardware's choice. -/
def execGcmdIre (enable : Bool) (s : State) : Result :=
  if enable then
    if s.latch.irtp.isNone then .refused .pointerNeverSet
    else .next ((s.drainInterrupts (fun _ => true)).setGsts 25 true)
  else
    .next ((((s.drainInterrupts (fun _ => s.coin 61)).tick).setGsts 25 false).resetPfIndex)

/-- GCMD.SIRTP (R429). -/
def execGcmdSirtp (s : State) : Result :=
  .next (({ s with
      latch := { s.latch with
        irtp := some { base := pageNumber s.cfg s.reg.irta, size := s.reg.irta.extractLsb' 0 4 } } }).setGsts 24 true)

/-- GCMD.CFI (R430). -/
def execGcmdCfi (enable : Bool) (s : State) : Result := .next (s.setGsts 23 enable)

end Sys2Proof.Machine
end

