-- ==== Sys2Proof/Machine/ProtectedMemory.lean ====
section
/-! DEFINITION. The meaning of PMEN.EPM (spec 45_global_commands.md R435, R436). -/

namespace Sys2Proof.Machine

/-- PMEN_REG.PRS <- v. -/
def State.setPrs (s : State) (v : Bool) : State := { s with reg := { s.reg with pmen := setBit s.reg.pmen 0 v } }

/-- PMEN.EPM (R435): an implementation that supports draining drains before PRS is Set. A region over the interrupt range
is refused (91_not_in_source.md, entry of 45_global_commands.md). -/
def execPmenEpm (enable : Bool) (s : State) : Result :=
  if enable then
    if overlapsProtected s.cfg s.reg 0xFEE00000 0x100000 then .refused .protectedOverInterrupts
    else .next ((if s.drainsDma then s.drainAll else s).setPrs true)
  else .next (s.setPrs false)

end Sys2Proof.Machine
end

