-- ==== Sys2Proof/Machine/Translate.lean ====
section
/-! DEFINITION. Address translation: the context lookup, the page walk and the use and filling of the caches
(spec 40_dma_remapping.md R232 to R260, 41_device_iotlb.md R273, 43_caching_and_register_invalidation.md R330 to R335).

One translation is one step (decision D26). A hit is a free choice among the matching entries and the memory walk; a fill
is a free choice too (R330; log 25). -/

namespace Sys2Proof.Machine

/-! ## The use of a cache -/

/-- One of the matching entries, or none of them, freely (R330 `use`). With no match there is no choice. -/
def State.pick {α : Type} (s : State) (site : Nat) (matching : List α) : Option α :=
  match matching with
  | [] => none
  | a :: rest => (a :: rest)[s.free site % (rest.length + 2)]?

/-- Hardware keeps a candidate entry, or does not (R330 `fill`). -/
def State.fill {α : Type} (s : State) (site : Nat) (candidate : Option α) (held : List α) : List α :=
  match candidate with
  | none => held
  | some a => if s.coin site then a :: held else held

/-! ## Context lookup (R232 step A, R331) -/

/-- What a lookup found: a context-entry, or the fault that it met. -/
inductive CtxAnswer
  | entry (e : BitVec 128)
  | fault (r : FaultReason) (fpd : Bool)
  deriving DecidableEq, Repr

/-- The checks on a context-entry that was read or cached (R232, R174): present, reserved bits, programming. -/
def checkContext (cfg : Config) (e : BitVec 128) : CtxAnswer :=
  if !ctxPresent e then .fault .contextNotPresent (ctxFpd e)
  else if ctxReserved cfg e then .fault .contextReserved (ctxFpd e)
  else if ctxInvalid cfg e then .fault .contextInvalid (ctxFpd e)
  else .entry e

/-- The two reads of a lookup in memory: the root-entry with its checks, then the context-entry (R232 step A). -/
def State.fetchContext (s : State) (vs : List Memory) (rtp : PageNumber) (sid : SourceId) : CtxContent :=
  match s.readEntry vs 20 (rootEntryAddress rtp sid) with
  | none => .fault .rootAccess
  | some re =>
      if !rootPresent re then .fault .rootNotPresent
      else if rootReserved s.cfg re then .fault .rootReserved
      else match s.readEntry vs 21 (contextEntryAddress s.cfg re sid) with
        | none => .fault .contextAccess
        | some ce => .entry ce

/-- The answer of a lookup whose content was fetched or cached. -/
def contentAnswer (cfg : Config) : CtxContent → CtxAnswer
  | .entry e => checkContext cfg e
  | .fault r => .fault r false

/-- Whether a fetched content may be cached: with CAP.CM = 0 only an entry that passed every check (R331, R335). -/
def ctxCacheable (cfg : Config) (c : CtxContent) : Bool :=
  match contentAnswer cfg c with
  | .entry _ => true
  | .fault _ _ => cfg.cm

/-- The content that the lookup uses, and the entry that it may keep. -/
def State.contextContent (s : State) (vs : List Memory) (rtp : PageNumber) (sid : SourceId) : CtxContent × Option CtxLine :=
  match s.pick 22 (s.cache.ctx.filter (fun l => l.sid == sid)) with
  | some l => (l.content, none)
  | none =>
      (s.fetchContext vs rtp sid,
       if ctxCacheable s.cfg (s.fetchContext vs rtp sid) then some { sid := sid, content := s.fetchContext vs rtp sid }
       else none)

/-! ## Page walk (R237, R273) -/

/-- What the request needs of the permissions (R238). -/
inductive Need
  | write
  | read
  /-- A zero-length read where CAP.ZLR = 1 (R250). -/
  | zeroRead
  /-- A translation request: no permission is needed, and none is an answer (R273). -/
  | device
  deriving DecidableEq, Repr

/-- `permitted` (R238). -/
def Need.permitted : Need → Bool → Bool → Bool
  | .write, _, w => w
  | .read, r, _ => r
  | .zeroRead, r, w => r || w
  | .device, _, _ => true

/-- The reason of a permission fault (R238). -/
def Need.reason : Need → FaultReason
  | .write => .writeDenied
  | .read => .readDenied
  | .zeroRead => .readDenied
  | .device => .readDenied

/-- How a walk or an IOTLB lookup ends. -/
inductive WalkAnswer
  | mapped (m : Mapping)
  | fault (r : FaultReason)
  /-- A translation request for a page without any permission (R275). -/
  | noAccess
  deriving DecidableEq, Repr

/-- The result of a walk: its answer, the leaf that it may cache, and the non-leaf entries that it may cache, last first. -/
structure WalkResult where
  answer : WalkAnswer
  leaf : Option IotlbContent
  tables : List PdeLine
  deriving DecidableEq, Repr

/-- The mapping of a leaf entry with the cumulative permissions of the whole path. -/
def leafMapping (cfg : Config) (e : BitVec 64) (level : Nat) (r w : Bool) : Mapping where
  hpa := pageFrame cfg e level
  level := level
  r := r
  w := w
  snp := cfg.sc && pteSnp e
  tm := pteTm e

/-- What one page-table entry decides. -/
inductive EntryVerdict
  | stop (a : WalkAnswer)
  | leaf (m : Mapping)
  | descend
  deriving DecidableEq, Repr

/-- One entry of a walk, `r` and `w` being the cumulative permissions with this entry's: not present, permission,
reserved bits, leaf (R237, decision D35; for a translation request R273, decision D19). -/
def entryVerdict (cfg : Config) (need : Need) (e : BitVec 64) (level : Nat) (r w : Bool) : EntryVerdict :=
  match need with
  | .device =>
      if !pteR e && !pteW e then .stop .noAccess
      else if pteReserved cfg e level then .stop (.fault .pageReserved)
      else if isLeaf cfg e level then
        (if !r && !w then .stop .noAccess else .leaf (leafMapping cfg e level r w))
      else .descend
  | .write =>
      if !w then .stop (.fault .writeDenied)
      else if pteReserved cfg e level then .stop (.fault .pageReserved)
      else if isLeaf cfg e level then .leaf (leafMapping cfg e level r w) else .descend
  | .read =>
      if !r then .stop (.fault .readDenied)
      else if pteReserved cfg e level then .stop (.fault .pageReserved)
      else if isLeaf cfg e level then .leaf (leafMapping cfg e level r w) else .descend
  | .zeroRead =>
      if !r && !w then .stop (.fault .readDenied)
      else if pteReserved cfg e level then .stop (.fault .pageReserved)
      else if isLeaf cfg e level then .leaf (leafMapping cfg e level r w) else .descend

/-- What the IOTLB may keep of an entry: a well-formed leaf that leaves some permission (also one that denied the request); with
CAP.CM = 1 also a leaf without permission, one with a reserved bit Set, whatever the request was denied for, and a not-present
entry of any level (R332, R335). R335 gives such an entry no range and no source-id: that it answers for every address that
it spans and for every source-id of the domain is log 25 (DESIGN CHOICE). -/
def cacheableLeaf (cfg : Config) (e : BitVec 64) (level : Nat) (r w : Bool) : Option IotlbContent :=
  if !pteR e && !pteW e then
    if cfg.cm then some (.mapping { hpa := 0, level := level, r := false, w := false, snp := false, tm := false }) else none
  else if !isLeaf cfg e level then none
  else if pteReserved cfg e level then (if cfg.cm then some (.erroneous level r w) else none)
  else if r || w || cfg.cm then some (.mapping (leafMapping cfg e level r w))
  else none

/-- Whether a PDE cache may keep an entry: a present and well-formed non-leaf one; with CAP.CM = 1 any of level 1 or above that
is no super page (R333, R335). Of an entry with R and W Clear nothing else is evaluated (21_structures.md R177, R189): at level
1 or above it is a not-present directory entry, whatever its SP bit is. -/
def pdeCacheable (cfg : Config) (e : BitVec 64) (level : Nat) : Bool :=
  if !pteR e && !pteW e then cfg.cm && decide (1 ≤ level) else !isLeaf cfg e level && (cfg.cm || !pteReserved cfg e level)

/-- The line that a PDE cache may keep of an entry. -/
def cacheablePde (cfg : Config) (did : DomainId) (dva : Nat) (e : BitVec 64) (level : Nat) (rAbove wAbove : Bool) :
    List PdeLine :=
  if pdeCacheable cfg e level then
    [{ did := did, level := level, span := dva / 2 ^ pageBits level, entry := e, r := rAbove, w := wAbove }]
  else []

/-- What a walk is for. -/
structure WalkGoal where
  did : DomainId
  dva : Nat
  need : Need
  /-- The top level of the domain's page tables. -/
  top : Nat
  deriving DecidableEq, Repr

/-- The walk from the table at `base` of level `level` down (R237, R273); `r` and `w` are the cumulative permissions of the
levels above. -/
def State.walkTable (s : State) (vs : List Memory) (g : WalkGoal) : Nat → Nat → Bool → Bool → WalkResult
  | 0, base, r, w =>
      match s.readQuad vs (siteOf 23 0) (base + 8 * tableIndex 0 g.dva) with
      | none => { answer := .fault (if g.top = 0 then .contextInvalid else .tableAccess), leaf := none, tables := [] }
      | some e =>
          { answer :=
              (match entryVerdict s.cfg g.need e 0 (r && pteR e) (w && pteW e) with
               | .stop a => a
               | .leaf m => .mapped m
               | .descend => .noAccess)
            leaf := cacheableLeaf s.cfg e 0 (r && pteR e) (w && pteW e)
            tables := [] }
  | level + 1, base, r, w =>
      match s.readQuad vs (siteOf 23 (level + 1)) (base + 8 * tableIndex (level + 1) g.dva) with
      | none =>
          { answer := .fault (if g.top = level + 1 then .contextInvalid else .tableAccess), leaf := none, tables := [] }
      | some e =>
          match entryVerdict s.cfg g.need e (level + 1) (r && pteR e) (w && pteW e) with
          | .stop a =>
              { answer := a
                leaf := cacheableLeaf s.cfg e (level + 1) (r && pteR e) (w && pteW e)
                tables := cacheablePde s.cfg g.did g.dva e (level + 1) r w }
          | .leaf m =>
              { answer := .mapped m, leaf := cacheableLeaf s.cfg e (level + 1) (r && pteR e) (w && pteW e), tables := [] }
          | .descend =>
              let below := s.walkTable vs g level (nextTable s.cfg e) (r && pteR e) (w && pteW e)
              { below with tables := below.tables ++ cacheablePde s.cfg g.did g.dva e (level + 1) r w }

/-- The walk that starts at a cached non-leaf entry: it replaces the reads of the levels above (R333). -/
def State.walkCached (s : State) (vs : List Memory) (g : WalkGoal) (l : PdeLine) : WalkResult :=
  match entryVerdict s.cfg g.need l.entry l.level (l.r && pteR l.entry) (l.w && pteW l.entry) with
  | .stop a => { answer := a, leaf := none, tables := [] }
  | .leaf m => { answer := .mapped m, leaf := none, tables := [] }
  | .descend => s.walkTable vs g (l.level - 1) (nextTable s.cfg l.entry) (l.r && pteR l.entry) (l.w && pteW l.entry)

/-- The PDE-cache entries that cover the address, below the top of this domain's tables. -/
def State.pdeMatches (s : State) (g : WalkGoal) : List PdeLine :=
  s.cache.pde.filter (fun l =>
    l.did == g.did && decide (1 ≤ l.level) && decide (l.level ≤ g.top) && l.span == g.dva / 2 ^ pageBits l.level)

/-- The walk of a context-entry: from the top, or from a cached non-leaf entry. -/
def State.walk (s : State) (vs : List Memory) (ce : BitVec 128) (dva : Nat) (need : Need) : WalkResult :=
  let g : WalkGoal := { did := ctxDomain s.cfg ce, dva := dva, need := need, top := topLevel (ctxAw ce) }
  match s.pick 24 (s.pdeMatches g) with
  | some l => s.walkCached vs g l
  | none => s.walkTable vs g (topLevel (ctxAw ce)) (ctxRoot s.cfg ce) true true

/-! ## The IOTLB (R332) -/

/-- The IOTLB entries that cover an address in a domain; a faulting one serves its own source-id only. -/
def State.iotlbMatches (s : State) (did : DomainId) (sid : SourceId) (dva : Nat) : List IotlbLine :=
  s.cache.iotlb.filter (fun l =>
    l.did == did && l.page == dva / 2 ^ pageBits l.level && (l.sid == none || l.sid == some sid))

/-- The answer of a cached mapping: permissions are still checked (R260). -/
def mappingAnswer (need : Need) (m : Mapping) : WalkAnswer :=
  if need == .device then (if !m.r && !m.w then .noAccess else .mapped m)
  else if need.permitted m.r m.w then .mapped m
  else .fault need.reason

/-- The fault of a request that meets a cached leaf with a reserved bit Set, in the order of the walk: the permission first
(R237, decision D35), of which a translation request needs none (R273). -/
def erroneousReason (need : Need) (r w : Bool) : FaultReason :=
  if need.permitted r w then .pageReserved else need.reason

/-- The level of the page that an IOTLB entry is for. -/
def IotlbContent.pageLevel : IotlbContent → Nat
  | .mapping m => m.level
  | .erroneous level _ _ => level
  | .fault _ _ => 0

/-- An IOTLB entry of a walk's result. A faulting one (CAP.CM = 1 only) is tagged with the 4KB page of the request: R335 gives it
no range of its own (log 25). -/
def iotlbLineOf (cfg : Config) (did : DomainId) (sid : SourceId) (dva : Nat) (fpd : Bool) (w : WalkResult) :
    Option IotlbLine :=
  match w.leaf with
  | some c =>
      some { did := did, sid := none, level := c.pageLevel, page := dva / 2 ^ pageBits c.pageLevel, content := c }
  | none =>
      match w.answer with
      | .fault r =>
          if cfg.cm && (r == .contextInvalid || r == .tableAccess || r == .pageReserved) then
            some { did := did, sid := some sid, level := 0, page := dva / 4096, content := .fault r fpd }
          else none
      | .mapped _ => none
      | .noAccess => none

/-! ## One translation -/

/-- What a translation found, with what the caches may keep. -/
inductive TransAnswer
  /-- Pass-through: the address is the host physical address (R240). -/
  | passThrough (did : DomainId)
  | mapped (did : DomainId) (m : Mapping)
  | fault (r : FaultReason) (fpd : Bool)
  | noAccess
  deriving DecidableEq, Repr

/-- A translation: its answer and the candidate cache entries. -/
structure Translation where
  answer : TransAnswer
  ctx : Option CtxLine
  iotlb : Option IotlbLine
  pde : List PdeLine
  deriving DecidableEq, Repr

/-- An answer that fills nothing. -/
def Translation.plain (a : TransAnswer) (c : Option CtxLine) : Translation := { answer := a, ctx := c, iotlb := none, pde := [] }

/-- An address beyond the width: reason 4h, or no permission for a translation request (R236, R273). -/
def beyondWidthAnswer (ce : BitVec 128) (need : Need) : TransAnswer :=
  if need == .device then .noAccess else .fault .beyondWidth (ctxFpd ce)

/-- The translation through page tables, after the context lookup. An address beyond MGAW is always blocked (R236,
11_registers_a.md R61). Below it an IOTLB entry answers, from the width check onward (R260, 43 R332), or else the width of the
context-entry is checked and the tables are walked (R232 steps C and D, R273). FPD is that of the context-entry looked up, also
where a cached fault answers (R260: it replaces steps C and D only; 21_structures.md R191). Log 25. -/
def State.translatePage (s : State) (vs : List Memory) (ce : BitVec 128) (sid : SourceId) (dva : Nat) (need : Need)
    (c : Option CtxLine) : Translation :=
  if 2 ^ s.cfg.mgawBits ≤ dva then Translation.plain (beyondWidthAnswer ce need) c
  else match s.pick 25 (s.iotlbMatches (ctxDomain s.cfg ce) sid dva) with
  | some l =>
      (match l.content with
       | .fault r _ => Translation.plain (.fault r (ctxFpd ce)) c
       | .erroneous _ r w => Translation.plain (.fault (erroneousReason need r w) (ctxFpd ce)) c
       | .mapping m =>
           match mappingAnswer need m with
           | .mapped m => Translation.plain (.mapped (ctxDomain s.cfg ce) m) c
           | .fault r => Translation.plain (.fault r (ctxFpd ce)) c
           | .noAccess => Translation.plain .noAccess c)
  | none =>
      if 2 ^ addressWidth s.cfg ce ≤ dva then Translation.plain (beyondWidthAnswer ce need) c
      else
        let w := s.walk vs ce dva need
        { answer :=
            (match w.answer with
             | .mapped m => .mapped (ctxDomain s.cfg ce) m
             | .fault r => .fault r (ctxFpd ce)
             | .noAccess => .noAccess)
          ctx := c
          iotlb := iotlbLineOf s.cfg (ctxDomain s.cfg ce) sid dva (ctxFpd ce) w
          pde := w.tables }

/-- A faulting IOTLB entry of a context lookup, tagged with the domain-id of the present context-entry, or with 0 where there
was none, and with the 4KB page of the request (R335; log 25). -/
def ctxFaultLine (cfg : Config) (did : DomainId) (sid : SourceId) (dva : Nat) (r : FaultReason) (fpd : Bool) :
    Option IotlbLine :=
  if cfg.cm then some { did := did, sid := some sid, level := 0, page := dva / 4096, content := .fault r fpd } else none

/-- Cached faults of context lookups under a domain-id tag (R335; CAP.CM = 1 only). -/
def State.faultMatches (s : State) (did : DomainId) (sid : SourceId) (dva : Nat) : List (FaultReason × Bool) :=
  if s.cfg.cm then
    s.cache.iotlb.filterMap (fun l =>
      match l.content with
      | .fault r fpd => if l.did == did && l.sid == some sid && l.page == dva / 4096 then some (r, fpd) else none
      | .erroneous _ _ _ => none
      | .mapping _ => none)
  else []

/-- The FPD of a cached fault that answers after the lookup of content `k`: that of the context-entry looked up (R260,
21_structures.md R191); where the lookup reached none, the one kept with the cached fault (log 25, DESIGN CHOICE). -/
def CtxContent.fpdOr (kept : Bool) : CtxContent → Bool
  | .entry e => ctxFpd e
  | .fault _ => kept

/-- The answer where the context lookup of content `k` faulted: the fault, or one cached for the present context-entry. -/
def State.contextFault (s : State) (k : CtxContent × Option CtxLine) (sid : SourceId) (dva : Nat) (r : FaultReason)
    (fpd : Bool) : Translation :=
  match s.pick 31 (s.faultMatches (k.1.domain s.cfg) sid dva) with
  | some (r, kept) => Translation.plain (.fault r (k.1.fpdOr kept)) k.2
  | none => { Translation.plain (.fault r fpd) k.2 with iotlb := ctxFaultLine s.cfg (k.1.domain s.cfg) sid dva r fpd }

/-- `remap` and `translate_for_device` (R232, R273): the translation of the address `dva` of the device `sid`. -/
def State.translate (s : State) (vs : List Memory) (rtp : PageNumber) (sid : SourceId) (dva : Nat) (need : Need) :
    Translation :=
  match s.pick 26 (s.faultMatches 0 sid dva) with
  | some (r, fpd) => Translation.plain (.fault r fpd) none
  | none =>
      match contentAnswer s.cfg (s.contextContent vs rtp sid).1 with
      | .fault r fpd => s.contextFault (s.contextContent vs rtp sid) sid dva r fpd
      | .entry ce =>
          if need == .device && !(ctxType ce == 1) then
            Translation.plain (.fault .typeBlocked (ctxFpd ce)) (s.contextContent vs rtp sid).2
          else if ctxType ce == 2 then
            if 2 ^ s.cfg.mgawBits ≤ dva then
              Translation.plain (.fault .beyondWidth (ctxFpd ce)) (s.contextContent vs rtp sid).2
            else Translation.plain (.passThrough (ctxDomain s.cfg ce)) (s.contextContent vs rtp sid).2
          else s.translatePage vs ce sid dva need (s.contextContent vs rtp sid).2

/-- What a prefetch may find for a device's address: the context-entry, and through it a translation; what it does not find it
leaves (21_structures.md R173, 40_dma_remapping.md R255). -/
def State.prefetched (s : State) (vs : List Memory) (rtp : PageNumber) (sid : SourceId) (dva : Nat) : Option Translation :=
  match contentAnswer s.cfg (s.contextContent vs rtp sid).1 with
  | .fault _ _ => none
  | .entry ce =>
      if ctxUsesTables ce then some (s.translatePage vs ce sid dva .device (s.contextContent vs rtp sid).2)
      else some (Translation.plain (.passThrough (ctxDomain s.cfg ce)) (s.contextContent vs rtp sid).2)

/-- Each candidate PDE-cache entry is kept or not. -/
def State.fillPdes (s : State) : Nat → List PdeLine → List PdeLine → List PdeLine
  | _, [], held => held
  | k, l :: rest, held => s.fillPdes (k + 1) rest (s.fill (siteOf 29 k) (some l) held)

/-- The caches after a translation. -/
def State.fillCaches (s : State) (t : Translation) : State :=
  { s with
    cache := { s.cache with
      ctx := s.fill 27 t.ctx s.cache.ctx
      iotlb := s.fill 28 t.iotlb s.cache.iotlb
      pde := s.fillPdes 0 t.pde s.cache.pde } }

/-- The context-entry that a translated request is checked against, with the entry that may be kept (41_device_iotlb.md
R282). -/
def State.checkTranslated (s : State) (vs : List Memory) (rtp : PageNumber) (sid : SourceId) : CtxAnswer × Option CtxLine :=
  match contentAnswer s.cfg (s.contextContent vs rtp sid).1 with
  | .fault r fpd => (.fault r fpd, (s.contextContent vs rtp sid).2)
  | .entry ce =>
      if ctxType ce == 1 then (.entry ce, (s.contextContent vs rtp sid).2)
      else (.fault .typeBlocked (ctxFpd ce), (s.contextContent vs rtp sid).2)

end Sys2Proof.Machine
end

