-- ==== Sys2Proof/Machine/Requests.lean ====
section
/-! DEFINITION. Inbound DMA requests: classification (spec 30_encoding.md R200 to R203), untranslated requests
(40_dma_remapping.md R230 to R258), translated requests (41_device_iotlb.md R282 to R285). -/

namespace Sys2Proof.Machine

/-! ## The request (R200, R203) -/

/-- Four byte enables. -/
def enableBits (b : BitVec 4) : List Bool := [b.getLsbD 0, b.getLsbD 1, b.getLsbD 2, b.getLsbD 3]

/-- The byte enables of the whole request. -/
def Request.enables (r : Request) : List Bool :=
  match r.lenDw with
  | 0 => []
  | 1 => enableBits r.firstBe
  | n + 2 => enableBits r.firstBe ++ (List.replicate (4 * n) true ++ enableBits r.lastBe)

/-- The address of the request's first byte: all 64 bits as the request carries them, so bits 11:0 pass through unchanged
(20_memory.md R146). R200 gives a length in doublewords and byte enables, and does not say which bytes they are for where address
bits 1:0 are not 0: the model counts both from the address itself (log 52, DESIGN CHOICE). -/
def Request.base (r : Request) : Nat := r.addr.toNat

/-- The bytes that the request covers. -/
def Request.size (r : Request) : Nat := 4 * r.lenDw

/-- A zero-length read (R250). -/
def Request.isZlr (r : Request) : Bool := r.kind == .read && r.lenDw == 1 && r.firstBe == 0

/-- The address lies in FEE0_0000h to FEEF_FFFFh, upper bits zero (20_memory.md R147). -/
def Request.inInterruptRange (r : Request) : Bool := r.addr.extractLsb' 20 44 == 0xFEE

/-- An interrupt request: an untranslated write of one doubleword to the range (R200, R300). -/
def Request.isInterrupt (r : Request) : Bool :=
  r.kind == .write && r.lenDw == 1 && r.inInterruptRange && r.atype == 0

/-- The request crosses a 4KB boundary (R252). -/
def Request.crossesPage (r : Request) : Bool := decide (4096 < r.base % 4096 + r.size)

/-- A malformed packet (R203). A request of no doubleword, or whose data is not its length, is none that the bus carries:
treated alike (log 17). -/
def Request.malformed (cfg : Config) (r : Request) : Bool :=
  r.atype == 3
  || (r.kind == .write && r.atype == 1)
  || (r.kind == .read && r.atype == 1
        && (r.lenDw % 2 == 1 || decide (cfg.rcb / 4 < r.lenDw) || !(r.firstBe == 15) || !(r.lastBe == 15)))
  || r.lenDw == 0
  || (r.kind == .write && !(r.data.length == 4 * r.lenDw))

/-- A part of a request within one page. -/
structure Piece where
  addr : Nat
  enables : List Bool
  data : List Byte
  deriving DecidableEq, Repr

/-- `split` (R252): cut at every 4KB boundary; `fuel` bounds the number of pieces. -/
def splitPieces : Nat → Nat → List Bool → List Byte → List Piece
  | 0, _, _, _ => []
  | fuel + 1, a, es, ds =>
      if es.isEmpty then []
      else { addr := a, enables := es.take (4096 - a % 4096), data := ds.take (4096 - a % 4096) }
        :: splitPieces fuel (a + (4096 - a % 4096)) (es.drop (4096 - a % 4096)) (ds.drop (4096 - a % 4096))

/-- The pieces of a request. -/
def Request.pieces (r : Request) : List Piece := splitPieces (r.lenDw + 1) r.base r.enables r.data

/-- The permission that the request needs (R238, R250). -/
def Request.need (cfg : Config) (r : Request) : Need :=
  match r.kind with
  | .write => .write
  | .read => if r.isZlr && cfg.zlr then .zeroRead else .read

/-! ## Forwarding (R256, R257) -/

/-- Forward a piece to a host physical address: system memory takes it as an in-flight request; anything else is outside the
unit (R240, R257; 20_memory.md R147 item 4). An address remapped to FEEx_xxxxh has no behaviour (U5). A piece whose bytes lie
partly in system memory, also one that starts below FEEx_xxxxh and runs into it, goes to the peer whole: R257 says nothing of
such a piece (log 36, DESIGN CHOICE). Hardware is free to limit or to disallow peer-to-peer accesses (R147 item 4): the model
always forwards to a peer address, and offers no blocking there (log 36, DESIGN CHOICE). -/
def State.forward (s : State) (r : Request) (p : Piece) (hpa : Nat) (did : Option DomainId) (snoop : Bool) : Result :=
  if meetsInterruptRange hpa 1 then .refused .interruptRangeTarget
  else if meetsRegisterPages s.cfg hpa p.enables.length then .refused .registerPageDma
  else
    let f : InFlight := { kind := r.kind, atype := r.atype, sid := r.sid, did := did, dva := p.addr, hpa := hpa,
                          enables := p.enables, data := p.data, snoop := snoop }
    if isSystemMemory s.cfg hpa p.enables.length then .next { s with inflight := s.inflight ++ [f] }
    else .next (s.emit (.peer f))

/-- Forward a translated piece; while the protected regions are enabled hardware may block it instead (U9). -/
def State.forwardRemapped (s : State) (r : Request) (p : Piece) (hpa : Nat) (did : Option DomainId) (snoop : Bool) :
    Result :=
  if s.prs && overlapsProtected s.cfg s.reg hpa p.enables.length && s.coin 30 then
    .next (s.tick.disposeBlocked r p.addr p.enables.length)
  else s.tick.forward r p hpa did snoop

/-! ## Untranslated requests (R230 to R241) -/

/-- The whole request as one piece. -/
def Request.whole (r : Request) : Piece := { addr := r.base, enables := r.enables, data := r.data }

/-- `process_disabled` (R231). A request that starts outside FEEx_xxxxh and runs into it: a read is answered Unsupported Request
whole, a write is forwarded whole (log 47, DESIGN CHOICE). -/
def State.processDisabled (s : State) (r : Request) : Result :=
  if s.prs && overlapsProtected s.cfg s.reg r.base r.size then .next (s.disposeBlocked r r.base r.size)
  else if r.kind == .read && meetsInterruptRange r.base r.size then .next (s.emit (.readError r.sid r.base))
  else s.forward r r.whole r.base none (!r.ns)

/-- The decision for one piece of an untranslated request while remapping is enabled (R230, R232). -/
def State.processPiece (s : State) (r : Request) (vs : List Memory) (p : Piece) : Result :=
  if r.kind == .read && meetsInterruptRange p.addr 1 then .next (s.emit (.readError r.sid p.addr))
  else if s.cfg.mgawAer && decide (2 ^ s.cfg.mgawBits ≤ p.addr) then
    .next (s.disposeBlocked r p.addr p.enables.length)
  else match s.latch.rtp with
    | none => .refused .pointerNeverSet
    | some rtp =>
        let t := s.translate vs rtp r.sid p.addr (r.need s.cfg)
        match t.answer with
        | .passThrough did => (s.fillCaches t).tick.forwardRemapped r p p.addr (some did) (!r.ns)
        | .mapped did m =>
            (s.fillCaches t).tick.forwardRemapped r p (m.hpa + p.addr % 2 ^ pageBits m.level) (some did) (m.snp || !r.ns)
        | .fault reason fpd =>
            .next (((s.fillCaches t).tick.raiseDmaFault reason fpd r.sid p.addr (r.kind == .read) r.atype).disposeBlocked r
              p.addr p.enables.length)
        | .noAccess => .next ((s.fillCaches t).tick.disposeBlocked r p.addr p.enables.length)

/-- Every piece on its own, in order (R252). -/
def State.processPieces (s : State) (r : Request) (vs : List Memory) : List Piece → Result
  | [] => .next s
  | p :: ps => andThen (s.processPiece r vs p) (fun u => u.processPieces r vs ps)

/-- `process_untranslated` (R230). What the platform blocks never reaches the unit (R252). A write of several doublewords that
starts in the interrupt range is the one request that the spec gives no meaning (R200, N9: `refuse`). One that starts at any other
address is an untranslated DMA request (R200): it is split and remapped piece by piece, a piece in the range like any other (R230,
R252; log 47). -/
def State.processUntranslated (s : State) (r : Request) (vs : List Memory) : Result :=
  if r.kind == .read && r.inInterruptRange then .next (s.emit (.readError r.sid r.base))
  else if r.crossesPage && s.cfg.crossPage == .platformBlocks then .next (s.disposeBlocked r r.base r.size)
  else if r.kind == .write && r.inInterruptRange then .refused .interruptRangeWrite
  else if s.tes then s.processPieces r vs r.pieces
  else s.processDisabled r

/-! ## Translated requests (R282 to R285) -/

/-- A translated request answered Unsupported Request, unrecorded (R279, R284, R285). -/
def State.refuseTranslated (s : State) (r : Request) : State :=
  match r.kind with
  | .write => s.emit (.writeDropped r.sid r.base)
  | .read => s.emit (.readError r.sid r.base)

/-- `process_translated` (R282). A request that crosses a 4KB page is taken whole where the platform does not block it, and is
refused whole where a byte of it meets FEEx_xxxxh (log 47). -/
def State.processTranslated (s : State) (r : Request) (vs : List Memory) : Result :=
  if !s.tes then .next (s.refuseTranslated r)
  else if meetsInterruptRange r.base r.size then .next (s.refuseTranslated r)
  else if r.crossesPage && s.cfg.crossPage == .platformBlocks then .next (s.disposeBlocked r r.base r.size)
  else if 2 ^ s.cfg.mgawBits ≤ r.addr.toNat then .next (s.refuseTranslated r)
  else match s.latch.rtp with
    | none => .refused .pointerNeverSet
    | some rtp =>
        let c := s.checkTranslated vs rtp r.sid
        let filled := ({ s with cache := { s.cache with ctx := s.fill 27 c.2 s.cache.ctx } }).tick
        match c.1 with
        | .entry _ => filled.forwardRemapped r r.whole r.base none (!r.ns)
        | .fault reason fpd =>
            .next ((filled.raiseDmaFault reason fpd r.sid r.addr.toNat (r.kind == .read) r.atype).disposeBlocked r r.base r.size)

/-! ## Prefetch -/

/-- Hardware may pre-fetch and cache valid translations; a fault met there is ignored (21_structures.md R173 ALH,
40_dma_remapping.md R255). The model lets it do so whatever ALH and ECAP.CH are, and while TES = 0 (log 25). -/
def State.prefetch (s : State) (sid : SourceId) (dva : Nat) (vs : List Memory) : State :=
  match s.latch.rtp with
  | none => s
  | some rtp =>
      match s.prefetched vs rtp sid dva with
      | none => s
      | some t =>
          match t.answer with
          | .mapped _ _ => (s.fillCaches t).tick
          | .passThrough _ => (s.fillCaches t).tick
          | .fault _ _ => s
          | .noAccess => s

end Sys2Proof.Machine
end

