-- ==== Sys2Proof/Machine/Ats.lean ====
section
/-! DEFINITION. Device-IOTLB support: translation requests (spec 41_device_iotlb.md R272 to R278) and the Device-IOTLB
invalidation tracker (R290 to R293; 44_queued_invalidation.md R404 to R406). -/

namespace Sys2Proof.Machine

/-! ## Translation requests -/

/-- The completion status of a faulting translation request (R274). -/
def FaultReason.completion : FaultReason → Completion
  | .rootNotPresent => .unsupportedRequest
  | .contextNotPresent => .unsupportedRequest
  | .typeBlocked => .unsupportedRequest
  | .contextInvalid => .completerAbort
  | .beyondWidth => .completerAbort
  | .writeDenied => .completerAbort
  | .readDenied => .completerAbort
  | .tableAccess => .completerAbort
  | .rootAccess => .completerAbort
  | .contextAccess => .completerAbort
  | .rootReserved => .completerAbort
  | .contextReserved => .completerAbort
  | .pageReserved => .completerAbort
  | .requestReserved => .completerAbort
  | .indexTooLarge => .completerAbort
  | .irteNotPresent => .completerAbort
  | .irteAccess => .completerAbort
  | .irteReserved => .completerAbort
  | .compatibilityBlocked => .completerAbort
  | .sourceIdMismatch => .completerAbort

/-- The null entry (R275): the rule gives R = W = U = S = 0; N and the address are free (log 23). -/
def State.nullEntry (s : State) : TranslationEntry where
  r := false
  w := false
  n := s.coin 55
  u := false
  s := false
  addr := s.free 50

/-- The low address bits of a super page's entry: bits N-2:12 are 1 and bit N-1 is 0 for 2^N bytes (30_encoding.md R207). -/
def sizeMarker (level : Nat) : Nat := if level = 0 then 0 else 2 ^ (pageBits level - 1) - 4096

/-- The entry of a mapping (R275). With U Set its address is not specified: free. -/
def State.entryOf (s : State) (m : Mapping) : TranslationEntry where
  r := m.r
  w := m.w
  n := m.snp
  u := m.tm
  s := decide (1 ≤ m.level)
  addr := if m.tm then s.free 50 else m.hpa + sizeMarker m.level

/-- The entry for the interrupt address range (R277): the rule gives R, W, U and S; N and the address are free (log 23). -/
def State.interruptEntry (s : State) : TranslationEntry where
  r := false
  w := true
  n := s.coin 55
  u := true
  s := false
  addr := s.free 50

/-- The header of a completion of `n` entries. One translation for a request of several has 2 doublewords, 8 bytes and RCB minus
8 (R207, R278 item 1). For the others the manual gives none of the three: an entry is 2 doublewords, and the byte count and
the lower address are free (log 23). -/
def State.completionHeader (s : State) (r : Request) (n : Nat) : CompletionHeader :=
  if n = 1 ∧ 2 < r.lenDw then { lengthDw := 2, byteCount := 8, lowerAddress := s.cfg.rcb - 8 }
  else { lengthDw := 2 * n, byteCount := s.free 56, lowerAddress := s.free 57 }

/-- Further entries of a multiple-translation completion (R278): up to `fuel` more, of one page size, contiguous, as many as
hardware likes; it stops before a fault, unrecorded (decision D21), before another page size, and before a page in FEEx_xxxxh:
R278 says nothing of the range, and that no further entry is for it, whatever the number drawn, is the model's choice (log 23,
DESIGN CHOICE). A null entry counts as a 4KB one (log 23). -/
def State.moreEntries (s : State) (vs : List Memory) (rtp : PageNumber) (sid : SourceId) (level : Nat) :
    Nat → Nat → List TranslationEntry → State × List TranslationEntry
  | 0, _, acc => (s, acc)
  | fuel + 1, addr, acc =>
      let t := s.translate vs rtp sid addr .device
      if s.coin 51 || meetsInterruptRange addr 1 then (s.tick, acc)
      else match t.answer with
        | .mapped _ m =>
            if m.level = level then
              ((s.fillCaches t).tick).moreEntries vs rtp sid level fuel (addr + 2 ^ pageBits level) (acc ++ [s.entryOf m])
            else (s.tick, acc)
        | .noAccess =>
            if level = 0 then ((s.fillCaches t).tick).moreEntries vs rtp sid level fuel (addr + 4096) (acc ++ [s.nullEntry])
            else (s.tick, acc)
        | .passThrough _ => (s.tick, acc)
        | .fault _ _ => (s.tick, acc)

/-- A successful completion that starts with `e`, a translation of pages of `level` (R278). -/
def State.completeTranslation (s : State) (r : Request) (vs : List Memory) (rtp : PageNumber) (level : Nat)
    (e : TranslationEntry) : State :=
  match s.cfg.multiTranslation with
  | .single => (s.emit (.translation r.sid (.success (s.completionHeader r 1) [e]))).tick
  | .multiple =>
      let more := s.moreEntries vs rtp r.sid level (r.lenDw / 2 - 1) (r.addr.toNat + 2 ^ pageBits level) [e]
      (more.1.emit (.translation r.sid (.success (more.1.completionHeader r more.2.length) more.2))).tick

/-- `process_translation_request` (R272, R279). The interrupt range is answered first (R277, decision D20), also by a unit with
ECAP.DI = 0, of which R277 does not speak (log 23, DESIGN CHOICE). -/
def State.processTranslationRequest (s : State) (r : Request) (vs : List Memory) : Result :=
  if !s.tes then .next (s.emit (.translation r.sid .unsupportedRequest))
  else if r.inInterruptRange then .next ((s.emit (.translation r.sid (.success (s.completionHeader r 1) [s.interruptEntry]))).tick)
  else match s.latch.rtp with
    | none => .refused .pointerNeverSet
    | some rtp =>
        let t := s.translate vs rtp r.sid r.addr.toNat .device
        match t.answer with
        | .fault reason fpd =>
            .next (((s.fillCaches t).tick.raiseDmaFault reason fpd r.sid r.addr.toNat true r.atype).emit
              (.translation r.sid reason.completion))
        | .noAccess => .next ((s.fillCaches t).tick.completeTranslation r vs rtp 0 s.nullEntry)
        | .mapped _ m => .next ((s.fillCaches t).tick.completeTranslation r vs rtp m.level (s.entryOf m))
        | .passThrough _ => .next (s.emit (.translation r.sid .unsupportedRequest))

/-! ## The invalidation tracker -/

/-- Tag `i`, where it is allocated (R290). -/
def State.tag (s : State) (i : Nat) : Option ITag := (s.itags[i]?).getD none

/-- The free tags. -/
def State.freeTags (s : State) : List Nat := (List.range s.itags.length).filter (fun i => (s.tag i).isNone)

/-- The tag that a request takes: some free tag, which one is hardware's choice (R291; log 29). -/
def State.freeTag (s : State) : Option Nat :=
  match s.freeTags with
  | [] => none
  | [i] => some i
  | i :: j :: rest => some ((i :: j :: rest).getD (s.free 54 % (rest.length + 2)) i)

/-- The tags allocated to a device. -/
def State.tagsOf (s : State) (sid : SourceId) : Nat :=
  s.itags.countP (fun t => match t with | some t => t.sid == sid | none => false)

/-- `issue` (R291): a free tag is allocated, its timer starts, an ATS Invalidation Request is sent; with no free tag the
request is deferred. -/
def State.issueDeviceInvalidation (s : State) (sid : SourceId) (sbit : Bool) (addr : PageNumber) : State :=
  match s.freeTag with
  | none => s
  | some i =>
      (({ s with itags := s.itags.set i (some { sid := sid, count := 0, seq := s.iq.current }) }).emit
        (.invRequest sid i addr sbit)).tick

/-- Completion count 0 means 8 (30_encoding.md R206). -/
def expectedCompletions (cc : BitVec 3) : Nat := if cc = 0 then 8 else cc.toNat

/-- Some bit of the vector names a tag that is free or belongs to another device (R292). A Set bit at or above N_ITAGS, beyond the
vector of 30_encoding.md R206, counts as a free tag: the message is dropped with ICE (log 29, DESIGN CHOICE). -/
def State.badVector (s : State) (sid : SourceId) (vec : BitVec 32) : Bool :=
  (List.range 32).any (fun i => vec.getLsbD i && !(((s.tag i).map ITag.sid) == some sid))

/-- The tag after one more completion: free when the count is reached. -/
def countTag (vec : BitVec 32) (cc : BitVec 3) (i : Nat) (t : Option ITag) : Option ITag :=
  match t with
  | none => none
  | some t =>
      if vec.getLsbD i then
        (if t.count + 1 = expectedCompletions cc then none else some { t with count := t.count + 1 })
      else some t

/-- The descriptors whose tag this message completes. -/
def State.completedBy (s : State) (vec : BitVec 32) (cc : BitVec 3) : List Nat :=
  (List.range s.itags.length).filterMap (fun i =>
    match s.tag i with
    | none => none
    | some t => if vec.getLsbD i && t.count + 1 == expectedCompletions cc then some t.seq else none)

/-- The translated requests of a device complete: its Invalidation Completion drains its reads and pushes its writes
(20_memory.md R163, R166, R295; log 29). -/
def State.pushTranslated (s : State) (sid : SourceId) : State := s.drainWhere (fun f => f.atype == 2 && f.sid == sid)

/-- `on_completion` (R292); Unsupported Request while TES = 0 (R279) or without Device-IOTLB support. An invalid message is
dropped and raises ICE (44_queued_invalidation.md R406). No scope is tested: 50 R456 speaks of requests, and a message from a
source-id outside the unit's scope is processed like any other (log 38, DESIGN CHOICE). -/
def State.atsCompletion (s : State) (sid : SourceId) (vec : BitVec 32) (cc : BitVec 3) : State :=
  if !s.tes || !s.cfg.di then s.emit (.unsupported sid)
  else if s.badVector sid vec then s.raiseIce
  else
    { s.pushTranslated sid with
      itags := s.itags.mapIdx (countTag vec cc)
      iq := { s.iq with
        pending := s.iq.pending.filter (fun p => !(s.completedBy vec cc).contains p.seq)
        lastWait := s.iq.lastWait && (s.completedBy vec cc).isEmpty } }

/-- The request of a descriptor was issued and is not answered. -/
def State.issued (s : State) (seq : Nat) : Bool :=
  s.itags.any (fun t => match t with | some t => t.seq == seq | none => false)

/-- A Device-IOTLB descriptor at or ahead of `seq` is pending: `seq` is at or behind the oldest. -/
def State.behindDevInv (s : State) (seq : Nat) : Bool :=
  s.iq.pending.any (fun p => isDevInv p.instr && decide (p.seq ≤ seq))

/-- The descriptors that a time-out of the descriptor `failed` leaves (44_queued_invalidation.md R405): waits are aborted,
the failed one is removed, each other one at or behind the oldest pending Device-IOTLB descriptor stays or is dropped, freely,
and those ahead of it stay. -/
def State.survivesTimeout (s : State) (failed : Nat) (p : Pending) : Bool :=
  !isWait p.instr && !(p.seq == failed) && (!s.behindDevInv p.seq || s.coin (siteOf 52 p.seq))

/-- `on_timeout` (R293): an event of the environment, for an allocated tag only (decision D22). Every other tag stays allocated,
also of a descriptor that is dropped (log 29). -/
def State.timeout (s : State) (i : Nat) : State :=
  match s.tag i with
  | none => s
  | some t =>
      (({ s with
          itags := s.itags.set i none
          iq := { s.iq with pending := s.iq.pending.filter (s.survivesTimeout t.seq) } }).raiseIte).tick

end Sys2Proof.Machine
end

