-- ==== Sys2Proof/Machine/QueueDescriptors.lean ====
section
/-! DEFINITION. The meanings of the five invalidation descriptors (spec 44_queued_invalidation.md R380 to R397). Fetching,
ordering and retirement are the queue engine's (Machine/Engine.lean). -/

namespace Sys2Proof.Machine

/-- cc_inv_dsc (R380, R381): the context-cache removal, with nothing reported back. -/
def execCcInvDsc (g : BitVec 2) (did : DomainId) (sid : SourceId) (fm : BitVec 2) (s : State) : Result :=
  .next (s.invalidateContext g did sid fm)

/-- iotlb_inv_dsc (R383, R384): the removal and the drain of the register command with IIRG := G, nothing reported. -/
def execIotlbInvDsc (g : BitVec 2) (dw dr : Bool) (did : DomainId) (am : BitVec 6) (ih : Bool) (addr : PageNumber)
    (s : State) : Result :=
  .next (s.invalidateIotlb false (g.setWidth 3) dr dw did addr am ih)

/-- Hardware may throttle the requests to a device that has MaxInvsPend of them pending (41_device_iotlb.md R291); 0 means
32, which is every tag. -/
def throttled (maxInvsPend : BitVec 5) (sid : SourceId) (s : State) : Bool :=
  !(maxInvsPend == 0) && decide (maxInvsPend.toNat ≤ s.tagsOf sid) && s.coin 53

/-- dev_iotlb_inv_dsc (R386, 41_device_iotlb.md R291): issue the request, or defer it. The descriptor completes when its tag
is freed (R292). -/
def execDevIotlbInvDsc (maxInvsPend : BitVec 5) (sid : SourceId) (sbit : Bool) (addr : PageNumber) (s : State) : Result :=
  if throttled maxInvsPend sid s then .next s.tick else .next (s.issueDeviceInvalidation sid sbit addr)

/-- iec_inv_dsc (R390, R391): the interrupt entry cache removal and the interrupt drain. -/
def execIecInvDsc (g : Bool) (im : BitVec 5) (iidx : BitVec 16) (s : State) : Result :=
  .next (s.invalidateIec g im iidx)

/-- The status write of a wait descriptor, issued and not yet visible (R396). -/
def postStatus (statusData : BitVec 32) (statusAddr : BitVec 62) (s : State) : State :=
  { s with posted := s.posted ++ [.statusWrite (statusAddr.toNat * 4) statusData] }

/-- inv_wait_dsc (R395 to R397): the status write, then the completion event. A status address that is not memory is
refused (U6). -/
def execInvWaitDsc (iflag sw _fn : Bool) (statusData : BitVec 32) (statusAddr : BitVec 62) (s : State) : Result :=
  if sw && !unitWritable s.cfg (statusAddr.toNat * 4) 4 then .refused .unitWriteError
  else
    let t := if sw then postStatus statusData statusAddr s else s
    .next (if iflag then t.completeWithInterrupt else t)

end Sys2Proof.Machine
end

