-- ==== Sys2Proof/Machine/RegisterInvalidation.lean ====
section
/-! DEFINITION. The meanings of the register-based invalidation commands (spec 43_caching_and_register_invalidation.md R340,
R345): the step that performs the pending command and reports it. -/

namespace Sys2Proof.Machine

/-- CCMD_REG reports the completion: ICC <- 0, CAIG <- the granularity performed (R340). -/
def State.reportContext (s : State) (performed : Option CtxGran) : State :=
  { s with reg := { s.reg with ccmd := setField (setBit s.reg.ccmd 63 false) 59 (ctxGranCode performed) } }

/-- IOTLB_REG reports the completion: IVT <- 0, IAIG <- the granularity performed (R345). -/
def State.reportIotlb (s : State) (performed : Option IotlbGran) : State :=
  { s with reg := { s.reg with iotlb := setField (setBit s.reg.iotlb 63 false) 57 (iotlbGranCode performed) } }

/-- CCMD.ICC (R340). -/
def execCcmdIcc (cirg : BitVec 2) (fm : BitVec 2) (sid : SourceId) (did : DomainId) (s : State) : Result :=
  .next ((s.invalidateContext cirg did sid fm).reportContext (s.contextGranularity cirg))

/-- IVA_REG.ADDR, AM and IH (11_registers_a.md R68). -/
def ivaAddr (iva : BitVec 64) : PageNumber := iva.extractLsb' 12 52
def ivaMask (iva : BitVec 64) : BitVec 6 := iva.extractLsb' 0 6
def ivaHint (iva : BitVec 64) : Bool := iva.getLsbD 6

/-- IOTLB.IVT (R345): the page operands are those of IVA_REG. -/
def execIotlbIvt (iirg : BitVec 3) (dr dw : Bool) (did : DomainId) (s : State) : Result :=
  .next ((s.invalidateIotlb true iirg dr dw did (ivaAddr s.reg.iva) (ivaMask s.reg.iva) (ivaHint s.reg.iva)).reportIotlb
    (s.iotlbGranularity true iirg (ivaMask s.reg.iva)))

end Sys2Proof.Machine
end

