-- ==== Sys2Proof/Machine/Dispatch.lean ====
section
/-! DEFINITION. One arm per instruction. -/

namespace Sys2Proof.Machine

def exec (i : Instr) (s : State) : Host.Outcome State Fault Refusal :=
  match i with
  | .ccInvDsc g did sid fm => Sys2Proof.Machine.execCcInvDsc g did sid fm s
  | .iotlbInvDsc g dw dr did am ih addr => Sys2Proof.Machine.execIotlbInvDsc g dw dr did am ih addr s
  | .devIotlbInvDsc mip sid sbit addr => Sys2Proof.Machine.execDevIotlbInvDsc mip sid sbit addr s
  | .iecInvDsc g im iidx => Sys2Proof.Machine.execIecInvDsc g im iidx s
  | .invWaitDsc iflag sw fn sdata saddr => Sys2Proof.Machine.execInvWaitDsc iflag sw fn sdata saddr s
  | .gcmdTe b => Sys2Proof.Machine.execGcmdTe b s
  | .gcmdSrtp => Sys2Proof.Machine.execGcmdSrtp s
  | .gcmdSfl => Sys2Proof.Machine.execGcmdSfl s
  | .gcmdEafl b => Sys2Proof.Machine.execGcmdEafl b s
  | .gcmdWbf => Sys2Proof.Machine.execGcmdWbf s
  | .gcmdQie b => Sys2Proof.Machine.execGcmdQie b s
  | .gcmdIre b => Sys2Proof.Machine.execGcmdIre b s
  | .gcmdSirtp => Sys2Proof.Machine.execGcmdSirtp s
  | .gcmdCfi b => Sys2Proof.Machine.execGcmdCfi b s
  | .ccmdIcc cirg fm sid did => Sys2Proof.Machine.execCcmdIcc cirg fm sid did s
  | .iotlbIvt iirg dr dw did => Sys2Proof.Machine.execIotlbIvt iirg dr dw did s
  | .pmenEpm b => Sys2Proof.Machine.execPmenEpm b s

end Sys2Proof.Machine
end

