-- ==== Sys2Proof/Machine/Interrupts.lean ====
section
/-! DEFINITION. Interrupt requests and interrupt remapping (spec 42_interrupt_remapping.md R300 to R325), and software's
encodings of an index into an interrupt source (R316 to R318). -/

namespace Sys2Proof.Machine

/-! ## The Remappable format (30_encoding.md R205) -/

/-- Handle: address bit 2, then address bits 19:5. -/
def irqHandle (addr : BitVec 64) : BitVec 16 := addr.extractLsb' 2 1 ++ addr.extractLsb' 5 15
/-- SubHandle Valid. -/
def irqShv (addr : BitVec 64) : Bool := addr.getLsbD 3
/-- The Interrupt Format bit. -/
def irqRemappable (addr : BitVec 64) : Bool := addr.getLsbD 4
def irqSubhandle (data : BitVec 32) : BitVec 16 := data.extractLsb' 0 16
/-- Reserved data bits are Set: only where SHV is Set (R306). -/
def irqReserved (addr : BitVec 64) (data : BitVec 32) : Bool := irqShv addr && !(data.extractLsb' 16 16 == 0)

/-- `interrupt_index` (R308), a sum in the naturals (decision D23). -/
def interruptIndex (addr : BitVec 64) (data : BitVec 32) : Nat :=
  if irqShv addr then (irqHandle addr).toNat + (irqSubhandle data).toNat else (irqHandle addr).toNat

/-! ## Processing (R300, R305) -/

/-- The doubleword of an interrupt request. -/
def Request.irqData (r : Request) : BitVec 32 := BitVec.ofNat 32 (natOfBytes (r.data.take 4))

/-- A processed interrupt joins the in-flight set until it is accepted (R312, 10_state.md R33). -/
def State.sendInterrupt (s : State) (index : Option Nat) (m : IrqMessage) : State :=
  { s with irqs := s.irqs ++ [{ index := index, message := m }] }

/-- The request goes on unchanged (R303, R304). -/
def State.forwardInterrupt (s : State) (r : Request) : State :=
  s.sendInterrupt none (.forwarded r.sid r.addr r.irqData)

/-- A blocked interrupt request is not delivered; the source is told nothing (R305). -/
def State.blockInterrupt (s : State) (r : Request) (reason : FaultReason) (fpd : Bool) (index : Option Nat) : State :=
  (s.raiseInterruptFault reason fpd r.sid index).emit (.writeDropped r.sid r.base)

/-- The checks on an IRTE (R305): present, reserved bits, source-id. -/
def irteFault (cfg : Config) (e : BitVec 128) (sid : SourceId) : Option FaultReason :=
  if !irtePresent e then some .irteNotPresent
  else if irteReserved cfg e then some .irteReserved
  else if !irteSidOk e sid then some .sourceIdMismatch
  else none

/-- The IRTE of an index: from the interrupt entry cache or from the table (R309). -/
def State.readIrte (s : State) (vs : List Memory) (p : InterruptTablePointer) (index : Nat) : Option (BitVec 128) :=
  match s.pick 40 (s.cache.iec.filter (fun l => l.index == index)) with
  | some l => some l.entry
  | none => s.readEntry vs 41 (p.base.toNat * 4096 + 16 * index)

/-- An IRTE that was used may be kept in the IEC; with CAP.CM = 1 a faulting one too (R334, R335). A line holds an IRTE,
so a fault that none was read for is never kept: that an access error (23h) is met afresh by each request, also with CAP.CM = 1, is
the model's choice (log 25, DESIGN CHOICE). -/
def State.fillIec (s : State) (index : Nat) (e : BitVec 128) (sid : SourceId) : State :=
  { s with
    cache := { s.cache with
      iec := s.fill 42 (if (irteFault s.cfg e sid).isNone || s.cfg.cm then some { index := index, entry := e } else none)
        s.cache.iec } }

/-- `remap_interrupt` (R305). -/
def State.remapInterrupt (s : State) (r : Request) (vs : List Memory) : Result :=
  if irqReserved r.addr r.irqData then .next (s.blockInterrupt r .requestReserved false none)
  else match s.latch.irtp with
    | none => .refused .pointerNeverSet
    | some p =>
        let index := interruptIndex r.addr r.irqData
        if 2 ^ (p.size.toNat + 1) ≤ index then .next (s.blockInterrupt r .indexTooLarge false (some index))
        else match s.readIrte vs p index with
          | none => .next (s.blockInterrupt r .irteAccess false (some index))
          | some e =>
              match irteFault s.cfg e r.sid with
              | some reason => .next ((s.fillIec index e r.sid).tick.blockInterrupt r reason (irteFpd e) (some index))
              | none =>
                  .next ((s.fillIec index e r.sid).tick.sendInterrupt (some index) (.remapped (remappedInterrupt s.cfg e)))

/-- `process_interrupt` (R300, R303, R304, R315). -/
def State.processInterrupt (s : State) (r : Request) (vs : List Memory) : Result :=
  if !s.ires then .next (s.forwardInterrupt r)
  else if irqRemappable r.addr then s.remapInterrupt r vs
  else match s.cfg.arch with
    | .intel64 =>
        if s.cfis then .next (s.forwardInterrupt r) else .next (s.blockInterrupt r .compatibilityBlocked false none)
    | .itanium => .next (s.blockInterrupt r .requestReserved false none)

/-! ## Software's encodings (R316 to R318) -/

/-- The MSI address of an interrupt index (R318). -/
def msiAddress (index : BitVec 16) : BitVec 32 :=
  0xFEE#12 ++ index.extractLsb' 0 15 ++ 1#1 ++ 1#1 ++ index.extractLsb' 15 1 ++ 0#2

/-- The fields of an I/OxAPIC redirection table entry that carry an interrupt index (R317): bits 63:49, 48, 11 and
10:8, in a base value of the other fields. -/
def ioApicEntry (base : BitVec 64) (index : BitVec 16) : BitVec 64 :=
  setField (setField (setField (setField base 49 (index.extractLsb' 0 15)) 48 1#1) 11 (index.extractLsb' 15 1)) 8 0#3

end Sys2Proof.Machine
end

