-- ==== Sys2Proof/Machine/Registers.lean ====
section
/-! DEFINITION. The register set: the map (spec 10_state.md R22), access rules (R23, R35 to R39), side effects of reads
(20_memory.md R158, R159) and writes (60_exceptions.md R502, R507; 45_global_commands.md R420, R421), and the submission
of commands (10_state.md R30, 70_reset_and_hazards.md R545). -/

namespace Sys2Proof.Machine

/-! ## The map -/

/-- The registers (R22). -/
inductive RegId
  | ver
  | cap
  | ecap
  | gcmd
  | gsts
  | rtaddr
  | ccmd
  | fsts
  | fectl
  | fedata
  | feaddr
  | feuaddr
  | aflog
  | pmen
  | plmbase
  | plmlimit
  | phmbase
  | phmlimit
  | iqh
  | iqt
  | iqa
  | ics
  | iectl
  | iedata
  | ieaddr
  | ieuaddr
  | irta
  | iva
  | iotlb
  | frcd (n : Nat)
  deriving DecidableEq, Repr

/-- The registers at fixed offsets, by doubleword: the register and which of its doublewords. -/
def fixedRegister : Nat → Option (RegId × Nat)
  | 0x000 => some (.ver, 0)
  | 0x008 => some (.cap, 0)
  | 0x00C => some (.cap, 1)
  | 0x010 => some (.ecap, 0)
  | 0x014 => some (.ecap, 1)
  | 0x018 => some (.gcmd, 0)
  | 0x01C => some (.gsts, 0)
  | 0x020 => some (.rtaddr, 0)
  | 0x024 => some (.rtaddr, 1)
  | 0x028 => some (.ccmd, 0)
  | 0x02C => some (.ccmd, 1)
  | 0x034 => some (.fsts, 0)
  | 0x038 => some (.fectl, 0)
  | 0x03C => some (.fedata, 0)
  | 0x040 => some (.feaddr, 0)
  | 0x044 => some (.feuaddr, 0)
  | 0x058 => some (.aflog, 0)
  | 0x05C => some (.aflog, 1)
  | 0x064 => some (.pmen, 0)
  | 0x068 => some (.plmbase, 0)
  | 0x06C => some (.plmlimit, 0)
  | 0x070 => some (.phmbase, 0)
  | 0x074 => some (.phmbase, 1)
  | 0x078 => some (.phmlimit, 0)
  | 0x07C => some (.phmlimit, 1)
  | 0x080 => some (.iqh, 0)
  | 0x084 => some (.iqh, 1)
  | 0x088 => some (.iqt, 0)
  | 0x08C => some (.iqt, 1)
  | 0x090 => some (.iqa, 0)
  | 0x094 => some (.iqa, 1)
  | 0x09C => some (.ics, 0)
  | 0x0A0 => some (.iectl, 0)
  | 0x0A4 => some (.iedata, 0)
  | 0x0A8 => some (.ieaddr, 0)
  | 0x0AC => some (.ieuaddr, 0)
  | 0x0B8 => some (.irta, 0)
  | 0x0BC => some (.irta, 1)
  | _ => none

/-- The doubleword at a doubleword-aligned offset; none is reserved (R22, R37). R22 puts the registers that ECAP.IVO and CAP.FRO
place at reserved addresses only, which `Config.legal` asks. Where other values put one over a fixed register or over each
other, that the fixed register answers first, then IVA_REG and IOTLB_REG, then FRCD_REG is the model's choice (log 31, DESIGN
CHOICE). -/
def registerAt (cfg : Config) (off : Nat) : Option (RegId × Nat) :=
  match fixedRegister off with
  | some r => some r
  | none =>
      if 16 * cfg.ivo ≤ off ∧ off < 16 * cfg.ivo + 8 then some (.iva, (off - 16 * cfg.ivo) / 4)
      else if 16 * cfg.ivo + 8 ≤ off ∧ off < 16 * cfg.ivo + 16 then some (.iotlb, (off - 16 * cfg.ivo - 8) / 4)
      else if 16 * cfg.fro ≤ off ∧ off < 16 * cfg.fro + 16 * cfg.faultRegs then
        some (.frcd ((off - 16 * cfg.fro) / 16), (off - 16 * cfg.fro) % 16 / 4)
      else none

/-! ## Values -/

/-- VER_REG (11_registers_a.md R60). -/
def verReg : BitVec 32 := 0x00000010

/-- FSTS_REG as it reads, with PPF computed (60_exceptions.md R492). -/
def State.fstsValue (s : State) : BitVec 32 := setBit s.reg.fsts 1 s.ppf

/-- What a register holds, zero-extended. -/
def State.regValue (s : State) : RegId → BitVec 128
  | .ver => verReg.setWidth 128
  | .cap => s.cfg.cap.setWidth 128
  | .ecap => s.cfg.ecap.setWidth 128
  | .gcmd => 0
  | .gsts => s.reg.gsts.setWidth 128
  | .rtaddr => s.reg.rtaddr.setWidth 128
  | .ccmd => s.reg.ccmd.setWidth 128
  | .fsts => s.fstsValue.setWidth 128
  | .fectl => s.reg.fectl.setWidth 128
  | .fedata => s.reg.fedata.setWidth 128
  | .feaddr => s.reg.feaddr.setWidth 128
  | .feuaddr => s.reg.feuaddr.setWidth 128
  | .aflog => s.reg.aflog.setWidth 128
  | .pmen => s.reg.pmen.setWidth 128
  | .plmbase => s.reg.plmbase.setWidth 128
  | .plmlimit => s.reg.plmlimit.setWidth 128
  | .phmbase => s.reg.phmbase.setWidth 128
  | .phmlimit => s.reg.phmlimit.setWidth 128
  | .iqh => s.reg.iqh.setWidth 128
  | .iqt => s.reg.iqt.setWidth 128
  | .iqa => s.reg.iqa.setWidth 128
  | .ics => s.reg.ics.setWidth 128
  | .iectl => if s.cfg.qi then s.reg.iectl.setWidth 128 else 0
  | .iedata => s.reg.iedata.setWidth 128
  | .ieaddr => s.reg.ieaddr.setWidth 128
  | .ieuaddr => s.reg.ieuaddr.setWidth 128
  | .irta => s.reg.irta.setWidth 128
  | .iva => s.reg.iva.setWidth 128
  | .iotlb => s.reg.iotlb.setWidth 128
  | .frcd n => s.faultReg n

/-- A register takes a value; registers that software never changes stay. -/
def State.setReg (s : State) (r : RegId) (v : BitVec 128) : State :=
  match r with
  | .ver => s
  | .cap => s
  | .ecap => s
  | .gcmd => s
  | .gsts => s
  | .rtaddr => { s with reg := { s.reg with rtaddr := v.setWidth 64 } }
  | .ccmd => { s with reg := { s.reg with ccmd := v.setWidth 64 } }
  | .fsts => { s with reg := { s.reg with fsts := setBit (v.setWidth 32) 1 false } }
  | .fectl => { s with reg := { s.reg with fectl := v.setWidth 32 } }
  | .fedata => { s with reg := { s.reg with fedata := v.setWidth 32 } }
  | .feaddr => { s with reg := { s.reg with feaddr := v.setWidth 32 } }
  | .feuaddr => { s with reg := { s.reg with feuaddr := v.setWidth 32 } }
  | .aflog => { s with reg := { s.reg with aflog := v.setWidth 64 } }
  | .pmen => { s with reg := { s.reg with pmen := v.setWidth 32 } }
  | .plmbase => { s with reg := { s.reg with plmbase := v.setWidth 32 } }
  | .plmlimit => { s with reg := { s.reg with plmlimit := v.setWidth 32 } }
  | .phmbase => { s with reg := { s.reg with phmbase := v.setWidth 64 } }
  | .phmlimit => { s with reg := { s.reg with phmlimit := v.setWidth 64 } }
  | .iqh => s
  | .iqt => { s with reg := { s.reg with iqt := v.setWidth 64 } }
  | .iqa => { s with reg := { s.reg with iqa := v.setWidth 64 } }
  | .ics => { s with reg := { s.reg with ics := v.setWidth 32 } }
  | .iectl => { s with reg := { s.reg with iectl := v.setWidth 32 } }
  | .iedata => { s with reg := { s.reg with iedata := v.setWidth 32 } }
  | .ieaddr => { s with reg := { s.reg with ieaddr := v.setWidth 32 } }
  | .ieuaddr => { s with reg := { s.reg with ieuaddr := v.setWidth 32 } }
  | .irta => { s with reg := { s.reg with irta := v.setWidth 64 } }
  | .iva => { s with reg := { s.reg with iva := v.setWidth 64 } }
  | .iotlb => { s with reg := { s.reg with iotlb := v.setWidth 64 } }
  | .frcd n => { s with reg := { s.reg with frcd := s.reg.frcd.set n v } }

/-! ## Field attributes (00_scope.md R13, 10_state.md R39) -/

/-- Address bits HAW-1:12: the implemented bits of a base address field (12_registers_b.md R121). -/
def addressField (cfg : Config) : BitVec 128 := maskBits 128 (cfg.haw - 1) 12

/-- A mask where a facility exists, nothing where its register is reserved or read-only. -/
def whenHas (b : Bool) (m : BitVec 128) : BitVec 128 := if b then m else 0

/-- The RW and WO fields: the bits that a software write stores. -/
def writableBits (cfg : Config) : RegId → BitVec 128
  | .ver => 0
  | .cap => 0
  | .ecap => 0
  | .gcmd => 0
  | .gsts => 0
  | .rtaddr => addressField cfg
  | .ccmd => 0xE0000003FFFF0000 ||| maskBits 128 (cfg.domainBits - 1) 0
  | .fsts => 0
  | .fectl => 0x80000000
  | .fedata => if cfg.eimd then 0xFFFFFFFF else 0x0000FFFF
  | .feaddr => 0xFFFFFFFC
  | .feuaddr => whenHas cfg.uaddr 0xFFFFFFFF
  | .aflog => whenHas cfg.afl (addressField cfg ||| 0xE00)
  | .pmen => whenHas (cfg.plmr || cfg.phmr) 0x80000000
  | .plmbase => whenHas cfg.plmr (maskBits 128 31 (cfg.plmN + 1))
  | .plmlimit => whenHas cfg.plmr (maskBits 128 31 (cfg.plmN + 1))
  | .phmbase => whenHas cfg.phmr (maskBits 128 (cfg.haw - 1) (cfg.phmN + 1))
  | .phmlimit => whenHas cfg.phmr (maskBits 128 (cfg.haw - 1) (cfg.phmN + 1))
  | .iqh => 0
  | .iqt => whenHas cfg.qi 0x7FFF0
  | .iqa => whenHas cfg.qi (addressField cfg ||| 0x7)
  | .ics => 0
  | .iectl => whenHas cfg.qi 0x80000000
  | .iedata => whenHas cfg.qi (if cfg.eimd then 0xFFFFFFFF else 0x0000FFFF)
  | .ieaddr => whenHas cfg.qi 0xFFFFFFFC
  | .ieuaddr => whenHas (cfg.qi && cfg.uaddr) 0xFFFFFFFF
  | .irta => whenHas cfg.ir (addressField cfg ||| 0xF)
  | .iva => 0xFFFFFFFFFFFFF07F
  | .iotlb => 0xF003000000000000 ||| maskBits 128 (31 + cfg.domainBits) 32
  | .frcd _ => 0

/-- The RW1C and RW1CS fields. -/
def clearableBits (cfg : Config) : RegId → BitVec 128
  | .fsts => 0x1 ||| whenHas cfg.afl 0xC ||| whenHas cfg.qi 0x10 ||| whenHas cfg.di 0x60
  | .ics => whenHas cfg.qi 0x1
  | .frcd _ => maskBits 128 127 127
  | .ver => 0
  | .cap => 0
  | .ecap => 0
  | .gcmd => 0
  | .gsts => 0
  | .rtaddr => 0
  | .ccmd => 0
  | .fectl => 0
  | .fedata => 0
  | .feaddr => 0
  | .feuaddr => 0
  | .aflog => 0
  | .pmen => 0
  | .plmbase => 0
  | .plmlimit => 0
  | .phmbase => 0
  | .phmlimit => 0
  | .iqh => 0
  | .iqt => 0
  | .iqa => 0
  | .iectl => 0
  | .iedata => 0
  | .ieaddr => 0
  | .ieuaddr => 0
  | .irta => 0
  | .iva => 0
  | .iotlb => 0

/-- The bits of a queue register where queued invalidation is not supported: all RsvdZ (R39 item c). -/
def unlessHas (b : Bool) (m all : BitVec 128) : BitVec 128 := if b then m else all

/-- The RsvdZ fields: a write of 1 to one is refused (U2), but for the write that finds N (`probesWidth`). Bits N:0 of
the protected-memory registers are among them (12_registers_b.md R108 to R111) where the implementation has the region; without it
the registers are RO (10_state.md R39). Without ECAP.QI all of IEUADDR_REG is
among them whatever UADDR is: 12 R119 and 10 R39 item c name only the 32-bit address, 60 R505 says that the register does
not exist (log 31). -/
def mustBeZeroBits (cfg : Config) : RegId → BitVec 128
  | .ver => 0xFFFFFF00
  | .cap => 0xFF0000400000E000
  | .ecap => 0xFFFFFFFFFF0C0010
  | .gcmd => 0x007FFFFF
  | .gsts => 0x007FFFFF
  | .rtaddr => 0xFFF
  | .ccmd => 0x07FFFFFC00000000
  | .fsts => 0xFFFF0080 ||| unlessHas cfg.afl 0 0xC ||| unlessHas cfg.qi 0 0x10 ||| unlessHas cfg.di 0 0x60
  | .fectl => 0
  | .fedata => unlessHas cfg.eimd 0 0xFFFF0000
  | .feaddr => 0x3
  | .feuaddr => unlessHas cfg.uaddr 0 0xFFFFFFFF
  | .aflog => unlessHas cfg.afl 0x1FF 0xFFFFFFFFFFFFFFFF
  | .pmen => 0
  | .plmbase => whenHas cfg.plmr (maskBits 128 cfg.plmN 0)
  | .plmlimit => whenHas cfg.plmr (maskBits 128 cfg.plmN 0)
  | .phmbase => whenHas cfg.phmr (maskBits 128 cfg.phmN 0)
  | .phmlimit => whenHas cfg.phmr (maskBits 128 cfg.phmN 0)
  | .iqh => unlessHas cfg.qi 0xFFFFFFFFFFF8000F 0xFFFFFFFFFFFFFFFF
  | .iqt => unlessHas cfg.qi 0xFFFFFFFFFFF8000F 0xFFFFFFFFFFFFFFFF
  | .iqa => unlessHas cfg.qi 0xFF8 0xFFFFFFFFFFFFFFFF
  | .ics => unlessHas cfg.qi 0xFFFFFFFE 0xFFFFFFFF
  | .iectl => unlessHas cfg.qi 0 0xFFFFFFFF
  | .iedata => unlessHas cfg.qi (unlessHas cfg.eimd 0 0xFFFF0000) 0xFFFFFFFF
  | .ieaddr => unlessHas cfg.qi 0x3 0xFFFFFFFF
  | .ieuaddr => unlessHas (cfg.qi && cfg.uaddr) 0 0xFFFFFFFF
  | .irta => unlessHas cfg.ir 0xFF0 0xFFFFFFFFFFFFFFFF
  | .iva => 0xF80
  | .iotlb => 0x01FC000000000000
  | .frcd _ => maskBits 128 123 104 ||| maskBits 128 95 80 ||| maskBits 128 11 0 ||| unlessHas cfg.di 0 (maskBits 128 125 124)

/-- The RsvdP fields (R35): FECTL_REG 29:0, IECTL_REG 29:0, PMEN_REG 30:1 and IOTLB_REG 31:0 (12_registers_b.md R101, R107,
R116; 11_registers_a.md R67). -/
def preservedBits (cfg : Config) : RegId → BitVec 128
  | .fectl => 0x3FFFFFFF
  | .iectl => whenHas cfg.qi 0x3FFFFFFF
  | .pmen => whenHas (cfg.plmr || cfg.phmr) 0x7FFFFFFE
  | .iotlb => 0xFFFFFFFF
  | .ver => 0
  | .cap => 0
  | .ecap => 0
  | .gcmd => 0
  | .gsts => 0
  | .rtaddr => 0
  | .ccmd => 0
  | .fsts => 0
  | .fedata => 0
  | .feaddr => 0
  | .feuaddr => 0
  | .aflog => 0
  | .plmbase => 0
  | .plmlimit => 0
  | .phmbase => 0
  | .phmlimit => 0
  | .iqh => 0
  | .iqt => 0
  | .iqa => 0
  | .ics => 0
  | .iedata => 0
  | .ieaddr => 0
  | .ieuaddr => 0
  | .irta => 0
  | .iva => 0
  | .frcd _ => 0

/-- The RsvdP fields as software last read them. -/
def State.lastRead (s : State) : RegId → BitVec 128
  | .fectl => s.preserved.fectl.setWidth 128
  | .iectl => s.preserved.iectl.setWidth 128
  | .pmen => s.preserved.pmen.setWidth 128
  | .iotlb => s.preserved.iotlb.setWidth 128
  | .ver => 0
  | .cap => 0
  | .ecap => 0
  | .gcmd => 0
  | .gsts => 0
  | .rtaddr => 0
  | .ccmd => 0
  | .fsts => 0
  | .fedata => 0
  | .feaddr => 0
  | .feuaddr => 0
  | .aflog => 0
  | .plmbase => 0
  | .plmlimit => 0
  | .phmbase => 0
  | .phmlimit => 0
  | .iqh => 0
  | .iqt => 0
  | .iqa => 0
  | .ics => 0
  | .iedata => 0
  | .ieaddr => 0
  | .ieuaddr => 0
  | .irta => 0
  | .iva => 0
  | .frcd _ => 0

/-- The bits whose read value is a draw: WO fields, RsvdP fields with default X (10_state.md R36, C25), address and
domain-id bits that are not implemented (U4), FRI while PPF = 0 (R100), record fields while F = 0 (R105). Of IVA_REG all 64
bits: 11 R68's table has RsvdZ bits 11:7, its text says that a read of the register is undefined (log 32). -/
def State.freeReadBits (s : State) : RegId → BitVec 128
  | .gcmd => 0xFF800000
  | .ccmd => 0x3FFFF0000 ||| maskBits 128 15 s.cfg.domainBits
  | .iotlb => 0xFFFFFFFF ||| maskBits 128 47 (32 + s.cfg.domainBits)
  | .iva => 0xFFFFFFFFFFFFF07F
  | .rtaddr => maskBits 128 63 s.cfg.haw
  | .aflog => whenHas s.cfg.afl (maskBits 128 63 s.cfg.haw)
  | .iqa => whenHas s.cfg.qi (maskBits 128 63 s.cfg.haw)
  | .irta => whenHas s.cfg.ir (maskBits 128 63 s.cfg.haw)
  | .phmbase => whenHas s.cfg.phmr (maskBits 128 63 s.cfg.haw)
  | .phmlimit => whenHas s.cfg.phmr (maskBits 128 63 s.cfg.haw)
  | .fectl => 0x3FFFFFFF
  | .iectl => whenHas s.cfg.qi 0x3FFFFFFF
  | .pmen => whenHas (s.cfg.plmr || s.cfg.phmr) 0x7FFFFFFE
  | .fsts => if s.ppf then 0 else 0xFF00
  | .frcd n =>
      if recordF (s.faultReg n) then 0
      else maskBits 128 126 126 ||| whenHas s.cfg.di (maskBits 128 125 124) ||| maskBits 128 103 96 ||| maskBits 128 79 12
  | .ver => 0
  | .cap => 0
  | .ecap => 0
  | .gsts => 0
  | .fedata => 0
  | .feaddr => 0
  | .feuaddr => 0
  | .plmbase => 0
  | .plmlimit => 0
  | .iqh => 0
  | .iqt => 0
  | .ics => 0
  | .iedata => 0
  | .ieaddr => 0
  | .ieuaddr => 0

/-! ## Reads (R23, R36) -/

/-- A register as it reads. -/
def State.readReg (s : State) (r : RegId) : BitVec 128 :=
  if s.freeReadBits r = 0 then s.regValue r
  else (s.regValue r &&& ~~~(s.freeReadBits r)) ||| (BitVec.ofNat 128 (s.free 70) &&& s.freeReadBits r)

/-- Doubleword `k` of a value. -/
def dwordOf (v : BitVec 128) (k : Nat) : BitVec 32 := v.extractLsb' (32 * k) 32

/-- The value of an aligned doubleword; a reserved one reads 0 (R37, decision D14). -/
def State.readDword (s : State) (off : Nat) : BitVec 32 :=
  match registerAt s.cfg off with
  | some (r, k) => dwordOf (s.readReg r) k
  | none => 0

/-- The access has a behaviour (R23, U1): an aligned doubleword, or an aligned quadword of a 64- or 128-bit register or of
reserved space, within the register pages. -/
def goodAccess (cfg : Config) (bytes off : Nat) : Bool :=
  decide (off + bytes ≤ 4096 * cfg.registerPages) &&
  ((bytes == 4 && off % 4 == 0)
   || (bytes == 8 && off % 8 == 0 &&
        (match registerAt cfg off, registerAt cfg (off + 4) with
         | some (r, _), some (q, _) => r == q
         | none, none => true
         | some _, none => false
         | none, some _ => false)))

/-- The RsvdP bits of a register's lowest doubleword, read as `v`, are those that software must write back (R35). -/
def Preserved.note (p : Preserved) (r : RegId) (v : BitVec 32) : Preserved :=
  if r == .fectl then { p with fectl := v }
  else if r == .iectl then { p with iectl := v }
  else if r == .pmen then { p with pmen := v }
  else if r == .iotlb then { p with iotlb := v }
  else p

/-- A read of the doubleword at `off` gives software the RsvdP bits to preserve. -/
def State.noteRead (s : State) (off : Nat) : Preserved :=
  match registerAt s.cfg off with
  | some (r, 0) => s.preserved.note r (dwordOf (preservedBits s.cfg r) 0 &&& s.readDword off)
  | some (_, _ + 1) => s.preserved
  | none => s.preserved

/-- A software read: it pushes what the unit has posted (20_memory.md R158, R159), then returns the value. -/
def State.registerRead (s : State) (bytes off : Nat) : Result :=
  if !goodAccess s.cfg bytes off then .refused .badRegisterAccess
  else if bytes = 4 then
    .next ({ s.flushPosted.emit (.regValue off 4 ((s.readDword off).setWidth 64)) with preserved := s.noteRead off }).tick
  else
    .next ({ s.flushPosted.emit (.regValue off 8 (s.readDword (off + 4) ++ s.readDword off)) with
      preserved := s.noteRead off }).tick

/-! ## The submission of commands (10_state.md R30, 45_global_commands.md R420, R421) -/

/-- What the submitting half of a command changes: the pointer status bits are cleared, WBFS is Set (R423, R424, R426,
R429). -/
def State.beginCommand (s : State) : Instr → State
  | .gcmdSrtp => s.setGsts 30 false
  | .gcmdSfl => s.setGsts 29 false
  | .gcmdWbf => s.setGsts 27 true
  | .gcmdSirtp => s.setGsts 24 false
  | .gcmdTe _ => s
  | .gcmdEafl _ => s
  | .gcmdQie _ => s
  | .gcmdIre _ => s
  | .gcmdCfi _ => s
  | .ccmdIcc _ _ _ _ => s
  | .iotlbIvt _ _ _ _ => s
  | .pmenEpm _ => s
  | .ccInvDsc _ _ _ _ => s
  | .iotlbInvDsc _ _ _ _ _ _ _ => s
  | .devIotlbInvDsc _ _ _ _ => s
  | .iecInvDsc _ _ _ => s
  | .invWaitDsc _ _ _ _ _ => s

/-- The register-based invalidations, which the queue excludes (43_caching_and_register_invalidation.md R352). -/
def isInvalidationRegister : CmdReg → Bool
  | .gcmd => false
  | .ccmd => true
  | .iotlb => true
  | .pmen => false

/-- The refusal of a write that is no command. -/
def decodeRefusal : DecodeError → Refusal
  | .unknownType _ => .reservedBitWritten
  | .reservedBits => .reservedBitWritten
  | .severalCommands => .severalCommands
  | .notSixteenBytes => .reservedBitWritten

/-- A write that may be a command: refused where it breaks R421, R431 or R545; else the command is pending (R30). -/
def State.submitCommand (s : State) (w : CmdWrite) : Result :=
  match decodeCommand s.cmdContext w with
  | .rejected e => .refused (decodeRefusal e)
  | .nothing => .next s
  | .instr i =>
      if !wellFormed s.cfg i then .refused .unsupportedField
      else if isInvalidationRegister w.reg && s.qies then .refused .queueEnabled
      else .next { s.beginCommand i with cmd := some w }

/-! ## Writes (R23, R35) -/

/-- The registers that no write may touch while any command is pending (R545). -/
def RegId.isCommandRegister (r : RegId) : Bool :=
  r == .gcmd || r == .ccmd || r == .iotlb || r == .iva || r == .pmen

/-- The pending command, decoded. -/
def State.pendingCommand (s : State) : Option Instr :=
  match s.cmd with
  | none => none
  | some w => (decodeCommand s.cmdContext w).instr?

/-- A protected-memory base or limit register. -/
def RegId.isRegion (r : RegId) : Bool := r == .plmbase || r == .plmlimit || r == .phmbase || r == .phmlimit

/-- The operand register of a pending command is owned by hardware. The spec says so of RTADDR_REG for SRTP
(45_global_commands.md R423) and of the region registers for EPM (R435). That AFLOG_REG is SFL's, IRTA_REG SIRTP's and IQA_REG
QIE's is the model's inference from R423 and 43_caching_and_register_invalidation.md R365, which speaks of the register used to
submit a command: 45 R424, R429 and R427 say nothing of such a write, and 70_reset_and_hazards.md R545 names none of the three
(log 31, DEDUCED). -/
def ownedBy (r : RegId) (i : Instr) : Bool :=
  (r == .rtaddr && i == .gcmdSrtp) || (r == .aflog && i == .gcmdSfl) || (r == .irta && i == .gcmdSirtp)
  || (r == .iqa && (i == .gcmdQie true || i == .gcmdQie false))
  || (r.isRegion && (i == .pmenEpm true || i == .pmenEpm false))

/-- The doubleword mask of doubleword `k`. -/
def dwordMask (k : Nat) : BitVec 128 := maskBits 128 (32 * k + 31) (32 * k)

/-- The write by which software finds N, all ones to a protected-memory base register: the one that may put 1 in RsvdZ bits
(12_registers_b.md R108, R110). A doubleword of all ones is taken for it, or for its half of PHMBASE_REG, whatever the other
doubleword gets (log 31, DESIGN CHOICE). The limit registers have no such write (R109, R111). -/
def probesWidth (r : RegId) (k : Nat) (w : BitVec 128) : Bool :=
  (r == .plmbase || r == .phmbase) && w &&& dwordMask k == dwordMask k

/-- Why a write of the bits `w` to doubleword `k` of a register is refused now, if it is (R35, R545, U2). The write that
finds N is not one of them. -/
def State.writeRefusal (s : State) (r : RegId) (k : Nat) (w : BitVec 128) : Option Refusal :=
  if !(w &&& mustBeZeroBits s.cfg r == 0 || probesWidth r k w) then some .reservedBitWritten
  else if !((w ^^^ s.lastRead r) &&& preservedBits s.cfg r &&& dwordMask k == 0) then some .reservedBitWritten
  else if r.isCommandRegister && s.cmd.isSome then some .commandPending
  else if (match s.pendingCommand with | some i => ownedBy r i | none => false) then some .registerOwned
  else if r == .iqa && s.qies then some .queueEnabled
  else if r.isRegion && s.prs then some .protectedEnabled
  else none

/-- The value after a write of the bits `w` under the doubleword mask `m` (R35). -/
def writtenValue (cfg : Config) (r : RegId) (old w m : BitVec 128) : BitVec 128 :=
  ((old &&& ~~~(writableBits cfg r &&& m)) ||| (w &&& writableBits cfg r)) &&& ~~~(w &&& clearableBits cfg r)

/-- What follows a stored write (12_registers_b.md R101, R114, R116; 20_memory.md R153 for IQT_REG; 60_exceptions.md R502, R507; the triggers of R66 and
R67 in the uppermost byte). `k` is the doubleword written, `w` the value written. -/
def State.afterWrite (s : State) (r : RegId) (k : Nat) (w : BitVec 128) : Result :=
  match r with
  | .gcmd => s.submitCommand { reg := .gcmd, value := w.setWidth 64 }
  | .pmen => if s.cfg.plmr || s.cfg.phmr then s.submitCommand { reg := .pmen, value := w.setWidth 64 } else .next s
  | .ccmd => if k = 1 then s.submitCommand { reg := .ccmd, value := s.reg.ccmd &&& 0xE0000003FFFFFFFF } else .next s
  | .iotlb => if k = 1 then s.submitCommand { reg := .iotlb, value := s.reg.iotlb &&& 0xF003FFFF00000000 } else .next s
  | .fsts => .next s.serviceFaultEvent
  | .frcd _ => .next s.serviceFaultEvent
  | .fectl => .next s.releaseFaultEvent
  | .ics => .next s.serviceInvEvent
  | .iectl => .next s.releaseInvEvent
  | .iqa =>
      if s.cfg.qi then .next { s with reg := { s.reg with iqh := 0, iqt := 0 }, iq := { s.iq with ahead := [] } } else .next s
  | .ver => .next s
  | .cap => .next s
  | .ecap => .next s
  | .gsts => .next s
  | .rtaddr => .next s
  | .fedata => .next s
  | .feaddr => .next s
  | .feuaddr => .next s
  | .aflog => .next s
  | .plmbase => .next s
  | .plmlimit => .next s
  | .phmbase => .next s
  | .phmlimit => .next s
  | .iqh => .next s
  | .iqt => .next s.dropUnqueued
  | .iedata => .next s
  | .ieaddr => .next s
  | .ieuaddr => .next s
  | .irta => .next s
  | .iva => .next s

/-- A software write of one aligned doubleword; a reserved one is ignored (R37, decision D14). -/
def State.writeDword (s : State) (off : Nat) (v : BitVec 32) : Result :=
  match registerAt s.cfg off with
  | none => .next s
  | some (r, k) =>
      let w : BitVec 128 := (v.setWidth 128) <<< (32 * k)
      match s.writeRefusal r k w with
      | some e => .refused e
      | none => (s.setReg r (writtenValue s.cfg r (s.regValue r) w (dwordMask k))).afterWrite r k w

/-- A software write (R23): a quadword is two doublewords, the lower first. -/
def State.registerWrite (s : State) (bytes off : Nat) (v : BitVec 64) : Result :=
  if !goodAccess s.cfg bytes off then .refused .badRegisterAccess
  else if bytes = 4 then s.writeDword off (v.setWidth 32)
  else andThen (s.writeDword off (v.setWidth 32)) (fun t => t.writeDword (off + 4) (v.extractLsb' 32 32))

end Sys2Proof.Machine
end

