-- ==== Sys2Proof/Machine/Engine.lean ====
section
/-! DEFINITION. The agents' moves (spec 00_scope.md R8): the command engine (45_global_commands.md R420), the
invalidation-queue engine (44_queued_invalidation.md R373 to R378, R400 to R403), inbound requests (30_encoding.md R200),
processors, and the idle schedule (log 27). -/

namespace Sys2Proof.Machine

/-! ## The command engine -/

/-- The pending command is performed: its slot is emptied and its meaning runs (R420). -/
def State.runCommand (s : State) : Result :=
  match s.cmd with
  | none => .next s
  | some w =>
      match decodeCommand s.cmdContext w with
      | .rejected e => .refused (decodeRefusal e)
      | .nothing => .next { s with cmd := none }
      | .instr i =>
          if wellFormed s.cfg i then exec i { s with cmd := none } else .refused .unsupportedField

/-! ## Fetching descriptors (R373 to R378) -/

/-- `fetch_enabled` (R373). -/
def State.fetchEnabled (s : State) : Bool := s.qies && !(s.qh == s.qt) && !s.iqe && !s.ite

/-- The copy of the head's slot that was read ahead, if hardware uses it (20_memory.md R153). -/
def State.aheadCopy (s : State) : Option Ahead := s.pick 80 (s.iq.ahead.filter (fun a => a.slot == s.qh))

/-- The 16 bytes of the head's slot: read coherently, the views `vs` being what memory holds meanwhile (R374; 20_memory.md
R144), or the copy read ahead. -/
def State.fetchBytes (s : State) (vs : List Memory) : List Byte :=
  match s.aheadCopy with
  | some a => bytesOfNat 16 a.bits.toNat
  | none => s.readSlot vs 81 (s.slotAddress s.qh)

/-- What fetching the head's slot gives: a valid descriptor, or none (R216, R374, R376 to R378). -/
def State.fetched (s : State) (vs : List Memory) : Option Instr :=
  if s.queueSlots ≤ s.qt then none
  else if accessError s.cfg (s.slotAddress s.qh) 16 then none
  else queueBytes s.cfg (s.fetchBytes vs)

/-- The descriptor is appended to those fetched and not complete, and the head advances (R374). -/
def State.acceptDescriptor (s : State) (i : Instr) : State :=
  { s with
    reg := { s.reg with iqh := queueIndex ((s.qh + 1) % s.queueSlots) }
    iq := { s.iq with
      pending := s.iq.pending ++ [{ seq := s.iq.nextSeq, epoch := s.iq.epoch, instr := i }]
      nextSeq := s.iq.nextSeq + 1
      epoch := if isWait i then s.iq.epoch + 1 else s.iq.epoch
      ahead := s.iq.ahead.filter (fun a => !(a.slot == s.qh)) } }

/-- One fetch (R374). -/
def State.fetchDescriptor (s : State) (vs : List Memory) : State :=
  if s.fetchEnabled then
    match s.fetched vs with
    | some i => (s.acceptDescriptor i).tick
    | none => s.raiseIqe.tick
  else s

/-- Hardware reads a slot between head and tail before its turn (20_memory.md R153, R374). With an invalid tail nothing is read (R374,
R377). -/
def State.fetchAhead (s : State) (slot : Nat) (vs : List Memory) : State :=
  if s.fetchEnabled && s.slotQueued slot && !accessError s.cfg (s.slotAddress slot) 16 then
    { s with iq := { s.iq with
        ahead := { slot := slot, bits := BitVec.ofNat 128 (natOfBytes (s.readSlot vs 82 (s.slotAddress slot))) }
          :: s.iq.ahead } }.tick
  else s

/-! ## Execution and ordering (R375, R400 to R403) -/

/-- The rules of `may_execute` that hold `p` behind an earlier `q` (R400, R401, R403). -/
def holdsBack (p q : Pending) : Bool :=
  decide (q.seq < p.seq) &&
  ((dscKind p.instr == .iotlb && dscKind q.instr == .context)
   || (dscKind p.instr == .device && (dscKind q.instr == .iotlb || dscKind q.instr == .iec))
   || dscKind q.instr == .wait true)

/-- `may_execute` (R403). -/
def State.mayExecute (s : State) (p : Pending) : Bool := !s.iq.pending.any (holdsBack p)

/-- `wait_ready` (R402): nothing between the previous wait and this one is incomplete; with WAIT_IN_ORDER nothing ahead of
it is (decision D32). -/
def State.waitReady (s : State) (p : Pending) : Bool :=
  !s.iq.pending.any (fun q => decide (q.seq < p.seq) && (s.cfg.waitInOrder || q.epoch == p.epoch))

/-- The descriptor can be executed now: the order allows it, and a Device-IOTLB request was not issued before and has a tag
(41_device_iotlb.md R291). -/
def State.runnable (s : State) (p : Pending) : Bool :=
  s.mayExecute p && (!isWait p.instr || s.waitReady p)
    && (!isDevInv p.instr || (!s.issued p.seq && s.freeTag.isSome))

/-- A descriptor that its execution completes is removed; one that waits for a Device-IOTLB stays (R375). -/
def State.retire (s : State) (p : Pending) : State :=
  if isDevInv p.instr then s
  else { s with iq := { s.iq with pending := s.iq.pending.filter (fun q => !(q.seq == p.seq)), lastWait := isWait p.instr } }

/-- A pending descriptor is executed (R375). -/
def State.executePending (s : State) (p : Pending) : Result :=
  andThen (exec p.instr { s with iq := { s.iq with current := p.seq } }) (fun t => .next (t.retire p))

/-- The descriptor of a sequence number is executed if it can be. -/
def State.executeSeq (s : State) (seq : Nat) : Result :=
  match s.iq.pending.find? (fun p => p.seq == seq && s.runnable p) with
  | some p => s.executePending p
  | none => .next s

/-- A fetch, and the execution of the fetched descriptor if the order allows it at once (log 27). -/
def State.fetchAndRun (s : State) : Result :=
  if (s.fetchDescriptor [s.cpuView]).iq.nextSeq = s.iq.nextSeq then .next (s.fetchDescriptor [s.cpuView])
  else (s.fetchDescriptor [s.cpuView]).executeSeq s.iq.nextSeq

/-- Hardware holds the descriptor back by the MaxInvsPend hint now (41_device_iotlb.md R291). -/
def State.heldByHint (s : State) : Instr → Bool
  | .devIotlbInvDsc mip sid _ _ => throttled mip sid s
  | .ccInvDsc _ _ _ _ => false
  | .iotlbInvDsc _ _ _ _ _ _ _ => false
  | .iecInvDsc _ _ _ => false
  | .invWaitDsc _ _ _ _ _ => false
  | .gcmdTe _ => false
  | .gcmdSrtp => false
  | .gcmdSfl => false
  | .gcmdEafl _ => false
  | .gcmdWbf => false
  | .gcmdQie _ => false
  | .gcmdIre _ => false
  | .gcmdSirtp => false
  | .gcmdCfi _ => false
  | .ccmdIcc _ _ _ _ => false
  | .iotlbIvt _ _ _ _ => false
  | .pmenEpm _ => false

/-- The descriptor can be executed and is not held back. -/
def State.ready (s : State) (p : Pending) : Bool := s.runnable p && !s.heldByHint p.instr

/-- The rest of what the unit owes, when no command and no descriptor can go on: the oldest waiting fault is logged, the oldest
in-flight request and interrupt complete, the oldest posted item and buffered store become visible, a transient condition that
holds back an unmasked event message ends; last, a descriptor that the hint held back is tried anew (log 27;
70_reset_and_hazards.md R557). -/
def State.settle (s : State) : Result :=
  if !s.unlogged.isEmpty then s.logOldestFault
  else if !s.inflight.isEmpty then .next (s.commitAt 0)
  else if !s.irqs.isEmpty then .next (s.commitIrqAt 0)
  else if !s.posted.isEmpty then .next (s.deliver 0)
  else if !s.wbuf.isEmpty then .next s.drainStore
  else if s.heldBack then .next (s.setHolds false false)
  else match s.iq.pending.find? s.runnable with
    | some p => s.executePending p
    | none => .next s

/-- What the unit does when the environment does nothing: the pending command, else the oldest descriptor that is ready, else a
fetch, else the rest of what it owes. Nothing that waits is passed over for ever (log 27; R557). -/
def State.idleStep (s : State) : Result :=
  if s.cmd.isSome then s.runCommand
  else match s.iq.pending.find? s.ready with
    | some p => s.executePending p
    | none => if s.fetchEnabled then s.fetchAndRun else s.settle

/-! ## Processors -/

/-- The move addresses memory that exists. -/
def moveFault (cfg : Config) : CpuMove → Bool
  | .store _ a data => decide (2 ^ cfg.haw < a + data.length)
  | .writeback _ a => decide (2 ^ cfg.haw ≤ a)
  | .drain => false

/-- A processor's move: a store to the register pages is a register write (10_state.md R23). That a store to FEEx_xxxxh or to a
peer range (`Config.nonMemory`) writes the bytes there, as in system memory, is the model's choice: 20_memory.md R140 says
nothing of processor accesses there (log 42, DESIGN CHOICE). -/
def State.processorMove (s : State) (m : CpuMove) : Result :=
  if moveFault s.cfg m then .fault .noSuchAddress
  else match m with
    | .store cpu a data =>
        if meetsRegisterPages s.cfg a data.length then
          (if s.cfg.regBase ≤ a then s.registerWrite data.length (a - s.cfg.regBase) (BitVec.ofNat 64 (natOfBytes data))
           else .refused .badRegisterAccess)
        else .next (s.processorStore cpu a data)
    | .writeback cpu a => .next (s.writeback cpu a)
    | .drain => .next s.drainStore

/-- The moves that race with an operation of the unit, in order. -/
def State.processorMoves (s : State) : List CpuMove → Result
  | [] => .next s
  | m :: ms => andThen (s.processorMove m) (fun t => t.processorMoves ms)

/-- A processor load: of the register pages it is a register read. All its bytes are read at one instant, also those of a load
wider than 64 bits or misaligned, which R157 does not promise (20_memory.md; log 46, DESIGN CHOICE). In FEEx_xxxxh and in a peer
range it reads the bytes there, as in system memory (log 42, DESIGN CHOICE). -/
def State.processorLoad (s : State) (a n : Nat) : Result :=
  if 2 ^ s.cfg.haw < a + n then .fault .noSuchAddress
  else if meetsRegisterPages s.cfg a n then
    (if s.cfg.regBase ≤ a then s.registerRead n (a - s.cfg.regBase) else .refused .badRegisterAccess)
  else .next (s.emit (.loadValue a (s.cpuView.readBytes a n)))

/-! ## Inbound requests (R200) -/

/-- One inbound request; every move that races with it has happened when it is over, a store to the register pages as a
register write. A request of a source-id outside the unit's scope is not this unit's (50_bios_reporting.md R456). -/
def State.processRequest (s : State) (r : Request) (race : List CpuMove) : Result :=
  andThen
    (if r.malformed s.cfg then .next (s.emit (.malformed r.sid))
     else if !inScope s.cfg r.sid then .next s
     else if r.isInterrupt then s.processInterrupt r (s.views race)
     else if r.atype = 0 then s.processUntranslated r (s.views race)
     else if r.atype = 1 then s.processTranslationRequest r (s.views race)
     else s.processTranslated r (s.views race))
    (fun t => t.processorMoves race)

/-! ## Reset and events -/

/-- The one reset, powergood (70_reset_and_hazards.md R531): the unit is as at reset; memory, what the environment does
next and what was sent are not the unit's (R534, log 35). -/
def State.powergood (s : State) : State :=
  { State.initial s.cfg with mem := s.mem, agenda := s.agenda, out := s.out, draws := s.draws }

/-- One move of the environment or of an engine. -/
def State.handle (s : State) : Event → Result
  | .cpu m => s.processorMove m
  | .load a n => s.processorLoad a n
  | .regRead bytes off => s.registerRead bytes off
  | .regWrite bytes off v => s.registerWrite bytes off v
  | .request r race => s.processRequest r race
  | .upstreamInvRequest sid => .next (s.emit (.malformed sid))
  | .atsCompletion sid vec cc => .next (s.atsCompletion sid vec cc)
  | .timeout i => .next (s.timeout i)
  | .powergood => .next s.powergood
  | .runCommand => s.runCommand
  | .fetch race => (s.fetchDescriptor (s.coherentViews race)).processorMoves race
  | .fetchAhead slot race => (s.fetchAhead slot (s.coherentViews race)).processorMoves race
  | .execute seq => s.executeSeq seq
  | .commit k => .next (s.commitAt k)
  | .commitIrq k => .next (s.commitIrqAt k)
  | .deliver k => .next (s.deliver k)
  | .evict c k => .next (s.evict c k)
  | .prefetch sid dva race => (s.prefetch sid dva (s.views race)).processorMoves race
  | .logFault => s.logOldestFault
  | .hold fault inv => .next (s.setHolds fault inv)

/-! ## The host's first instruction -/

/-- The state in which a descriptor stands at the head of an enabled queue and is the only one. -/
def State.withQueued (s : State) (d : BitVec 128) : State :=
  { (s.setGsts 26 true).writeCoherent (cellsAt (s.slotAddress s.qh) (bytesOfNat 16 d.toNat)) with
    reg := { s.reg with
      gsts := setBit s.reg.gsts 26 true
      fsts := s.reg.fsts &&& ~~~(0x50 : BitVec 32)
      iqt := queueIndex ((s.qh + 1) % s.queueSlots) }
    cmd := none
    iq := { s.iq with pending := [], ahead := [] }
    agenda := [] }

/-- The register that a command word of the opcode table is written to: the second where the first does not admit it
(log 8). -/
def tableCommand (a b : CmdWrite) (first : Decoded) : CmdWrite :=
  match first with
  | .instr _ => a
  | .nothing => b
  | .rejected _ => b

/-- The state in which a command has been written and is pending. -/
def State.withPending (s : State) (w : CmdWrite) : State :=
  { s with
    cmd := some w
    agenda := []
    reg := (match w.reg with
      | .gcmd => s.reg
      | .ccmd => { s.reg with ccmd := w.value }
      | .iotlb => { s.reg with iotlb := w.value }
      | .pmen => { s.reg with pmen := setBit s.reg.pmen 31 (w.value.getLsbD 31) }) }

/-- The table's word stored where the next step takes its instruction from. -/
def State.placeWord (s : State) : TableWord → State
  | .queue d => s.withQueued d
  | .write32 v =>
      s.withPending (tableCommand { reg := .gcmd, value := v.setWidth 64 } { reg := .pmen, value := v.setWidth 64 }
        (decodeGcmd 0 v))
  | .write64 v =>
      s.withPending (tableCommand { reg := .ccmd, value := v } { reg := .iotlb, value := v } (decodeCcmd v))

end Sys2Proof.Machine
end

