-- ==== Sys2Proof/Machine/Step.lean ====
section
/-! DEFINITION. One step: the next event of the agenda, or the engines' own move. -/

namespace Sys2Proof.Machine

/-- One move of one agent (spec 00_scope.md R8): the environment's next move if there is one, else the unit's engines. -/
def step (s : State) : Host.Outcome State Fault Refusal :=
  match s.agenda with
  | [] => s.idleStep
  | e :: rest => ({ s with agenda := rest }).handle e

/-- The state with the opcode table's word `w` of `nbits` bits where the next step takes its instruction from: a descriptor
at the head of the enabled queue, or a pending command write (log 2, log 8). -/
def State.withFetchWord (s : State) (nbits w : Nat) : State := s.placeWord (tableWord nbits w)

end Sys2Proof.Machine
end

