-- ==== Sys2Proof/Safety.lean ====
section
/-! DEFINITION. The terms that claims use: the idle and stuck states (spec 70_reset_and_hazards.md R558), and the two
invariants that every step keeps. -/

namespace Sys2Proof.Machine

/-- No command is pending, and the registers show it (10_state.md R30). -/
def State.noCommand (s : State) : Bool :=
  s.cmd.isNone && !s.reg.ccmd.getLsbD 63 && !s.reg.iotlb.getLsbD 63 && (s.reg.pmen.getLsbD 31 == s.prs) && !s.wbfs

/-- The queue is disabled, or empty with nothing fetched and not complete and every ITag free. -/
def State.queueIdle (s : State) : Bool :=
  !s.qies || (s.qh == s.qt && s.iq.pending.isEmpty && s.itags.all Option.isNone)

/-- No unmasked event is still to be sent. -/
def State.eventsIdle (s : State) : Bool := (!s.fePending || s.feMask) && (!s.iePending || s.ieMask)

/-- `idle` (R558, decision D40), with no fault waiting for the logger, which the unit owes too (60_exceptions.md R488). -/
def State.idle (s : State) : Bool :=
  s.noCommand && s.queueIdle && s.unlogged.isEmpty && s.inflight.isEmpty && s.irqs.isEmpty && s.posted.isEmpty && s.eventsIdle
    && (s.wbuf.isEmpty || !s.cfg.rwbf)

/-- A queue error or a time-out holds descriptors between head and tail until software acts (R558). -/
def State.stuck (s : State) : Bool := (s.iqe || s.ite) && s.qies && !(s.qh == s.qt)

/-! ## Progress (R557) -/

/-- A run in which every step answers a next state. -/
def IsRun (run : Nat → State) : Prop := ∀ n, step (run n) = .next (run (n + 1))

/-- The fairness that R557 promises of an implementation, whatever its schedule: a pending command is performed; descriptors
between head and tail are fetched while fetching is enabled; a fetched descriptor completes or ITE is Set; a waiting fault
is logged; an event message that software leaves unmasked is sent, so no transient condition holds it for ever; what was posted
becomes visible. The agenda is free (log 17), so a claim that needs progress takes this as a premise; the schedule of the
empty agenda gives it step by step (log 27). -/
structure FairRun (run : Nat → State) : Prop where
  steps : IsRun run
  command : ∀ n, (run n).cmd ≠ none → ∃ m, n ≤ m ∧ (run m).cmd = none
  fetch : ∀ n, (∀ m, n ≤ m → (run m).fetchEnabled = true) → ∃ m, n ≤ m ∧ (run m).iq.nextSeq ≠ (run n).iq.nextSeq
  complete : ∀ n, ∀ p ∈ (run n).iq.pending, ∃ m, n ≤ m ∧ (p ∉ (run m).iq.pending ∨ (run m).ite = true)
  logged : ∀ n, (run n).unlogged ≠ [] → ∃ m, n ≤ m ∧ (run (m + 1)).unlogged.length < (run m).unlogged.length
  faultEvent : ∀ n, (∀ m, n ≤ m → (run m).feMask = false) → ∃ m, n ≤ m ∧ (run m).fePending = false
  invEvent : ∀ n, (∀ m, n ≤ m → (run m).ieMask = false) → ∃ m, n ≤ m ∧ (run m).iePending = false
  visible : ∀ n, ∀ p ∈ (run n).posted, ∃ m, n ≤ m ∧ p ∉ (run m).posted

/-! ## Invariants -/

/-- The invariant: memory is in canonical form; there are as many fault recording registers and tags as the configuration
says; the reserved bits of GSTS_REG read 0 (11_registers_a.md R64); PPF is not stored (60_exceptions.md R492); the two log
indexes are inside their logs (10_state.md R29); a write buffer exists only with CAP.RWBF (R34), and unwritten-back stores
only with ECAP.C = 0 (20_memory.md R152), one byte for each address, since a store takes the place of older ones (log 16). -/
structure State.Inv (s : State) : Prop where
  mem : s.mem.wf = true
  frcd : s.reg.frcd.length = s.cfg.faultRegs
  itags : s.itags.length = s.cfg.nItags
  gsts : s.reg.gsts &&& 0x007FFFFF = 0
  fsts : s.reg.fsts.getLsbD 1 = false
  pfIndex : s.log.pfIndex < s.cfg.faultRegs
  afIndex : ∀ p, s.latch.flp = some p → s.log.afIndex < 2 ^ (p.size.toNat + 8)
  wbuf : s.cfg.rwbf = false → s.wbuf = []
  dirty : s.cfg.coherent = true → s.dirty = []
  dirtyOnce : (s.dirty.map (fun d => d.cell.1)).Nodup

/-- With CAP.CM = 0 no cache holds a not-present or erroneous entry (43_caching_and_register_invalidation.md R335): every
cached context-entry passes the checks, every IOTLB entry is a mapping with some permission, every PDE-cache entry is a
present non-leaf, every cached IRTE is present and well-formed. -/
structure State.NoFaultCached (s : State) : Prop where
  ctx : s.cfg.cm = false → ∀ l ∈ s.cache.ctx, ∃ e, contentAnswer s.cfg l.content = .entry e
  iotlb : s.cfg.cm = false → ∀ l ∈ s.cache.iotlb, ∃ m, l.content = .mapping m ∧ (m.r || m.w) = true
  pde : s.cfg.cm = false → ∀ l ∈ s.cache.pde, (pteR l.entry || pteW l.entry) = true ∧ pteReserved s.cfg l.entry l.level = false
  iec : s.cfg.cm = false → ∀ l ∈ s.cache.iec, irtePresent l.entry = true ∧ irteReserved s.cfg l.entry = false

/-- A status bit of a facility that the implementation lacks reads 0 (45_global_commands.md R431), and only descriptors are
in the queue engine. -/
structure State.Implemented (s : State) : Prop where
  log : s.cfg.afl = false → s.fls = false ∧ s.afls = false
  flush : s.cfg.rwbf = false → s.wbfs = false
  queue : s.cfg.qi = false → s.qies = false
  interrupts : s.cfg.ir = false → s.ires = false ∧ s.irtps = false
  compatibility : (s.cfg.ir = false ∨ s.cfg.arch = .itanium) → s.cfis = false
  pending : ∀ p ∈ s.iq.pending, p.instr.isDescriptor = true

/-- What an output says of a blocked request (40_dma_remapping.md R258): an error, data that is independent of memory, or a
discarded write. -/
def Output.isBlocked : Output → Bool
  | .readError _ _ => true
  | .dummyData _ _ _ => true
  | .writeDropped _ _ => true
  | .regValue _ _ _ => false
  | .loadValue _ _ => false
  | .readData _ _ _ => false
  | .malformed _ => false
  | .unsupported _ => false
  | .peer _ => false
  | .translation _ _ => false
  | .invRequest _ _ _ _ => false
  | .interrupt _ => false
  | .eventMessage _ _ _ => false

/-- The registers whose write stores its RW fields and has no other effect (10_state.md R22, R35), but that of IQT_REG on the
descriptors read ahead (20_memory.md R153). -/
def RegId.isPlain : RegId → Bool
  | .ver => false
  | .cap => false
  | .ecap => false
  | .gcmd => false
  | .gsts => false
  | .rtaddr => true
  | .ccmd => false
  | .fsts => false
  | .fectl => false
  | .fedata => true
  | .feaddr => true
  | .feuaddr => true
  | .aflog => true
  | .pmen => false
  | .plmbase => true
  | .plmlimit => true
  | .phmbase => true
  | .phmlimit => true
  | .iqh => false
  | .iqt => true
  | .iqa => false
  | .ics => false
  | .iectl => false
  | .iedata => true
  | .ieaddr => true
  | .ieuaddr => true
  | .irta => true
  | .iva => true
  | .iotlb => false
  | .frcd _ => false

/-- No in-flight request that draining applies to (43_caching_and_register_invalidation.md R360). -/
def State.drained (s : State) : Bool := s.inflight.all (fun f => !(drainable .read f || drainable .write f))

/-- The address is one that a store held in the write buffer goes to. -/
def State.bufferedAt (s : State) (a : Nat) : Bool := s.wbuf.any (fun cells => touches cells a)

/-- The address is one that an in-flight write of untranslated data goes to, among the requests that `p` selects. -/
def State.writtenInFlight (s : State) (p : InFlight → Bool) (a : Nat) : Bool :=
  s.inflight.any (fun f => p f && f.kind == .write && touches (enabledCells f.hpa f.enables f.data) a)

/-! ## What an invalidation must have done -/

/-- A context-cache invalidation of the granularity code `code` took `s` to `t` (43_caching_and_register_invalidation.md
R340 to R342, R350); the registers are the caller's. The entries that must be gone are those of the requested granularity;
hardware may have removed more. -/
structure ContextInvalidated (s t : State) (code : BitVec 2) (did : DomainId) (sid : SourceId) (fm : BitVec 2) : Prop where
  fewer : ∀ l ∈ t.cache.ctx, l ∈ s.cache.ctx
  global : code = 1 → t.cache.ctx = []
  domain : code = 2 → ∀ l ∈ t.cache.ctx, l.content.domain s.cfg ≠ s.cfg.domain did
  device : code = 3 → ∀ l ∈ t.cache.ctx, ¬ (sidMatches fm l.sid sid = true ∧ l.content.domain s.cfg = s.cfg.domain did)
  reserved : code = 0 → t.cache.ctx = s.cache.ctx
  flushed : s.cfg.rwbf = true → t.wbuf = [] ∧ t.mem = s.mem.performStores s.wbuf
  unflushed : s.cfg.rwbf = false → t.wbuf = s.wbuf ∧ t.mem = s.mem
  view : t.cpuView = s.cpuView
  memory : s.mem.wf = true → ∀ a, s.bufferedAt a = false → t.mem.read a = s.mem.read a
  frame : t = { s with reg := t.reg, cache := { s.cache with ctx := t.cache.ctx }, mem := t.mem, wbuf := t.wbuf,
                       draws := s.draws + 1 }

/-- The write buffer's stores are in memory, in order, where there is a buffer (20_memory.md R155). -/
def State.flushed (s : State) : State :=
  { s with mem := if s.cfg.rwbf then s.mem.performStores s.wbuf else s.mem, wbuf := if s.cfg.rwbf then [] else s.wbuf }

/-- The in-flight requests listed complete, in order (20_memory.md R162). -/
def State.commits (s : State) (fs : List InFlight) : State := fs.foldl State.commitRequest s

/-- The in-flight requests in the scope of an IOTLB invalidation request (R363); none for a reserved code. -/
def inRequestedScope (cfg : Config) (code : BitVec 3) (did : DomainId) (addr : PageNumber) (am : BitVec 6) (f : InFlight) :
    Bool :=
  match iotlbGranOf code with
  | none => false
  | some g => inDrainScope g (cfg.domain did) (pageRangeBase cfg addr am) (pageRangeSize am) f

/-- The request is one that hardware must not ignore (R346): a global or domain-selective one; a page-selective one with an
address mask within CAP.MAMV, or, in the queue, of an implementation without page-selective invalidation
(44_queued_invalidation.md R384). -/
def iotlbRequestValid (cfg : Config) (reports : Bool) (code : BitVec 3) (am : BitVec 6) : Bool :=
  code == 1 || code == 2 || (code == 3 && (if cfg.psi then decide (am.toNat ≤ cfg.mamv) else !reports))

/-- The request is incorrect and must be ignored (R346): a reserved granularity, or an address mask above CAP.MAMV where
page-selective invalidation is supported. -/
def iotlbRequestIncorrect (cfg : Config) (code : BitVec 3) (am : BitVec 6) : Bool :=
  !(code == 1 || code == 2 || code == 3) || (code == 3 && cfg.psi && decide (cfg.mamv < am.toNat))

/-- The in-flight requests that an IOTLB invalidation drains: those of a kind that is asked for and supported, in the scope of
the request (R361, R363). -/
def drainedBy (cfg : Config) (code : BitVec 3) (dr dw : Bool) (did : DomainId) (addr : PageNumber) (am : BitVec 6)
    (f : InFlight) : Bool :=
  ((dr && cfg.drd && drainable .read f) || (dw && cfg.dwd && drainable .write f)) && inRequestedScope cfg code did addr am f

/-- In-flight requests `drained` completed on the way from `s` to `t`, after the flush of the write buffer, and no others, the
oldest first (log 50): a write's enabled bytes are in memory, a read is answered. -/
structure Drained (s t : State) (drained : InFlight → Bool) : Prop where
  inflight : t.inflight = s.inflight.filter (fun f => !drained f)
  mem : t.mem = (s.commits (s.inflight.filter drained)).mem
  wbuf : t.wbuf = (s.commits (s.inflight.filter drained)).wbuf
  dirty : t.dirty = (s.commits (s.inflight.filter drained)).dirty
  out : t.out = (s.commits (s.inflight.filter drained)).out

/-- An IOTLB invalidation of the granularity code `code` took `s` to `t` (43_caching_and_register_invalidation.md R345 to
R350, R361, R363; without CAP.PSI 44_queued_invalidation.md R384); the registers are the caller's. That super pages go by overlap is decision D29, that the reserved codes
are incorrect is [derived] in R346 (log 26). -/
structure IotlbInvalidated (s t : State) (reports : Bool) (code : BitVec 3) (dr dw : Bool) (did : DomainId)
    (addr : PageNumber) (am : BitVec 6) (ih : Bool) : Prop where
  fewerIotlb : ∀ l ∈ t.cache.iotlb, l ∈ s.cache.iotlb
  fewerPde : ∀ l ∈ t.cache.pde, l ∈ s.cache.pde
  global : code = 1 → t.cache.iotlb = [] ∧ t.cache.pde = []
  domain : code = 2 → (∀ l ∈ t.cache.iotlb, l.did ≠ s.cfg.domain did) ∧ (∀ l ∈ t.cache.pde, l.did ≠ s.cfg.domain did)
  page : code = 3 → iotlbRequestValid s.cfg reports code am = true →
    (∀ l ∈ t.cache.iotlb, l.did = s.cfg.domain did →
      rangesMeet (l.page * 2 ^ pageBits l.level) (2 ^ pageBits l.level) (pageRangeBase s.cfg addr am) (pageRangeSize am)
        = false) ∧
    (ih = false → ∀ l ∈ t.cache.pde, l.did = s.cfg.domain did →
      rangesMeet (l.span * 2 ^ pageBits l.level) (2 ^ pageBits l.level) (pageRangeBase s.cfg addr am) (pageRangeSize am)
        = false)
  coarse : code = 3 → s.cfg.psi = false → iotlbRequestValid s.cfg reports code am = true →
    (∀ l ∈ t.cache.iotlb, l.did ≠ s.cfg.domain did) ∧ (∀ l ∈ t.cache.pde, l.did ≠ s.cfg.domain did)
  done : iotlbRequestValid s.cfg reports code am = true →
    Drained s.flushed.tick t (drainedBy s.cfg code dr dw did addr am)
  ignored : iotlbRequestIncorrect s.cfg code am = true → t.cache = s.cache ∧ Drained s.flushed.tick t (fun _ => false)
  either : Drained s.flushed.tick t (drainedBy s.cfg code dr dw did addr am) ∨
    (t.cache = s.cache ∧ Drained s.flushed.tick t (fun _ => false))
  reads : dr = true → s.cfg.drd = true → iotlbRequestValid s.cfg reports code am = true → ∀ f ∈ t.inflight,
    drainable .read f = true → inRequestedScope s.cfg code did addr am f = false
  writes : dw = true → s.cfg.dwd = true → iotlbRequestValid s.cfg reports code am = true → ∀ f ∈ t.inflight,
    drainable .write f = true → inRequestedScope s.cfg code did addr am f = false
  flushed : s.cfg.rwbf = true → t.wbuf = []
  memory : s.mem.wf = true → ∀ a, (s.cfg.rwbf = true → s.bufferedAt a = false) →
    s.writtenInFlight (fun f => dw && s.cfg.dwd && drainable .write f && inRequestedScope s.cfg code did addr am f) a = false →
    t.mem.read a = s.mem.read a
  frame : t = { s with reg := t.reg, cache := { s.cache with iotlb := t.cache.iotlb, pde := t.cache.pde }, mem := t.mem,
                       wbuf := t.wbuf, dirty := t.dirty, inflight := t.inflight, out := t.out, draws := t.draws }

/-! ## What the structures in memory say of an address -/

/-- The quadword at `a` reads as `v` in one of the memories that the read may see (20_memory.md R144, R150). -/
def ReadsQuad (cfg : Config) (vs : List Memory) (a : Nat) (v : BitVec 64) : Prop :=
  accessError cfg a 8 = false ∧ ∃ m ∈ vs, v = BitVec.ofNat 64 (m.readValue a 8)

/-- The 128-bit entry at `a` reads as `e`, by two reads (20_memory.md R144, decision D3). -/
def ReadsEntry (cfg : Config) (vs : List Memory) (a : Nat) (e : BitVec 128) : Prop :=
  ReadsQuad cfg vs a (e.extractLsb' 0 64) ∧ ReadsQuad cfg vs (a + 8) (e.extractLsb' 64 64)

/-- A read of the 128-bit entry at `a` fails. -/
def EntryFails (cfg : Config) (a : Nat) : Prop := accessError cfg a 8 = true ∨ accessError cfg (a + 8) 8 = true

/-- The walk looks further at an entry, `r` and `w` being the permissions of the path with this entry's: they permit the request
(40_dma_remapping.md R238); for a translation request the entry itself is present (41_device_iotlb.md R273, decision D19). -/
def Need.looksOn (need : Need) (e : BitVec 64) (r w : Bool) : Bool :=
  if need = .device then e.getLsbD 0 || e.getLsbD 1 else need.permitted r w

/-- What one page-table entry of `level` decides, one constructor for each way (40_dma_remapping.md R237 to R239, R259; for a
translation request 41_device_iotlb.md R273, decision D19), `r` and `w` being the permissions of the path with this entry's. The
permission is looked at before the reserved fields by decision D35 (log 18). -/
inductive EntryDecides (cfg : Config) (need : Need) (e : BitVec 64) (level : Nat) (r w : Bool) : EntryVerdict → Prop
  /-- 5h: W is Clear in some entry of the path of a write. -/
  | writeDenied : need = .write → w = false → EntryDecides cfg need e level r w (.stop (.fault .writeDenied))
  /-- 6h: R is Clear in some entry of the path of a read; of a zero-length read with CAP.ZLR, W too. -/
  | readDenied : need = .read ∨ (need = .zeroRead ∧ w = false) → r = false →
      EntryDecides cfg need e level r w (.stop (.fault .readDenied))
  /-- A translation request meets a not-present entry: no permission. -/
  | notPresent : need = .device → e.getLsbD 0 = false → e.getLsbD 1 = false → EntryDecides cfg need e level r w (.stop .noAccess)
  /-- Ch: a reserved field is not 0. -/
  | reserved : need.looksOn e r w = true → pteReserved cfg e level = true →
      EntryDecides cfg need e level r w (.stop (.fault .pageReserved))
  /-- A translation request reaches a leaf, but the path as a whole leaves no permission. -/
  | leafWithout : need = .device → need.looksOn e r w = true → pteReserved cfg e level = false → isLeaf cfg e level = true →
      r = false → w = false → EntryDecides cfg need e level r w (.stop .noAccess)
  /-- The leaf: its page, with the permissions of the whole path. -/
  | leaf : need.looksOn e r w = true → pteReserved cfg e level = false → isLeaf cfg e level = true →
      (need = .device → (r || w) = true) → EntryDecides cfg need e level r w (.leaf
        { hpa := (e.extractLsb' 0 62).toNat % 2 ^ cfg.haw / 2 ^ pageBits level * 2 ^ pageBits level, level := level, r := r, w := w,
          snp := cfg.sc && e.getLsbD 11, tm := e.getLsbD 62 })
  /-- The entry points to the next table. -/
  | descend : need.looksOn e r w = true → pteReserved cfg e level = false → isLeaf cfg e level = false →
      EntryDecides cfg need e level r w .descend

/-- The next table is at address bits HAW-1:12 of the entry (40_dma_remapping.md R237). -/
def nextTableAt (cfg : Config) (e : BitVec 64) : Nat := (e.extractLsb' 0 62).toNat / 4096 % 2 ^ (cfg.haw - 12) * 4096

/-- The page walk (40_dma_remapping.md R237, R259). `WalkGives cfg vs g level base r w a`: the walk for `g` that looks at the
table of `level` at `base`, the levels above leaving the permissions `r` and `w`, ends with `a`. -/
inductive WalkGives (cfg : Config) (vs : List Memory) (g : WalkGoal) : Nat → Nat → Bool → Bool → WalkAnswer → Prop
  /-- 3h: the page-table base of the context-entry cannot be accessed. -/
  | topAccess (level base : Nat) (r w : Bool) : accessError cfg (base + 8 * tableIndex level g.dva) 8 = true → level = g.top →
      WalkGives cfg vs g level base r w (.fault .contextInvalid)
  /-- 7h: the next table cannot be accessed. -/
  | tableAccess (level base : Nat) (r w : Bool) : accessError cfg (base + 8 * tableIndex level g.dva) 8 = true → level ≠ g.top →
      WalkGives cfg vs g level base r w (.fault .tableAccess)
  /-- The entry ends the walk. -/
  | stop (level base : Nat) (r w : Bool) (e : BitVec 64) (a : WalkAnswer) :
      ReadsQuad cfg vs (base + 8 * tableIndex level g.dva) e →
      EntryDecides cfg g.need e level (r && e.getLsbD 0) (w && e.getLsbD 1) (.stop a) → WalkGives cfg vs g level base r w a
  /-- The entry is the leaf. -/
  | leaf (level base : Nat) (r w : Bool) (e : BitVec 64) (m : Mapping) :
      ReadsQuad cfg vs (base + 8 * tableIndex level g.dva) e →
      EntryDecides cfg g.need e level (r && e.getLsbD 0) (w && e.getLsbD 1) (.leaf m) →
      WalkGives cfg vs g level base r w (.mapped m)
  /-- The entry points to the next table. -/
  | next (level base : Nat) (r w : Bool) (e : BitVec 64) (a : WalkAnswer) :
      ReadsQuad cfg vs (base + 8 * tableIndex (level + 1) g.dva) e →
      EntryDecides cfg g.need e (level + 1) (r && e.getLsbD 0) (w && e.getLsbD 1) .descend →
      WalkGives cfg vs g level (nextTableAt cfg e) (r && e.getLsbD 0) (w && e.getLsbD 1) a →
      WalkGives cfg vs g (level + 1) base r w a

/-- The context-entry `ce` of the source-id is reached: the root-entry is present and well-formed (40_dma_remapping.md R233,
R234). -/
def ReadsContext (cfg : Config) (vs : List Memory) (rtp : PageNumber) (sid : SourceId) (ce : BitVec 128) : Prop :=
  ∃ re, ReadsEntry cfg vs (rtp.toNat * 4096 + 16 * (sid.toNat / 256)) re ∧ re.getLsbD 0 = true ∧ rootReserved cfg re = false ∧
    ReadsEntry cfg vs (pageAddress cfg (re.extractLsb' 0 64) + 16 * (sid.toNat % 256)) ce

/-- The context-entry is present, without reserved fields, and validly programmed (R232 step A). -/
def ContextSound (cfg : Config) (ce : BitVec 128) : Prop :=
  ce.getLsbD 0 = true ∧ ctxReserved cfg ce = false ∧ ctxInvalid cfg ce = false

/-- What a context lookup for the source-id finds, one constructor for each way (40_dma_remapping.md R232 step A, R259;
43_caching_and_register_invalidation.md R331): a cached line of that source-id, or what memory holds. -/
inductive ContentGives (s : State) (vs : List Memory) (rtp : PageNumber) (sid : SourceId) : CtxContent → Prop
  /-- A line of the context cache, whose key is the source-id. -/
  | held (l : CtxLine) : l ∈ s.cache.ctx → l.sid = sid → ContentGives s vs rtp sid l.content
  /-- 8h. -/
  | rootAccess : EntryFails s.cfg (rtp.toNat * 4096 + 16 * (sid.toNat / 256)) → ContentGives s vs rtp sid (.fault .rootAccess)
  /-- 1h. -/
  | rootNotPresent (re : BitVec 128) : ReadsEntry s.cfg vs (rtp.toNat * 4096 + 16 * (sid.toNat / 256)) re →
      re.getLsbD 0 = false → ContentGives s vs rtp sid (.fault .rootNotPresent)
  /-- Ah. -/
  | rootReserved (re : BitVec 128) : ReadsEntry s.cfg vs (rtp.toNat * 4096 + 16 * (sid.toNat / 256)) re →
      re.getLsbD 0 = true → rootReserved s.cfg re = true → ContentGives s vs rtp sid (.fault .rootReserved)
  /-- 9h. -/
  | contextAccess (re : BitVec 128) : ReadsEntry s.cfg vs (rtp.toNat * 4096 + 16 * (sid.toNat / 256)) re →
      re.getLsbD 0 = true → rootReserved s.cfg re = false →
      EntryFails s.cfg (pageAddress s.cfg (re.extractLsb' 0 64) + 16 * (sid.toNat % 256)) →
      ContentGives s vs rtp sid (.fault .contextAccess)
  /-- The context-entry. -/
  | entry (ce : BitVec 128) : ReadsContext s.cfg vs rtp sid ce → ContentGives s vs rtp sid (.entry ce)

/-- The checks on what a context lookup found (40_dma_remapping.md R232, R259). A fault that no context-entry was read for has FPD
Clear. The order of the checks within one entry is decision D35 (log 18). -/
inductive ContentChecks (cfg : Config) : CtxContent → CtxAnswer → Prop
  | fault (r : FaultReason) : ContentChecks cfg (.fault r) (.fault r false)
  /-- 2h. -/
  | notPresent (ce : BitVec 128) : ce.getLsbD 0 = false →
      ContentChecks cfg (.entry ce) (.fault .contextNotPresent (ce.getLsbD 1))
  /-- Bh. -/
  | reserved (ce : BitVec 128) : ce.getLsbD 0 = true → ctxReserved cfg ce = true →
      ContentChecks cfg (.entry ce) (.fault .contextReserved (ce.getLsbD 1))
  /-- 3h. -/
  | invalid (ce : BitVec 128) : ce.getLsbD 0 = true → ctxReserved cfg ce = false → ctxInvalid cfg ce = true →
      ContentChecks cfg (.entry ce) (.fault .contextInvalid (ce.getLsbD 1))
  | sound (ce : BitVec 128) : ContextSound cfg ce → ContentChecks cfg (.entry ce) (.entry ce)

/-- A PDE-cache entry for the address of the goal: of its domain, of a level from 1 to the top, over the address's span
(43_caching_and_register_invalidation.md R333). -/
def State.PdeHit (s : State) (g : WalkGoal) (l : PdeLine) : Prop :=
  l ∈ s.cache.pde ∧ l.did = g.did ∧ 1 ≤ l.level ∧ l.level ≤ g.top ∧ l.span = g.dva / 2 ^ pageBits l.level

/-- The walk of a context-entry: from the top table, or from a PDE-cache entry that hits, which stands for the reads down to its
level (40_dma_remapping.md R237, 43_caching_and_register_invalidation.md R333). -/
inductive WalkStarts (s : State) (vs : List Memory) (g : WalkGoal) (ce : BitVec 128) : WalkAnswer → Prop
  | top (a : WalkAnswer) : WalkGives s.cfg vs g g.top (pageAddress s.cfg (ce.extractLsb' 0 64)) true true a →
      WalkStarts s vs g ce a
  | heldStop (l : PdeLine) (a : WalkAnswer) : s.PdeHit g l →
      EntryDecides s.cfg g.need l.entry l.level (l.r && l.entry.getLsbD 0) (l.w && l.entry.getLsbD 1) (.stop a) →
      WalkStarts s vs g ce a
  | heldLeaf (l : PdeLine) (m : Mapping) : s.PdeHit g l →
      EntryDecides s.cfg g.need l.entry l.level (l.r && l.entry.getLsbD 0) (l.w && l.entry.getLsbD 1) (.leaf m) →
      WalkStarts s vs g ce (.mapped m)
  | heldNext (l : PdeLine) (a : WalkAnswer) : s.PdeHit g l →
      EntryDecides s.cfg g.need l.entry l.level (l.r && l.entry.getLsbD 0) (l.w && l.entry.getLsbD 1) .descend →
      WalkGives s.cfg vs g (l.level - 1) (nextTableAt s.cfg l.entry) (l.r && l.entry.getLsbD 0) (l.w && l.entry.getLsbD 1) a →
      WalkStarts s vs g ce a

/-- An IOTLB entry for the address in the domain: its domain-id and its page agree, and a faulting one's source-id too
(43_caching_and_register_invalidation.md R332, R335). -/
def State.IotlbHit (s : State) (did : DomainId) (sid : SourceId) (dva : Nat) (l : IotlbLine) : Prop :=
  l ∈ s.cache.iotlb ∧ l.did = did ∧ l.page = dva / 2 ^ pageBits l.level ∧ (l.sid = none ∨ l.sid = some sid)

/-- A cached fault of a context lookup (CAP.CM = 1 only): its domain-id tag, its source-id and its 4KB page agree
(43_caching_and_register_invalidation.md R335; log 25). -/
def State.FaultHit (s : State) (did : DomainId) (sid : SourceId) (dva : Nat) (r : FaultReason) (kept : Bool) : Prop :=
  s.cfg.cm = true ∧ ∃ l ∈ s.cache.iotlb, l.did = did ∧ l.sid = some sid ∧ l.page = dva / 4096 ∧ l.content = .fault r kept

/-- What an IOTLB entry answers: its permissions are checked as a walk's are (40_dma_remapping.md R260, R238;
41_device_iotlb.md R273; of an erroneous entry 43_caching_and_register_invalidation.md R335 and decision D35, log 25). -/
inductive LineAnswers (need : Need) : IotlbContent → WalkAnswer → Prop
  | fault (r : FaultReason) (kept : Bool) : LineAnswers need (.fault r kept) (.fault r)
  | erroneous (level : Nat) (r w : Bool) : need.permitted r w = true →
      LineAnswers need (.erroneous level r w) (.fault .pageReserved)
  | erroneousDenied (level : Nat) (r w : Bool) : need.permitted r w = false →
      LineAnswers need (.erroneous level r w) (.fault (if need = .write then .writeDenied else .readDenied))
  | mapped (m : Mapping) : need.permitted m.r m.w = true → (need = .device → (m.r || m.w) = true) →
      LineAnswers need (.mapping m) (.mapped m)
  | without (m : Mapping) : need = .device → m.r = false → m.w = false → LineAnswers need (.mapping m) .noAccess
  | denied (m : Mapping) : need.permitted m.r m.w = false →
      LineAnswers need (.mapping m) (.fault (if need = .write then .writeDenied else .readDenied))

/-- What a walk's answer is to the request. -/
def TransAnswer.ofWalk (did : DomainId) (fpd : Bool) : WalkAnswer → TransAnswer
  | .mapped m => .mapped did m
  | .fault f => .fault f fpd
  | .noAccess => .noAccess

/-- The goal of a walk for the address by way of the context-entry (40_dma_remapping.md R237; 21_structures.md R172). -/
def walkGoalOf (cfg : Config) (ce : BitVec 128) (dva : Nat) (need : Need) : WalkGoal :=
  { did := cfg.domain (ce.extractLsb' 72 16), dva := dva, need := need, top := (ce.extractLsb' 64 3).toNat + 1 }

/-- The context lookup finds a sound entry (40_dma_remapping.md R232 step A). -/
def State.FindsContext (s : State) (vs : List Memory) (rtp : PageNumber) (sid : SourceId) (ce : BitVec 128) : Prop :=
  ContentGives s vs rtp sid (.entry ce) ∧ ContextSound s.cfg ce

/-- The translation of an address of a device, one constructor for each row of 40_dma_remapping.md R232 and R259 (for a
translation request 41_device_iotlb.md R273), from the caches and the structures in memory. An answer from a cache comes from a
line whose key matches: the source-id in the context cache, the domain-id and the page in the IOTLB, the domain-id, the level
and the span in a PDE cache (43_caching_and_register_invalidation.md R330 to R333). The bound of pass-through addresses is
decision D17 (log 22), what a cached fault answers is log 25. -/
inductive TranslationGives (s : State) (vs : List Memory) (rtp : PageNumber) (sid : SourceId) (dva : Nat) (need : Need) :
    TransAnswer → Prop
  /-- A fault cached under domain-id 0. -/
  | heldFault (r : FaultReason) (kept : Bool) : s.FaultHit 0 sid dva r kept →
      TranslationGives s vs rtp sid dva need (.fault r kept)
  /-- The context lookup faults: 1h, 2h, 3h, 8h, 9h, Ah, Bh. -/
  | contextFault (k : CtxContent) (r : FaultReason) (fpd : Bool) : ContentGives s vs rtp sid k →
      ContentChecks s.cfg k (.fault r fpd) → TranslationGives s vs rtp sid dva need (.fault r fpd)
  /-- The context lookup faults, and a fault cached for its domain-id answers. -/
  | contextFaultHeld (k : CtxContent) (found r : FaultReason) (fpd kept : Bool) : ContentGives s vs rtp sid k →
      ContentChecks s.cfg k (.fault found fpd) → s.FaultHit (k.domain s.cfg) sid dva r kept →
      TranslationGives s vs rtp sid dva need (.fault r (k.fpdOr kept))
  /-- Dh: a translation request, and T is not 01b. -/
  | typeBlocked (ce : BitVec 128) : s.FindsContext vs rtp sid ce → need = .device → ce.extractLsb' 2 2 ≠ 1 →
      TranslationGives s vs rtp sid dva need (.fault .typeBlocked (ce.getLsbD 1))
  /-- T = 10b: pass-through. -/
  | passThrough (ce : BitVec 128) : s.FindsContext vs rtp sid ce → need ≠ .device → ce.extractLsb' 2 2 = 2 →
      dva < 2 ^ s.cfg.mgawBits → TranslationGives s vs rtp sid dva need (.passThrough (s.cfg.domain (ce.extractLsb' 72 16)))
  /-- 4h. -/
  | beyondWidth (ce : BitVec 128) : s.FindsContext vs rtp sid ce → need ≠ .device →
      2 ^ (if ce.extractLsb' 2 2 = 2 then s.cfg.mgawBits else min s.cfg.mgawBits (agaw (ce.extractLsb' 64 3).toNat)) ≤ dva →
      TranslationGives s vs rtp sid dva need (.fault .beyondWidth (ce.getLsbD 1))
  /-- A translation request beyond the width: no permission. -/
  | beyondWidthDevice (ce : BitVec 128) : s.FindsContext vs rtp sid ce → need = .device → ce.extractLsb' 2 2 = 1 →
      2 ^ min s.cfg.mgawBits (agaw (ce.extractLsb' 64 3).toNat) ≤ dva → TranslationGives s vs rtp sid dva need .noAccess
  /-- An IOTLB entry that hits answers, below 2^MGAW. -/
  | hit (ce : BitVec 128) (l : IotlbLine) (a : WalkAnswer) : s.FindsContext vs rtp sid ce → ce.extractLsb' 2 2 ≠ 2 →
      (need = .device → ce.extractLsb' 2 2 = 1) → dva < 2 ^ s.cfg.mgawBits →
      s.IotlbHit (s.cfg.domain (ce.extractLsb' 72 16)) sid dva l → LineAnswers need l.content a →
      TranslationGives s vs rtp sid dva need (.ofWalk (s.cfg.domain (ce.extractLsb' 72 16)) (ce.getLsbD 1) a)
  /-- The page tables: 3h, 5h, 6h, 7h, Ch or a page. -/
  | walk (ce : BitVec 128) (a : WalkAnswer) : s.FindsContext vs rtp sid ce → ce.extractLsb' 2 2 ≠ 2 →
      (need = .device → ce.extractLsb' 2 2 = 1) → dva < 2 ^ min s.cfg.mgawBits (agaw (ce.extractLsb' 64 3).toNat) →
      WalkStarts s vs (walkGoalOf s.cfg ce dva need) ce a →
      TranslationGives s vs rtp sid dva need (.ofWalk (s.cfg.domain (ce.extractLsb' 72 16)) (ce.getLsbD 1) a)

/-- The check of a translated request (41_device_iotlb.md R282, R283): the fault of the context lookup; Dh where T is not 01b;
else the context-entry. -/
inductive TranslatedCheckGives (s : State) (vs : List Memory) (rtp : PageNumber) (sid : SourceId) : CtxAnswer → Prop
  | fault (k : CtxContent) (r : FaultReason) (fpd : Bool) : ContentGives s vs rtp sid k →
      ContentChecks s.cfg k (.fault r fpd) → TranslatedCheckGives s vs rtp sid (.fault r fpd)
  | typeBlocked (ce : BitVec 128) : s.FindsContext vs rtp sid ce → ce.extractLsb' 2 2 ≠ 1 →
      TranslatedCheckGives s vs rtp sid (.fault .typeBlocked (ce.getLsbD 1))
  | entry (ce : BitVec 128) : s.FindsContext vs rtp sid ce → ce.extractLsb' 2 2 = 1 → TranslatedCheckGives s vs rtp sid (.entry ce)

/-- The interrupt-remapping table entry of an index (42_interrupt_remapping.md R309; 21_structures.md R183;
43_caching_and_register_invalidation.md R334): a line of the interrupt entry cache whose key is that index, or the 16 bytes in the
table; none where they cannot be read. -/
inductive InterruptEntryGives (s : State) (vs : List Memory) (p : InterruptTablePointer) (index : Nat) :
    Option (BitVec 128) → Prop
  | held (l : IecLine) : l ∈ s.cache.iec → l.index = index → InterruptEntryGives s vs p index (some l.entry)
  | read (e : BitVec 128) : ReadsEntry s.cfg vs (p.base.toNat * 4096 + 16 * index) e → InterruptEntryGives s vs p index (some e)
  | fails : EntryFails s.cfg (p.base.toNat * 4096 + 16 * index) → InterruptEntryGives s vs p index none

/-- No cache holds anything that a translation for the source-id could use. -/
def State.cachesMiss (s : State) (sid : SourceId) : Prop :=
  (∀ l ∈ s.cache.ctx, l.sid ≠ sid) ∧ s.cache.iotlb = [] ∧ s.cache.pde = []

/-- The translation answers with a page of `level`; no permission counts as a page of 4KB (log 23). -/
def TransAnswer.hasLevel (a : TransAnswer) (level : Nat) : Prop :=
  (a = .noAccess ∧ level = 0) ∨ ∃ did m, a = .mapped did m ∧ m.level = level

/-- The translation completion entry that answers `a` (41_device_iotlb.md R275; the size marker of a super page is 30_encoding.md
R207). -/
def TransAnswer.entryIs (a : TransAnswer) (e : TranslationEntry) : Prop :=
  (a = .noAccess → e.r = false ∧ e.w = false ∧ e.u = false ∧ e.s = false) ∧
  (∀ did m, a = .mapped did m → e.r = m.r ∧ e.w = m.w ∧ e.n = m.snp ∧ e.u = m.tm ∧ e.s = decide (1 ≤ m.level) ∧
    (m.tm = false → e.addr = m.hpa + (if m.level = 0 then 0 else 2 ^ (pageBits m.level - 1) - 4096)))

/-- The state in which the `j`-th of several translations for one translation request is looked up: those before it may have
filled the caches. -/
def State.afterTranslations (s : State) (rtp : PageNumber) (sid : SourceId) (addr size : Nat) : Nat → State
  | 0 => s
  | j + 1 =>
      ((s.afterTranslations rtp sid addr size j).fillCaches
        ((s.afterTranslations rtp sid addr size j).translate [s.mem] rtp sid (addr + j * size) .device)).tick

/-! ## What a store of the unit must have done -/

/-- The bytes `bs` stand at `a`, in memory and as processors see it, and every other byte is as before in both. -/
structure Stored (s t : State) (a : Nat) (bs : List Byte) : Prop where
  mem : ∀ i b, bs[i]? = some b → t.mem.read (a + i) = b
  view : ∀ i b, bs[i]? = some b → t.cpuView.read (a + i) = b
  memElse : ∀ x, x < a ∨ a + bs.length ≤ x → t.mem.read x = s.mem.read x
  viewElse : ∀ x, x < a ∨ a + bs.length ≤ x → t.cpuView.read x = s.cpuView.read x
  frame : t = { s with mem := t.mem, wbuf := t.wbuf, dirty := t.dirty, out := t.out }

end Sys2Proof.Machine
end

