-- ==== Sys2Proof/Certificates/Slice0/Obligations.lean ====
section
/-! DEFINITION. The statements for the provers. Rules are those of spec/; `log <n>` is notes/assumptions/<n>.md. A statement of a
form `t = { s with … }` is a frame: it says that everything not listed is unchanged. -/

open Sys2Proof Sys2Proof.Machine

/-! ## Encoding -/

/-- Decoding the words of an instruction gives the instruction back, with every operand at every value, descriptors (30 R211 to
R217, R220) and register commands (R218; 45 R421) alike. The places of the descriptor fields are the spec's layout from general
knowledge (log 9, PRESUMED). A level command is a request only where it differs from its status bit (`requestable`): that is
decision D34 (log 12, DESIGN CHOICE). -/
def Obligations.DecodeOfEncodeIsTheInstruction : Prop :=
  ∀ (ctx : CmdContext) (i : Instr), requestable ctx i = true → decode ctx (encode ctx i) = .instr i

/-- No two bit patterns are one descriptor: a descriptor that decodes is the encoding of what it decodes to (30 R211 to R217,
R220). The places of the fields are the spec's layout from general knowledge (log 9, PRESUMED), and that a descriptor with a
reserved bit Set does not decode is decision D7 (log 11, DESIGN CHOICE). -/
def Obligations.DescriptorBitsAreDetermined : Prop :=
  ∀ (ctx : CmdContext) (d : BitVec 128) (i : Instr), decodeDescriptor d = .instr i → encode ctx i = .descriptor d

/-- Descriptors and command words written out from the layouts of 30 R212 to R217, 11 R63, R66 and R67 decode to the
instructions that they stand for. The five descriptor words rest on the layout of log 9 (PRESUMED), the GCMD_REG word on
decision D34 (log 12, DESIGN CHOICE). -/
def Obligations.WrittenOutWordsDecode : Prop :=
  decodeDescriptor 0x00000000000000000003010000050031 = .instr (.ccInvDsc 3 5 0x0100 3) ∧
  decodeDescriptor 0x000000001234504000000000000700F2 = .instr (.iotlbInvDsc 3 true true 7 0 true 0x12345) ∧
  decodeDescriptor 0x00000000001010010000010000040003 = .instr (.devIotlbInvDsc 4 0x0100 true 0x101) ∧
  decodeDescriptor 0x00000000000000000000012010000014 = .instr (.iecInvDsc true 2 0x0120) ∧
  decodeDescriptor 0x00000000002000000000000100000065 = .instr (.invWaitDsc false true true 1 0x80000) ∧
  decodeGcmd 0xC7000000 0x8E000000 = .instr .gcmdWbf ∧
  decodeCcmd 0xE000000301000007 = .instr (.ccmdIcc 3 3 0x0100 7) ∧
  decodeIotlb 0xB002000700000000 = .instr (.iotlbIvt 3 true false 7)

/-! ## A step runs the decoded instruction -/

/-- With nothing else to do first, the pending command that decodes to `i` is performed by the next step: its slot is emptied
and the step is `exec i` (45 R420; 10 R30). The rule says only at some later time: that it is the next step of an empty agenda
is the model's schedule (log 27, DESIGN CHOICE). -/
def Obligations.StepRunsThePendingCommand : Prop :=
  ∀ (s : State) (w : CmdWrite) (i : Instr), s.agenda = [] → s.cmd = some w → decodeCommand s.cmdContext w = .instr i →
    wellFormed s.cfg i = true → step s = exec i { s with cmd := none }

/-- When the 16 bytes at the head's slot are a descriptor `i` of the implementation and nothing is pending, the next step accepts
it (the head moves past it, 44 R374), runs `exec i`, and retires it (44 R375); a Device-IOTLB invalidation must have a free
tag and not have been issued before (41 R291). With the reference layout and decision D7 (00 R10) the bytes are a descriptor
where they decode to a well-formed instruction. That fetch, execution and retirement are one step of an empty agenda is the
model's schedule (log 27, DESIGN CHOICE). -/
def Obligations.StepRunsTheDescriptorAtTheHead : Prop :=
  ∀ (s : State) (i : Instr) (bs : List Byte), bs = s.cpuView.readBytes (s.slotAddress s.qh) 16 →
    (s.cfg.dscLayout = .reference → s.cfg.invalidDsc = .decisionD7 →
      (queueBytes s.cfg bs = some i ↔ decodeBytes bs = .instr i ∧ wellFormed s.cfg i = true)) ∧
    (s.agenda = [] → s.cmd = none → s.iq.pending = [] → s.iq.ahead = [] → s.fetchEnabled = true → s.qt < s.queueSlots →
      accessError s.cfg (s.slotAddress s.qh) 16 = false → queueBytes s.cfg bs = some i →
      (isDevInv i = true → (∃ j, j < s.itags.length ∧ s.tag j = none) ∧ s.issued s.iq.nextSeq = false) →
      step s = andThen
        (exec i { (s.acceptDescriptor i).tick with iq := { (s.acceptDescriptor i).iq with current := s.iq.nextSeq } })
        (fun t => .next (t.retire { seq := s.iq.nextSeq, epoch := s.iq.epoch, instr := i })))

/-- A fetch (44 R374): a valid descriptor moves the head to the next slot, wrapping at the end of the queue, and joins the fetched
ones in order; the epoch, by which 44 R402 counts waits, advances exactly at an inv_wait_dsc. An invalid descriptor, an
invalid tail or a fetch error sets IQE; the head keeps its value, nothing is accepted, memory and the caches are unchanged,
and no further fetch happens until software clears IQE (44 R373, R376 to R378, with decisions D7 and D31: logs 11, 27).
`vs` is what memory holds while the two halves of the descriptor are read (20 R144); the descriptor is memory's, or the copy of the
head's slot that was read ahead. A read ahead (20 R153, 44 R374) takes a copy of a slot between head and tail while fetching is
enabled and the tail is valid, and changes nothing else; elsewhere nothing is read. -/
def Obligations.FetchAdvancesOrHoldsTheHead : Prop :=
  (∀ (s : State) (vs : List Memory) (slot a : Nat), a = s.slotAddress slot →
    if s.fetchEnabled = true ∧ s.qt < s.queueSlots ∧ slot < s.queueSlots ∧
        (if s.qh ≤ s.qt then s.qh ≤ slot ∧ slot < s.qt else s.qh ≤ slot ∨ slot < s.qt) ∧ accessError s.cfg a 16 = false then
      ∃ c : Ahead, c.slot = slot ∧
        (vs ≠ [] → ∃ m ∈ vs, ∃ m' ∈ vs, c.bits = BitVec.ofNat 128 (natOfBytes (m.readBytes a 8 ++ m'.readBytes (a + 8) 8))) ∧
        s.fetchAhead slot vs = { s with iq := { s.iq with ahead := c :: s.iq.ahead }, draws := s.draws + 1 }
    else s.fetchAhead slot vs = s) ∧
  ∀ (s : State) (vs : List Memory), s.fetchEnabled = true →
    (s.queueSlots ≤ s.qt ∨ accessError s.cfg (s.slotAddress s.qh) 16 = true → s.fetched vs = none) ∧
    (vs ≠ [] → ∀ i, s.fetched vs = some i → ∃ bytes, queueBytes s.cfg bytes = some i ∧
      ((∃ c ∈ s.iq.ahead, c.slot = s.qh ∧ bytes = bytesOfNat 16 c.bits.toNat) ∨
        ∃ m ∈ vs, ∃ m' ∈ vs, bytes = m.readBytes (s.slotAddress s.qh) 8 ++ m'.readBytes (s.slotAddress s.qh + 8) 8)) ∧
    (∀ i, s.fetched vs = some i →
      (s.fetchDescriptor vs).qh = (s.qh + 1) % s.queueSlots ∧ (s.fetchDescriptor vs).qt = s.qt ∧
      (s.fetchDescriptor vs).iq.pending = s.iq.pending ++ [{ seq := s.iq.nextSeq, epoch := s.iq.epoch, instr := i }] ∧
      (s.fetchDescriptor vs).iq.nextSeq = s.iq.nextSeq + 1 ∧
      (∀ f sw fn d a, i = .invWaitDsc f sw fn d a → (s.fetchDescriptor vs).iq.epoch = s.iq.epoch + 1) ∧
      ((∀ f sw fn d a, i ≠ .invWaitDsc f sw fn d a) → (s.fetchDescriptor vs).iq.epoch = s.iq.epoch) ∧
      s.fetchDescriptor vs = { s with
        reg := { s.reg with iqh := (s.fetchDescriptor vs).reg.iqh }
        iq := { s.iq with pending := (s.fetchDescriptor vs).iq.pending, nextSeq := (s.fetchDescriptor vs).iq.nextSeq,
                          epoch := (s.fetchDescriptor vs).iq.epoch, ahead := (s.fetchDescriptor vs).iq.ahead }
        draws := (s.fetchDescriptor vs).draws }) ∧
    (s.fetched vs = none →
      (s.fetchDescriptor vs).iqe = true ∧ (s.fetchDescriptor vs).reg.iqh = s.reg.iqh ∧
      (s.fetchDescriptor vs).reg.iqt = s.reg.iqt ∧ (s.fetchDescriptor vs).iq.pending = s.iq.pending ∧
      (s.fetchDescriptor vs).mem = s.mem ∧ (s.fetchDescriptor vs).cache = s.cache ∧
      (s.fetchDescriptor vs).fetchEnabled = false)

/-- Nothing that the unit owes is passed over (70 R557). With an empty agenda: a descriptor that is ready is completed or its
request is issued; else the next slot is fetched, or IQE is Set, also while the MaxInvsPend hint holds a descriptor back
(41 R291); else the oldest waiting fault is logged, the oldest in-flight request completes, the oldest in-flight interrupt is
accepted, the oldest posted item and then the oldest buffered store become visible; else every unmasked event message that a
transient condition holds is sent. The order among them is the model's schedule (log 27, DESIGN CHOICE); that of two messages
the fault event's is issued first is log 34 (DESIGN CHOICE: 60 R503 states no priority). -/
def Obligations.TheScheduleServesAllThatIsOwed : Prop :=
  ∀ (s : State), s.agenda = [] → s.cmd = none →
    (∀ p t, s.iq.pending.find? s.ready = some p → step s = .next t → p ∉ t.iq.pending ∨ t.issued p.seq = true) ∧
    (s.iq.pending.find? s.ready = none →
      (s.fetchEnabled = true → ∀ t, step s = .next t → t.iq.nextSeq = s.iq.nextSeq + 1 ∨ t.iqe = true) ∧
      (s.fetchEnabled = false →
        (∀ rec rest, s.unlogged = rec :: rest → step s = { s with unlogged := rest }.logFault rec) ∧
        (s.unlogged = [] →
          (∀ f fs, s.inflight = f :: fs → step s = .next ({ s with inflight := fs }.commitRequest f)) ∧
          (s.inflight = [] →
            (∀ q qs, s.irqs = q :: qs → step s = .next { s with irqs := qs, out := .interrupt q.message :: s.out }) ∧
            (s.irqs = [] →
              (s.posted ≠ [] → step s = .next (s.deliver 0)) ∧
              (s.posted = [] →
                (∀ cells rest, s.wbuf = cells :: rest →
                  step s = .next { s with mem := s.mem.writeCells cells, wbuf := rest }) ∧
                (s.wbuf = [] → (s.fePending = true ∧ s.feMask = false ∧ s.feHold = true) ∨
                    (s.iePending = true ∧ s.ieMask = false ∧ s.ieHold = true) →
                  ∃ t, step s = .next t ∧ t.fePending = (s.fePending && s.feMask) ∧
                    t.iePending = (s.iePending && s.ieMask) ∧
                    t.posted = (if s.fePending && !s.feMask then
                        [.message .fault (messageAddress s.reg.feuaddr s.reg.feaddr) s.reg.fedata] else [])
                      ++ (if s.iePending && !s.ieMask then
                        [.message .invalidation (messageAddress s.reg.ieuaddr s.reg.ieaddr) s.reg.iedata] else []))))))))

/-! ## Descriptor order -/

/-- An iotlb_inv_dsc with a cc_inv_dsc ahead of it that is not complete is neither runnable nor ready: it is executed by no execute
event and by no idle step (44 R400). -/
def Obligations.IotlbWaitsForContextCache : Prop :=
  ∀ (s : State) (p q : Pending), p ∈ s.iq.pending → q ∈ s.iq.pending → q.seq < p.seq →
    (∃ g dw dr did am ih addr, p.instr = .iotlbInvDsc g dw dr did am ih addr) →
    (∃ g did sid fm, q.instr = .ccInvDsc g did sid fm) →
    (∀ r ∈ s.iq.pending, r.seq = p.seq → r = p) →
    s.runnable p = false ∧ s.ready p = false ∧ s.executeSeq p.seq = .next s ∧
      s.iq.pending.find? s.runnable ≠ some p ∧ s.iq.pending.find? s.ready ≠ some p

/-- A dev_iotlb_inv_dsc with an iotlb_inv_dsc or an iec_inv_dsc ahead of it that is not complete is neither runnable nor ready: it
is executed by no execute event and by no idle step (44 R401). -/
def Obligations.DeviceIotlbWaitsForIotlbAndIec : Prop :=
  ∀ (s : State) (p q : Pending), p ∈ s.iq.pending → q ∈ s.iq.pending → q.seq < p.seq →
    (∃ mip sid b addr, p.instr = .devIotlbInvDsc mip sid b addr) →
    ((∃ g dw dr did am ih addr, q.instr = .iotlbInvDsc g dw dr did am ih addr) ∨ (∃ g im iidx, q.instr = .iecInvDsc g im iidx)) →
    (∀ r ∈ s.iq.pending, r.seq = p.seq → r = p) →
    s.runnable p = false ∧ s.ready p = false ∧ s.executeSeq p.seq = .next s ∧
      s.iq.pending.find? s.runnable ≠ some p ∧ s.iq.pending.find? s.ready ≠ some p

/-- A wait descriptor is executed only when no descriptor between it and the previous wait is pending, and nothing behind a
fenced wait is executed while that wait is pending: such a descriptor is neither runnable nor ready, and is executed by no execute
event and by no idle step (44 R402, R403). -/
def Obligations.WaitsAndFencesHoldBack : Prop :=
  ∀ (s : State) (p q : Pending), p ∈ s.iq.pending → q ∈ s.iq.pending → q.seq < p.seq →
    ((∃ f sw fn d a, p.instr = .invWaitDsc f sw fn d a) ∧ q.epoch = p.epoch) ∨
      (∃ f sw d a, q.instr = .invWaitDsc f sw true d a) →
    (∀ r ∈ s.iq.pending, r.seq = p.seq → r = p) →
    s.runnable p = false ∧ s.ready p = false ∧ s.executeSeq p.seq = .next s ∧
      s.iq.pending.find? s.runnable ≠ some p ∧ s.iq.pending.find? s.ready ≠ some p

/-! ## The five descriptors -/

/-- cc_inv_dsc completes in every state; it removes what its granularity says, flushes the write buffer where there is one,
reports nothing in a register, and leaves the rest alone (44 R380, R381; 43 R341, R342, R350). That the reserved code
removes nothing is the model's choice (log 26). -/
def Obligations.CcInvDscInvalidatesTheContextCache : Prop :=
  ∀ (g : BitVec 2) (did : DomainId) (sid : SourceId) (fm : BitVec 2) (s : State), ∃ t,
    exec (.ccInvDsc g did sid fm) s = .next t ∧ ContextInvalidated s t g did sid fm ∧ t.reg = s.reg

/-- iotlb_inv_dsc completes in every state; it removes and drains what its granularity says, or nothing where the request is
incorrect, reports nothing in a register, and leaves the rest alone (44 R383, R384; 43 R346 to R350, R361, R363). A page-selective
one of an implementation without CAP.PSI removes every entry of the domain (44 R384). The buffered stores and then the drained
writes are in memory, the drained requests oldest first (log 50, DESIGN CHOICE). That super pages go by overlap is decision D29,
and that reserved codes are incorrect requests is [derived] in 43 R346 (log 26, DESIGN CHOICE). -/
def Obligations.IotlbInvDscRemovesAndDrains : Prop :=
  ∀ (g : BitVec 2) (dw dr : Bool) (did : DomainId) (am : BitVec 6) (ih : Bool) (addr : PageNumber) (s : State), ∃ t,
    exec (.iotlbInvDsc g dw dr did am ih addr) s = .next t ∧ IotlbInvalidated s t false (g.setWidth 3) dr dw did addr am ih ∧
      t.reg = s.reg

/-- dev_iotlb_inv_dsc completes its step in every state. It is issued: some free tag is allocated to the device with a completion
count of 0, one ATS Invalidation Request with the descriptor's address and size bit is sent, and nothing else changes. Or it
is deferred, no tag and no request changing: only where no tag is free, or where MaxInvsPend is not 0 and that many tags are
allocated to the device (44 R386; 41 R291; 30 R208): with a free tag and fewer than MaxInvsPend of them allocated, or MaxInvsPend
0, it is issued. Which free tag is taken is free (log 29). -/
def Obligations.DevIotlbInvDscIssuesOrDefers : Prop :=
  ∀ (mip : BitVec 5) (sid : SourceId) (b : Bool) (addr : PageNumber) (s : State), ∃ t,
    exec (.devIotlbInvDsc mip sid b addr) s = .next t ∧
      ((t = { s with draws := t.draws } ∧
          ((∀ j, j < s.itags.length → s.tag j ≠ none) ∨ (mip ≠ 0 ∧ mip.toNat ≤ s.tagsOf sid))) ∨
        ∃ k, k < s.itags.length ∧ s.tag k = none ∧ t.tag k = some { sid := sid, count := 0, seq := s.iq.current } ∧
          (∀ i, i ≠ k → t.tag i = s.tag i) ∧ t.out = .invRequest sid k addr b :: s.out ∧
          t = { s with itags := t.itags, out := t.out, draws := t.draws })

/-- iec_inv_dsc completes in every state: a global one empties the interrupt entry cache and drains every in-flight interrupt;
an index-selective one within ECAP.MHMV removes exactly the 2^IM indexes at IIDX and drains the interrupts of those; beyond MHMV
all or nothing goes, of the cache and of the interrupts alike, by decision D33 (44 R390, R391; 43 R364, R350; log 26). The
drained interrupts are accepted, their messages joining what was sent, the oldest first (log 50, DESIGN CHOICE); the others stay
in flight. The buffered stores are in memory. -/
def Obligations.IecInvDscInvalidatesAndDrains : Prop :=
  ∀ (g : Bool) (im : BitVec 5) (iidx : BitVec 16) (s : State), ∃ t drained, exec (.iecInvDsc g im iidx) s = .next t ∧
    (g = false → t.cache.iec = [] ∧ ∀ q, drained q = true) ∧
    (g = true → im.toNat ≤ s.cfg.mhmv →
      (∀ l, l ∈ t.cache.iec ↔ l ∈ s.cache.iec ∧ inIndexRange iidx im l.index = false) ∧
      (∀ q : IrqInFlight, drained q = match q.index with | some k => inIndexRange iidx im k | none => false)) ∧
    (g = true → s.cfg.mhmv < im.toNat →
      (t.cache.iec = s.cache.iec ∧ ∀ q, drained q = false) ∨ (t.cache.iec = [] ∧ ∀ q, drained q = true)) ∧
    t.irqs = s.irqs.filter (fun q => !drained q) ∧
    t.out = ((s.irqs.filter drained).map (fun q => Output.interrupt q.message)).reverse ++ s.out ∧
    t.mem = s.flushed.mem ∧ t.wbuf = s.flushed.wbuf ∧
    (s.mem.wf = true → ∀ a, s.bufferedAt a = false → t.mem.read a = s.mem.read a) ∧
    t = { s with cache := { s.cache with iec := t.cache.iec }, irqs := t.irqs, out := t.out, mem := t.mem, wbuf := t.wbuf,
                 draws := s.draws + 1 }

/-- inv_wait_dsc with a status address in memory (or no status write) completes: first the status write is posted where SW is
Set, then, where IF is Set and IWC was Clear, IWC is Set and the event message is posted after the status write, or held
pending by the mask or a transient condition; nothing else changes (44 R395 to R397; 60 R506). It is refused exactly where SW
is Set and the status address is not memory that the unit can write (44 R396; 93 U6). -/
def Obligations.InvWaitDscPostsStatusAndEvent : Prop :=
  ∀ (iflag sw fn : Bool) (d : BitVec 32) (a : BitVec 62) (s : State),
    (exec (.invWaitDsc iflag sw fn d a) s = .refused .unitWriteError ↔
      (sw = true ∧ unitWritable s.cfg (a.toNat * 4) 4 = false)) ∧
    ((sw = true → unitWritable s.cfg (a.toNat * 4) 4 = true) → ∃ t, exec (.invWaitDsc iflag sw fn d a) s = .next t ∧
      (∃ status event, t.posted = s.posted ++ status ++ event ∧
        status = (if sw then [Posted.statusWrite (a.toNat * 4) d] else []) ∧
        event = (if iflag && !s.iwc && !s.ieMask && !s.ieHold then
          [Posted.message .invalidation (messageAddress s.reg.ieuaddr s.reg.ieaddr) s.reg.iedata] else [])) ∧
      t.iwc = (s.iwc || iflag) ∧
      t.iePending = (if iflag && !s.iwc then s.ieMask || s.ieHold else s.iePending) ∧
      (∀ k, k ≠ 0 → t.reg.ics.getLsbD k = s.reg.ics.getLsbD k) ∧
      (∀ k, k ≠ 30 → t.reg.iectl.getLsbD k = s.reg.iectl.getLsbD k) ∧
      (∀ x, t.mem.read x = s.mem.read x) ∧
      t = { s with reg := { s.reg with ics := t.reg.ics, iectl := t.reg.iectl }, posted := t.posted })

/-- What the unit has posted, when it becomes visible (`State.perform`): a status write puts the four bytes of the status data at the status
address (44 R396), the half of a fault record that a log write carries puts its eight bytes at its address in the fault log (60
R495), and an event message is sent and, where its address is memory, puts its four bytes of data there (70 R542), each least
significant byte first; every other byte of memory and every register stay as they are. Processors see the same. The byte order
is decision D1, in 20 R141 (log 1, DESIGN CHOICE); that a message to memory is a write there is log 34 (DESIGN CHOICE), that the
store supersedes older buffered copies log 15 (DEDUCED). A deliver event at a place of the posted list performs the item there, the
others staying posted. An invalidation event message first makes every status write issued before it visible, and only those: they
leave the posted list with it, each byte of them that no later one of them and no message to memory overwrites reads as its data
(20 R160); that the younger of two to one address stays is log 51 (DESIGN CHOICE). -/
def Obligations.PostedItemsBecomeVisible : Prop :=
  ∀ (s : State) (a : Nat), s.mem.wf = true →
    (∀ d : BitVec 32,
      Stored s (s.perform (.statusWrite a d)) a
        [d.extractLsb' 0 8, d.extractLsb' 8 8, d.extractLsb' 16 8, d.extractLsb' 24 8] ∧
      (s.perform (.statusWrite a d)).out = s.out) ∧
    (∀ d : BitVec 64,
      Stored s (s.perform (.logWrite a d)) a ((List.range 8).map (fun i => d.extractLsb' (8 * i) 8)) ∧
      (s.perform (.logWrite a d)).out = s.out) ∧
    (∀ (src : EventSource) (ma : BitVec 64) (d : BitVec 32),
      (s.perform (.message src ma d)).out = .eventMessage src ma d :: s.out ∧
      (unitWritable s.cfg ma.toNat 4 = true → Stored s (s.perform (.message src ma d)) ma.toNat
        [d.extractLsb' 0 8, d.extractLsb' 8 8, d.extractLsb' 16 8, d.extractLsb' 24 8]) ∧
      (unitWritable s.cfg ma.toNat 4 = false →
        s.perform (.message src ma d) = { s with out := .eventMessage src ma d :: s.out })) ∧
    (∀ k, (s.posted[k]? = none → s.deliver k = s) ∧
      (∀ p, s.posted[k]? = some p → (∀ ma d, p ≠ .message .invalidation ma d) →
        s.deliver k = { s with posted := s.posted.eraseIdx k }.perform p) ∧
      (∀ ma d, s.posted[k]? = some (.message .invalidation ma d) →
        (s.deliver k).posted = (s.posted.take k).filter (fun q => !q.isStatus) ++ s.posted.drop (k + 1) ∧
        (s.deliver k).out = .eventMessage .invalidation ma d :: s.out ∧
        (∀ j b w i, j < k → s.posted[j]? = some (.statusWrite b w) → i < 4 →
          (∀ j' b' w', j < j' → j' < k → s.posted[j']? = some (.statusWrite b' w') → b + i < b' ∨ b' + 4 ≤ b + i) →
          (unitWritable s.cfg ma.toNat 4 = true → b + i < ma.toNat ∨ ma.toNat + 4 ≤ b + i) →
          (s.deliver k).mem.read (b + i) = w.extractLsb' (8 * i) 8 ∧
            (s.deliver k).cpuView.read (b + i) = w.extractLsb' (8 * i) 8) ∧
        (unitWritable s.cfg ma.toNat 4 = true → ∀ i, i < 4 →
          (s.deliver k).mem.read (ma.toNat + i) = d.extractLsb' (8 * i) 8 ∧
            (s.deliver k).cpuView.read (ma.toNat + i) = d.extractLsb' (8 * i) 8) ∧
        (∀ x, (∀ j b w, j < k → s.posted[j]? = some (.statusWrite b w) → x < b ∨ b + 4 ≤ x) →
          (unitWritable s.cfg ma.toNat 4 = true → x < ma.toNat ∨ ma.toNat + 4 ≤ x) →
          (s.deliver k).mem.read x = s.mem.read x ∧ (s.deliver k).cpuView.read x = s.cpuView.read x) ∧
        s.deliver k = { s with posted := (s.deliver k).posted, mem := (s.deliver k).mem, wbuf := (s.deliver k).wbuf,
                               dirty := (s.deliver k).dirty, out := (s.deliver k).out }))

/-! ## Processors and memory -/

/-- What a processor's store, write-back, buffer drain and load do, in every state with `State.Inv`. A store below 2^HAW and off the
register pages: processors see its bytes at once, and no other byte of what they see changes. Where the bytes go: with ECAP.C = 0
among the unwritten-back bytes, under that processor, in place of older ones, memory being unchanged (20 R152); else behind the
stores in the write buffer with CAP.RWBF = 1, memory being unchanged (20 R155), or to memory, whose other bytes are unchanged. A
write-back takes exactly that processor's unwritten-back bytes of the aligned quadword there; a drain puts the oldest buffered
store in memory; neither changes what processors see. A load answers the bytes that processors see, and changes nothing. Nothing
else changes. On the register pages a store is a register write and a load a register read (10 R23; one that begins below them is
refused, log 31); at or above 2^HAW each stops. The write-back step is decision D4; its quadword, and that a store takes the place
of every processor's older bytes, are log 16; all bytes at one instant, log 46; the stop at 2^HAW, log 42: each a DESIGN CHOICE. -/
def Obligations.ProcessorMovesReachTheirPlace : Prop :=
  ∀ (s : State), s.Inv →
    (∀ (cpu a : Nat) (data : List Byte),
      (2 ^ s.cfg.haw < a + data.length → s.handle (.cpu (.store cpu a data)) = .fault .noSuchAddress) ∧
      (a + data.length ≤ 2 ^ s.cfg.haw → meetsRegisterPages s.cfg a data.length = true →
        s.handle (.cpu (.store cpu a data)) = if s.cfg.regBase ≤ a then
          s.registerWrite data.length (a - s.cfg.regBase) (BitVec.ofNat 64 (natOfBytes data)) else .refused .badRegisterAccess) ∧
      (a + data.length ≤ 2 ^ s.cfg.haw → meetsRegisterPages s.cfg a data.length = false → ∃ t,
        s.handle (.cpu (.store cpu a data)) = .next t ∧
        (∀ i b, data[i]? = some b → t.cpuView.read (a + i) = b) ∧
        (∀ x, x < a ∨ a + data.length ≤ x → t.cpuView.read x = s.cpuView.read x) ∧
        (s.cfg.coherent = true → s.cfg.rwbf = true → t.mem = s.mem ∧ t.dirty = s.dirty ∧
          t.wbuf = s.wbuf ++ [data.mapIdx (fun i b => (a + i, b))]) ∧
        (s.cfg.coherent = true → s.cfg.rwbf = false → t.wbuf = s.wbuf ∧ t.dirty = s.dirty ∧
          (∀ i b, data[i]? = some b → t.mem.read (a + i) = b) ∧
          (∀ x, x < a ∨ a + data.length ≤ x → t.mem.read x = s.mem.read x)) ∧
        (s.cfg.coherent = false → t.mem = s.mem ∧ t.wbuf = s.wbuf ∧
          ∀ d, d ∈ t.dirty ↔ (∃ i b, data[i]? = some b ∧ d = { cpu := cpu, cell := (a + i, b) }) ∨
            (d ∈ s.dirty ∧ (d.cell.1 < a ∨ a + data.length ≤ d.cell.1))) ∧
        t = { s with mem := t.mem, wbuf := t.wbuf, dirty := t.dirty })) ∧
    (∀ (cpu a : Nat),
      (2 ^ s.cfg.haw ≤ a → s.handle (.cpu (.writeback cpu a)) = .fault .noSuchAddress) ∧
      (a < 2 ^ s.cfg.haw → ∃ t, s.handle (.cpu (.writeback cpu a)) = .next t ∧
        (∀ x, t.cpuView.read x = s.cpuView.read x) ∧
        (∀ d, d ∈ t.dirty ↔ d ∈ s.dirty ∧ ¬ (d.cpu = cpu ∧ d.cell.1 / 8 = a / 8)) ∧
        (s.cfg.rwbf = true → t.mem = s.mem ∧ ∃ cells, t.wbuf = s.wbuf ++ [cells] ∧
          ∀ c, c ∈ cells ↔ ∃ d ∈ s.dirty, d.cpu = cpu ∧ d.cell.1 / 8 = a / 8 ∧ d.cell = c) ∧
        (s.cfg.rwbf = false → t.wbuf = s.wbuf ∧
          (∀ d ∈ s.dirty, d.cpu = cpu → d.cell.1 / 8 = a / 8 → t.mem.read d.cell.1 = d.cell.2) ∧
          (∀ x, (∀ d ∈ s.dirty, d.cpu = cpu → d.cell.1 / 8 = a / 8 → d.cell.1 ≠ x) → t.mem.read x = s.mem.read x)) ∧
        t = { s with mem := t.mem, wbuf := t.wbuf, dirty := t.dirty })) ∧
    (s.wbuf = [] → s.handle (.cpu .drain) = .next s) ∧
    (∀ cells rest, s.wbuf = cells :: rest → ∃ t, s.handle (.cpu .drain) = .next t ∧
      t.mem = s.mem.writeCells cells ∧ t.wbuf = rest ∧ (∀ x, touches cells x = false → t.mem.read x = s.mem.read x) ∧
      (∀ x, t.cpuView.read x = s.cpuView.read x) ∧ t = { s with mem := t.mem, wbuf := t.wbuf }) ∧
    (∀ (a n : Nat),
      (2 ^ s.cfg.haw < a + n → s.handle (.load a n) = .fault .noSuchAddress) ∧
      (a + n ≤ 2 ^ s.cfg.haw → meetsRegisterPages s.cfg a n = true →
        s.handle (.load a n) = if s.cfg.regBase ≤ a then s.registerRead n (a - s.cfg.regBase) else .refused .badRegisterAccess) ∧
      (a + n ≤ 2 ^ s.cfg.haw → meetsRegisterPages s.cfg a n = false →
        s.handle (.load a n) = .next { s with
          out := .loadValue a ((List.range n).map (fun i => s.cpuView.read (a + i))) :: s.out }))

/-! ## The register invalidations -/

/-- CCMD.ICC completes in every state: the removal of cc_inv_dsc, ICC Clear, and CAIG reporting a granularity at least as
coarse as the one requested, which was performed (43 R340, R341; 00b for the reserved code is the model's, log 26). -/
def Obligations.CcmdIccReportsWhatItDid : Prop :=
  ∀ (cirg fm : BitVec 2) (sid : SourceId) (did : DomainId) (s : State), ∃ t,
    exec (.ccmdIcc cirg fm sid did) s = .next t ∧ ContextInvalidated s t cirg did sid fm ∧
      t.reg = { s.reg with ccmd := t.reg.ccmd } ∧
      t.reg.ccmd.getLsbD 63 = false ∧
      (∀ k, k ≠ 63 → k ≠ 60 → k ≠ 59 → t.reg.ccmd.getLsbD k = s.reg.ccmd.getLsbD k) ∧
      (cirg = 0 → t.reg.ccmd.extractLsb' 59 2 = 0) ∧
      (cirg = 1 → t.reg.ccmd.extractLsb' 59 2 = 1) ∧
      (cirg = 2 → t.reg.ccmd.extractLsb' 59 2 = 1 ∨ t.reg.ccmd.extractLsb' 59 2 = 2) ∧
      (cirg = 3 → t.reg.ccmd.extractLsb' 59 2 ≠ 0) ∧
      (t.reg.ccmd.extractLsb' 59 2 = 1 → t.cache.ctx = []) ∧
      (t.reg.ccmd.extractLsb' 59 2 = 2 → ∀ l ∈ t.cache.ctx, l.content.domain s.cfg ≠ s.cfg.domain did)

/-- IOTLB.IVT completes in every state with the page operands of IVA_REG: the removal and the drain of iotlb_inv_dsc, IVT Clear,
and IAIG reporting what was performed, by which the PDE caches go too, or 000b for an ignored request, which removes and drains
nothing (43 R345, R346, R348; 11 R68). A page-selective request without CAP.PSI is ignored (000b) or performed as domain-selective
or global (decision D28), and where it is performed its drain is too; super pages go by overlap (D29), and reserved codes are incorrect requests, [derived] in 43 R346 (log
26, DESIGN CHOICE). The drained requests complete oldest first (log 50, DESIGN CHOICE). -/
def Obligations.IotlbIvtReportsWhatItDid : Prop :=
  ∀ (iirg : BitVec 3) (dr dw : Bool) (did : DomainId) (s : State), ∃ t,
    exec (.iotlbIvt iirg dr dw did) s = .next t ∧
      IotlbInvalidated s t true iirg dr dw did (s.reg.iva.extractLsb' 12 52) (s.reg.iva.extractLsb' 0 6) (s.reg.iva.getLsbD 6) ∧
      t.reg = { s.reg with iotlb := t.reg.iotlb } ∧
      t.reg.iotlb.getLsbD 63 = false ∧
      (∀ k, k ≠ 63 → k ≠ 59 → k ≠ 58 → k ≠ 57 → t.reg.iotlb.getLsbD k = s.reg.iotlb.getLsbD k) ∧
      (iotlbRequestIncorrect s.cfg iirg (s.reg.iva.extractLsb' 0 6) = true → t.reg.iotlb.extractLsb' 57 3 = 0) ∧
      (iotlbRequestValid s.cfg true iirg (s.reg.iva.extractLsb' 0 6) = true →
        t.reg.iotlb.extractLsb' 57 3 ≠ 0 ∧ t.reg.iotlb.extractLsb' 57 3 ≤ iirg) ∧
      (t.reg.iotlb.extractLsb' 57 3 = 0 → t.cache = s.cache ∧ Drained s.flushed.tick t (fun _ => false)) ∧
      (t.reg.iotlb.extractLsb' 57 3 ≠ 0 → Drained s.flushed.tick t
        (drainedBy s.cfg iirg dr dw did (s.reg.iva.extractLsb' 12 52) (s.reg.iva.extractLsb' 0 6))) ∧
      (iirg = 3 → s.cfg.psi = false → t.reg.iotlb.extractLsb' 57 3 ≤ 2) ∧
      (t.reg.iotlb.extractLsb' 57 3 = 1 → t.cache.iotlb = [] ∧ t.cache.pde = []) ∧
      (t.reg.iotlb.extractLsb' 57 3 = 2 → (∀ l ∈ t.cache.iotlb, l.did ≠ s.cfg.domain did) ∧
        (∀ l ∈ t.cache.pde, l.did ≠ s.cfg.domain did))

/-! ## The global commands -/

/-- GCMD.TE. Enabling with a root table pointer completes: TES is Set, an implementation that drains completes every untranslated
request in flight, its writes reaching memory, and nothing else changes. Disabling completes in every state: TES is Clear, the
untranslated requests in flight are all drained or none is (45 R422 and 43 R362 say only that hardware may drain: that it is all
or none is log 30, DESIGN CHOICE), pf_index returns to 0 when IRES is Clear too, and the caches and the latched pointers keep what
they hold (45 R422; 43 R362; 70 R535). That an implementation with either of CAP.DRD and CAP.DWD drains both reads and writes is
the model's reading of 45 R422 (log 30, DEDUCED), and that they complete oldest first its choice (log 50, DESIGN CHOICE). -/
def Obligations.TranslationEnableAndDisable : Prop :=
  ∀ (s : State),
    (s.latch.rtp ≠ none → ∃ t, exec (.gcmdTe true) s = .next t ∧
      (∀ k, t.reg.gsts.getLsbD k = if k = 31 then true else s.reg.gsts.getLsbD k) ∧
      ((s.cfg.drd || s.cfg.dwd) = true → t.drained = true ∧
        Drained s t (fun f => drainable .read f || drainable .write f)) ∧
      ((s.cfg.drd || s.cfg.dwd) = false → Drained s t (fun _ => false)) ∧
      (s.mem.wf = true → ∀ a, s.writtenInFlight (drainable .write) a = false → t.mem.read a = s.mem.read a) ∧
      t = { s with reg := { s.reg with gsts := t.reg.gsts }, inflight := t.inflight, mem := t.mem, wbuf := t.wbuf,
                   dirty := t.dirty, out := t.out, draws := t.draws }) ∧
    (∃ t, exec (.gcmdTe false) s = .next t ∧
      (∀ k, t.reg.gsts.getLsbD k = if k = 31 then false else s.reg.gsts.getLsbD k) ∧
      ((t.drained = true ∧ Drained s t (fun f => drainable .read f || drainable .write f)) ∨ Drained s t (fun _ => false)) ∧
      t.log = { s.log with pfIndex := if s.ires then s.log.pfIndex else 0 } ∧
      (s.mem.wf = true → ∀ a, s.writtenInFlight (drainable .write) a = false → t.mem.read a = s.mem.read a) ∧
      t = { s with reg := { s.reg with gsts := t.reg.gsts }, log := t.log, inflight := t.inflight, mem := t.mem,
                   wbuf := t.wbuf, dirty := t.dirty, out := t.out, draws := t.draws })

/-- The three pointer commands complete in every state: each latches bits HAW-1:12 of its address register (and the size
field), Sets its status bit, and touches no cache and no memory; SFL also starts the fault log anew (45 R423, R424, R429). -/
def Obligations.PointerCommandsLatchTheirRegister : Prop :=
  ∀ (s : State),
    (∃ t p, exec .gcmdSrtp s = .next t ∧ t.latch = { s.latch with rtp := some p } ∧
      (∀ k, k < 52 → p.getLsbD k = (s.reg.rtaddr.getLsbD (k + 12) && decide (k + 12 < s.cfg.haw))) ∧
      (∀ k, t.reg.gsts.getLsbD k = if k = 30 then true else s.reg.gsts.getLsbD k) ∧
      t = { s with reg := { s.reg with gsts := t.reg.gsts }, latch := t.latch }) ∧
    (∃ t p, exec .gcmdSfl s = .next t ∧ t.latch = { s.latch with flp := some p } ∧
      (∀ k, k < 52 → p.base.getLsbD k = (s.reg.aflog.getLsbD (k + 12) && decide (k + 12 < s.cfg.haw))) ∧
      (∀ k, k < 3 → p.size.getLsbD k = s.reg.aflog.getLsbD (k + 9)) ∧
      t.log = { s.log with afIndex := 0, afWrapped := false, afPrevSid := none } ∧
      (∀ k, t.reg.gsts.getLsbD k = if k = 29 then true else s.reg.gsts.getLsbD k) ∧
      t = { s with reg := { s.reg with gsts := t.reg.gsts }, latch := t.latch, log := t.log }) ∧
    (∃ t p, exec .gcmdSirtp s = .next t ∧ t.latch = { s.latch with irtp := some p } ∧
      (∀ k, k < 52 → p.base.getLsbD k = (s.reg.irta.getLsbD (k + 12) && decide (k + 12 < s.cfg.haw))) ∧
      (∀ k, k < 4 → p.size.getLsbD k = s.reg.irta.getLsbD k) ∧
      (∀ k, t.reg.gsts.getLsbD k = if k = 24 then true else s.reg.gsts.getLsbD k) ∧
      t = { s with reg := { s.reg with gsts := t.reg.gsts }, latch := t.latch })

/-- GCMD.EAFL while both remappings are disabled (and, to enable, with a fault log pointer), GCMD.QIE = 1 and GCMD.CFI
complete: the one status bit takes the requested value and nothing else changes (45 R425, R427, R430). GCMD.QIE = 0 on a
quiesced queue completes (that no descriptor may be pending and no tag allocated is the model's reading, log 28): QIES and QH
are Clear, the tail
and the queue address keep their values and nothing else changes but the descriptors read ahead (45 R427; 44 R372; 70
R535). -/
def Obligations.LevelCommandsSetOneStatusBit : Prop :=
  ∀ (b : Bool) (s : State),
    (s.tes = false → s.ires = false → (b = true → s.latch.flp ≠ none) → ∃ t, exec (.gcmdEafl b) s = .next t ∧
      (∀ k, t.reg.gsts.getLsbD k = if k = 28 then b else s.reg.gsts.getLsbD k) ∧
      t = { s with reg := { s.reg with gsts := t.reg.gsts } }) ∧
    (∃ t, exec (.gcmdQie true) s = .next t ∧
      (∀ k, t.reg.gsts.getLsbD k = if k = 26 then true else s.reg.gsts.getLsbD k) ∧
      t = { s with reg := { s.reg with gsts := t.reg.gsts } }) ∧
    (s.qh = s.qt → s.iq.lastWait = true → s.iq.pending = [] → (∀ g ∈ s.itags, g = none) → ∃ t, exec (.gcmdQie false) s = .next t ∧
      (∀ k, t.reg.gsts.getLsbD k = if k = 26 then false else s.reg.gsts.getLsbD k) ∧ t.qh = 0 ∧
      t = { s with reg := { s.reg with gsts := t.reg.gsts, iqh := 0 }, iq := { s.iq with ahead := [] } }) ∧
    (∃ t, exec (.gcmdCfi b) s = .next t ∧
      (∀ k, t.reg.gsts.getLsbD k = if k = 23 then b else s.reg.gsts.getLsbD k) ∧
      t = { s with reg := { s.reg with gsts := t.reg.gsts } })

/-- GCMD.WBF completes in every state: WBFS is Clear, the buffered stores are in memory in their order and the buffer is empty
where CAP.RWBF = 1, processors see the same memory as before, and every byte that no buffered store touches is as before
(45 R426; 20 R155). -/
def Obligations.WriteBufferFlushPerformsTheStores : Prop :=
  ∀ (s : State), ∃ t, exec .gcmdWbf s = .next t ∧
    (∀ k, t.reg.gsts.getLsbD k = if k = 27 then false else s.reg.gsts.getLsbD k) ∧
    (s.cfg.rwbf = true → t.wbuf = [] ∧ t.mem = s.mem.performStores s.wbuf) ∧
    (s.cfg.rwbf = false → t.wbuf = s.wbuf ∧ t.mem = s.mem) ∧
    t.cpuView = s.cpuView ∧
    (s.mem.wf = true → ∀ a, s.bufferedAt a = false → t.mem.read a = s.mem.read a) ∧
    t = { s with reg := { s.reg with gsts := t.reg.gsts }, mem := t.mem, wbuf := t.wbuf }

/-- GCMD.IRE: enabling with a table pointer drains every in-flight interrupt and Sets IRES; disabling completes in every state,
Clears IRES, and returns pf_index to 0 when TES is Clear too; memory and the caches are unchanged (45 R428; 43 R364). A drained
interrupt is accepted: its message joins what was sent, the oldest first (log 50, DESIGN CHOICE). On disable the spec makes the
drain optional; that it then takes all in-flight interrupts or none is the model's choice (log 30, DESIGN CHOICE). -/
def Obligations.InterruptEnableAndDisable : Prop :=
  ∀ (s : State),
    (s.latch.irtp ≠ none → ∃ t, exec (.gcmdIre true) s = .next t ∧ t.irqs = [] ∧
      t.out = (s.irqs.map (fun q => Output.interrupt q.message)).reverse ++ s.out ∧
      (∀ k, t.reg.gsts.getLsbD k = if k = 25 then true else s.reg.gsts.getLsbD k) ∧
      t = { s with reg := { s.reg with gsts := t.reg.gsts }, irqs := [], out := t.out }) ∧
    (∃ t, exec (.gcmdIre false) s = .next t ∧
      ((t.irqs = [] ∧ t.out = (s.irqs.map (fun q => Output.interrupt q.message)).reverse ++ s.out) ∨
        (t.irqs = s.irqs ∧ t.out = s.out)) ∧
      (∀ k, t.reg.gsts.getLsbD k = if k = 25 then false else s.reg.gsts.getLsbD k) ∧
      t.log = { s.log with pfIndex := if s.tes then s.log.pfIndex else 0 } ∧
      t = { s with reg := { s.reg with gsts := t.reg.gsts }, log := t.log, irqs := t.irqs, out := t.out,
                   draws := t.draws })

/-- PMEN.EPM: enabling regions that leave the interrupt range alone drains first on an implementation that drains and Sets
PRS; disabling completes in every state and Clears PRS; nothing else changes (45 R435). That an implementation with either of
CAP.DRD and CAP.DWD drains both reads and writes is the model's reading (log 30, DEDUCED), and that they complete oldest first
its choice (log 50, DESIGN CHOICE); the premise on the interrupt range is the model's reading of 91 (log 21). -/
def Obligations.ProtectedMemoryEnableAndDisable : Prop :=
  ∀ (s : State),
    (overlapsProtected s.cfg s.reg 0xFEE00000 0x100000 = false → ∃ t, exec (.pmenEpm true) s = .next t ∧
      (∀ k, t.reg.pmen.getLsbD k = if k = 0 then true else s.reg.pmen.getLsbD k) ∧
      ((s.cfg.drd || s.cfg.dwd) = true → t.drained = true ∧
        Drained s t (fun f => drainable .read f || drainable .write f)) ∧
      ((s.cfg.drd || s.cfg.dwd) = false → Drained s t (fun _ => false)) ∧
      (s.mem.wf = true → ∀ a, s.writtenInFlight (drainable .write) a = false → t.mem.read a = s.mem.read a) ∧
      t = { s with reg := { s.reg with pmen := t.reg.pmen }, inflight := t.inflight, mem := t.mem, wbuf := t.wbuf,
                   dirty := t.dirty, out := t.out, draws := t.draws }) ∧
    (∃ t, exec (.pmenEpm false) s = .next t ∧
      (∀ k, t.reg.pmen.getLsbD k = if k = 0 then false else s.reg.pmen.getLsbD k) ∧
      t = { s with reg := { s.reg with pmen := t.reg.pmen } })

/-- The stops of the commands: enabling with a pointer never set (70 R533), disabling a queue that is not quiesced (44 R372; log
28), changing the logging method while remapping is enabled (60 R490). That a region over the interrupt range is refused is
the model's reading of 91 (log 21). -/
def Obligations.CommandsRefusedExactlyWhen : Prop :=
  ∀ (b : Bool) (s : State),
    (exec (.gcmdTe b) s = .refused .pointerNeverSet ↔ (b = true ∧ s.latch.rtp = none)) ∧
    (exec (.gcmdIre b) s = .refused .pointerNeverSet ↔ (b = true ∧ s.latch.irtp = none)) ∧
    (exec (.gcmdEafl b) s = .refused .loggingMethodActive ↔ (s.tes = true ∨ s.ires = true)) ∧
    (exec (.gcmdEafl b) s = .refused .pointerNeverSet ↔
      (s.tes = false ∧ s.ires = false ∧ b = true ∧ s.latch.flp = none)) ∧
    (exec (.gcmdQie b) s = .refused .queueNotQuiesced ↔
      (b = false ∧ ¬ (s.qh = s.qt ∧ s.iq.lastWait = true ∧ s.iq.pending = [] ∧ ∀ g ∈ s.itags, g = none))) ∧
    (exec (.pmenEpm b) s = .refused .protectedOverInterrupts ↔
      (b = true ∧ overlapsProtected s.cfg s.reg 0xFEE00000 0x100000 = true))

/-! ## Submission -/

/-- A 32-bit write to GCMD_REG that requests one supported modification, with no command pending, makes that command pending. What
a write requests (`decodeGcmd`: the level fields that differ from GSTS_REG and the one-shot fields that are Set, one modification
a write) is decision D34 (log 12, DESIGN CHOICE). The pointer commands Clear their status bit and WBF Sets WBFS at once; nothing
else changes (45 R420, R421, R423, R424, R426, R429; 10 R30). -/
def Obligations.GcmdWriteSubmitsOneCommand : Prop :=
  ∀ (s : State) (v : BitVec 32) (i : Instr), s.cmd = none → decodeGcmd s.reg.gsts v = .instr i →
    wellFormed s.cfg i = true → ∃ t, s.registerWrite 4 0x18 (v.setWidth 64) = .next t ∧
      t.cmd = some { reg := .gcmd, value := v.setWidth 64 } ∧
      (∀ k, t.reg.gsts.getLsbD k =
        if i = .gcmdSrtp ∧ k = 30 then false else if i = .gcmdSfl ∧ k = 29 then false
        else if i = .gcmdWbf ∧ k = 27 then true else if i = .gcmdSirtp ∧ k = 24 then false else s.reg.gsts.getLsbD k) ∧
      t = { s with cmd := t.cmd, reg := { s.reg with gsts := t.reg.gsts } }

/-- CCMD.ICC, IOTLB.IVT and PMEN.EPM are submitted by their register writes. With no command pending and the reserved bits as 10
R35 asks, the register takes every writable bit of the written value and keeps every other bit, and nothing else changes but
that the command which the written fields stand for becomes pending: with ICC or IVT Set (the queue being disabled), or EPM
other than PRS. With ICC or IVT Clear, or EPM equal to PRS, nothing is requested; nor is it by a GCMD_REG write that leaves
every level field as the status has it and Sets no other field, which changes nothing at all (43 R340, R345; 45 R420, R421,
R435; 10 R30; decision D34, log 12, DESIGN CHOICE). A write of the upper doubleword of CCMD_REG or IOTLB_REG alone, with the
lower one as stored, does the same; a write of the lower one of CCMD_REG alone stores its fields and requests nothing. Domain-id
bits beyond the supported width are not stored (12 R121). -/
def Obligations.RegisterWritesSubmitTheirCommand : Prop :=
  ∀ (s : State), s.cmd = none →
    (∀ v : BitVec 64, (v.getLsbD 63 = true → s.qies = false) → v &&& 0x07FFFFFC00000000 = 0 → ∃ t,
      s.registerWrite 8 0x28 v = .next t ∧
      (∀ k, t.reg.ccmd.getLsbD k =
        if 61 ≤ k ∨ (16 ≤ k ∧ k ≤ 33) ∨ k < s.cfg.domainBits then v.getLsbD k else s.reg.ccmd.getLsbD k) ∧
      (v.getLsbD 63 = false → t.cmd = none) ∧
      (v.getLsbD 63 = true → ∃ w did, t.cmd = some w ∧ s.cfg.domain did = s.cfg.domain (v.extractLsb' 0 16) ∧
        decodeCommand t.cmdContext w =
          .instr (.ccmdIcc (v.extractLsb' 61 2) (v.extractLsb' 32 2) (v.extractLsb' 16 16) did)) ∧
      t = { s with cmd := t.cmd, reg := { s.reg with ccmd := t.reg.ccmd } } ∧
      (v.setWidth 32 = s.reg.ccmd.setWidth 32 → s.registerWrite 4 0x2C ((v.extractLsb' 32 32).setWidth 64) = .next t) ∧
      (∃ c, s.registerWrite 4 0x28 ((v.setWidth 32).setWidth 64) = .next { s with reg := { s.reg with ccmd := c } } ∧
        ∀ k, c.getLsbD k = if k < 32 then t.reg.ccmd.getLsbD k else s.reg.ccmd.getLsbD k)) ∧
    (∀ (off : Nat) (v : BitVec 64), goodAccess s.cfg 8 off = true → registerAt s.cfg off = some (.iotlb, 0) →
      registerAt s.cfg (off + 4) = some (.iotlb, 1) → (v.getLsbD 63 = true → s.qies = false) →
      v &&& 0x01FC000000000000 = 0 → v.setWidth 32 = s.preserved.iotlb → ∃ t,
      s.registerWrite 8 off v = .next t ∧
      (∀ k, t.reg.iotlb.getLsbD k =
        if 60 ≤ k ∨ k = 49 ∨ k = 48 ∨ (32 ≤ k ∧ k < 32 + s.cfg.domainBits) then v.getLsbD k else s.reg.iotlb.getLsbD k) ∧
      (v.getLsbD 63 = false → t.cmd = none) ∧
      (v.getLsbD 63 = true → ∃ w did, t.cmd = some w ∧ s.cfg.domain did = s.cfg.domain (v.extractLsb' 32 16) ∧
        decodeCommand t.cmdContext w = .instr (.iotlbIvt (v.extractLsb' 60 3) (v.getLsbD 49) (v.getLsbD 48) did)) ∧
      t = { s with cmd := t.cmd, reg := { s.reg with iotlb := t.reg.iotlb } } ∧
      s.registerWrite 4 (off + 4) ((v.extractLsb' 32 32).setWidth 64) = .next t) ∧
    (∀ v : BitVec 32, (s.cfg.plmr || s.cfg.phmr) = true → v &&& 0x7FFFFFFE = s.preserved.pmen &&& 0x7FFFFFFE → ∃ t,
      s.registerWrite 4 0x64 (v.setWidth 64) = .next t ∧
      (v.getLsbD 31 = s.prs → t.cmd = none) ∧
      (v.getLsbD 31 ≠ s.prs → ∃ w, t.cmd = some w ∧ decodeCommand t.cmdContext w = .instr (.pmenEpm (v.getLsbD 31))) ∧
      (∀ k, t.reg.pmen.getLsbD k = if k = 31 then v.getLsbD 31 else s.reg.pmen.getLsbD k) ∧
      t = { s with cmd := t.cmd, reg := { s.reg with pmen := t.reg.pmen } }) ∧
    (∀ v : BitVec 32, v &&& 0x007FFFFF = 0 →
      (∀ k, k = 31 ∨ k = 28 ∨ k = 26 ∨ k = 25 ∨ k = 23 → v.getLsbD k = s.reg.gsts.getLsbD k) →
      (∀ k, k = 30 ∨ k = 29 ∨ k = 27 ∨ k = 24 → v.getLsbD k = false) → s.registerWrite 4 0x18 (v.setWidth 64) = .next s)

/-- Refused writes. To any register: 1 in a RsvdZ bit, or a RsvdP bit changed from the value last read (10 R35; 93 U2); bits N:0 of
the protected-memory registers are RsvdZ (12 R108 to R111), and only all ones to a base register, by which software finds N, are
not refused for them (12 R108, R110; that a doubleword of all ones is that write is log 31, DESIGN CHOICE). To any command register
or IVA_REG while a command is pending (70 R545), and to the operand register of the pending command (43 R365; 45 R423, R435; that
AFLOG_REG is SFL's, IRTA_REG SIRTP's and IQA_REG QIE's is log 31, DEDUCED). To GCMD_REG: several modifications, or a facility that the implementation
lacks (45 R421, R431); which write requests several, and that it is refused, is decision D34 (log 12, DESIGN CHOICE). CCMD.ICC
and IOTLB.IVT written 1, and a write of IQA_REG, while queued invalidation is enabled (43 R352; 70 R545). A protected-memory
base or limit register while PRS = 1 (70 R545). -/
def Obligations.BadSubmissionsAreRefused : Prop :=
  ∀ (s : State),
    (∀ (off k : Nat) (r : RegId) (v : BitVec 32) (w : BitVec 128), goodAccess s.cfg 4 off = true →
      registerAt s.cfg off = some (r, k) → w = (v.setWidth 128) <<< (32 * k) →
      (w &&& mustBeZeroBits s.cfg r ≠ 0 ∧ ¬ ((r = .plmbase ∨ r = .phmbase) ∧ v = 0xFFFFFFFF) ∨
          (w ^^^ s.lastRead r) &&& preservedBits s.cfg r &&& dwordMask k ≠ 0 →
        s.registerWrite 4 off (v.setWidth 64) = .refused .reservedBitWritten) ∧
      (s.cfg.plmr = true → r = .plmbase ∨ r = .plmlimit → ∀ j, j < 32 →
        (mustBeZeroBits s.cfg r).getLsbD j = decide (j ≤ s.cfg.plmN)) ∧
      (s.cfg.phmr = true → r = .phmbase ∨ r = .phmlimit → ∀ j, j < 64 →
        (mustBeZeroBits s.cfg r).getLsbD j = decide (j ≤ s.cfg.phmN)) ∧
      ((r = .plmbase ∨ r = .phmbase) → v = 0xFFFFFFFF → s.cmd = none → s.prs = false → ∃ t,
        s.registerWrite 4 off (v.setWidth 64) = .next t) ∧
      (w &&& mustBeZeroBits s.cfg r = 0 ∨ (r = .plmbase ∨ r = .phmbase) ∧ v = 0xFFFFFFFF → (w ^^^ s.lastRead r) &&& preservedBits s.cfg r &&& dwordMask k = 0 →
        (s.cmd.isSome = true → (r = .gcmd ∨ r = .ccmd ∨ r = .iotlb ∨ r = .iva ∨ r = .pmen) →
          s.registerWrite 4 off (v.setWidth 64) = .refused .commandPending) ∧
        (∀ c i, s.cmd = some c → decodeCommand s.cmdContext c = .instr i →
          ((r = .rtaddr ∧ i = .gcmdSrtp) ∨ (r = .aflog ∧ i = .gcmdSfl) ∨ (r = .irta ∧ i = .gcmdSirtp) ∨
            (r = .iqa ∧ ∃ b, i = .gcmdQie b) ∨
            ((r = .plmbase ∨ r = .plmlimit ∨ r = .phmbase ∨ r = .phmlimit) ∧ ∃ b, i = .pmenEpm b)) →
          s.registerWrite 4 off (v.setWidth 64) = .refused .registerOwned) ∧
        (s.cmd = none → r = .iqa → s.qies = true → s.registerWrite 4 off (v.setWidth 64) = .refused .queueEnabled) ∧
        (s.cmd = none → (r = .plmbase ∨ r = .plmlimit ∨ r = .phmbase ∨ r = .phmlimit) → s.prs = true →
          s.registerWrite 4 off (v.setWidth 64) = .refused .protectedEnabled))) ∧
    (∀ v : BitVec 32, v &&& 0x007FFFFF = 0 → s.cmd = none →
      (decodeGcmd s.reg.gsts v = .rejected .severalCommands →
        s.registerWrite 4 0x18 (v.setWidth 64) = .refused .severalCommands) ∧
      (∀ i, decodeGcmd s.reg.gsts v = .instr i → wellFormed s.cfg i = false →
        s.registerWrite 4 0x18 (v.setWidth 64) = .refused .unsupportedField)) ∧
    (∀ v : BitVec 64, s.qies = true → s.cmd = none → v.getLsbD 63 = true →
      (v &&& 0x07FFFFFC00000000 = 0 → s.registerWrite 8 0x28 v = .refused .queueEnabled) ∧
      (∀ off, goodAccess s.cfg 8 off = true → registerAt s.cfg off = some (.iotlb, 0) →
        registerAt s.cfg (off + 4) = some (.iotlb, 1) → v &&& 0x01FC000000000000 = 0 → v.setWidth 32 = s.preserved.iotlb →
        s.registerWrite 8 off v = .refused .queueEnabled))

/-! ## Registers -/

/-- A register write never changes the configuration (CAP_REG, ECAP_REG), memory, the caches, the latched pointers, in-flight
work or the tags, and changes GSTS_REG only in the bits that a submission changes (10 R23; 45 R420). -/
def Obligations.RegisterWriteTouchesRegistersOnly : Prop :=
  ∀ (s t : State) (bytes off : Nat) (v : BitVec 64), s.registerWrite bytes off v = .next t →
    t = { s with reg := t.reg, cmd := t.cmd, iq := { s.iq with ahead := t.iq.ahead }, posted := t.posted } ∧
    (∀ k, k ≠ 30 → k ≠ 29 → k ≠ 27 → k ≠ 24 → t.reg.gsts.getLsbD k = s.reg.gsts.getLsbD k) ∧
    (t.reg.iqh = s.reg.iqh ∨ t.reg.iqh = 0)

/-- A read of a register or of a reserved offset first makes everything that the unit has posted visible, in the order of issue
(the order among several is the model's choice, log 51, DESIGN CHOICE), and then answers: VER_REG with 10h, CAP_REG with the
capabilities, GSTS_REG with the status, FSTS_REG.PPF with the OR of the F fields, a reserved doubleword with 0 (decision D14,
log 31). The RsvdP bits that it answers are those that software must write back (10 R35). It changes nothing else (20 R158,
R159; 10 R23, R37; 60 R492). -/
def Obligations.RegisterReadPushesPostedWrites : Prop :=
  ∀ (s : State) (bytes off : Nat), goodAccess s.cfg bytes off = true → ∃ t v,
    s.registerRead bytes off = .next t ∧ t.posted = [] ∧
      t.mem = (s.posted.foldl State.perform { s with posted := [] }).mem ∧
      t.out = .regValue off bytes v :: (s.posted.foldl State.perform { s with posted := [] }).out ∧
      (bytes = 4 → off = 0x00 → v = 0x10) ∧ (bytes = 8 → off = 0x08 → v = s.cfg.cap) ∧
      (bytes = 4 → off = 0x1C → v = s.reg.gsts.setWidth 64) ∧ (bytes = 4 → off = 0x34 → v.getLsbD 1 = s.ppf) ∧
      (bytes = 4 → registerAt s.cfg off = none → v = 0) ∧
      t.preserved = { fectl := if off = 0x38 then v.setWidth 32 &&& 0x3FFFFFFF else s.preserved.fectl
                      iectl := if off = 0xA0 ∧ s.cfg.qi = true then v.setWidth 32 &&& 0x3FFFFFFF
                               else if off = 0xA0 then 0 else s.preserved.iectl
                      pmen := if off = 0x64 ∧ (s.cfg.plmr || s.cfg.phmr) = true then v.setWidth 32 &&& 0x7FFFFFFE
                              else if off = 0x64 then 0 else s.preserved.pmen
                      iotlb := if registerAt s.cfg off = some (.iotlb, 0) then v.setWidth 32 else s.preserved.iotlb } ∧
      t = { s with posted := [], mem := t.mem, out := t.out, preserved := t.preserved, draws := s.draws + 1,
                   wbuf := (s.posted.foldl State.perform { s with posted := [] }).wbuf,
                   dirty := (s.posted.foldl State.perform { s with posted := [] }).dirty }

/-- The plain read-write registers hold what is written and read it back (10 R35, R36): of the doubleword written the writable
bits take the written ones and the others keep theirs, the read value agrees wherever it is not a draw, and no other
register and nothing else changes, but that a write of IQT_REG drops the copies of descriptors read ahead whose slots it
leaves outside head and tail (20 R153; log 27, DEDUCED). A write of IQA_REG also zeroes head and tail (12 R114). -/
def Obligations.PlainRegistersReadBack : Prop :=
  ∀ (s : State) (off k : Nat) (r : RegId) (v : BitVec 32), registerAt s.cfg off = some (r, k) →
    s.writeRefusal r k ((v.setWidth 128) <<< (32 * k)) = none →
    (r.isPlain = true → ∃ t, s.writeDword off v = .next t ∧
      (∀ j, j < 32 → (t.regValue r).getLsbD (32 * k + j) =
        if (writableBits s.cfg r).getLsbD (32 * k + j) then v.getLsbD j else (s.regValue r).getLsbD (32 * k + j)) ∧
      (∀ m, m < 64 → m / 32 ≠ k → (t.regValue r).getLsbD m = (s.regValue r).getLsbD m) ∧
      (∀ j, j < 32 → (t.freeReadBits r).getLsbD (32 * k + j) = false →
        (t.readDword off).getLsbD j = (t.regValue r).getLsbD (32 * k + j)) ∧
      (∀ q, q ≠ r → t.regValue q = s.regValue q) ∧ (r ≠ .iqt → t.iq.ahead = s.iq.ahead) ∧
      (r = .iqt → ∀ c, c ∈ t.iq.ahead ↔ c ∈ s.iq.ahead ∧ c.slot < s.queueSlots ∧ t.qt < s.queueSlots ∧
        if s.qh ≤ t.qt then s.qh ≤ c.slot ∧ c.slot < t.qt else s.qh ≤ c.slot ∨ c.slot < t.qt) ∧
      t = { s with reg := t.reg, iq := { s.iq with ahead := t.iq.ahead } }) ∧
    (r = .iqa → s.cfg.qi = true → ∃ t, s.writeDword off v = .next t ∧ t.qh = 0 ∧ t.qt = 0 ∧ t.iq.ahead = [] ∧
      (∀ j, j < 32 → (t.regValue r).getLsbD (32 * k + j) =
        if (writableBits s.cfg r).getLsbD (32 * k + j) then v.getLsbD j else (s.regValue r).getLsbD (32 * k + j)) ∧
      (∀ m, m < 64 → m / 32 ≠ k → (t.regValue r).getLsbD m = (s.regValue r).getLsbD m) ∧
      t = { s with reg := { s.reg with iqa := t.reg.iqa, iqh := 0, iqt := 0 }, iq := { s.iq with ahead := [] } })

/-- Writing 1 to the F bit of a fault recording register (the highest doubleword, 80000000h) Clears F of that register and
leaves its other fields, every other register but FECTL.IP, and memory alone; IP is Cleared exactly where no status remains
(12 R105; 60 R502, R511). -/
def Obligations.WritingFaultBitClearsTheRecord : Prop :=
  ∀ (s : State) (off n : Nat), registerAt s.cfg off = some (.frcd n, 3) → n < s.reg.frcd.length → ∃ t,
    s.writeDword off 0x80000000 = .next t ∧ recordF (t.faultReg n) = false ∧
      (∀ k, k ≠ 127 → (t.faultReg n).getLsbD k = (s.faultReg n).getLsbD k) ∧
      (∀ m, m ≠ n → t.faultReg m = s.faultReg m) ∧
      t.fePending = (s.fePending && t.anyStatus) ∧ (∀ k, k ≠ 30 → t.reg.fectl.getLsbD k = s.reg.fectl.getLsbD k) ∧
      t = { s with reg := { s.reg with frcd := t.reg.frcd, fectl := t.reg.fectl } }

/-- Software's side of the two events. Unmasking sends a pending message at once and Clears IP, unless a transient condition
holds it (60 R502, R507; 70 R542). Writing 1 to ICS.IWC clears it and IECTL.IP (60 R507). Writing 1 to the status bits of
FSTS_REG clears them and no other bit, FECTL.IP is Clear exactly where nothing is left to service, and with IQE and ITE
Clear fetching goes on (60 R502, R511; 44 R373). -/
def Obligations.UnmaskingAndServicingEvents : Prop :=
  ∀ (s : State) (v : BitVec 32),
    (v.getLsbD 31 = false → v &&& 0x3FFFFFFF = s.preserved.fectl &&& 0x3FFFFFFF → s.fePending = true → s.feHold = false →
      ∃ t, s.registerWrite 4 0x38 (v.setWidth 64) = .next t ∧ t.feMask = false ∧ t.fePending = false ∧
        t.posted = s.posted ++ [.message .fault (messageAddress s.reg.feuaddr s.reg.feaddr) s.reg.fedata] ∧
        t = { s with reg := { s.reg with fectl := t.reg.fectl }, posted := t.posted }) ∧
    (s.cfg.qi = true → v.getLsbD 31 = false → v &&& 0x3FFFFFFF = s.preserved.iectl &&& 0x3FFFFFFF → s.iePending = true →
      s.ieHold = false →
      ∃ t, s.registerWrite 4 0xA0 (v.setWidth 64) = .next t ∧ t.ieMask = false ∧ t.iePending = false ∧
        t.posted = s.posted ++ [.message .invalidation (messageAddress s.reg.ieuaddr s.reg.ieaddr) s.reg.iedata] ∧
        t = { s with reg := { s.reg with iectl := t.reg.iectl }, posted := t.posted }) ∧
    (s.cfg.qi = true → ∃ t, s.registerWrite 4 0x9C 1 = .next t ∧ t.iwc = false ∧ t.iePending = false ∧
      (∀ k, k ≠ 0 → t.reg.ics.getLsbD k = s.reg.ics.getLsbD k) ∧
      (∀ k, k ≠ 30 → t.reg.iectl.getLsbD k = s.reg.iectl.getLsbD k) ∧
      t = { s with reg := { s.reg with ics := t.reg.ics, iectl := t.reg.iectl } }) ∧
    (v.setWidth 128 &&& mustBeZeroBits s.cfg .fsts = 0 → ∃ t, s.registerWrite 4 0x34 (v.setWidth 64) = .next t ∧
      (∀ k, k ≠ 1 → t.reg.fsts.getLsbD k = (s.reg.fsts.getLsbD k &&
        !(v.getLsbD k && decide (k = 0 ∨ k = 2 ∨ k = 3 ∨ k = 4 ∨ k = 5 ∨ k = 6)))) ∧
      t.fePending = (s.fePending && t.anyStatus) ∧ (∀ k, k ≠ 30 → t.reg.fectl.getLsbD k = s.reg.fectl.getLsbD k) ∧
      (t.iqe = false → t.ite = false → t.fetchEnabled = (s.qies && !(s.qh == s.qt))) ∧
      t = { s with reg := { s.reg with fsts := t.reg.fsts, fectl := t.reg.fectl } })

/-! ## Faults and events -/

/-- Primary logging (60 R491), which a fault goes to while GSTS.AFLS is Clear (60 R490; 45 R425). With compression the fault may
be dropped where its source-id has a record pending (93 section 2: a draw for each such fault; log 33); else it is treated as
without. Without: with PFO already Set nothing changes. With F of the register at pf_index Set, PFO is Set, the fault is not
recorded, and no event is generated. With room, that register takes the record with F Set (of an implementation without
Device-IOTLBs AT reads 0, 10 R39), the other registers keep theirs, and pf_index advances and wraps, but is 0 while both
remappings are disabled (10 R29; 70 R535; log 48 where a fault is logged then). Where a record was pending nothing else changes;
else FRI takes the index, and where no status was waiting the event is generated: IP is Set, or the message is posted at once
where neither the mask nor a transient condition holds it (60 R500, R501). -/
def Obligations.PrimaryLoggingRecordsTheFault : Prop :=
  ∀ (s : State) (rec : BitVec 128), s.Inv →
    (s.afls = false → s.logFault rec = .next (s.logPrimary rec).tick) ∧
    (s.cfg.faultCompression = true →
      (s.logPrimary rec = s ∧ ∃ n, recordF (s.faultReg n) = true ∧
        (s.faultReg n).extractLsb' 64 16 = rec.extractLsb' 64 16) ∨
      s.logPrimary rec = { { s with cfg := { s.cfg with faultCompression := false } }.logPrimary rec with cfg := s.cfg }) ∧
    (s.cfg.faultCompression = false →
      (s.pfo = true → s.logPrimary rec = s) ∧
      (s.pfo = false → recordF (s.faultReg s.log.pfIndex) = true →
        (s.logPrimary rec).pfo = true ∧
        (∀ k, k ≠ 0 → (s.logPrimary rec).reg.fsts.getLsbD k = s.reg.fsts.getLsbD k) ∧
        s.logPrimary rec = { s with reg := { s.reg with fsts := (s.logPrimary rec).reg.fsts } }) ∧
      (s.pfo = false → recordF (s.faultReg s.log.pfIndex) = false →
        recordF ((s.logPrimary rec).faultReg s.log.pfIndex) = true ∧
        (∀ k, k ≠ 127 → ((s.logPrimary rec).faultReg s.log.pfIndex).getLsbD k =
          (rec.getLsbD k && (s.cfg.di || decide (k ≠ 124 ∧ k ≠ 125)))) ∧
        (∀ m, m ≠ s.log.pfIndex → (s.logPrimary rec).faultReg m = s.faultReg m) ∧
        (s.logPrimary rec).log = { s.log with
          pfIndex := if s.tes = false ∧ s.ires = false then 0
                     else if s.log.pfIndex + 1 = s.cfg.faultRegs then 0 else s.log.pfIndex + 1 } ∧
        (s.ppf = true → (s.logPrimary rec).reg.fsts = s.reg.fsts ∧ (s.logPrimary rec).reg.fectl = s.reg.fectl ∧
          (s.logPrimary rec).posted = s.posted) ∧
        (s.ppf = false → (s.logPrimary rec).reg.fsts.extractLsb' 8 8 = BitVec.ofNat 8 s.log.pfIndex ∧
          (∀ k, k < 8 ∨ 16 ≤ k → (s.logPrimary rec).reg.fsts.getLsbD k = s.reg.fsts.getLsbD k) ∧
          (s.anyStatus = true → (s.logPrimary rec).posted = s.posted ∧ (s.logPrimary rec).reg.fectl = s.reg.fectl) ∧
          (s.anyStatus = false → (s.logPrimary rec).fePending = (s.feMask || s.feHold) ∧
            (∀ k, k ≠ 30 → (s.logPrimary rec).reg.fectl.getLsbD k = s.reg.fectl.getLsbD k) ∧
            (s.logPrimary rec).posted = s.posted ++ (if s.feMask || s.feHold then [] else
              [.message .fault (messageAddress s.reg.feuaddr s.reg.feaddr) s.reg.fedata]))) ∧
        s.logPrimary rec = { s with reg := { s.reg with frcd := (s.logPrimary rec).reg.frcd, fsts := (s.logPrimary rec).reg.fsts,
                                                        fectl := (s.logPrimary rec).reg.fectl },
                                    log := (s.logPrimary rec).log, posted := (s.logPrimary rec).posted }))

/-- Advanced logging (60 R495), which a fault goes to while GSTS.AFLS is Set (60 R490; 45 R425). With AFO Set nothing changes.
With compression a fault of the previous source-id is dropped, nothing changing, or is treated as without (93 section 2: a draw
for each such fault; log 33). Else, where the fault is not one that hardware may compress (its source-id is not the previous one,
or the implementation does not compress): where the log has wrapped, AFO is Set and the fault is not recorded; that this generates
an event, or none, is hardware's choice where no status was waiting (60 R500, C28). Where there is room, the record's two 64-bit
halves, bit 127 written as 0, are posted to its slot in either order (two writes: read from 20 R144 and R158, log 44, DEDUCED), af_index advances and
wraps with the wrap remembered, and APF is Set by the first record of the log and by no other; where no status was waiting that
one generates the event: IP is Set, or the message is posted at once where neither the mask nor a transient condition holds it (60
R500, R501). Nothing else changes. -/
def Obligations.AdvancedLoggingPostsTheRecord : Prop :=
  ∀ (s : State) (rec : BitVec 128) (p : FaultLogPointer), s.latch.flp = some p →
    (s.afls = true → (∀ t, s.logAdvanced rec = .next t → s.logFault rec = .next t.tick) ∧
      (∀ e, s.logAdvanced rec = .refused e → s.logFault rec = .refused e)) ∧
    (s.afo = true → s.logAdvanced rec = .next s) ∧
    (s.cfg.faultCompression = true → s.log.afPrevSid = some (rec.extractLsb' 64 16) →
      s.logAdvanced rec = .next s ∨
      ∀ u, u = { s with cfg := { s.cfg with faultCompression := false } } →
        (∀ t, u.logAdvanced rec = .next t → s.logAdvanced rec = .next { t with cfg := s.cfg }) ∧
        (∀ e, u.logAdvanced rec = .refused e → s.logAdvanced rec = .refused e)) ∧
    (s.afo = false → (s.cfg.faultCompression = true → s.log.afPrevSid ≠ some (rec.extractLsb' 64 16)) →
      (s.log.afWrapped = true → ∃ t, s.logAdvanced rec = .next t ∧
        (∀ k, t.reg.fsts.getLsbD k = if k = 2 then true else s.reg.fsts.getLsbD k) ∧
        (∀ k, k ≠ 30 → t.reg.fectl.getLsbD k = s.reg.fectl.getLsbD k) ∧
        ((t.reg.fectl = s.reg.fectl ∧ t.posted = s.posted) ∨
          (s.anyStatus = false ∧ t.fePending = (s.feMask || s.feHold) ∧
            t.posted = s.posted ++ (if s.feMask || s.feHold then [] else
              [.message .fault (messageAddress s.reg.feuaddr s.reg.feaddr) s.reg.fedata]))) ∧
        t = { s with reg := { s.reg with fsts := t.reg.fsts, fectl := t.reg.fectl }, posted := t.posted }) ∧
      (s.log.afWrapped = false → ∀ a, a = p.base.toNat * 4096 + 16 * s.log.afIndex → unitWritable s.cfg a 16 = true →
        ∃ t, s.logAdvanced rec = .next t ∧
          (∃ halves event, t.posted = s.posted ++ halves ++ event ∧
            (∃ lo hi, (∀ j, j < 64 → lo.getLsbD j = rec.getLsbD j) ∧
              (∀ j, j < 64 → hi.getLsbD j = (rec.getLsbD (64 + j) && decide (j ≠ 63))) ∧
              (halves = [.logWrite a lo, .logWrite (a + 8) hi] ∨ halves = [.logWrite (a + 8) hi, .logWrite a lo])) ∧
            event = (if s.apf || !(s.log.afIndex == 0) || s.anyStatus || s.feMask || s.feHold then [] else
              [.message .fault (messageAddress s.reg.feuaddr s.reg.feaddr) s.reg.fedata])) ∧
          t.log = { s.log with
            afIndex := if s.log.afIndex + 1 = 2 ^ (p.size.toNat + 8) then 0 else s.log.afIndex + 1
            afWrapped := decide (s.log.afIndex + 1 = 2 ^ (p.size.toNat + 8))
            afPrevSid := some (rec.extractLsb' 64 16) } ∧
          (∀ k, t.reg.fsts.getLsbD k = if k = 3 ∧ s.log.afIndex = 0 then true else s.reg.fsts.getLsbD k) ∧
          (∀ k, k ≠ 30 → t.reg.fectl.getLsbD k = s.reg.fectl.getLsbD k) ∧
          (s.apf = true ∨ s.log.afIndex ≠ 0 → t.reg = s.reg) ∧
          (s.anyStatus = true → t.reg.fectl = s.reg.fectl) ∧
          (s.apf = false → s.log.afIndex = 0 → s.anyStatus = false → t.fePending = (s.feMask || s.feHold)) ∧
          t = { s with reg := { s.reg with fsts := t.reg.fsts, fectl := t.reg.fectl }, log := t.log, posted := t.posted }))

/-- A qualified fault on a request processed through a context-entry with FPD = 1 is neither recorded nor reported, and the
request is still blocked (40 R235): the registers, the log, the faults that wait for it, posted messages, memory and in-flight
requests are unchanged and the requester is answered as a blocked one. -/
def Obligations.FaultProcessingDisableSuppressesTheRecord : Prop :=
  ∀ (s : State) (r : Request) (vs : List Memory) (p : Piece) (rtp : PageNumber) (reason : FaultReason),
    s.latch.rtp = some rtp → (r.kind = .write ∨ meetsInterruptRange p.addr 1 = false) →
    (s.cfg.mgawAer = false ∨ p.addr < 2 ^ s.cfg.mgawBits) →
    (s.translate vs rtp r.sid p.addr (r.need s.cfg)).answer = .fault reason true → reason.qualified = true →
    ∃ t o, s.processPiece r vs p = .next t ∧ t.out = o :: s.out ∧ o.isBlocked = true ∧ t.reg = s.reg ∧ t.log = s.log ∧
      t.unlogged = s.unlogged ∧ t.posted = s.posted ∧ t.mem = s.mem ∧ t.inflight = s.inflight

/-- A request whose translation faults changes no memory and forwards nothing, and its fault is reported later: its record waits
for the fault logger, or is suppressed by FPD, and no register changes in this step (40 R235, R258; 60 R486, R488; 00 R8).
That it waits behind the records of earlier requests is the model's order (log 48, DESIGN CHOICE). -/
def Obligations.FaultingRequestReachesNoMemory : Prop :=
  ∀ (s t : State) (r : Request) (vs : List Memory) (p : Piece) (rtp : PageNumber) (reason : FaultReason) (fpd : Bool),
    s.latch.rtp = some rtp → (s.translate vs rtp r.sid p.addr (r.need s.cfg)).answer = .fault reason fpd →
    s.processPiece r vs p = .next t →
    t.mem = s.mem ∧ t.inflight = s.inflight ∧ (∃ o, t.out = o :: s.out ∧ o.isBlocked = true) ∧
    t.reg = s.reg ∧ t.log = s.log ∧ t.posted = s.posted ∧
    ((r.kind = .write ∨ meetsInterruptRange p.addr 1 = false) → (s.cfg.mgawAer = false ∨ p.addr < 2 ^ s.cfg.mgawBits) →
      t.unlogged = s.unlogged ++ (if reason.qualified && fpd then [] else
        [faultRecord reason.code r.sid (BitVec.ofNat 52 (p.addr % 2 ^ s.cfg.mgawBits / 4096)) (r.kind == .read) r.atype]))

/-- No inbound request of any kind changes memory or a register while it is processed (with no processor move racing with it): a
forwarded request joins the in-flight set and reaches memory later, a fault waits for the fault logger (20 R162; 40 R256,
R257; 41 R272; 60 R488). -/
def Obligations.RequestsReachMemoryOnlyByCommit : Prop :=
  ∀ (s t : State) (r : Request), s.handle (.request r []) = .next t →
    t.mem = s.mem ∧ t.wbuf = s.wbuf ∧ t.dirty = s.dirty ∧ t.reg = s.reg ∧ t.posted = s.posted ∧
    s.unlogged <+: t.unlogged ∧ s.inflight <+: t.inflight ∧ s.irqs <+: t.irqs

/-- An in-flight request completes (20 R162; 40 R257; 43 R360). A write, snooped or not, puts its enabled bytes, and no others,
at its host physical address and above, and processors see the same: its bytes supersede older copies of them in the write
buffer and in processor caches (log 15, DEDUCED). A read is answered with a byte for each of its bytes, those enabled being
memory's: as processors see it where the request is snooped, else that or the copy in memory (log 15, DESIGN CHOICE); it leaves
the buffered and cached copies alone. All of it happens at one instant (log 46, DESIGN CHOICE). Nothing else changes. -/
def Obligations.CommitsPerformTheRequest : Prop :=
  ∀ (s : State) (k : Nat) (f : InFlight), s.inflight[k]? = some f →
    (s.commitAt k).inflight = s.inflight.eraseIdx k ∧
    (f.kind = .write → (s.commitAt k).mem = s.mem.writeCells (enabledCells f.hpa f.enables f.data) ∧
      (s.commitAt k).out = s.out ∧
      (s.commitAt k).wbuf = s.wbuf.map (untouched (enabledCells f.hpa f.enables f.data)) ∧
      (s.commitAt k).dirty = undirtied (enabledCells f.hpa f.enables f.data) s.dirty ∧
      (s.mem.wf = true → (∀ i, f.enables[i]? = some true → (s.commitAt k).mem.read (f.hpa + i) = f.data.getD i 0) ∧
        (∀ a, (∀ i, f.enables[i]? = some true → a ≠ f.hpa + i) → (s.commitAt k).mem.read a = s.mem.read a) ∧
        (∀ i, f.enables[i]? = some true → (s.commitAt k).cpuView.read (f.hpa + i) = f.data.getD i 0) ∧
        (∀ a, (∀ i, f.enables[i]? = some true → a ≠ f.hpa + i) → (s.commitAt k).cpuView.read a = s.cpuView.read a))) ∧
    (f.kind = .read → (s.commitAt k).mem = s.mem ∧ (s.commitAt k).wbuf = s.wbuf ∧ (s.commitAt k).dirty = s.dirty ∧
      ∃ m bytes, (m = s.cpuView ∨ (f.snoop = false ∧ m = s.mem)) ∧
      (s.commitAt k).out = .readData f.sid f.dva bytes :: s.out ∧ bytes.length = f.enables.length ∧
      (∀ i, f.enables[i]? = some true → bytes[i]? = some (m.read (f.hpa + i)))) ∧
    s.commitAt k = { s with inflight := (s.commitAt k).inflight, mem := (s.commitAt k).mem, wbuf := (s.commitAt k).wbuf,
                            dirty := (s.commitAt k).dirty, out := (s.commitAt k).out, draws := (s.commitAt k).draws }

/-- IQE, ICE and ITE (60 R510): raising one Sets its bit and no other status bit. Where a condition was waiting to be serviced
no event is generated; where none was, the event is: IP is Set, or the message, one DWORD with the address and the data of
the registers (60 R503), is posted at once where neither the mask nor a transient condition holds it (60 R501). -/
def Obligations.RaisingAQueueStatus : Prop :=
  ∀ (s : State) (b : Nat), b = 4 ∨ b = 5 ∨ b = 6 →
    (∀ k, (s.raiseStatus b).reg.fsts.getLsbD k = if k = b then true else s.reg.fsts.getLsbD k) ∧
    (s.anyStatus = true → (s.raiseStatus b).posted = s.posted ∧ (s.raiseStatus b).reg.fectl = s.reg.fectl) ∧
    (s.anyStatus = false → (s.raiseStatus b).fePending = (s.feMask || s.feHold) ∧
      (∀ k, k ≠ 30 → (s.raiseStatus b).reg.fectl.getLsbD k = s.reg.fectl.getLsbD k) ∧
      (s.raiseStatus b).posted = s.posted ++ (if s.feMask || s.feHold then [] else
        [.message .fault (messageAddress s.reg.feuaddr s.reg.feaddr) s.reg.fedata])) ∧
    s.raiseStatus b = { s with reg := { s.reg with fsts := (s.raiseStatus b).reg.fsts,
                                                   fectl := (s.raiseStatus b).reg.fectl },
                               posted := (s.raiseStatus b).posted }

/-! ## DMA translation -/

/-- With remapping disabled (TES = 0), an untranslated DMA request. Outside the protected regions it is forwarded with its
address, byte enables and data, snooped unless NS, and nothing else changes: to system memory it joins the in-flight requests,
else it leaves for a peer (40 R230, R231, R256, R257; 20 R146). While the regions are enabled and a byte of it lies in one, it is
blocked, unrecorded (40 R231; 45 R436). A read with a byte in FEEx_xxxxh is answered by an error (20 R147), unrecorded by decision
D9 (log 20, DESIGN CHOICE); a write of several doublewords that starts there is refused (91, N9). That any byte in a region blocks
the whole request is decision D16 (log 21, DESIGN CHOICE); that a request goes to the peer whole where a byte of it is no system
memory is log 36, that one which crosses a page is forwarded whole where the platform does not block it log 43, and that one that
starts below FEEx_xxxxh and runs into it is answered by an error whole, or forwarded whole where it is a write, log 47 (DESIGN
CHOICE). Which bytes a request with address bits 1:0 Set is for is log 52 (DESIGN CHOICE). It leaves out a request to the register
pages, which is refused (91 N5), and a page-crossing one that the platform blocks. -/
def Obligations.DisabledRemappingForwardsOrBlocks : Prop :=
  ∀ (s : State) (r : Request), s.tes = false → r.atype = 0 → r.malformed s.cfg = false → inScope s.cfg r.sid = true →
    (r.crossesPage = false ∨ s.cfg.crossPage = .unitSplits) →
    (r.inInterruptRange = false → (r.kind = .read → meetsInterruptRange r.base r.size = false) →
      ((s.prs = true → overlapsProtected s.cfg s.reg r.base r.size = false) →
        meetsRegisterPages s.cfg r.base r.enables.length = false → ∃ f : InFlight,
        f = { kind := r.kind, atype := r.atype, sid := r.sid, did := none, dva := r.base, hpa := r.base, enables := r.enables,
              data := r.data, snoop := !r.ns } ∧
        s.handle (.request r []) = .next (if isSystemMemory s.cfg r.base r.enables.length then
          { s with inflight := s.inflight ++ [f] } else { s with out := .peer f :: s.out })) ∧
      (s.prs = true → overlapsProtected s.cfg s.reg r.base r.size = true → ∃ t o,
        s.handle (.request r []) = .next t ∧ t.out = o :: s.out ∧ o.isBlocked = true ∧
          t = { s with out := t.out, draws := t.draws })) ∧
    (r.kind = .read → meetsInterruptRange r.base r.size = true → ∃ t o,
      s.handle (.request r []) = .next t ∧ t.out = o :: s.out ∧ o.isBlocked = true ∧
        t = { s with out := t.out, draws := t.draws }) ∧
    (r.kind = .write → r.inInterruptRange = true → r.lenDw ≠ 1 →
      s.handle (.request r []) = .refused .interruptRangeWrite)

/-- With remapping enabled (TES = 1), an untranslated DMA request within one page whose address translates to a page that permits
it, or passes through, is forwarded to the frame plus the page offset (or to its own address), snooped unless NS and, where the
leaf's SNP says so, also then (40 R240, R256; 21 R180; 20 R146); only the caches may be filled besides. Where no cache holds
anything for the device the translation is the one that the root-entry, the context-entry and the page tables in memory give
(`TranslationGives`: 40 R232, R237). System memory takes the request in flight, another address outside the register pages sends
it to a peer (40 R257; log 36, DESIGN CHOICE); while the address lies in an enabled protected region hardware may block the
request instead (93 U9, log 21). Which bytes a request with address bits 1:0 Set is for is log 52 (DESIGN CHOICE). It leaves out a
request over two pages. -/
def Obligations.RemappedRequestsReachTheirFrame : Prop :=
  ∀ (s : State) (r : Request) (rtp : PageNumber) (did : DomainId) (hpa : Nat) (snoop : Bool) (a : TransAnswer), s.tes = true →
    r.atype = 0 → r.malformed s.cfg = false → inScope s.cfg r.sid = true → meetsInterruptRange r.base r.size = false →
    r.crossesPage = false → (s.cfg.mgawAer = false ∨ r.base < 2 ^ s.cfg.mgawBits) → s.latch.rtp = some rtp →
    ((s.translate [s.mem] rtp r.sid r.base (r.need s.cfg)).answer = a ∨
      (s.cachesMiss r.sid ∧ TranslationGives s [s.mem] rtp r.sid r.base (r.need s.cfg) a)) →
    ((∃ m, a = .mapped did m ∧ hpa = m.hpa + r.base % 2 ^ pageBits m.level ∧ snoop = (m.snp || !r.ns)) ∨
      (a = .passThrough did ∧ hpa = r.base ∧ snoop = !r.ns)) →
    meetsInterruptRange hpa r.size = false → meetsRegisterPages s.cfg hpa r.size = false → ∃ t,
    s.handle (.request r []) = .next t ∧
      ((∃ f, f.kind = r.kind ∧ f.atype = 0 ∧ f.sid = r.sid ∧ f.did = some did ∧
          f.dva = r.base ∧ f.hpa = hpa ∧ f.enables = r.enables ∧ (r.kind = .write → f.data = r.data) ∧ f.snoop = snoop ∧
          (if isSystemMemory s.cfg hpa r.size then t.inflight = s.inflight ++ [f] ∧ t.out = s.out
            else t.inflight = s.inflight ∧ t.out = .peer f :: s.out)) ∨
        (s.prs = true ∧ overlapsProtected s.cfg s.reg hpa r.size = true ∧ t.inflight = s.inflight ∧
          ∃ o, t.out = o :: s.out ∧ o.isBlocked = true)) ∧
      t = { s with inflight := t.inflight, cache := t.cache, out := t.out, draws := t.draws }

/-- A translation request (41 R272 to R278; its AT code 01b is log 10, PRESUMED): Unsupported Request with remapping disabled; for
the interrupt range R = 0, W = 1, U = 1, S = 0 (answered first by decision D20, and without Device-IOTLB support too, log 23,
DESIGN CHOICE); for a fault Unsupported Request or Completer Abort by its reason, its record waiting for the logger unless FPD
suppresses it; without a permission, or beyond the width, R = W = U = S = 0; else the permissions, SNP and TM of the translation,
S for a super page, and the frame with the size marker unless U is Set. The size marker is [derived] in 30 R207. A completion
holds one or more entries: the j-th answers the translation of the address j pages above the request's, all of one page size (41
R278; that a null entry counts as 4KB is log 23, DESIGN CHOICE). That none is for the interrupt range is log 23 too (DESIGN
CHOICE: R278 does not speak of it), and that none stands for a page whose translation faults is decision D21 (log 23, DESIGN
CHOICE). One translation for a request of several has 2 doublewords, 8 bytes and Lower Address RCB minus 8; an entry is 2
doublewords (log 23, DEDUCED). Memory, registers and in-flight work are unchanged. -/
def Obligations.TranslationRequestsAreAnswered : Prop :=
  ∀ (s : State) (r : Request), r.atype = 1 → r.malformed s.cfg = false → inScope s.cfg r.sid = true →
    (s.tes = false → s.handle (.request r []) =
      .next { s with out := .translation r.sid .unsupportedRequest :: s.out }) ∧
    (s.tes = true → r.inInterruptRange = true → ∃ t hdr e, s.handle (.request r []) = .next t ∧
      t.out = .translation r.sid (.success hdr [e]) :: s.out ∧ e.r = false ∧ e.w = true ∧ e.u = true ∧ e.s = false ∧
      (2 < r.lenDw → hdr = { lengthDw := 2, byteCount := 8, lowerAddress := s.cfg.rcb - 8 }) ∧
      t = { s with out := t.out, draws := t.draws }) ∧
    (∀ rtp, s.tes = true → r.inInterruptRange = false → s.latch.rtp = some rtp →
      (∀ reason fpd, (s.translate [s.mem] rtp r.sid r.addr.toNat .device).answer = .fault reason fpd → ∃ t,
        s.handle (.request r []) = .next t ∧
        t.out = .translation r.sid (if reason = .rootNotPresent ∨ reason = .contextNotPresent ∨ reason = .typeBlocked
          then .unsupportedRequest else .completerAbort) :: s.out ∧
        t.unlogged = s.unlogged ++ (if reason.qualified && fpd then [] else
          [faultRecord reason.code r.sid (BitVec.ofNat 52 (r.addr.toNat % 2 ^ s.cfg.mgawBits / 4096)) true 1]) ∧
        t = { s with cache := t.cache, unlogged := t.unlogged, out := t.out, draws := t.draws }) ∧
      (∀ level, (s.translate [s.mem] rtp r.sid r.addr.toNat .device).answer.hasLevel level → ∃ t hdr es,
        s.handle (.request r []) = .next t ∧ t.out = .translation r.sid (.success hdr es) :: s.out ∧
        es ≠ [] ∧ 2 * es.length ≤ r.lenDw ∧ (s.cfg.multiTranslation = .single → es.length = 1) ∧
        hdr.lengthDw = 2 * es.length ∧
        (es.length = 1 → 2 < r.lenDw → hdr = { lengthDw := 2, byteCount := 8, lowerAddress := s.cfg.rcb - 8 }) ∧
        (∀ (j : Nat) (e : TranslationEntry), es[j]? = some e → ∃ a : TransAnswer,
          a = ((s.afterTranslations rtp r.sid r.addr.toNat (2 ^ pageBits level) j).translate [s.mem] rtp r.sid
            (r.addr.toNat + j * 2 ^ pageBits level) .device).answer ∧
          a.hasLevel level ∧ a.entryIs e ∧
          (0 < j → meetsInterruptRange (r.addr.toNat + j * 2 ^ pageBits level) 1 = false)) ∧
        t = { s with cache := t.cache, out := t.out, draws := t.draws }))

/-- A translated request (41 R282 to R285): answered as an Unsupported Request, unrecorded, with remapping disabled, in the
interrupt range, or beyond MGAW; forwarded to its own address, with no domain, where the device's context-entry has T = 01b (only
the context cache may be filled besides); blocked where the entry faults, its record waiting for the logger unless FPD suppresses
it. The check answers what the context-entry gives, from a cached line of the source-id or from the root-entry and the
context-entry in memory (`TranslatedCheckGives`: T = 01b, else a reason of 41 R283); where no line of the source-id is cached it
answers nothing else. That requests in the interrupt range and beyond MGAW leave no record is decisions D9 and D18 (log 20, DESIGN
CHOICE), that a request over two pages is taken whole is log 47, which bytes one with address bits 1:0 Set is for log 52, and the
order of the checks within one entry decision D35, log 18 (DESIGN CHOICE). Of the requests that pass the check it leaves out those
to a peer address, to the register pages, and into an enabled protected region. -/
def Obligations.TranslatedRequestsAreChecked : Prop :=
  ∀ (s : State) (r : Request), r.atype = 2 → r.malformed s.cfg = false → inScope s.cfg r.sid = true →
    (r.crossesPage = false ∨ s.cfg.crossPage = .unitSplits) →
    (s.tes = false ∨ meetsInterruptRange r.base r.size = true ∨ 2 ^ s.cfg.mgawBits ≤ r.addr.toNat → ∃ t o,
      s.handle (.request r []) = .next t ∧ t = { s with out := o :: s.out } ∧
        o = (match r.kind with | .write => .writeDropped r.sid r.base | .read => .readError r.sid r.base)) ∧
    (∀ rtp, s.tes = true → meetsInterruptRange r.base r.size = false → r.addr.toNat < 2 ^ s.cfg.mgawBits →
      s.latch.rtp = some rtp →
      TranslatedCheckGives s [s.mem] rtp r.sid (s.checkTranslated [s.mem] rtp r.sid).1 ∧
      ((∀ l ∈ s.cache.ctx, l.sid ≠ r.sid) → ∀ a, TranslatedCheckGives s [s.mem] rtp r.sid a →
        (s.checkTranslated [s.mem] rtp r.sid).1 = a) ∧
      (∀ ce, (s.checkTranslated [s.mem] rtp r.sid).1 = .entry ce → ctxType ce = 1 ∧
        (meetsRegisterPages s.cfg r.base r.size = false → isSystemMemory s.cfg r.base r.size = true →
          (s.prs = true → overlapsProtected s.cfg s.reg r.base r.size = false) → ∃ t,
          s.handle (.request r []) = .next t ∧ t.inflight = s.inflight ++
            [{ kind := r.kind, atype := 2, sid := r.sid, did := none, dva := r.base, hpa := r.base, enables := r.enables,
               data := r.data, snoop := !r.ns }] ∧
          t = { s with inflight := t.inflight, cache := { s.cache with ctx := t.cache.ctx }, draws := t.draws })) ∧
      (∀ reason fpd, (s.checkTranslated [s.mem] rtp r.sid).1 = .fault reason fpd → ∃ t o,
        s.handle (.request r []) = .next t ∧ t.out = o :: s.out ∧ o.isBlocked = true ∧
        t.unlogged = s.unlogged ++ (if reason.qualified && fpd then [] else
          [faultRecord reason.code r.sid (BitVec.ofNat 52 (r.addr.toNat % 2 ^ s.cfg.mgawBits / 4096)) (r.kind == .read) 2]) ∧
        t = { s with unlogged := t.unlogged, cache := { s.cache with ctx := t.cache.ctx }, out := t.out, draws := t.draws }))

/-- A translation is one that the caches and the structures in memory give (`TranslationGives`, one case for each row of 40 R232,
R237 and R259; for a translation request 41 R273), each entry being read from one of the memories that the reads may see. What a
cache answers comes from a line whose key matches: of the source-id in the context cache, of the domain and the page in the IOTLB,
of the domain, the level and the span in a PDE cache (43 R330 to R333; of a cached fault 43 R335, log 25, DESIGN CHOICE). Where no
cache holds anything for the device, and the reads see one memory, it is no other. The reasons have the codes and the
qualification of 40 R259 and 41 R274. And every successful translation, from the tables or from a cache, grants the permission
that the request needs: a write needs W, a read R, a zero-length read R or W, a translation request any (40 R238, R250, R260; 41
R273). The order of the checks within one entry is decision D35 (log 18), the bound of a pass-through address decision D17 (log
22), and that a translation request walks on without a permission decision D19 (log 23): each a DESIGN CHOICE. -/
def Obligations.TranslationsGrantTheNeededPermission : Prop :=
  (∀ (s : State) (vs : List Memory) (rtp : PageNumber) (sid : SourceId) (dva : Nat) (need : Need),
    (vs ≠ [] → TranslationGives s vs rtp sid dva need (s.translate vs rtp sid dva need).answer) ∧
    (s.cachesMiss sid → ∀ m a, vs = [m] → TranslationGives s vs rtp sid dva need a →
      (s.translate vs rtp sid dva need).answer = a) ∧
    (∀ did m, (s.translate vs rtp sid dva need).answer = .mapped did m → need.permitted m.r m.w = true)) ∧
  [FaultReason.rootNotPresent, .contextNotPresent, .contextInvalid, .beyondWidth, .writeDenied, .readDenied, .tableAccess, .rootAccess,
    .contextAccess, .rootReserved, .contextReserved, .pageReserved, .typeBlocked].map (fun f => (f.code, f.qualified)) =
  [(0x1, false), (0x2, true), (0x3, true), (0x4, true), (0x5, true), (0x6, true), (0x7, true), (0x8, false),
    (0x9, false), (0xA, false), (0xB, true), (0xC, true), (0xD, true)]

/-- A page walk ends as the entries on its path decide (`WalkGives`, `EntryDecides`, one case for each way: 40 R237 to R239, R259;
41 R273), each entry being read from one of the memories that the reads may see; with one memory it ends no other way. The page
that it reaches lies below 2^HAW and is aligned on its size, at a level not above where the walk began (21 R180, R177; 40 R239).
The order of the checks within one entry is decision D35 (log 18), and that a translation request walks on without a permission
decision D19 (log 23): each a DESIGN CHOICE. -/
def Obligations.WalksReachAlignedFramesBelowHaw : Prop :=
  ∀ (s : State) (vs : List Memory) (g : WalkGoal) (level base : Nat) (r w : Bool),
    (vs ≠ [] → WalkGives s.cfg vs g level base r w (s.walkTable vs g level base r w).answer) ∧
    (∀ m a, vs = [m] → WalkGives s.cfg vs g level base r w a → (s.walkTable vs g level base r w).answer = a) ∧
    (∀ m, (s.walkTable vs g level base r w).answer = .mapped m →
      m.hpa < 2 ^ s.cfg.haw ∧ m.hpa % 2 ^ pageBits m.level = 0 ∧ m.level ≤ level)

/-! ## Interrupt remapping -/

/-- With interrupt remapping disabled every interrupt request goes on unchanged; with it enabled, on Intel 64, a Compatibility
format request goes on unchanged where CFIS is Set and is otherwise dropped, a record of reason 25h waiting for the fault
logger (42 R303, R304). On Itanium, which has no such format, a request with address bit 4 Clear is dropped with a record of reason
20h (42 R315: VTD does not say what becomes of it, decision D24, log 24, DESIGN CHOICE). The record's index, T and AT are free (log
19). -/
def Obligations.CompatibilityInterruptsFollowCfis : Prop :=
  ∀ (s : State) (r : Request) (vs : List Memory),
    (s.ires = false → s.processInterrupt r vs =
      .next { s with irqs := s.irqs ++ [{ index := none, message := .forwarded r.sid r.addr r.irqData }] }) ∧
    (s.ires = true → r.addr.getLsbD 4 = false → s.cfg.arch = .intel64 →
      (s.cfis = true → s.processInterrupt r vs =
        .next { s with irqs := s.irqs ++ [{ index := none, message := .forwarded r.sid r.addr r.irqData }] }) ∧
      (s.cfis = false → ∃ t n b a, s.processInterrupt r vs = .next t ∧
        t = { s with unlogged := s.unlogged ++ [faultRecord 0x25 r.sid (interruptFaultInfo n) b a],
                     out := .writeDropped r.sid r.base :: s.out, draws := t.draws })) ∧
    (s.ires = true → r.addr.getLsbD 4 = false → s.cfg.arch = .itanium → ∃ t n b a, s.processInterrupt r vs = .next t ∧
      t = { s with unlogged := s.unlogged ++ [faultRecord 0x20 r.sid (interruptFaultInfo n) b a],
                   out := .writeDropped r.sid r.base :: s.out, draws := t.draws })

/-- An interrupt request whose index, computed as the handle plus the subhandle where SHV is Set, is not below the table size
2^(S+1) is dropped without a memory read, a record of reason 21h with the low 16 bits of the index waiting for the fault logger
(42 R308, R305; the sum in the naturals is decision D23, log 24; T and AT are free, log 19). -/
def Obligations.InterruptIndexBound : Prop :=
  ∀ (s : State) (r : Request) (vs : List Memory) (p : InterruptTablePointer) (index : Nat), s.ires = true →
    r.addr.getLsbD 4 = true → (r.addr.getLsbD 3 = true → r.irqData.extractLsb' 16 16 = 0) → s.latch.irtp = some p →
    index = (r.addr.extractLsb' 2 1 ++ r.addr.extractLsb' 5 15 : BitVec 16).toNat
      + (if r.addr.getLsbD 3 then (r.irqData.extractLsb' 0 16).toNat else 0) →
    2 ^ (p.size.toNat + 1) ≤ index → ∃ t b a, s.processInterrupt r vs = .next t ∧
      t = { s with unlogged := s.unlogged ++ [faultRecord 0x21 r.sid (interruptFaultInfo index) b a],
                   out := .writeDropped r.sid r.base :: s.out, draws := t.draws }

/-- An interrupt that remapping delivers carries the fields of an IRTE that is present, well-formed and verified against the
requester, the one of the request's index: a line of that index in the interrupt entry cache, or the entry in the table
(`InterruptEntryGives`: 42 R309; 43 R334; 21 R183). It gives: destination, destination mode, redirection hint, delivery mode,
vector, and the trigger mode of the Fixed and Lowest Priority modes only; nothing else is delivered (42 R305, R312; 21 R184,
R188). What is well-formed takes the conditional reserved fields and delivery modes as faults (D12, U7, U8: log 24, DESIGN
CHOICE). -/
def Obligations.RemappedInterruptsComeFromCheckedEntries : Prop :=
  ∀ (s t : State) (r : Request) (vs : List Memory), s.remapInterrupt r vs = .next t → t.irqs = s.irqs ∨
    ∃ p e m, s.latch.irtp = some p ∧ s.readIrte vs p (interruptIndex r.addr r.irqData) = some e ∧ irtePresent e = true ∧
      irteReserved s.cfg e = false ∧ irteSidOk e r.sid = true ∧
      (vs ≠ [] → InterruptEntryGives s vs p (interruptIndex r.addr r.irqData) (some e)) ∧
      m.dest = (if s.cfg.arch = .intel64 then (e.extractLsb' 40 8).setWidth 16 else e.extractLsb' 32 16) ∧
      m.dm = e.getLsbD 2 ∧ m.rh = e.getLsbD 3 ∧ m.dlm = e.extractLsb' 5 3 ∧
      m.tm = (decide (e.extractLsb' 5 3 = 0 ∨ e.extractLsb' 5 3 = 1) && e.getLsbD 4) ∧ m.vector = e.extractLsb' 16 8 ∧
      t.irqs = s.irqs ++ [{ index := some (interruptIndex r.addr r.irqData), message := .remapped m }]

/-- A Remappable format request, with interrupt remapping enabled. With SHV Set and a reserved data bit Set it is dropped without
a memory read, a record of reason 20h waiting for the fault logger (42 R306; its index is free, D36, log 19). Else, with its index
below the table size: where the IRTE cannot be read it is dropped with a record of reason 23h (42 R309); where the entry read,
from the table or the cache, is present, well-formed and verified against the requester, the interrupt of that entry joins the
in-flight ones, and only the interrupt entry cache may be filled besides; else it is dropped, and a record of reason 22h, 24h or
26h waits for the fault logger unless the entry's FPD suppresses it (42 R305, R308; 60 R488). The order of the three checks within
one entry is decision D35 (60 R485; log 18, DESIGN CHOICE). The entry is a line of that index in the interrupt entry cache, or the
16 bytes in the table (`InterruptEntryGives`: 42 R309; 43 R334; 21 R183); with no line of the index and one memory it is no other.
What is well-formed takes the conditional reserved fields and delivery modes as faults (D12, U7, U8: log 24, DESIGN CHOICE); T and
AT of the record are free (log 19). -/
def Obligations.RemappableInterruptsAreDeliveredOrBlocked : Prop :=
  ∀ (s : State) (r : Request) (vs : List Memory), s.ires = true → r.addr.getLsbD 4 = true →
    (r.addr.getLsbD 3 = true → r.irqData.extractLsb' 16 16 ≠ 0 → ∃ t n b a, s.processInterrupt r vs = .next t ∧
      t = { s with unlogged := s.unlogged ++ [faultRecord 0x20 r.sid (interruptFaultInfo n) b a],
                   out := .writeDropped r.sid r.base :: s.out, draws := t.draws }) ∧
    ((r.addr.getLsbD 3 = true → r.irqData.extractLsb' 16 16 = 0) →
      ∀ (p : InterruptTablePointer) (index : Nat), s.latch.irtp = some p →
      index = (r.addr.extractLsb' 2 1 ++ r.addr.extractLsb' 5 15 : BitVec 16).toNat
        + (if r.addr.getLsbD 3 then (r.irqData.extractLsb' 0 16).toNat else 0) →
      index < 2 ^ (p.size.toNat + 1) →
      (vs ≠ [] → InterruptEntryGives s vs p index (s.readIrte vs p index)) ∧
      ((∀ l ∈ s.cache.iec, l.index ≠ index) → ∀ m a, vs = [m] → InterruptEntryGives s vs p index a → s.readIrte vs p index = a) ∧
      (s.readIrte vs p index = none → ∃ t b a, s.processInterrupt r vs = .next t ∧
        t = { s with unlogged := s.unlogged ++ [faultRecord 0x23 r.sid (interruptFaultInfo index) b a],
                     out := .writeDropped r.sid r.base :: s.out, draws := t.draws }) ∧
      (∀ e, s.readIrte vs p index = some e → ∃ t, s.processInterrupt r vs = .next t ∧
        (irtePresent e = true → irteReserved s.cfg e = false → irteSidOk e r.sid = true →
          t.irqs = s.irqs ++ [{ index := some index, message := .remapped (remappedInterrupt s.cfg e) }] ∧
          t = { s with irqs := t.irqs, cache := { s.cache with iec := t.cache.iec }, draws := t.draws }) ∧
        (¬ (irtePresent e = true ∧ irteReserved s.cfg e = false ∧ irteSidOk e r.sid = true) → ∃ b a,
          t.unlogged = s.unlogged ++ (if irteFpd e then [] else
            [faultRecord (if irtePresent e = false then 0x22 else if irteReserved s.cfg e then 0x24 else 0x26) r.sid
              (interruptFaultInfo index) b a]) ∧
          t = { s with unlogged := t.unlogged, cache := { s.cache with iec := t.cache.iec }, draws := t.draws,
                       out := .writeDropped r.sid r.base :: s.out })))

/-! ## Device-IOTLB invalidation -/

/-- An ATS Invalidation Completion. With remapping disabled, or without Device-IOTLB support, it is answered Unsupported Request
and nothing else changes (41 R279; the second is log 29, DESIGN CHOICE). One that names a free tag, or a tag of another device,
is dropped and raises ICE: no tag, no descriptor and no memory changes (41 R292; 44 R406; 60 R510); a vector bit Set at or above
N_ITAGS counts as a free tag (log 29, DESIGN CHOICE). A valid one advances the count of every tag that it names and frees those
whose count is reached (0 means 8); a tag that it does not name is unchanged; a descriptor leaves the queue engine exactly where
its tag is freed; the device's translated requests in flight complete, and no others (41 R292, R295; 30 R206; 20 R166). That
every valid message completes them, not only the last, is read from R295 and R166 (log 29, DEDUCED); that they complete oldest
first is log 50 (DESIGN CHOICE). -/
def Obligations.CompletionsCountAndFreeTags : Prop :=
  ∀ (s : State) (sid : SourceId) (vec : BitVec 32) (cc : BitVec 3),
    (s.tes = false ∨ s.cfg.di = false → s.atsCompletion sid vec cc = { s with out := .unsupported sid :: s.out }) ∧
    (s.tes = true → s.cfg.di = true → ∀ k, k < 32 → vec.getLsbD k = true → (∀ g, s.tag k = some g → g.sid ≠ sid) →
      (s.atsCompletion sid vec cc).ice = true ∧ (s.atsCompletion sid vec cc).itags = s.itags ∧
        (s.atsCompletion sid vec cc).iq = s.iq ∧ (s.atsCompletion sid vec cc).mem = s.mem ∧
        (s.atsCompletion sid vec cc).inflight = s.inflight) ∧
    (s.tes = true → s.cfg.di = true → (∀ k, k < 32 → vec.getLsbD k = true → ∃ g, s.tag k = some g ∧ g.sid = sid) →
      (∀ k, vec.getLsbD k = false → (s.atsCompletion sid vec cc).tag k = s.tag k) ∧
      (∀ k g, vec.getLsbD k = true → s.tag k = some g →
        (s.atsCompletion sid vec cc).tag k =
          if g.count + 1 = (if cc = 0 then 8 else cc.toNat) then none else some { g with count := g.count + 1 }) ∧
      (∀ p, p ∈ (s.atsCompletion sid vec cc).iq.pending ↔ p ∈ s.iq.pending ∧
        ∀ k g, vec.getLsbD k = true → s.tag k = some g → g.seq = p.seq →
          g.count + 1 ≠ (if cc = 0 then 8 else cc.toNat)) ∧
      Drained s (s.atsCompletion sid vec cc) (fun f => f.atype == 2 && f.sid == sid) ∧
      (s.atsCompletion sid vec cc).reg = s.reg)

/-- When a Device-IOTLB invalidation time-out is detected, no pending inv_wait_dsc is completed (44 R404): every pending wait is
aborted, no status write is posted and IWC is unchanged; the tag is freed and its descriptor removed, and ITE is Set (41 R293; 44
R405), which an implementation without Device-IOTLB support does not have (12 R100; log 45). A descriptor ahead of the oldest
pending dev_iotlb_inv_dsc stays; each at or behind it is dropped or kept freely (44 R405; log 27). That every other tag keeps its
value, also of a descriptor that is dropped, is the model's choice (log 29, DESIGN CHOICE). -/
def Obligations.TimeOutCompletesNoWait : Prop :=
  ∀ (s : State) (i : Nat) (g : ITag), s.tag i = some g →
    (∀ p ∈ (s.timeout i).iq.pending, p ∈ s.iq.pending ∧ isWait p.instr = false ∧ p.seq ≠ g.seq) ∧
    (∀ p ∈ s.iq.pending, isWait p.instr = false → p.seq ≠ g.seq →
      (∀ q ∈ s.iq.pending, isDevInv q.instr = true → p.seq < q.seq) → p ∈ (s.timeout i).iq.pending) ∧
    (∀ a d, Posted.statusWrite a d ∈ (s.timeout i).posted → Posted.statusWrite a d ∈ s.posted) ∧
    (s.timeout i).reg.ics = s.reg.ics ∧ (s.timeout i).iq.lastWait = s.iq.lastWait ∧
    (s.timeout i).ite = (s.ite || s.cfg.di) ∧ (s.timeout i).tag i = none ∧ (∀ k, k ≠ i → (s.timeout i).tag k = s.tag k) ∧
    (s.timeout i).mem = s.mem ∧ (s.timeout i).cache = s.cache

/-! ## Whole-machine rules -/

/-- Every step keeps the invariant `State.Inv`: canonical memory, the sizes of the register file and of the tag table, reserved
bits of GSTS_REG zero, PPF never stored, log indexes in range, buffers only where the capability exists, one unwritten-back byte for an
address. -/
def Obligations.EveryStepKeepsInv : Prop :=
  ∀ (s t : State), s.Inv → step s = .next t → t.Inv

/-- The three invariants hold of the machine right after reset; its configuration is the model's choice (log 3). -/
def Obligations.ResetHasTheInvariants : Prop := State.reset.Inv ∧ State.reset.Implemented ∧ State.reset.NoFaultCached

/-- With CAP.CM = 0 no step leaves a not-present or erroneous entry in a cache (43 R331 to R335). -/
def Obligations.NoStepCachesAFault : Prop :=
  ∀ (s t : State), s.NoFaultCached → step s = .next t → t.NoFaultCached

/-- Every step keeps `State.Implemented`: a status bit of an absent facility reads 0 (45 R431). -/
def Obligations.AbsentFacilitiesStayOff : Prop :=
  ∀ (s t : State), s.Implemented → step s = .next t → t.Implemented

/-- DMA remapping is turned off by nothing but powergood reset and the step that performs a pending GCMD.TE = 0 command (11 R64;
45 R422). -/
def Obligations.OnlyTheCommandOrResetDisablesRemapping : Prop :=
  ∀ (s t : State), s.Implemented → step s = .next t → s.tes = true → t.tes = false →
    (∃ rest, s.agenda = .powergood :: rest) ∨
      ((s.agenda = [] ∨ ∃ rest, s.agenda = .runCommand :: rest) ∧
        ∃ w, s.cmd = some w ∧ decodeCommand s.cmdContext w = .instr (.gcmdTe false))

/-- No step changes the configuration: the capability registers and the other parameters are fixed (00 R9). -/
def Obligations.ConfigurationNeverChanges : Prop :=
  ∀ (s t : State), step s = .next t → t.cfg = s.cfg

/-- The registers right after reset, where 70 R530 gives a value: the status registers are 0, both events are masked with
nothing pending, no fault is recorded, no command is pending, and no pointer is set; every tag is free, the logs start at
their first record, and nothing is queued, buffered, posted or in flight (70 R530, R532). Powergood reset from any state puts the
unit's registers, pointers, caches, log positions, queue engine, tags and buffers where a reset of that implementation puts them,
and leaves memory alone (70 R531, R532, R534). That the caches are empty is decision D8 (log 7), the zeros of the fields without a
reset value log 6; what the environment does next and what was sent are not the unit's, and stores not yet in memory are lost (log
35): each a DESIGN CHOICE. -/
def Obligations.ResetAndPowergoodValues : Prop :=
  (State.reset.reg.gsts = 0 ∧ State.reset.reg.rtaddr = 0 ∧
    State.reset.reg.ccmd &&& 0xE7FFFFFFFFFFFFFF = 0 ∧ State.reset.reg.iotlb &&& 0xF1FFFFFF00000000 = 0 ∧
    State.reset.reg.iva = 0 ∧ State.reset.reg.fsts = 0 ∧ State.reset.reg.fectl.extractLsb' 30 2 = 2 ∧
    State.reset.reg.fedata = 0 ∧ State.reset.reg.feaddr = 0 ∧ State.reset.reg.feuaddr = 0 ∧
    (∀ n, recordF (State.reset.faultReg n) = false) ∧ State.reset.reg.aflog = 0 ∧ State.reset.reg.pmen.getLsbD 31 = false ∧
    State.reset.prs = false ∧ State.reset.reg.plmbase = 0 ∧ State.reset.reg.plmlimit = 0 ∧ State.reset.reg.phmbase = 0 ∧
    State.reset.reg.phmlimit = 0 ∧ State.reset.reg.iqh = 0 ∧ State.reset.reg.iqt = 0 ∧ State.reset.reg.iqa = 0 ∧
    State.reset.reg.ics = 0 ∧ State.reset.reg.iectl.extractLsb' 30 2 = 2 ∧ State.reset.reg.iedata = 0 ∧
    State.reset.reg.ieaddr = 0 ∧ State.reset.reg.ieuaddr = 0 ∧ State.reset.reg.irta = 0 ∧ State.reset.cmd = none ∧
    State.reset.latch.rtp = none ∧ State.reset.latch.flp = none ∧ State.reset.latch.irtp = none ∧
    State.reset.cache.ctx = [] ∧ State.reset.cache.iotlb = [] ∧ State.reset.cache.pde = [] ∧ State.reset.cache.iec = [] ∧
    State.reset.log = { pfIndex := 0, afIndex := 0, afWrapped := false, afPrevSid := none } ∧ State.reset.unlogged = [] ∧
    State.reset.iq.pending = [] ∧ (∀ g ∈ State.reset.itags, g = none) ∧
    State.reset.itags.length = State.reset.cfg.nItags ∧ State.reset.wbuf = [] ∧ State.reset.inflight = [] ∧
    State.reset.irqs = [] ∧ State.reset.posted = []) ∧
  ∀ (s t : State) (rest : List Event), s.agenda = .powergood :: rest → step s = .next t →
    t.reg = Regs.initial s.cfg ∧ t.latch = { rtp := none, flp := none, irtp := none } ∧
    t.cache = { ctx := [], iotlb := [], pde := [], iec := [] } ∧ t.cmd = none ∧ t.iq.pending = [] ∧ t.iq.ahead = [] ∧
    (∀ g ∈ t.itags, g = none) ∧ t.itags.length = s.cfg.nItags ∧ t.unlogged = [] ∧ t.inflight = [] ∧ t.irqs = [] ∧
    t.posted = [] ∧ t.wbuf = [] ∧ t.dirty = [] ∧ t.feHold = false ∧ t.ieHold = false ∧
    t.log = { pfIndex := 0, afIndex := 0, afWrapped := false, afPrevSid := none } ∧ t.cfg = s.cfg ∧ t.agenda = rest ∧
    (∀ a, t.mem.read a = s.mem.read a)
end

