-- ==== Sys2Proof/Laws/Bits.lean ====
section
/-! SUPPORT. The bits of the helpers of Machine/Bits.lean. -/

namespace Sys2Proof

/-- `setBit` changes its bit and no other. -/
theorem getLsbD_setBit {w : Nat} (v : BitVec w) (i : Nat) (b : Bool) (k : Nat) :
    (setBit v i b).getLsbD k = if k = i ∧ k < w then b else v.getLsbD k := by
  unfold setBit
  by_cases hk : k < w
  · by_cases hi : k = i
    · subst hi
      cases b
      · have h1 : 1 < w ∨ w = 1 := by omega
        simp [hk]
      · simp [hk]
    · rcases Nat.lt_or_ge k i with h | h
      · cases b <;> simp [hk, hi, h]
      · have : ¬ k < i := by omega
        have h1 : k - i ≠ 0 := by omega
        cases b <;> simp [hk, hi, h1]
  · have h0 : ¬ (k = i ∧ k < w) := fun h => hk h.2
    simp only [h0, if_false]
    rw [BitVec.getLsbD_of_ge _ _ (by omega), BitVec.getLsbD_of_ge _ _ (by omega)]

@[simp] theorem getLsbD_setBit_self {w : Nat} (v : BitVec w) (i : Nat) (b : Bool) (h : i < w) :
    (setBit v i b).getLsbD i = b := by
  rw [getLsbD_setBit, if_pos ⟨rfl, h⟩]

theorem getLsbD_setBit_of_ne {w : Nat} (v : BitVec w) {i k : Nat} (b : Bool) (h : k ≠ i) :
    (setBit v i b).getLsbD k = v.getLsbD k := by
  rw [getLsbD_setBit, if_neg (fun e => h e.1)]

/-- The same of an indexed bit, the form that `simp` writes. -/
@[simp] theorem getElem_setBit {w : Nat} (v : BitVec w) (i k : Nat) (b : Bool) (h : k < w) :
    (setBit v i b)[k] = if k = i then b else v[k] := by
  have := getLsbD_setBit v i b k
  rw [BitVec.getLsbD_eq_getElem h, BitVec.getLsbD_eq_getElem h] at this
  simpa [h] using this

/-- The bits of a mask. -/
theorem getLsbD_maskBits (w hi lo k : Nat) (h : lo ≤ hi + 1) :
    (maskBits w hi lo).getLsbD k = (decide (lo ≤ k) && decide (k ≤ hi) && decide (k < w)) := by
  have key : (2 ^ (hi + 1) - 2 ^ lo) = (2 ^ (hi + 1 - lo) - 1) <<< lo := by
    rw [Nat.shiftLeft_eq, Nat.sub_mul, ← Nat.pow_add, Nat.one_mul]
    congr 2; omega
  simp only [maskBits, BitVec.getLsbD_ofNat, key, Nat.testBit_shiftLeft, Nat.testBit_two_pow_sub_one]
  by_cases h1 : lo ≤ k <;> by_cases h2 : k ≤ hi <;> by_cases h3 : k < w <;> simp [h1, h2, h3] <;> omega

/-- `setField` changes the bits of its field and no other. -/
theorem getLsbD_setField {w n : Nat} (v : BitVec w) (lo : Nat) (x : BitVec n) (k : Nat) (hn : 0 < n) :
    (setField v lo x).getLsbD k =
      if lo ≤ k ∧ k < lo + n ∧ k < w then x.getLsbD (k - lo) else v.getLsbD k := by
  have hm := getLsbD_maskBits w (lo + n - 1) lo k (by omega)
  simp only [setField, BitVec.getLsbD_or, BitVec.getLsbD_and, BitVec.getLsbD_not, hm, BitVec.getLsbD_shiftLeft,
    BitVec.getLsbD_setWidth]
  by_cases h3 : k < w
  · by_cases h1 : lo ≤ k
    · by_cases h2 : k < lo + n
      · have : k ≤ lo + n - 1 := by omega
        have h4 : k - lo < w := by omega
        have h5 : ¬ k < lo := by omega
        simp [h1, h2, h3, this, h4, h5]
      · have : ¬ k ≤ lo + n - 1 := by omega
        have h6 : x.getLsbD (k - lo) = false := BitVec.getLsbD_of_ge _ _ (by omega)
        simp [h1, h2, h3, this, h6]
    · have : k < lo := by omega
      simp [h1, h3, this]
  · have : v.getLsbD k = false := BitVec.getLsbD_of_ge _ _ (by omega)
    simp [h3, this]

end Sys2Proof
end

