-- ==== Sys2Proof/Laws/Memory.lean ====
section
/-! SUPPORT. The laws of memory: read after write, and the canonical form, which every memory operation keeps. -/

namespace Sys2Proof.Machine

/-! ## Reading -/

@[simp] theorem Memory.read_nil (a : Nat) : Memory.read [] a = Memory.unlisted := rfl

/-- Below its first address a canonical memory reads as unlisted. -/
theorem Memory.read_of_wfFrom {lo : Nat} {m : Memory} (h : Memory.wfFrom lo m = true) {a : Nat} (ha : a < lo) :
    m.read a = Memory.unlisted := by
  cases m with
  | nil => rfl
  | cons c rest =>
      obtain ⟨k, v⟩ := c
      simp only [Memory.wfFrom, Bool.and_eq_true, decide_eq_true_eq] at h
      have hk : a < k := by omega
      simp [Memory.read, hk]

theorem Memory.wfFrom_mono {lo hi : Nat} {m : Memory} (h : Memory.wfFrom hi m = true) (hl : lo ≤ hi) :
    Memory.wfFrom lo m = true := by
  cases m with
  | nil => rfl
  | cons c rest =>
      obtain ⟨k, v⟩ := c
      simp only [Memory.wfFrom, Bool.and_eq_true, decide_eq_true_eq] at h ⊢
      exact ⟨⟨by omega, h.1.2⟩, h.2⟩

/-- A write keeps the canonical form from any address that is not above the written one. -/
theorem Memory.wfFrom_write {lo : Nat} {m : Memory} (h : Memory.wfFrom lo m = true) {a : Nat} (ha : lo ≤ a) (b : Byte) :
    Memory.wfFrom lo (m.write a b) = true := by
  induction m generalizing lo with
  | nil =>
      by_cases hb : b = Memory.unlisted <;> simp [Memory.write, hb, Memory.wfFrom, ha]
  | cons c rest ih =>
      obtain ⟨k, v⟩ := c
      simp only [Memory.wfFrom, Bool.and_eq_true, decide_eq_true_eq] at h
      obtain ⟨⟨hk, hv⟩, hr⟩ := h
      by_cases h1 : a < k
      · by_cases hb : b = Memory.unlisted
        · simp [Memory.write, h1, hb, Memory.wfFrom, hk, hr]; simpa using hv
        · have : Memory.wfFrom (a + 1) ((k, v) :: rest) = true := by
            simp only [Memory.wfFrom, Bool.and_eq_true, decide_eq_true_eq]
            exact ⟨⟨by omega, hv⟩, hr⟩
          simp only [Memory.write, h1, if_true, hb, if_false]
          rw [Memory.wfFrom, this]
          simp [ha, hb]
      · by_cases h2 : a = k
        · subst h2
          by_cases hb : b = Memory.unlisted
          · simp only [Memory.write, lt_self_iff_false, if_false, if_true, hb]
            exact Memory.wfFrom_mono hr (by omega)
          · simp only [Memory.write, lt_self_iff_false, if_false, if_true, hb]
            rw [Memory.wfFrom, hr]
            simp [hk, hb]
        · simp only [Memory.write, h1, h2, if_false]
          rw [Memory.wfFrom, ih hr (by omega)]
          simp [hk]; simpa using hv

/-- A write keeps the canonical form. -/
theorem Memory.wf_write {m : Memory} (h : m.wf = true) (a : Nat) (b : Byte) : (m.write a b).wf = true :=
  Memory.wfFrom_write h (Nat.zero_le a) b

/-- A read after a write, of a memory in canonical form: the written byte, and every other byte as before. -/
theorem Memory.read_write_from {lo : Nat} {m : Memory} (h : Memory.wfFrom lo m = true) (a x : Nat) (b : Byte) :
    (m.write a b).read x = if x = a then b else m.read x := by
  induction m generalizing lo with
  | nil =>
      by_cases hb : b = Memory.unlisted
      · simp [Memory.write, hb]
      · simp only [Memory.write, hb, if_false, Memory.read]
        split
        · next h => simp [Nat.ne_of_lt h]
        · rfl
  | cons c rest ih =>
      obtain ⟨k, v⟩ := c
      simp only [Memory.wfFrom, Bool.and_eq_true, decide_eq_true_eq] at h
      obtain ⟨⟨hk, hv⟩, hr⟩ := h
      by_cases h1 : a < k
      · by_cases hb : b = Memory.unlisted
        · simp only [Memory.write, h1, if_true, hb]
          by_cases hx : x = a
          · subst hx; simp [Memory.read, h1]
          · simp [hx]
        · simp only [Memory.write, h1, if_true, hb, if_false]
          by_cases hx : x = a
          · subst hx; simp [Memory.read]
          · by_cases hlt : x < a
            · have : x < k := by omega
              simp [Memory.read, hlt, this, hx]
            · simp [Memory.read, hlt, hx]
      · by_cases h2 : a = k
        · subst h2
          by_cases hb : b = Memory.unlisted
          · simp only [Memory.write, lt_self_iff_false, if_false, if_true, hb]
            by_cases hx : x = a
            · subst hx; simp [Memory.read_of_wfFrom hr (Nat.lt_succ_self x)]
            · by_cases hlt : x < a
              · simp [Memory.read, hlt, hx, Memory.read_of_wfFrom hr (Nat.lt_succ_of_lt hlt)]
              · simp [Memory.read, hlt, hx]
          · simp only [Memory.write, lt_self_iff_false, if_false, if_true, hb]
            by_cases hx : x = a
            · subst hx; simp [Memory.read]
            · simp [Memory.read, hx]
        · simp only [Memory.write, h1, h2, if_false]
          by_cases hlt : x < k
          · have : x ≠ a := by omega
            simp [Memory.read, hlt, this]
          · by_cases hxk : x = k
            · subst hxk
              have : x ≠ a := fun e => h2 e.symm
              simp [Memory.read, this]
            · simp only [Memory.read, hlt, hxk, if_false]
              exact ih hr

/-- A read after a write, of a memory in canonical form. -/
theorem Memory.read_write {m : Memory} (h : m.wf = true) (a x : Nat) (b : Byte) :
    (m.write a b).read x = if x = a then b else m.read x := Memory.read_write_from h a x b

/-! ## Several cells -/

@[simp] theorem Memory.writeCells_nil (m : Memory) : m.writeCells [] = m := rfl

theorem Memory.writeCells_cons (m : Memory) (c : Host.Cell) (cs : List Host.Cell) :
    m.writeCells (c :: cs) = (m.write c.1 c.2).writeCells cs := rfl

theorem Memory.writeCells_append (m : Memory) (cs ds : List Host.Cell) :
    m.writeCells (cs ++ ds) = (m.writeCells cs).writeCells ds := by
  simp [Memory.writeCells, List.foldl_append]

theorem Memory.wf_writeCells {m : Memory} (h : m.wf = true) (cells : List Host.Cell) : (m.writeCells cells).wf = true := by
  induction cells generalizing m with
  | nil => exact h
  | cons c cs ih => exact ih (Memory.wf_write h c.1 c.2)

theorem Memory.wf_performStores {m : Memory} (h : m.wf = true) (stores : List (List Host.Cell)) :
    (m.performStores stores).wf = true := by
  induction stores generalizing m with
  | nil => exact h
  | cons c cs ih => exact ih (Memory.wf_writeCells h c)

theorem Memory.wf_writeBytes {m : Memory} (h : m.wf = true) (a : Nat) (bs : List Byte) : (m.writeBytes a bs).wf = true :=
  Memory.wf_writeCells h _

/-- An address that no cell names reads as before. -/
theorem Memory.read_writeCells_of_not_mem {m : Memory} (h : m.wf = true) {cells : List Host.Cell} {x : Nat}
    (hx : ∀ c ∈ cells, c.1 ≠ x) : (m.writeCells cells).read x = m.read x := by
  induction cells generalizing m with
  | nil => rfl
  | cons c cs ih =>
      rw [Memory.writeCells_cons, ih (Memory.wf_write h _ _) (fun d hd => hx d (List.mem_cons_of_mem _ hd)),
        Memory.read_write h]
      exact if_neg (fun e => hx c (List.mem_cons_self ..) e.symm)

/-- An address that no store names reads as before. -/
theorem Memory.read_performStores_of_not_mem {m : Memory} (h : m.wf = true) {stores : List (List Host.Cell)} {x : Nat}
    (hx : ∀ cells ∈ stores, ∀ c ∈ cells, c.1 ≠ x) : (m.performStores stores).read x = m.read x := by
  induction stores generalizing m with
  | nil => rfl
  | cons c cs ih =>
      have := ih (Memory.wf_writeCells h c) (fun d hd => hx d (List.mem_cons_of_mem _ hd))
      rw [show m.performStores (c :: cs) = (m.writeCells c).performStores cs from rfl, this,
        Memory.read_writeCells_of_not_mem h (hx c (List.mem_cons_self ..))]

/-- The addresses of `cellsAt a bs` are `a` to `a + bs.length - 1`. -/
theorem cellsAt_address {a : Nat} {bs : List Byte} {c : Host.Cell} (h : c ∈ cellsAt a bs) :
    a ≤ c.1 ∧ c.1 < a + bs.length := by
  induction bs generalizing a with
  | nil => simp [cellsAt] at h
  | cons b bs ih =>
      simp only [cellsAt, List.mem_cons] at h
      rcases h with rfl | h
      · simp
      · have := ih h; simp only [List.length_cons]; omega

/-- Bytes written and read back; every other byte as before. -/
theorem Memory.read_writeBytes {m : Memory} (h : m.wf = true) (a : Nat) (bs : List Byte) (x : Nat) :
    (m.writeBytes a bs).read x = if a ≤ x ∧ x < a + bs.length then bs.getD (x - a) 0 else m.read x := by
  induction bs generalizing a m with
  | nil => simp [Memory.writeBytes, cellsAt, Memory.writeCells_nil]
  | cons b bs ih =>
      have step := ih (m := m.write a b) (Memory.wf_write h a b) (a + 1)
      have unfold : m.writeBytes a (b :: bs) = (m.write a b).writeBytes (a + 1) bs := rfl
      rw [unfold, step, Memory.read_write h]
      by_cases hx : x = a
      · subst hx; simp
      · by_cases hr : a + 1 ≤ x ∧ x < a + 1 + bs.length
        · have h2 : a ≤ x ∧ x < a + (b :: bs).length := by simp only [List.length_cons]; omega
          rw [if_pos hr, if_pos h2]
          obtain ⟨d, hd⟩ : ∃ d, x - a = d + 1 := ⟨x - a - 1, by omega⟩
          have : x - (a + 1) = d := by omega
          rw [hd, this]; rfl
        · have h2 : ¬ (a ≤ x ∧ x < a + (b :: bs).length) := by simp only [List.length_cons]; omega
          rw [if_neg hr, if_neg h2, if_neg hx]

/-- The bytes of a number, least significant first. -/
@[simp] theorem bytesOfNat_length (n v : Nat) : (bytesOfNat n v).length = n := by
  induction n generalizing v with
  | zero => rfl
  | succ n ih => simp [bytesOfNat, ih]

/-- Bytes and their value: a number below 256^n is the value of its n bytes. -/
theorem natOfBytes_bytesOfNat (n v : Nat) (h : v < 256 ^ n) : natOfBytes (bytesOfNat n v) = v := by
  induction n generalizing v with
  | zero => simp at h; simp [bytesOfNat, natOfBytes, h]
  | succ n ih =>
      have hv : v / 256 < 256 ^ n := by
        rw [pow_succ] at h; omega
      have := ih (v / 256) hv
      simp only [bytesOfNat, natOfBytes, this, BitVec.toNat_ofNat]
      omega

/-- After writes a byte reads as the last one to it; without any, as before. -/
theorem Memory.read_writeCells (a : Nat) (cs : List Host.Cell) {m : Memory} (hm : m.wf = true) :
    (m.writeCells cs).read a = ((cs.filter (fun c => c.1 == a)).getLast?.map (fun c => c.2)).getD (m.read a) := by
  induction cs generalizing m with
  | nil => rfl
  | cons c cs ih =>
    rw [Memory.writeCells_cons, ih (Memory.wf_write hm _ _), Memory.read_write hm]
    by_cases hc : c.1 = a
    · rw [List.filter_cons_of_pos (by simp [hc]), List.getLast?_cons, if_pos hc.symm]
      cases (cs.filter (fun c => c.1 == a)).getLast? <;> rfl
    · rw [List.filter_cons_of_neg (by simp [hc]), if_neg (fun e => hc e.symm)]

/-- Where the writes name the byte, what it was before does not matter. -/
theorem Memory.read_writeCells_of_named {m n : Memory} (hm : m.wf = true) (hn : n.wf = true) {cs : List Host.Cell} {c : Host.Cell}
    (hc : c ∈ cs) : (m.writeCells cs).read c.1 = (n.writeCells cs).read c.1 := by
  rw [Memory.read_writeCells _ cs hm, Memory.read_writeCells _ cs hn]
  have hf : c ∈ cs.filter (fun d => d.1 == c.1) := List.mem_filter.2 ⟨hc, beq_self_eq_true _⟩
  rw [List.getLast?_eq_some_getLast (List.ne_nil_of_mem hf)]
  rfl

/-- A cell among cells of distinct addresses is what its address reads as. -/
theorem Memory.read_writeCells_of_mem {m : Memory} (h : m.wf = true) {cells : List Host.Cell}
    (hn : (cells.map (fun c => c.1)).Nodup) {c : Host.Cell} (hc : c ∈ cells) : (m.writeCells cells).read c.1 = c.2 := by
  induction cells generalizing m with
  | nil => cases hc
  | cons d ds ih =>
      obtain ⟨hd, hs⟩ := List.nodup_cons.1 hn
      rw [Memory.writeCells_cons]
      rcases List.mem_cons.1 hc with rfl | hc
      · rw [Memory.read_writeCells_of_not_mem (Memory.wf_write h _ _)
          (fun e he heq => hd (List.mem_map.2 ⟨e, he, heq⟩)), Memory.read_write h, if_pos rfl]
      · exact ih (Memory.wf_write h _ _) hs hc

/-- The cells of `cellsAt`, each byte at its place. -/
theorem cellsAt_eq (a : Nat) (bs : List Byte) : cellsAt a bs = bs.mapIdx (fun i b => (a + i, b)) := by
  induction bs generalizing a with
  | nil => rfl
  | cons b bs ih =>
      simp only [cellsAt, List.mapIdx_cons, ih, Nat.add_zero]
      congr 2
      funext i c
      rw [Nat.add_assoc, Nat.add_comm 1 i]

/-- The addresses of `cellsAt` are distinct. -/
theorem nodup_cellsAt (a : Nat) (bs : List Byte) : ((cellsAt a bs).map (fun c => c.1)).Nodup := by
  induction bs generalizing a with
  | nil => exact List.nodup_nil
  | cons b bs ih =>
      refine List.nodup_cons.2 ⟨fun h => ?_, ih (a + 1)⟩
      obtain ⟨c, hc, e⟩ := List.mem_map.1 h
      have ha : c.1 = a := e
      have := (cellsAt_address hc).1
      omega

/-- What a byte reads as after writes depends only on the byte before and on the writes to it. -/
theorem Memory.read_writeCells_congr {m n : Memory} (hm : m.wf = true) (hn : n.wf = true) {a : Nat} {cs ds : List Host.Cell}
    (h : m.read a = n.read a) (he : cs.filter (fun c => c.1 == a) = ds.filter (fun c => c.1 == a)) :
    (m.writeCells cs).read a = (n.writeCells ds).read a := by
  rw [Memory.read_writeCells a cs hm, Memory.read_writeCells a ds hn, h, he]

/-- Performing stores in order is writing all their cells in order. -/
theorem Memory.performStores_eq (m : Memory) (ss : List (List Host.Cell)) : m.performStores ss = m.writeCells ss.flatten := by
  induction ss generalizing m with
  | nil => rfl
  | cons c ss ih => show (m.writeCells c).performStores ss = _; rw [ih, List.flatten_cons, Memory.writeCells_append]

end Sys2Proof.Machine
end

