-- ==== Sys2Proof/Laws/State.lean ====
section
/-! SUPPORT. One lemma per field per update of State, true by rfl, so that a proof unfolds no record update. -/

namespace Sys2Proof.Machine

variable (s : State)

/-! ## tick -/

@[simp] theorem State.tick_cfg : s.tick.cfg = s.cfg := rfl
@[simp] theorem State.tick_reg : s.tick.reg = s.reg := rfl
@[simp] theorem State.tick_latch : s.tick.latch = s.latch := rfl
@[simp] theorem State.tick_cache : s.tick.cache = s.cache := rfl
@[simp] theorem State.tick_log : s.tick.log = s.log := rfl
@[simp] theorem State.tick_cmd : s.tick.cmd = s.cmd := rfl
@[simp] theorem State.tick_preserved : s.tick.preserved = s.preserved := rfl
@[simp] theorem State.tick_unlogged : s.tick.unlogged = s.unlogged := rfl
@[simp] theorem State.tick_iq : s.tick.iq = s.iq := rfl
@[simp] theorem State.tick_itags : s.tick.itags = s.itags := rfl
@[simp] theorem State.tick_feHold : s.tick.feHold = s.feHold := rfl
@[simp] theorem State.tick_ieHold : s.tick.ieHold = s.ieHold := rfl
@[simp] theorem State.tick_posted : s.tick.posted = s.posted := rfl
@[simp] theorem State.tick_inflight : s.tick.inflight = s.inflight := rfl
@[simp] theorem State.tick_irqs : s.tick.irqs = s.irqs := rfl
@[simp] theorem State.tick_wbuf : s.tick.wbuf = s.wbuf := rfl
@[simp] theorem State.tick_dirty : s.tick.dirty = s.dirty := rfl
@[simp] theorem State.tick_mem : s.tick.mem = s.mem := rfl
@[simp] theorem State.tick_agenda : s.tick.agenda = s.agenda := rfl
@[simp] theorem State.tick_out : s.tick.out = s.out := rfl
@[simp] theorem State.tick_draws : s.tick.draws = s.draws + 1 := rfl

/-! ## emit -/

@[simp] theorem State.emit_cfg (o : Output) : (s.emit o).cfg = s.cfg := rfl
@[simp] theorem State.emit_reg (o : Output) : (s.emit o).reg = s.reg := rfl
@[simp] theorem State.emit_latch (o : Output) : (s.emit o).latch = s.latch := rfl
@[simp] theorem State.emit_cache (o : Output) : (s.emit o).cache = s.cache := rfl
@[simp] theorem State.emit_log (o : Output) : (s.emit o).log = s.log := rfl
@[simp] theorem State.emit_cmd (o : Output) : (s.emit o).cmd = s.cmd := rfl
@[simp] theorem State.emit_preserved (o : Output) : (s.emit o).preserved = s.preserved := rfl
@[simp] theorem State.emit_unlogged (o : Output) : (s.emit o).unlogged = s.unlogged := rfl
@[simp] theorem State.emit_iq (o : Output) : (s.emit o).iq = s.iq := rfl
@[simp] theorem State.emit_itags (o : Output) : (s.emit o).itags = s.itags := rfl
@[simp] theorem State.emit_feHold (o : Output) : (s.emit o).feHold = s.feHold := rfl
@[simp] theorem State.emit_ieHold (o : Output) : (s.emit o).ieHold = s.ieHold := rfl
@[simp] theorem State.emit_posted (o : Output) : (s.emit o).posted = s.posted := rfl
@[simp] theorem State.emit_inflight (o : Output) : (s.emit o).inflight = s.inflight := rfl
@[simp] theorem State.emit_irqs (o : Output) : (s.emit o).irqs = s.irqs := rfl
@[simp] theorem State.emit_wbuf (o : Output) : (s.emit o).wbuf = s.wbuf := rfl
@[simp] theorem State.emit_dirty (o : Output) : (s.emit o).dirty = s.dirty := rfl
@[simp] theorem State.emit_mem (o : Output) : (s.emit o).mem = s.mem := rfl
@[simp] theorem State.emit_agenda (o : Output) : (s.emit o).agenda = s.agenda := rfl
@[simp] theorem State.emit_out (o : Output) : (s.emit o).out = o :: s.out := rfl
@[simp] theorem State.emit_draws (o : Output) : (s.emit o).draws = s.draws := rfl

/-! ## setGsts -/

@[simp] theorem State.setGsts_cfg (b : Nat) (v : Bool) : (s.setGsts b v).cfg = s.cfg := rfl
@[simp] theorem State.setGsts_reg (b : Nat) (v : Bool) : (s.setGsts b v).reg = { s.reg with gsts := setBit s.reg.gsts b v } := rfl
@[simp] theorem State.setGsts_latch (b : Nat) (v : Bool) : (s.setGsts b v).latch = s.latch := rfl
@[simp] theorem State.setGsts_cache (b : Nat) (v : Bool) : (s.setGsts b v).cache = s.cache := rfl
@[simp] theorem State.setGsts_log (b : Nat) (v : Bool) : (s.setGsts b v).log = s.log := rfl
@[simp] theorem State.setGsts_cmd (b : Nat) (v : Bool) : (s.setGsts b v).cmd = s.cmd := rfl
@[simp] theorem State.setGsts_preserved (b : Nat) (v : Bool) : (s.setGsts b v).preserved = s.preserved := rfl
@[simp] theorem State.setGsts_unlogged (b : Nat) (v : Bool) : (s.setGsts b v).unlogged = s.unlogged := rfl
@[simp] theorem State.setGsts_iq (b : Nat) (v : Bool) : (s.setGsts b v).iq = s.iq := rfl
@[simp] theorem State.setGsts_itags (b : Nat) (v : Bool) : (s.setGsts b v).itags = s.itags := rfl
@[simp] theorem State.setGsts_feHold (b : Nat) (v : Bool) : (s.setGsts b v).feHold = s.feHold := rfl
@[simp] theorem State.setGsts_ieHold (b : Nat) (v : Bool) : (s.setGsts b v).ieHold = s.ieHold := rfl
@[simp] theorem State.setGsts_posted (b : Nat) (v : Bool) : (s.setGsts b v).posted = s.posted := rfl
@[simp] theorem State.setGsts_inflight (b : Nat) (v : Bool) : (s.setGsts b v).inflight = s.inflight := rfl
@[simp] theorem State.setGsts_irqs (b : Nat) (v : Bool) : (s.setGsts b v).irqs = s.irqs := rfl
@[simp] theorem State.setGsts_wbuf (b : Nat) (v : Bool) : (s.setGsts b v).wbuf = s.wbuf := rfl
@[simp] theorem State.setGsts_dirty (b : Nat) (v : Bool) : (s.setGsts b v).dirty = s.dirty := rfl
@[simp] theorem State.setGsts_mem (b : Nat) (v : Bool) : (s.setGsts b v).mem = s.mem := rfl
@[simp] theorem State.setGsts_agenda (b : Nat) (v : Bool) : (s.setGsts b v).agenda = s.agenda := rfl
@[simp] theorem State.setGsts_out (b : Nat) (v : Bool) : (s.setGsts b v).out = s.out := rfl
@[simp] theorem State.setGsts_draws (b : Nat) (v : Bool) : (s.setGsts b v).draws = s.draws := rfl

/-! ## setPrs -/

@[simp] theorem State.setPrs_cfg (v : Bool) : (s.setPrs v).cfg = s.cfg := rfl
@[simp] theorem State.setPrs_reg (v : Bool) : (s.setPrs v).reg = { s.reg with pmen := setBit s.reg.pmen 0 v } := rfl
@[simp] theorem State.setPrs_latch (v : Bool) : (s.setPrs v).latch = s.latch := rfl
@[simp] theorem State.setPrs_cache (v : Bool) : (s.setPrs v).cache = s.cache := rfl
@[simp] theorem State.setPrs_log (v : Bool) : (s.setPrs v).log = s.log := rfl
@[simp] theorem State.setPrs_cmd (v : Bool) : (s.setPrs v).cmd = s.cmd := rfl
@[simp] theorem State.setPrs_preserved (v : Bool) : (s.setPrs v).preserved = s.preserved := rfl
@[simp] theorem State.setPrs_unlogged (v : Bool) : (s.setPrs v).unlogged = s.unlogged := rfl
@[simp] theorem State.setPrs_iq (v : Bool) : (s.setPrs v).iq = s.iq := rfl
@[simp] theorem State.setPrs_itags (v : Bool) : (s.setPrs v).itags = s.itags := rfl
@[simp] theorem State.setPrs_feHold (v : Bool) : (s.setPrs v).feHold = s.feHold := rfl
@[simp] theorem State.setPrs_ieHold (v : Bool) : (s.setPrs v).ieHold = s.ieHold := rfl
@[simp] theorem State.setPrs_posted (v : Bool) : (s.setPrs v).posted = s.posted := rfl
@[simp] theorem State.setPrs_inflight (v : Bool) : (s.setPrs v).inflight = s.inflight := rfl
@[simp] theorem State.setPrs_irqs (v : Bool) : (s.setPrs v).irqs = s.irqs := rfl
@[simp] theorem State.setPrs_wbuf (v : Bool) : (s.setPrs v).wbuf = s.wbuf := rfl
@[simp] theorem State.setPrs_dirty (v : Bool) : (s.setPrs v).dirty = s.dirty := rfl
@[simp] theorem State.setPrs_mem (v : Bool) : (s.setPrs v).mem = s.mem := rfl
@[simp] theorem State.setPrs_agenda (v : Bool) : (s.setPrs v).agenda = s.agenda := rfl
@[simp] theorem State.setPrs_out (v : Bool) : (s.setPrs v).out = s.out := rfl
@[simp] theorem State.setPrs_draws (v : Bool) : (s.setPrs v).draws = s.draws := rfl

/-! ## setFsts -/

@[simp] theorem State.setFsts_cfg (b : Nat) : (s.setFsts b).cfg = s.cfg := rfl
@[simp] theorem State.setFsts_reg (b : Nat) : (s.setFsts b).reg = { s.reg with fsts := setBit s.reg.fsts b true } := rfl
@[simp] theorem State.setFsts_latch (b : Nat) : (s.setFsts b).latch = s.latch := rfl
@[simp] theorem State.setFsts_cache (b : Nat) : (s.setFsts b).cache = s.cache := rfl
@[simp] theorem State.setFsts_log (b : Nat) : (s.setFsts b).log = s.log := rfl
@[simp] theorem State.setFsts_cmd (b : Nat) : (s.setFsts b).cmd = s.cmd := rfl
@[simp] theorem State.setFsts_preserved (b : Nat) : (s.setFsts b).preserved = s.preserved := rfl
@[simp] theorem State.setFsts_unlogged (b : Nat) : (s.setFsts b).unlogged = s.unlogged := rfl
@[simp] theorem State.setFsts_iq (b : Nat) : (s.setFsts b).iq = s.iq := rfl
@[simp] theorem State.setFsts_itags (b : Nat) : (s.setFsts b).itags = s.itags := rfl
@[simp] theorem State.setFsts_feHold (b : Nat) : (s.setFsts b).feHold = s.feHold := rfl
@[simp] theorem State.setFsts_ieHold (b : Nat) : (s.setFsts b).ieHold = s.ieHold := rfl
@[simp] theorem State.setFsts_posted (b : Nat) : (s.setFsts b).posted = s.posted := rfl
@[simp] theorem State.setFsts_inflight (b : Nat) : (s.setFsts b).inflight = s.inflight := rfl
@[simp] theorem State.setFsts_irqs (b : Nat) : (s.setFsts b).irqs = s.irqs := rfl
@[simp] theorem State.setFsts_wbuf (b : Nat) : (s.setFsts b).wbuf = s.wbuf := rfl
@[simp] theorem State.setFsts_dirty (b : Nat) : (s.setFsts b).dirty = s.dirty := rfl
@[simp] theorem State.setFsts_mem (b : Nat) : (s.setFsts b).mem = s.mem := rfl
@[simp] theorem State.setFsts_agenda (b : Nat) : (s.setFsts b).agenda = s.agenda := rfl
@[simp] theorem State.setFsts_out (b : Nat) : (s.setFsts b).out = s.out := rfl
@[simp] theorem State.setFsts_draws (b : Nat) : (s.setFsts b).draws = s.draws := rfl

/-! ## setFri -/

@[simp] theorem State.setFri_cfg (i : Nat) : (s.setFri i).cfg = s.cfg := rfl
@[simp] theorem State.setFri_reg (i : Nat) : (s.setFri i).reg = { s.reg with fsts := setField s.reg.fsts 8 (BitVec.ofNat 8 i) } := rfl
@[simp] theorem State.setFri_latch (i : Nat) : (s.setFri i).latch = s.latch := rfl
@[simp] theorem State.setFri_cache (i : Nat) : (s.setFri i).cache = s.cache := rfl
@[simp] theorem State.setFri_log (i : Nat) : (s.setFri i).log = s.log := rfl
@[simp] theorem State.setFri_cmd (i : Nat) : (s.setFri i).cmd = s.cmd := rfl
@[simp] theorem State.setFri_preserved (i : Nat) : (s.setFri i).preserved = s.preserved := rfl
@[simp] theorem State.setFri_unlogged (i : Nat) : (s.setFri i).unlogged = s.unlogged := rfl
@[simp] theorem State.setFri_iq (i : Nat) : (s.setFri i).iq = s.iq := rfl
@[simp] theorem State.setFri_itags (i : Nat) : (s.setFri i).itags = s.itags := rfl
@[simp] theorem State.setFri_feHold (i : Nat) : (s.setFri i).feHold = s.feHold := rfl
@[simp] theorem State.setFri_ieHold (i : Nat) : (s.setFri i).ieHold = s.ieHold := rfl
@[simp] theorem State.setFri_posted (i : Nat) : (s.setFri i).posted = s.posted := rfl
@[simp] theorem State.setFri_inflight (i : Nat) : (s.setFri i).inflight = s.inflight := rfl
@[simp] theorem State.setFri_irqs (i : Nat) : (s.setFri i).irqs = s.irqs := rfl
@[simp] theorem State.setFri_wbuf (i : Nat) : (s.setFri i).wbuf = s.wbuf := rfl
@[simp] theorem State.setFri_dirty (i : Nat) : (s.setFri i).dirty = s.dirty := rfl
@[simp] theorem State.setFri_mem (i : Nat) : (s.setFri i).mem = s.mem := rfl
@[simp] theorem State.setFri_agenda (i : Nat) : (s.setFri i).agenda = s.agenda := rfl
@[simp] theorem State.setFri_out (i : Nat) : (s.setFri i).out = s.out := rfl
@[simp] theorem State.setFri_draws (i : Nat) : (s.setFri i).draws = s.draws := rfl

/-! ## setFePending -/

@[simp] theorem State.setFePending_cfg (v : Bool) : (s.setFePending v).cfg = s.cfg := rfl
@[simp] theorem State.setFePending_reg (v : Bool) : (s.setFePending v).reg = { s.reg with fectl := setBit s.reg.fectl 30 v } := rfl
@[simp] theorem State.setFePending_latch (v : Bool) : (s.setFePending v).latch = s.latch := rfl
@[simp] theorem State.setFePending_cache (v : Bool) : (s.setFePending v).cache = s.cache := rfl
@[simp] theorem State.setFePending_log (v : Bool) : (s.setFePending v).log = s.log := rfl
@[simp] theorem State.setFePending_cmd (v : Bool) : (s.setFePending v).cmd = s.cmd := rfl
@[simp] theorem State.setFePending_preserved (v : Bool) : (s.setFePending v).preserved = s.preserved := rfl
@[simp] theorem State.setFePending_unlogged (v : Bool) : (s.setFePending v).unlogged = s.unlogged := rfl
@[simp] theorem State.setFePending_iq (v : Bool) : (s.setFePending v).iq = s.iq := rfl
@[simp] theorem State.setFePending_itags (v : Bool) : (s.setFePending v).itags = s.itags := rfl
@[simp] theorem State.setFePending_feHold (v : Bool) : (s.setFePending v).feHold = s.feHold := rfl
@[simp] theorem State.setFePending_ieHold (v : Bool) : (s.setFePending v).ieHold = s.ieHold := rfl
@[simp] theorem State.setFePending_posted (v : Bool) : (s.setFePending v).posted = s.posted := rfl
@[simp] theorem State.setFePending_inflight (v : Bool) : (s.setFePending v).inflight = s.inflight := rfl
@[simp] theorem State.setFePending_irqs (v : Bool) : (s.setFePending v).irqs = s.irqs := rfl
@[simp] theorem State.setFePending_wbuf (v : Bool) : (s.setFePending v).wbuf = s.wbuf := rfl
@[simp] theorem State.setFePending_dirty (v : Bool) : (s.setFePending v).dirty = s.dirty := rfl
@[simp] theorem State.setFePending_mem (v : Bool) : (s.setFePending v).mem = s.mem := rfl
@[simp] theorem State.setFePending_agenda (v : Bool) : (s.setFePending v).agenda = s.agenda := rfl
@[simp] theorem State.setFePending_out (v : Bool) : (s.setFePending v).out = s.out := rfl
@[simp] theorem State.setFePending_draws (v : Bool) : (s.setFePending v).draws = s.draws := rfl

/-! ## setIePending -/

@[simp] theorem State.setIePending_cfg (v : Bool) : (s.setIePending v).cfg = s.cfg := rfl
@[simp] theorem State.setIePending_reg (v : Bool) : (s.setIePending v).reg = { s.reg with iectl := setBit s.reg.iectl 30 v } := rfl
@[simp] theorem State.setIePending_latch (v : Bool) : (s.setIePending v).latch = s.latch := rfl
@[simp] theorem State.setIePending_cache (v : Bool) : (s.setIePending v).cache = s.cache := rfl
@[simp] theorem State.setIePending_log (v : Bool) : (s.setIePending v).log = s.log := rfl
@[simp] theorem State.setIePending_cmd (v : Bool) : (s.setIePending v).cmd = s.cmd := rfl
@[simp] theorem State.setIePending_preserved (v : Bool) : (s.setIePending v).preserved = s.preserved := rfl
@[simp] theorem State.setIePending_unlogged (v : Bool) : (s.setIePending v).unlogged = s.unlogged := rfl
@[simp] theorem State.setIePending_iq (v : Bool) : (s.setIePending v).iq = s.iq := rfl
@[simp] theorem State.setIePending_itags (v : Bool) : (s.setIePending v).itags = s.itags := rfl
@[simp] theorem State.setIePending_feHold (v : Bool) : (s.setIePending v).feHold = s.feHold := rfl
@[simp] theorem State.setIePending_ieHold (v : Bool) : (s.setIePending v).ieHold = s.ieHold := rfl
@[simp] theorem State.setIePending_posted (v : Bool) : (s.setIePending v).posted = s.posted := rfl
@[simp] theorem State.setIePending_inflight (v : Bool) : (s.setIePending v).inflight = s.inflight := rfl
@[simp] theorem State.setIePending_irqs (v : Bool) : (s.setIePending v).irqs = s.irqs := rfl
@[simp] theorem State.setIePending_wbuf (v : Bool) : (s.setIePending v).wbuf = s.wbuf := rfl
@[simp] theorem State.setIePending_dirty (v : Bool) : (s.setIePending v).dirty = s.dirty := rfl
@[simp] theorem State.setIePending_mem (v : Bool) : (s.setIePending v).mem = s.mem := rfl
@[simp] theorem State.setIePending_agenda (v : Bool) : (s.setIePending v).agenda = s.agenda := rfl
@[simp] theorem State.setIePending_out (v : Bool) : (s.setIePending v).out = s.out := rfl
@[simp] theorem State.setIePending_draws (v : Bool) : (s.setIePending v).draws = s.draws := rfl

/-! ## setIwc -/

@[simp] theorem State.setIwc_cfg : s.setIwc.cfg = s.cfg := rfl
@[simp] theorem State.setIwc_reg : s.setIwc.reg = { s.reg with ics := setBit s.reg.ics 0 true } := rfl
@[simp] theorem State.setIwc_latch : s.setIwc.latch = s.latch := rfl
@[simp] theorem State.setIwc_cache : s.setIwc.cache = s.cache := rfl
@[simp] theorem State.setIwc_log : s.setIwc.log = s.log := rfl
@[simp] theorem State.setIwc_cmd : s.setIwc.cmd = s.cmd := rfl
@[simp] theorem State.setIwc_preserved : s.setIwc.preserved = s.preserved := rfl
@[simp] theorem State.setIwc_unlogged : s.setIwc.unlogged = s.unlogged := rfl
@[simp] theorem State.setIwc_iq : s.setIwc.iq = s.iq := rfl
@[simp] theorem State.setIwc_itags : s.setIwc.itags = s.itags := rfl
@[simp] theorem State.setIwc_feHold : s.setIwc.feHold = s.feHold := rfl
@[simp] theorem State.setIwc_ieHold : s.setIwc.ieHold = s.ieHold := rfl
@[simp] theorem State.setIwc_posted : s.setIwc.posted = s.posted := rfl
@[simp] theorem State.setIwc_inflight : s.setIwc.inflight = s.inflight := rfl
@[simp] theorem State.setIwc_irqs : s.setIwc.irqs = s.irqs := rfl
@[simp] theorem State.setIwc_wbuf : s.setIwc.wbuf = s.wbuf := rfl
@[simp] theorem State.setIwc_dirty : s.setIwc.dirty = s.dirty := rfl
@[simp] theorem State.setIwc_mem : s.setIwc.mem = s.mem := rfl
@[simp] theorem State.setIwc_agenda : s.setIwc.agenda = s.agenda := rfl
@[simp] theorem State.setIwc_out : s.setIwc.out = s.out := rfl
@[simp] theorem State.setIwc_draws : s.setIwc.draws = s.draws := rfl

/-! ## sendFaultEvent -/

@[simp] theorem State.sendFaultEvent_cfg : s.sendFaultEvent.cfg = s.cfg := rfl
@[simp] theorem State.sendFaultEvent_reg : s.sendFaultEvent.reg = s.reg := rfl
@[simp] theorem State.sendFaultEvent_latch : s.sendFaultEvent.latch = s.latch := rfl
@[simp] theorem State.sendFaultEvent_cache : s.sendFaultEvent.cache = s.cache := rfl
@[simp] theorem State.sendFaultEvent_log : s.sendFaultEvent.log = s.log := rfl
@[simp] theorem State.sendFaultEvent_cmd : s.sendFaultEvent.cmd = s.cmd := rfl
@[simp] theorem State.sendFaultEvent_preserved : s.sendFaultEvent.preserved = s.preserved := rfl
@[simp] theorem State.sendFaultEvent_unlogged : s.sendFaultEvent.unlogged = s.unlogged := rfl
@[simp] theorem State.sendFaultEvent_iq : s.sendFaultEvent.iq = s.iq := rfl
@[simp] theorem State.sendFaultEvent_itags : s.sendFaultEvent.itags = s.itags := rfl
@[simp] theorem State.sendFaultEvent_feHold : s.sendFaultEvent.feHold = s.feHold := rfl
@[simp] theorem State.sendFaultEvent_ieHold : s.sendFaultEvent.ieHold = s.ieHold := rfl
@[simp] theorem State.sendFaultEvent_posted : s.sendFaultEvent.posted = s.posted ++ [.message .fault (messageAddress s.reg.feuaddr s.reg.feaddr) s.reg.fedata] := rfl
@[simp] theorem State.sendFaultEvent_inflight : s.sendFaultEvent.inflight = s.inflight := rfl
@[simp] theorem State.sendFaultEvent_irqs : s.sendFaultEvent.irqs = s.irqs := rfl
@[simp] theorem State.sendFaultEvent_wbuf : s.sendFaultEvent.wbuf = s.wbuf := rfl
@[simp] theorem State.sendFaultEvent_dirty : s.sendFaultEvent.dirty = s.dirty := rfl
@[simp] theorem State.sendFaultEvent_mem : s.sendFaultEvent.mem = s.mem := rfl
@[simp] theorem State.sendFaultEvent_agenda : s.sendFaultEvent.agenda = s.agenda := rfl
@[simp] theorem State.sendFaultEvent_out : s.sendFaultEvent.out = s.out := rfl
@[simp] theorem State.sendFaultEvent_draws : s.sendFaultEvent.draws = s.draws := rfl

/-! ## sendInvEvent -/

@[simp] theorem State.sendInvEvent_cfg : s.sendInvEvent.cfg = s.cfg := rfl
@[simp] theorem State.sendInvEvent_reg : s.sendInvEvent.reg = s.reg := rfl
@[simp] theorem State.sendInvEvent_latch : s.sendInvEvent.latch = s.latch := rfl
@[simp] theorem State.sendInvEvent_cache : s.sendInvEvent.cache = s.cache := rfl
@[simp] theorem State.sendInvEvent_log : s.sendInvEvent.log = s.log := rfl
@[simp] theorem State.sendInvEvent_cmd : s.sendInvEvent.cmd = s.cmd := rfl
@[simp] theorem State.sendInvEvent_preserved : s.sendInvEvent.preserved = s.preserved := rfl
@[simp] theorem State.sendInvEvent_unlogged : s.sendInvEvent.unlogged = s.unlogged := rfl
@[simp] theorem State.sendInvEvent_iq : s.sendInvEvent.iq = s.iq := rfl
@[simp] theorem State.sendInvEvent_itags : s.sendInvEvent.itags = s.itags := rfl
@[simp] theorem State.sendInvEvent_feHold : s.sendInvEvent.feHold = s.feHold := rfl
@[simp] theorem State.sendInvEvent_ieHold : s.sendInvEvent.ieHold = s.ieHold := rfl
@[simp] theorem State.sendInvEvent_posted : s.sendInvEvent.posted = s.posted ++ [.message .invalidation (messageAddress s.reg.ieuaddr s.reg.ieaddr) s.reg.iedata] := rfl
@[simp] theorem State.sendInvEvent_inflight : s.sendInvEvent.inflight = s.inflight := rfl
@[simp] theorem State.sendInvEvent_irqs : s.sendInvEvent.irqs = s.irqs := rfl
@[simp] theorem State.sendInvEvent_wbuf : s.sendInvEvent.wbuf = s.wbuf := rfl
@[simp] theorem State.sendInvEvent_dirty : s.sendInvEvent.dirty = s.dirty := rfl
@[simp] theorem State.sendInvEvent_mem : s.sendInvEvent.mem = s.mem := rfl
@[simp] theorem State.sendInvEvent_agenda : s.sendInvEvent.agenda = s.agenda := rfl
@[simp] theorem State.sendInvEvent_out : s.sendInvEvent.out = s.out := rfl
@[simp] theorem State.sendInvEvent_draws : s.sendInvEvent.draws = s.draws := rfl

/-! ## sendInterrupt -/

@[simp] theorem State.sendInterrupt_cfg (i : Option Nat) (m : IrqMessage) : (s.sendInterrupt i m).cfg = s.cfg := rfl
@[simp] theorem State.sendInterrupt_reg (i : Option Nat) (m : IrqMessage) : (s.sendInterrupt i m).reg = s.reg := rfl
@[simp] theorem State.sendInterrupt_latch (i : Option Nat) (m : IrqMessage) : (s.sendInterrupt i m).latch = s.latch := rfl
@[simp] theorem State.sendInterrupt_cache (i : Option Nat) (m : IrqMessage) : (s.sendInterrupt i m).cache = s.cache := rfl
@[simp] theorem State.sendInterrupt_log (i : Option Nat) (m : IrqMessage) : (s.sendInterrupt i m).log = s.log := rfl
@[simp] theorem State.sendInterrupt_cmd (i : Option Nat) (m : IrqMessage) : (s.sendInterrupt i m).cmd = s.cmd := rfl
@[simp] theorem State.sendInterrupt_preserved (i : Option Nat) (m : IrqMessage) : (s.sendInterrupt i m).preserved = s.preserved := rfl
@[simp] theorem State.sendInterrupt_unlogged (i : Option Nat) (m : IrqMessage) : (s.sendInterrupt i m).unlogged = s.unlogged := rfl
@[simp] theorem State.sendInterrupt_iq (i : Option Nat) (m : IrqMessage) : (s.sendInterrupt i m).iq = s.iq := rfl
@[simp] theorem State.sendInterrupt_itags (i : Option Nat) (m : IrqMessage) : (s.sendInterrupt i m).itags = s.itags := rfl
@[simp] theorem State.sendInterrupt_feHold (i : Option Nat) (m : IrqMessage) : (s.sendInterrupt i m).feHold = s.feHold := rfl
@[simp] theorem State.sendInterrupt_ieHold (i : Option Nat) (m : IrqMessage) : (s.sendInterrupt i m).ieHold = s.ieHold := rfl
@[simp] theorem State.sendInterrupt_posted (i : Option Nat) (m : IrqMessage) : (s.sendInterrupt i m).posted = s.posted := rfl
@[simp] theorem State.sendInterrupt_inflight (i : Option Nat) (m : IrqMessage) : (s.sendInterrupt i m).inflight = s.inflight := rfl
@[simp] theorem State.sendInterrupt_irqs (i : Option Nat) (m : IrqMessage) : (s.sendInterrupt i m).irqs = s.irqs ++ [{ index := i, message := m }] := rfl
@[simp] theorem State.sendInterrupt_wbuf (i : Option Nat) (m : IrqMessage) : (s.sendInterrupt i m).wbuf = s.wbuf := rfl
@[simp] theorem State.sendInterrupt_dirty (i : Option Nat) (m : IrqMessage) : (s.sendInterrupt i m).dirty = s.dirty := rfl
@[simp] theorem State.sendInterrupt_mem (i : Option Nat) (m : IrqMessage) : (s.sendInterrupt i m).mem = s.mem := rfl
@[simp] theorem State.sendInterrupt_agenda (i : Option Nat) (m : IrqMessage) : (s.sendInterrupt i m).agenda = s.agenda := rfl
@[simp] theorem State.sendInterrupt_out (i : Option Nat) (m : IrqMessage) : (s.sendInterrupt i m).out = s.out := rfl
@[simp] theorem State.sendInterrupt_draws (i : Option Nat) (m : IrqMessage) : (s.sendInterrupt i m).draws = s.draws := rfl

/-! ## advancePfIndex -/

@[simp] theorem State.advancePfIndex_cfg : s.advancePfIndex.cfg = s.cfg := rfl
@[simp] theorem State.advancePfIndex_reg : s.advancePfIndex.reg = s.reg := rfl
@[simp] theorem State.advancePfIndex_latch : s.advancePfIndex.latch = s.latch := rfl
@[simp] theorem State.advancePfIndex_cache : s.advancePfIndex.cache = s.cache := rfl
@[simp] theorem State.advancePfIndex_log : s.advancePfIndex.log = { s.log with
    pfIndex := if s.tes || s.ires then (s.log.pfIndex + 1) % s.cfg.faultRegs else 0 } := rfl
@[simp] theorem State.advancePfIndex_cmd : s.advancePfIndex.cmd = s.cmd := rfl
@[simp] theorem State.advancePfIndex_preserved : s.advancePfIndex.preserved = s.preserved := rfl
@[simp] theorem State.advancePfIndex_unlogged : s.advancePfIndex.unlogged = s.unlogged := rfl
@[simp] theorem State.advancePfIndex_iq : s.advancePfIndex.iq = s.iq := rfl
@[simp] theorem State.advancePfIndex_itags : s.advancePfIndex.itags = s.itags := rfl
@[simp] theorem State.advancePfIndex_feHold : s.advancePfIndex.feHold = s.feHold := rfl
@[simp] theorem State.advancePfIndex_ieHold : s.advancePfIndex.ieHold = s.ieHold := rfl
@[simp] theorem State.advancePfIndex_posted : s.advancePfIndex.posted = s.posted := rfl
@[simp] theorem State.advancePfIndex_inflight : s.advancePfIndex.inflight = s.inflight := rfl
@[simp] theorem State.advancePfIndex_irqs : s.advancePfIndex.irqs = s.irqs := rfl
@[simp] theorem State.advancePfIndex_wbuf : s.advancePfIndex.wbuf = s.wbuf := rfl
@[simp] theorem State.advancePfIndex_dirty : s.advancePfIndex.dirty = s.dirty := rfl
@[simp] theorem State.advancePfIndex_mem : s.advancePfIndex.mem = s.mem := rfl
@[simp] theorem State.advancePfIndex_agenda : s.advancePfIndex.agenda = s.agenda := rfl
@[simp] theorem State.advancePfIndex_out : s.advancePfIndex.out = s.out := rfl
@[simp] theorem State.advancePfIndex_draws : s.advancePfIndex.draws = s.draws := rfl

/-! ## fillCaches -/

@[simp] theorem State.fillCaches_cfg (t : Translation) : (s.fillCaches t).cfg = s.cfg := rfl
@[simp] theorem State.fillCaches_reg (t : Translation) : (s.fillCaches t).reg = s.reg := rfl
@[simp] theorem State.fillCaches_latch (t : Translation) : (s.fillCaches t).latch = s.latch := rfl
@[simp] theorem State.fillCaches_log (t : Translation) : (s.fillCaches t).log = s.log := rfl
@[simp] theorem State.fillCaches_cmd (t : Translation) : (s.fillCaches t).cmd = s.cmd := rfl
@[simp] theorem State.fillCaches_preserved (t : Translation) : (s.fillCaches t).preserved = s.preserved := rfl
@[simp] theorem State.fillCaches_unlogged (t : Translation) : (s.fillCaches t).unlogged = s.unlogged := rfl
@[simp] theorem State.fillCaches_iq (t : Translation) : (s.fillCaches t).iq = s.iq := rfl
@[simp] theorem State.fillCaches_itags (t : Translation) : (s.fillCaches t).itags = s.itags := rfl
@[simp] theorem State.fillCaches_feHold (t : Translation) : (s.fillCaches t).feHold = s.feHold := rfl
@[simp] theorem State.fillCaches_ieHold (t : Translation) : (s.fillCaches t).ieHold = s.ieHold := rfl
@[simp] theorem State.fillCaches_posted (t : Translation) : (s.fillCaches t).posted = s.posted := rfl
@[simp] theorem State.fillCaches_inflight (t : Translation) : (s.fillCaches t).inflight = s.inflight := rfl
@[simp] theorem State.fillCaches_irqs (t : Translation) : (s.fillCaches t).irqs = s.irqs := rfl
@[simp] theorem State.fillCaches_wbuf (t : Translation) : (s.fillCaches t).wbuf = s.wbuf := rfl
@[simp] theorem State.fillCaches_dirty (t : Translation) : (s.fillCaches t).dirty = s.dirty := rfl
@[simp] theorem State.fillCaches_mem (t : Translation) : (s.fillCaches t).mem = s.mem := rfl
@[simp] theorem State.fillCaches_agenda (t : Translation) : (s.fillCaches t).agenda = s.agenda := rfl
@[simp] theorem State.fillCaches_out (t : Translation) : (s.fillCaches t).out = s.out := rfl
@[simp] theorem State.fillCaches_draws (t : Translation) : (s.fillCaches t).draws = s.draws := rfl

/-! ## fillIec -/

@[simp] theorem State.fillIec_cfg (n : Nat) (e : BitVec 128) (d : SourceId) : (s.fillIec n e d).cfg = s.cfg := rfl
@[simp] theorem State.fillIec_reg (n : Nat) (e : BitVec 128) (d : SourceId) : (s.fillIec n e d).reg = s.reg := rfl
@[simp] theorem State.fillIec_latch (n : Nat) (e : BitVec 128) (d : SourceId) : (s.fillIec n e d).latch = s.latch := rfl
@[simp] theorem State.fillIec_log (n : Nat) (e : BitVec 128) (d : SourceId) : (s.fillIec n e d).log = s.log := rfl
@[simp] theorem State.fillIec_cmd (n : Nat) (e : BitVec 128) (d : SourceId) : (s.fillIec n e d).cmd = s.cmd := rfl
@[simp] theorem State.fillIec_preserved (n : Nat) (e : BitVec 128) (d : SourceId) : (s.fillIec n e d).preserved = s.preserved := rfl
@[simp] theorem State.fillIec_unlogged (n : Nat) (e : BitVec 128) (d : SourceId) : (s.fillIec n e d).unlogged = s.unlogged := rfl
@[simp] theorem State.fillIec_iq (n : Nat) (e : BitVec 128) (d : SourceId) : (s.fillIec n e d).iq = s.iq := rfl
@[simp] theorem State.fillIec_itags (n : Nat) (e : BitVec 128) (d : SourceId) : (s.fillIec n e d).itags = s.itags := rfl
@[simp] theorem State.fillIec_feHold (n : Nat) (e : BitVec 128) (d : SourceId) : (s.fillIec n e d).feHold = s.feHold := rfl
@[simp] theorem State.fillIec_ieHold (n : Nat) (e : BitVec 128) (d : SourceId) : (s.fillIec n e d).ieHold = s.ieHold := rfl
@[simp] theorem State.fillIec_posted (n : Nat) (e : BitVec 128) (d : SourceId) : (s.fillIec n e d).posted = s.posted := rfl
@[simp] theorem State.fillIec_inflight (n : Nat) (e : BitVec 128) (d : SourceId) : (s.fillIec n e d).inflight = s.inflight := rfl
@[simp] theorem State.fillIec_irqs (n : Nat) (e : BitVec 128) (d : SourceId) : (s.fillIec n e d).irqs = s.irqs := rfl
@[simp] theorem State.fillIec_wbuf (n : Nat) (e : BitVec 128) (d : SourceId) : (s.fillIec n e d).wbuf = s.wbuf := rfl
@[simp] theorem State.fillIec_dirty (n : Nat) (e : BitVec 128) (d : SourceId) : (s.fillIec n e d).dirty = s.dirty := rfl
@[simp] theorem State.fillIec_mem (n : Nat) (e : BitVec 128) (d : SourceId) : (s.fillIec n e d).mem = s.mem := rfl
@[simp] theorem State.fillIec_agenda (n : Nat) (e : BitVec 128) (d : SourceId) : (s.fillIec n e d).agenda = s.agenda := rfl
@[simp] theorem State.fillIec_out (n : Nat) (e : BitVec 128) (d : SourceId) : (s.fillIec n e d).out = s.out := rfl
@[simp] theorem State.fillIec_draws (n : Nat) (e : BitVec 128) (d : SourceId) : (s.fillIec n e d).draws = s.draws := rfl

/-! ## removeTranslations -/

@[simp] theorem State.removeTranslations_cfg (g : IotlbGran) (did : DomainId) (p : PageNumber) (am : BitVec 6) (ih : Bool) : (s.removeTranslations g did p am ih).cfg = s.cfg := rfl
@[simp] theorem State.removeTranslations_reg (g : IotlbGran) (did : DomainId) (p : PageNumber) (am : BitVec 6) (ih : Bool) : (s.removeTranslations g did p am ih).reg = s.reg := rfl
@[simp] theorem State.removeTranslations_latch (g : IotlbGran) (did : DomainId) (p : PageNumber) (am : BitVec 6) (ih : Bool) : (s.removeTranslations g did p am ih).latch = s.latch := rfl
@[simp] theorem State.removeTranslations_log (g : IotlbGran) (did : DomainId) (p : PageNumber) (am : BitVec 6) (ih : Bool) : (s.removeTranslations g did p am ih).log = s.log := rfl
@[simp] theorem State.removeTranslations_cmd (g : IotlbGran) (did : DomainId) (p : PageNumber) (am : BitVec 6) (ih : Bool) : (s.removeTranslations g did p am ih).cmd = s.cmd := rfl
@[simp] theorem State.removeTranslations_preserved (g : IotlbGran) (did : DomainId) (p : PageNumber) (am : BitVec 6) (ih : Bool) : (s.removeTranslations g did p am ih).preserved = s.preserved := rfl
@[simp] theorem State.removeTranslations_unlogged (g : IotlbGran) (did : DomainId) (p : PageNumber) (am : BitVec 6) (ih : Bool) : (s.removeTranslations g did p am ih).unlogged = s.unlogged := rfl
@[simp] theorem State.removeTranslations_iq (g : IotlbGran) (did : DomainId) (p : PageNumber) (am : BitVec 6) (ih : Bool) : (s.removeTranslations g did p am ih).iq = s.iq := rfl
@[simp] theorem State.removeTranslations_itags (g : IotlbGran) (did : DomainId) (p : PageNumber) (am : BitVec 6) (ih : Bool) : (s.removeTranslations g did p am ih).itags = s.itags := rfl
@[simp] theorem State.removeTranslations_feHold (g : IotlbGran) (did : DomainId) (p : PageNumber) (am : BitVec 6) (ih : Bool) : (s.removeTranslations g did p am ih).feHold = s.feHold := rfl
@[simp] theorem State.removeTranslations_ieHold (g : IotlbGran) (did : DomainId) (p : PageNumber) (am : BitVec 6) (ih : Bool) : (s.removeTranslations g did p am ih).ieHold = s.ieHold := rfl
@[simp] theorem State.removeTranslations_posted (g : IotlbGran) (did : DomainId) (p : PageNumber) (am : BitVec 6) (ih : Bool) : (s.removeTranslations g did p am ih).posted = s.posted := rfl
@[simp] theorem State.removeTranslations_inflight (g : IotlbGran) (did : DomainId) (p : PageNumber) (am : BitVec 6) (ih : Bool) : (s.removeTranslations g did p am ih).inflight = s.inflight := rfl
@[simp] theorem State.removeTranslations_irqs (g : IotlbGran) (did : DomainId) (p : PageNumber) (am : BitVec 6) (ih : Bool) : (s.removeTranslations g did p am ih).irqs = s.irqs := rfl
@[simp] theorem State.removeTranslations_wbuf (g : IotlbGran) (did : DomainId) (p : PageNumber) (am : BitVec 6) (ih : Bool) : (s.removeTranslations g did p am ih).wbuf = s.wbuf := rfl
@[simp] theorem State.removeTranslations_dirty (g : IotlbGran) (did : DomainId) (p : PageNumber) (am : BitVec 6) (ih : Bool) : (s.removeTranslations g did p am ih).dirty = s.dirty := rfl
@[simp] theorem State.removeTranslations_mem (g : IotlbGran) (did : DomainId) (p : PageNumber) (am : BitVec 6) (ih : Bool) : (s.removeTranslations g did p am ih).mem = s.mem := rfl
@[simp] theorem State.removeTranslations_agenda (g : IotlbGran) (did : DomainId) (p : PageNumber) (am : BitVec 6) (ih : Bool) : (s.removeTranslations g did p am ih).agenda = s.agenda := rfl
@[simp] theorem State.removeTranslations_out (g : IotlbGran) (did : DomainId) (p : PageNumber) (am : BitVec 6) (ih : Bool) : (s.removeTranslations g did p am ih).out = s.out := rfl
@[simp] theorem State.removeTranslations_draws (g : IotlbGran) (did : DomainId) (p : PageNumber) (am : BitVec 6) (ih : Bool) : (s.removeTranslations g did p am ih).draws = s.draws := rfl

/-! ## reportContext -/

@[simp] theorem State.reportContext_cfg (g : Option CtxGran) : (s.reportContext g).cfg = s.cfg := rfl
@[simp] theorem State.reportContext_reg (g : Option CtxGran) : (s.reportContext g).reg = { s.reg with ccmd := setField (setBit s.reg.ccmd 63 false) 59 (ctxGranCode g) } := rfl
@[simp] theorem State.reportContext_latch (g : Option CtxGran) : (s.reportContext g).latch = s.latch := rfl
@[simp] theorem State.reportContext_cache (g : Option CtxGran) : (s.reportContext g).cache = s.cache := rfl
@[simp] theorem State.reportContext_log (g : Option CtxGran) : (s.reportContext g).log = s.log := rfl
@[simp] theorem State.reportContext_cmd (g : Option CtxGran) : (s.reportContext g).cmd = s.cmd := rfl
@[simp] theorem State.reportContext_preserved (g : Option CtxGran) : (s.reportContext g).preserved = s.preserved := rfl
@[simp] theorem State.reportContext_unlogged (g : Option CtxGran) : (s.reportContext g).unlogged = s.unlogged := rfl
@[simp] theorem State.reportContext_iq (g : Option CtxGran) : (s.reportContext g).iq = s.iq := rfl
@[simp] theorem State.reportContext_itags (g : Option CtxGran) : (s.reportContext g).itags = s.itags := rfl
@[simp] theorem State.reportContext_feHold (g : Option CtxGran) : (s.reportContext g).feHold = s.feHold := rfl
@[simp] theorem State.reportContext_ieHold (g : Option CtxGran) : (s.reportContext g).ieHold = s.ieHold := rfl
@[simp] theorem State.reportContext_posted (g : Option CtxGran) : (s.reportContext g).posted = s.posted := rfl
@[simp] theorem State.reportContext_inflight (g : Option CtxGran) : (s.reportContext g).inflight = s.inflight := rfl
@[simp] theorem State.reportContext_irqs (g : Option CtxGran) : (s.reportContext g).irqs = s.irqs := rfl
@[simp] theorem State.reportContext_wbuf (g : Option CtxGran) : (s.reportContext g).wbuf = s.wbuf := rfl
@[simp] theorem State.reportContext_dirty (g : Option CtxGran) : (s.reportContext g).dirty = s.dirty := rfl
@[simp] theorem State.reportContext_mem (g : Option CtxGran) : (s.reportContext g).mem = s.mem := rfl
@[simp] theorem State.reportContext_agenda (g : Option CtxGran) : (s.reportContext g).agenda = s.agenda := rfl
@[simp] theorem State.reportContext_out (g : Option CtxGran) : (s.reportContext g).out = s.out := rfl
@[simp] theorem State.reportContext_draws (g : Option CtxGran) : (s.reportContext g).draws = s.draws := rfl

/-! ## reportIotlb -/

@[simp] theorem State.reportIotlb_cfg (g : Option IotlbGran) : (s.reportIotlb g).cfg = s.cfg := rfl
@[simp] theorem State.reportIotlb_reg (g : Option IotlbGran) : (s.reportIotlb g).reg = { s.reg with iotlb := setField (setBit s.reg.iotlb 63 false) 57 (iotlbGranCode g) } := rfl
@[simp] theorem State.reportIotlb_latch (g : Option IotlbGran) : (s.reportIotlb g).latch = s.latch := rfl
@[simp] theorem State.reportIotlb_cache (g : Option IotlbGran) : (s.reportIotlb g).cache = s.cache := rfl
@[simp] theorem State.reportIotlb_log (g : Option IotlbGran) : (s.reportIotlb g).log = s.log := rfl
@[simp] theorem State.reportIotlb_cmd (g : Option IotlbGran) : (s.reportIotlb g).cmd = s.cmd := rfl
@[simp] theorem State.reportIotlb_preserved (g : Option IotlbGran) : (s.reportIotlb g).preserved = s.preserved := rfl
@[simp] theorem State.reportIotlb_unlogged (g : Option IotlbGran) : (s.reportIotlb g).unlogged = s.unlogged := rfl
@[simp] theorem State.reportIotlb_iq (g : Option IotlbGran) : (s.reportIotlb g).iq = s.iq := rfl
@[simp] theorem State.reportIotlb_itags (g : Option IotlbGran) : (s.reportIotlb g).itags = s.itags := rfl
@[simp] theorem State.reportIotlb_feHold (g : Option IotlbGran) : (s.reportIotlb g).feHold = s.feHold := rfl
@[simp] theorem State.reportIotlb_ieHold (g : Option IotlbGran) : (s.reportIotlb g).ieHold = s.ieHold := rfl
@[simp] theorem State.reportIotlb_posted (g : Option IotlbGran) : (s.reportIotlb g).posted = s.posted := rfl
@[simp] theorem State.reportIotlb_inflight (g : Option IotlbGran) : (s.reportIotlb g).inflight = s.inflight := rfl
@[simp] theorem State.reportIotlb_irqs (g : Option IotlbGran) : (s.reportIotlb g).irqs = s.irqs := rfl
@[simp] theorem State.reportIotlb_wbuf (g : Option IotlbGran) : (s.reportIotlb g).wbuf = s.wbuf := rfl
@[simp] theorem State.reportIotlb_dirty (g : Option IotlbGran) : (s.reportIotlb g).dirty = s.dirty := rfl
@[simp] theorem State.reportIotlb_mem (g : Option IotlbGran) : (s.reportIotlb g).mem = s.mem := rfl
@[simp] theorem State.reportIotlb_agenda (g : Option IotlbGran) : (s.reportIotlb g).agenda = s.agenda := rfl
@[simp] theorem State.reportIotlb_out (g : Option IotlbGran) : (s.reportIotlb g).out = s.out := rfl
@[simp] theorem State.reportIotlb_draws (g : Option IotlbGran) : (s.reportIotlb g).draws = s.draws := rfl

/-! ## raiseFault -/

@[simp] theorem State.raiseFault_cfg (e : BitVec 128) : (s.raiseFault e).cfg = s.cfg := rfl
@[simp] theorem State.raiseFault_reg (e : BitVec 128) : (s.raiseFault e).reg = s.reg := rfl
@[simp] theorem State.raiseFault_preserved (e : BitVec 128) : (s.raiseFault e).preserved = s.preserved := rfl
@[simp] theorem State.raiseFault_latch (e : BitVec 128) : (s.raiseFault e).latch = s.latch := rfl
@[simp] theorem State.raiseFault_cache (e : BitVec 128) : (s.raiseFault e).cache = s.cache := rfl
@[simp] theorem State.raiseFault_log (e : BitVec 128) : (s.raiseFault e).log = s.log := rfl
@[simp] theorem State.raiseFault_unlogged (e : BitVec 128) : (s.raiseFault e).unlogged = s.unlogged ++ [e] := rfl
@[simp] theorem State.raiseFault_cmd (e : BitVec 128) : (s.raiseFault e).cmd = s.cmd := rfl
@[simp] theorem State.raiseFault_iq (e : BitVec 128) : (s.raiseFault e).iq = s.iq := rfl
@[simp] theorem State.raiseFault_itags (e : BitVec 128) : (s.raiseFault e).itags = s.itags := rfl
@[simp] theorem State.raiseFault_feHold (e : BitVec 128) : (s.raiseFault e).feHold = s.feHold := rfl
@[simp] theorem State.raiseFault_ieHold (e : BitVec 128) : (s.raiseFault e).ieHold = s.ieHold := rfl
@[simp] theorem State.raiseFault_posted (e : BitVec 128) : (s.raiseFault e).posted = s.posted := rfl
@[simp] theorem State.raiseFault_inflight (e : BitVec 128) : (s.raiseFault e).inflight = s.inflight := rfl
@[simp] theorem State.raiseFault_irqs (e : BitVec 128) : (s.raiseFault e).irqs = s.irqs := rfl
@[simp] theorem State.raiseFault_wbuf (e : BitVec 128) : (s.raiseFault e).wbuf = s.wbuf := rfl
@[simp] theorem State.raiseFault_dirty (e : BitVec 128) : (s.raiseFault e).dirty = s.dirty := rfl
@[simp] theorem State.raiseFault_mem (e : BitVec 128) : (s.raiseFault e).mem = s.mem := rfl
@[simp] theorem State.raiseFault_agenda (e : BitVec 128) : (s.raiseFault e).agenda = s.agenda := rfl
@[simp] theorem State.raiseFault_out (e : BitVec 128) : (s.raiseFault e).out = s.out := rfl
@[simp] theorem State.raiseFault_draws (e : BitVec 128) : (s.raiseFault e).draws = s.draws := rfl

end Sys2Proof.Machine
end

