-- ==== Sys2Proof/Laws/Ops.lean ====
section
/-! SUPPORT. What each shared operation of Machine/Ops.lean can do, said once: which parts of the state it leaves alone, and
that it keeps memory in canonical form. -/

namespace Sys2Proof.Machine

/-! ## Operations that only move data: memory, in-flight work and outputs -/

/-- `t` differs from `s` only in memory, the store buffers, in-flight and posted work, outputs and the draw counter; and
what `s` has of the memory part of `State.Inv`, `t` has too. -/
structure SameUnit (s t : State) : Prop where
  cfg : t.cfg = s.cfg
  reg : t.reg = s.reg
  preserved : t.preserved = s.preserved
  latch : t.latch = s.latch
  cache : t.cache = s.cache
  log : t.log = s.log
  unlogged : t.unlogged = s.unlogged
  cmd : t.cmd = s.cmd
  iq : t.iq = s.iq
  itags : t.itags = s.itags
  feHold : t.feHold = s.feHold
  ieHold : t.ieHold = s.ieHold
  agenda : t.agenda = s.agenda
  wf : s.mem.wf = true → t.mem.wf = true
  wbuf : s.wbuf = [] → s.cfg.rwbf = false → t.wbuf = []
  dirty : s.dirty = [] → s.cfg.coherent = true → t.dirty = []
  dirtyOnce : (s.dirty.map (fun d => d.cell.1)).Nodup → (t.dirty.map (fun d => d.cell.1)).Nodup

theorem SameUnit.refl (s : State) : SameUnit s s :=
  ⟨rfl, rfl, rfl, rfl, rfl, rfl, rfl, rfl, rfl, rfl, rfl, rfl, rfl, id, fun h _ => h, fun h _ => h, id⟩

theorem SameUnit.trans {s t u : State} (h : SameUnit s t) (k : SameUnit t u) : SameUnit s u where
  cfg := k.cfg.trans h.cfg
  reg := k.reg.trans h.reg
  preserved := k.preserved.trans h.preserved
  latch := k.latch.trans h.latch
  cache := k.cache.trans h.cache
  log := k.log.trans h.log
  unlogged := k.unlogged.trans h.unlogged
  cmd := k.cmd.trans h.cmd
  iq := k.iq.trans h.iq
  itags := k.itags.trans h.itags
  feHold := k.feHold.trans h.feHold
  ieHold := k.ieHold.trans h.ieHold
  agenda := k.agenda.trans h.agenda
  wf := fun e => k.wf (h.wf e)
  wbuf := fun e f => k.wbuf (h.wbuf e f) (by rw [h.cfg]; exact f)
  dirty := fun e f => k.dirty (h.dirty e f) (by rw [h.cfg]; exact f)
  dirtyOnce := fun e => k.dirtyOnce (h.dirtyOnce e)

/-- A fold of such operations is such an operation. -/
theorem SameUnit.foldl {α : Type} {f : State → α → State} (h : ∀ s x, SameUnit s (f s x)) (xs : List α) (s : State) :
    SameUnit s (xs.foldl f s) := by
  induction xs generalizing s with
  | nil => exact SameUnit.refl s
  | cons x xs ih => exact (h s x).trans (ih (f s x))

/-- Such an operation keeps the invariant. -/
theorem SameUnit.inv {s t : State} (h : SameUnit s t) (k : s.Inv) : t.Inv where
  mem := h.wf k.mem
  frcd := by rw [h.reg, h.cfg]; exact k.frcd
  itags := by rw [h.itags, h.cfg]; exact k.itags
  gsts := by rw [h.reg]; exact k.gsts
  fsts := by rw [h.reg]; exact k.fsts
  pfIndex := by rw [h.log, h.cfg]; exact k.pfIndex
  afIndex := by rw [h.log, h.latch]; exact k.afIndex
  wbuf := fun e => by rw [h.cfg] at e; exact h.wbuf (k.wbuf e) e
  dirty := fun e => by rw [h.cfg] at e; exact h.dirty (k.dirty e) e
  dirtyOnce := h.dirtyOnce k.dirtyOnce

theorem SameUnit.noFaultCached {s t : State} (h : SameUnit s t) (k : s.NoFaultCached) : t.NoFaultCached where
  ctx := by rw [h.cache, h.cfg]; exact k.ctx
  iotlb := by rw [h.cache, h.cfg]; exact k.iotlb
  pde := by rw [h.cache, h.cfg]; exact k.pde
  iec := by rw [h.cache, h.cfg]; exact k.iec

theorem undirtied_nil (cells : List Host.Cell) : undirtied cells [] = [] := rfl

theorem sameUnit_tick (s : State) : SameUnit s s.tick := by constructor <;> simp +contextual
theorem sameUnit_emit (s : State) (o : Output) : SameUnit s (s.emit o) := by constructor <;> simp +contextual
theorem sameUnit_sendInterrupt (s : State) (i : Option Nat) (m : IrqMessage) : SameUnit s (s.sendInterrupt i m) := by
  constructor <;> simp +contextual

/-- Some of the unwritten-back bytes: still one for each address. -/
theorem nodup_filter_dirty {ds : List DirtyByte} (h : (ds.map (fun d => d.cell.1)).Nodup) (p : DirtyByte → Bool) :
    ((ds.filter p).map (fun d => d.cell.1)).Nodup := h.sublist (List.filter_sublist.map _)

theorem sameUnit_writeCoherent (s : State) (cells : List Host.Cell) : SameUnit s (s.writeCoherent cells) := by
  constructor
  case dirtyOnce => exact fun h => nodup_filter_dirty h _
  all_goals simp +contextual [State.writeCoherent, Memory.wf_writeCells, undirtied_nil]

theorem sameUnit_storeToMemory (s : State) (cells : List Host.Cell) : SameUnit s (s.storeToMemory cells) := by
  unfold State.storeToMemory
  split
  · next h => constructor <;> simp +contextual [h]
  · constructor <;> simp +contextual [Memory.wf_writeCells]

theorem sameUnit_processorStore (s : State) (cpu a : Nat) (data : List Byte) :
    SameUnit s (s.processorStore cpu a data) := by
  unfold State.processorStore
  split
  · exact sameUnit_storeToMemory s _
  · next h =>
    constructor
    case dirtyOnce =>
      intro k
      have hs : ((cellsAt a data).map (DirtyByte.mk cpu)).map (fun d => d.cell.1) = (cellsAt a data).map (fun c => c.1) := by
        rw [List.map_map]; rfl
      rw [List.map_append, hs]
      refine (nodup_cellsAt a data).append (nodup_filter_dirty k _) (fun x hx hy => ?_)
      obtain ⟨c, hc, rfl⟩ := List.mem_map.1 hx
      obtain ⟨d, hd, e⟩ := List.mem_map.1 hy
      have ht : touches (cellsAt a data) d.cell.1 = true := by
        unfold touches; rw [List.any_eq_true]; exact ⟨c, hc, by simp [e]⟩
      have hu := (List.mem_filter.1 hd).2
      rw [ht] at hu
      exact absurd hu (by simp)
    all_goals simp +contextual [h]

theorem sameUnit_writeback (s : State) (cpu a : Nat) : SameUnit s (s.writeback cpu a) := by
  refine SameUnit.trans (t := { s with dirty := s.dirty.filter (fun d => !d.coveredBy cpu a) }) ?_
    (sameUnit_storeToMemory _ _)
  constructor
  case dirtyOnce => exact fun h => nodup_filter_dirty h _
  all_goals simp +contextual

theorem sameUnit_drainStore (s : State) : SameUnit s s.drainStore := by
  unfold State.drainStore
  split
  · exact SameUnit.refl s
  · next h => constructor <;> simp +contextual [h, Memory.wf_writeCells]

theorem sameUnit_flushWriteBuffer (s : State) : SameUnit s s.flushWriteBuffer := by
  unfold State.flushWriteBuffer
  split
  · constructor <;> simp +contextual [Memory.wf_performStores]
  · exact SameUnit.refl s

theorem sameUnit_move (s : State) (m : CpuMove) : SameUnit s (s.move m) := by
  cases m with
  | store cpu a data =>
      simp only [State.move]
      split
      · exact SameUnit.refl s
      · exact sameUnit_processorStore s cpu a data
  | writeback cpu a => exact sameUnit_writeback s cpu a
  | drain => exact sameUnit_drainStore s

theorem sameUnit_perform (s : State) (p : Posted) : SameUnit s (s.perform p) := by
  cases p with
  | statusWrite a d => exact sameUnit_writeCoherent s _
  | logWrite a d => exact sameUnit_writeCoherent s _
  | message src a d =>
      simp only [State.perform]
      split
      · exact (sameUnit_writeCoherent s _).trans (sameUnit_emit _ _)
      · exact sameUnit_emit s _

/-- A change of the in-flight or posted lists alone. -/
theorem sameUnit_lists (s : State) (ps : List Posted) (fs : List InFlight) (qs : List IrqInFlight) :
    SameUnit s { s with posted := ps, inflight := fs, irqs := qs } := by constructor <;> simp +contextual

theorem sameUnit_flushPosted (s : State) : SameUnit s s.flushPosted :=
  (sameUnit_lists s [] s.inflight s.irqs).trans (SameUnit.foldl sameUnit_perform _ _)

theorem sameUnit_deliver (s : State) (k : Nat) : SameUnit s (s.deliver k) := by
  unfold State.deliver
  split
  · exact SameUnit.refl s
  · split
    · exact ((sameUnit_lists s _ s.inflight s.irqs).trans (SameUnit.foldl sameUnit_perform _ _)).trans (sameUnit_perform _ _)
    · exact (sameUnit_lists s _ s.inflight s.irqs).trans (sameUnit_perform _ _)

theorem sameUnit_commitRequest (s : State) (f : InFlight) : SameUnit s (s.commitRequest f) := by
  unfold State.commitRequest
  split
  · exact sameUnit_writeCoherent s _
  · exact (sameUnit_emit s _).trans (sameUnit_tick _)

theorem sameUnit_drainWhere (s : State) (p : InFlight → Bool) : SameUnit s (s.drainWhere p) :=
  (sameUnit_lists s s.posted _ s.irqs).trans (SameUnit.foldl sameUnit_commitRequest _ _)

theorem sameUnit_drainAll (s : State) : SameUnit s s.drainAll := sameUnit_drainWhere s _

theorem sameUnit_drainInterrupts (s : State) (p : IrqInFlight → Bool) : SameUnit s (s.drainInterrupts p) :=
  (sameUnit_lists s s.posted s.inflight _).trans (SameUnit.foldl (fun t _ => sameUnit_emit t _) _ _)

theorem sameUnit_commitAt (s : State) (k : Nat) : SameUnit s (s.commitAt k) := by
  unfold State.commitAt
  split
  · exact SameUnit.refl s
  · exact (sameUnit_lists s s.posted _ s.irqs).trans (sameUnit_commitRequest _ _)

theorem sameUnit_commitIrqAt (s : State) (k : Nat) : SameUnit s (s.commitIrqAt k) := by
  unfold State.commitIrqAt
  split
  · exact SameUnit.refl s
  · exact (sameUnit_lists s s.posted s.inflight _).trans (sameUnit_emit _ _)

theorem sameUnit_disposeBlocked (s : State) (r : Request) (addr n : Nat) : SameUnit s (s.disposeBlocked r addr n) := by
  unfold State.disposeBlocked
  split
  · exact sameUnit_emit s _
  · split
    · exact sameUnit_emit s _
    · split
      · exact sameUnit_emit s _
      · exact (sameUnit_emit s _).trans (sameUnit_tick _)

/-! ## Operations on memory alone: what they do to each byte -/

/-- The lists of in-flight work and the outputs that `commitRequest` leaves alone. -/
theorem commitRequest_inflight (s : State) (f : InFlight) : (s.commitRequest f).inflight = s.inflight := by
  unfold State.commitRequest; split <;> rfl

theorem commitRequest_irqs (s : State) (f : InFlight) : (s.commitRequest f).irqs = s.irqs := by
  unfold State.commitRequest; split <;> rfl

theorem commitRequest_posted (s : State) (f : InFlight) : (s.commitRequest f).posted = s.posted := by
  unfold State.commitRequest; split <;> rfl

theorem foldl_commitRequest (fs : List InFlight) (s : State) :
    (fs.foldl State.commitRequest s).inflight = s.inflight ∧ (fs.foldl State.commitRequest s).irqs = s.irqs
      ∧ (fs.foldl State.commitRequest s).posted = s.posted := by
  induction fs generalizing s with
  | nil => simp
  | cons f fs ih =>
      simp only [List.foldl_cons]
      rw [(ih _).1, (ih _).2.1, (ih _).2.2, commitRequest_inflight, commitRequest_irqs, commitRequest_posted]
      simp

/-- A drain leaves in flight exactly what it does not select. -/
theorem drainWhere_inflight (s : State) (p : InFlight → Bool) :
    (s.drainWhere p).inflight = s.inflight.filter (fun f => !p f) := (foldl_commitRequest _ _).1

/-- The commits do not look at the caches or at what else is in flight. -/
theorem commits_with (fs : List InFlight) (s : State) (c : Caches) (x : List InFlight) :
    ({ s with cache := c, inflight := x } : State).commits fs = { s.commits fs with cache := c, inflight := x } := by
  induction fs generalizing s with
  | nil => rfl
  | cons f fs ih =>
      have h : ({ s with cache := c, inflight := x } : State).commitRequest f =
          { s.commitRequest f with cache := c, inflight := x } := by
        unfold State.commitRequest
        split <;> rfl
      show (State.commitRequest _ f).commits fs = _
      rw [h, ih]
      rfl

/-- A drain, said once: what it selects completes, in order, and only that leaves the in-flight set. -/
theorem drainWhere_spec (s : State) (p : InFlight → Bool) :
    s.drainWhere p = { s.commits (s.inflight.filter p) with inflight := s.inflight.filter (fun f => !p f) } := by
  have hc : (s.commits (s.inflight.filter p)).cache = s.cache :=
    (SameUnit.foldl (fun t f => sameUnit_commitRequest t f) (s.inflight.filter p) s).cache
  show ({ s with cache := s.cache, inflight := s.inflight.filter (fun f => !p f) } : State).commits _ = _
  rw [commits_with, ← hc]

/-- A drain drains what it selects, also after lines have left the caches. -/
theorem drained_drainWhere (s : State) (c : Caches) (p : InFlight → Bool) :
    Drained s (({ s with cache := c } : State).drainWhere p) p := by
  have h := commits_with (s.inflight.filter p) s c s.inflight
  rw [drainWhere_spec]
  refine ⟨rfl, ?_, ?_, ?_, ?_⟩
  · show (State.commits _ (s.inflight.filter p)).mem = _; rw [h]
  · show (State.commits _ (s.inflight.filter p)).wbuf = _; rw [h]
  · show (State.commits _ (s.inflight.filter p)).dirty = _; rw [h]
  · show (State.commits _ (s.inflight.filter p)).out = _; rw [h]

/-- Draining nothing leaves all as it is. -/
theorem drained_nothing (s : State) : Drained s s (fun _ => false) := by
  constructor <;> simp [State.commits]

/-- The write-buffer flush is `State.flushed`. -/
theorem flushWriteBuffer_eq (s : State) : s.flushWriteBuffer = s.flushed := by
  unfold State.flushWriteBuffer State.flushed
  split <;> simp

theorem drainWhere_irqs (s : State) (p : InFlight → Bool) : (s.drainWhere p).irqs = s.irqs := (foldl_commitRequest _ _).2.1

theorem drainWhere_posted (s : State) (p : InFlight → Bool) : (s.drainWhere p).posted = s.posted :=
  (foldl_commitRequest _ _).2.2

theorem commitRequest_read (s : State) (f : InFlight) (h : s.mem.wf = true) (a : Nat)
    (ha : f.kind = .write → ∀ c ∈ enabledCells f.hpa f.enables f.data, c.1 ≠ a) :
    (s.commitRequest f).mem.read a = s.mem.read a := by
  unfold State.commitRequest
  split
  · next hk => exact Memory.read_writeCells_of_not_mem h (ha hk)
  · rfl

/-- A drain changes no byte of memory but the enabled bytes of the writes that it completes. -/
theorem drainWhere_read (s : State) (p : InFlight → Bool) (h : s.mem.wf = true) (a : Nat)
    (ha : ∀ f ∈ s.inflight, p f = true → f.kind = .write → ∀ c ∈ enabledCells f.hpa f.enables f.data, c.1 ≠ a) :
    (s.drainWhere p).mem.read a = s.mem.read a := by
  have key : ∀ (fs : List InFlight) (t : State), t.mem.wf = true →
      (∀ f ∈ fs, f.kind = .write → ∀ c ∈ enabledCells f.hpa f.enables f.data, c.1 ≠ a) →
      (fs.foldl State.commitRequest t).mem.read a = t.mem.read a := by
    intro fs
    induction fs with
    | nil => intros; rfl
    | cons f fs ih =>
        intro t ht hf
        rw [List.foldl_cons, ih _ ((sameUnit_commitRequest t f).wf ht) (fun g hg => hf g (List.mem_cons_of_mem _ hg)),
          commitRequest_read t f ht a (hf f (List.mem_cons_self ..))]
  exact key _ _ h (fun f hf => by
    rw [List.mem_filter] at hf
    exact ha f hf.1 hf.2)

/-- A drain of interrupts leaves exactly those that it does not select, and sends the others in order. -/
theorem drainInterrupts_spec (s : State) (p : IrqInFlight → Bool) :
    s.drainInterrupts p = { s with irqs := s.irqs.filter (fun q => !p q),
                                   out := ((s.irqs.filter p).map (fun q => Output.interrupt q.message)).reverse ++ s.out } := by
  have key : ∀ (qs : List IrqInFlight) (t : State), qs.foldl State.commitInterrupt t =
      { t with out := (qs.map (fun q => Output.interrupt q.message)).reverse ++ t.out } := by
    intro qs
    induction qs with
    | nil => intro t; rfl
    | cons q qs ih =>
        intro t
        rw [List.foldl_cons, ih]
        simp [State.commitInterrupt, State.emit]
  exact key _ _

/-- The write-buffer flush changes memory and the buffer alone. -/
theorem flushWriteBuffer_spec (s : State) :
    s.flushWriteBuffer = { s with mem := if s.cfg.rwbf then s.mem.performStores s.wbuf else s.mem,
                                  wbuf := if s.cfg.rwbf then [] else s.wbuf } := by
  unfold State.flushWriteBuffer
  split <;> simp

/-- The context-cache invalidation: the buffer is flushed, and lines leave the context cache. -/
theorem invalidateContext_spec (s : State) (code : BitVec 2) (did : DomainId) (sid : SourceId) (fm : BitVec 2) :
    s.invalidateContext code did sid fm =
      { s.flushWriteBuffer.tick with
        cache := { s.cache with
          ctx := s.cache.ctx.filter (fun l =>
            match ctxGranOf code with
            | none => true
            | some asked => !ctxSelected s.cfg (coarsenCtx asked (s.free 3)) (s.cfg.domain did) sid fm (s.coin 4) l) } } := by
  have hc : s.flushWriteBuffer.tick.cache = s.cache := ((sameUnit_flushWriteBuffer s).trans (sameUnit_tick _)).cache
  unfold State.invalidateContext
  cases h : ctxGranOf code with
  | none => simp only [List.filter_true, ← hc]
  | some asked => rfl

/-! ## Taking a fault -/

/-- `t` differs from `s` only in FSTS_REG, FECTL_REG.IP, the fault recording registers, the log positions, work posted behind
what was posted, the faults that wait for the logger, and the draw counter. -/
structure SameButFaultLog (s t : State) : Prop where
  cfg : t.cfg = s.cfg
  gsts : t.reg.gsts = s.reg.gsts
  latch : t.latch = s.latch
  cache : t.cache = s.cache
  cmd : t.cmd = s.cmd
  itags : t.itags = s.itags
  mem : t.mem = s.mem
  wbuf : t.wbuf = s.wbuf
  dirty : t.dirty = s.dirty
  inflight : t.inflight = s.inflight
  irqs : t.irqs = s.irqs
  agenda : t.agenda = s.agenda
  iq : t.iq = s.iq
  out : t.out = s.out
  posted : s.posted <+: t.posted
  inv : s.Inv → t.Inv

theorem SameButFaultLog.refl (s : State) : SameButFaultLog s s := by constructor <;> simp

theorem SameButFaultLog.trans {s t u : State} (h : SameButFaultLog s t) (k : SameButFaultLog t u) : SameButFaultLog s u where
  cfg := k.cfg.trans h.cfg
  gsts := k.gsts.trans h.gsts
  latch := k.latch.trans h.latch
  cache := k.cache.trans h.cache
  cmd := k.cmd.trans h.cmd
  itags := k.itags.trans h.itags
  mem := k.mem.trans h.mem
  wbuf := k.wbuf.trans h.wbuf
  dirty := k.dirty.trans h.dirty
  inflight := k.inflight.trans h.inflight
  irqs := k.irqs.trans h.irqs
  agenda := k.agenda.trans h.agenda
  iq := k.iq.trans h.iq
  out := k.out.trans h.out
  posted := h.posted.trans k.posted
  inv := fun e => k.inv (h.inv e)

theorem SameButFaultLog.noFaultCached {s t : State} (h : SameButFaultLog s t) (k : s.NoFaultCached) : t.NoFaultCached where
  ctx := by rw [h.cache, h.cfg]; exact k.ctx
  iotlb := by rw [h.cache, h.cfg]; exact k.iotlb
  pde := by rw [h.cache, h.cfg]; exact k.pde
  iec := by rw [h.cache, h.cfg]; exact k.iec

/-! ## What processors see of a coherent write -/

/-- What processors see, as one list of writes over memory. -/
theorem cpuView_eq (s : State) : s.cpuView = s.mem.writeCells (s.wbuf.flatten ++ s.dirty.map DirtyByte.cell) := by
  unfold State.cpuView; rw [Memory.performStores_eq, Memory.writeCells_append]

/-- The cells for one address that `untouched` leaves. -/
theorem filter_untouched (cells old : List Host.Cell) (a : Nat) :
    (untouched cells old).filter (fun c => c.1 == a) = if touches cells a then [] else old.filter (fun c => c.1 == a) := by
  unfold untouched
  rw [List.filter_filter]
  split
  · next h => apply List.filter_eq_nil_iff.2; intro c _ hc; simp at hc; rw [hc.1, h] at hc; simp at hc
  · next h => apply List.filter_congr; intro c _; by_cases hc : c.1 = a
              · simp [hc, h]
              · simp [hc]

/-- Processors see a coherent write at once, and everything else as before (log 15). -/
theorem writeCoherent_cpuView_read (s : State) (hw : s.mem.wf = true) (cells : List Host.Cell) (a : Nat) :
    (s.writeCoherent cells).cpuView.read a =
      if touches cells a then (s.mem.writeCells cells).read a else s.cpuView.read a := by
  have hf : ((s.wbuf.map (untouched cells)).flatten ++ (undirtied cells s.dirty).map DirtyByte.cell).filter (fun c => c.1 == a) =
      if touches cells a then [] else (s.wbuf.flatten ++ s.dirty.map DirtyByte.cell).filter (fun c => c.1 == a) := by
    have h1 : (s.wbuf.map (untouched cells)).flatten = untouched cells s.wbuf.flatten := by
      unfold untouched; rw [List.filter_flatten]
    have h2 : (undirtied cells s.dirty).map DirtyByte.cell = untouched cells (s.dirty.map DirtyByte.cell) := by
      unfold undirtied untouched; rw [List.filter_map]; rfl
    have h3 : untouched cells (s.wbuf.flatten ++ s.dirty.map DirtyByte.cell) =
        untouched cells s.wbuf.flatten ++ untouched cells (s.dirty.map DirtyByte.cell) := by unfold untouched; rw [List.filter_append]
    rw [h1, h2, ← h3, filter_untouched]
  rw [cpuView_eq, cpuView_eq]
  show ((s.mem.writeCells cells).writeCells
    ((s.wbuf.map (untouched cells)).flatten ++ (undirtied cells s.dirty).map DirtyByte.cell)).read a = _
  split at hf
  · next h =>
    rw [if_pos h, Memory.read_writeCells_congr (Memory.wf_writeCells hw _) (Memory.wf_writeCells hw _) rfl (ds := []) hf]; rfl
  · next h =>
    rw [if_neg h]
    refine Memory.read_writeCells_congr (Memory.wf_writeCells hw _) hw ?_ hf
    apply Memory.read_writeCells_of_not_mem hw
    intro c hc he
    exact h (by unfold touches; rw [List.any_eq_true]; exact ⟨c, hc, by simp [he]⟩)

/-- The addresses of `cellsAt`. -/
theorem touches_cellsAt (a : Nat) (bs : List Byte) (x : Nat) :
    touches (cellsAt a bs) x = decide (a ≤ x ∧ x < a + bs.length) := by
  induction bs generalizing a with
  | nil => simp [touches, cellsAt]
  | cons b bs ih =>
    have h : touches (cellsAt a (b :: bs)) x = (a == x || touches (cellsAt (a + 1) bs) x) := rfl
    rw [h, ih, List.length_cons]
    by_cases hx : a = x
    · subst hx; simp
    · have : (a == x) = false := by simp [hx]
      rw [this, Bool.false_or]
      exact decide_eq_decide.2 (by omega)

/-- A coherent write of the bytes `bs` stores them, and nothing else. -/
theorem stored_writeCoherent (s : State) (hw : s.mem.wf = true) (a : Nat) (bs : List Byte) :
    Stored s (s.writeCoherent (cellsAt a bs)) a bs := by
  have hm : ∀ x, (s.writeCoherent (cellsAt a bs)).mem.read x =
      if a ≤ x ∧ x < a + bs.length then bs.getD (x - a) 0 else s.mem.read x := Memory.read_writeBytes hw a bs
  have hv : ∀ x, (s.writeCoherent (cellsAt a bs)).cpuView.read x =
      if a ≤ x ∧ x < a + bs.length then (s.writeCoherent (cellsAt a bs)).mem.read x else s.cpuView.read x := by
    intro x
    rw [writeCoherent_cpuView_read s hw, touches_cellsAt]
    simp only [decide_eq_true_eq]; rfl
  have hin : ∀ i b, bs[i]? = some b → (a ≤ a + i ∧ a + i < a + bs.length) ∧ bs.getD (a + i - a) 0 = b := by
    intro i b h
    obtain ⟨hl, _⟩ := List.getElem?_eq_some_iff.1 h
    refine ⟨⟨by omega, by omega⟩, ?_⟩
    rw [Nat.add_sub_cancel_left, List.getD_eq_getElem?_getD, h]; rfl
  refine ⟨?_, ?_, ?_, ?_, rfl⟩
  · intro i b h; rw [hm, if_pos (hin i b h).1, (hin i b h).2]
  · intro i b h; rw [hv, if_pos (hin i b h).1, hm, if_pos (hin i b h).1, (hin i b h).2]
  · intro x h; rw [hm, if_neg (by omega)]
  · intro x h; rw [hv, if_neg (by omega)]

/-! ## What processors see of their own moves -/

theorem touches_of_mem {cells : List Host.Cell} {c : Host.Cell} (h : c ∈ cells) : touches cells c.1 = true :=
  List.any_eq_true.2 ⟨c, h, beq_self_eq_true _⟩

theorem filter_of_not_touches {cells : List Host.Cell} {x : Nat} (h : touches cells x = false) :
    cells.filter (fun c => c.1 == x) = [] := by
  rw [List.filter_eq_nil_iff]
  intro c hc he
  rw [← beq_iff_eq.1 he, touches_of_mem hc] at h
  cases h

/-- Stores that leave a processor are seen by processors at once, where no unwritten-back byte covers them. -/
theorem storeToMemory_cpuView_read (s : State) (hm : s.mem.wf = true) (hw : s.cfg.rwbf = false → s.wbuf = [])
    (cells : List Host.Cell) (hd : ∀ c ∈ cells, ∀ d ∈ s.dirty, d.cell.1 ≠ c.1) (x : Nat) :
    (s.storeToMemory cells).cpuView.read x = if touches cells x then (s.mem.writeCells cells).read x else s.cpuView.read x := by
  have hv : (s.storeToMemory cells).cpuView = s.mem.writeCells (s.wbuf.flatten ++ (cells ++ s.dirty.map DirtyByte.cell)) := by
    unfold State.storeToMemory
    split
    · rw [cpuView_eq]; simp
    · next h =>
      rw [cpuView_eq]
      simp only [hw (by simpa using h), List.flatten_nil, List.nil_append, Memory.writeCells_append]
  rw [hv, cpuView_eq]
  split
  · next h =>
    obtain ⟨c, hc, he⟩ := List.any_eq_true.1 h
    obtain rfl := beq_iff_eq.1 he
    have hds : (s.dirty.map DirtyByte.cell).filter (fun e => e.1 == c.1) = [] := by
      rw [List.filter_eq_nil_iff]
      intro e hm he2
      obtain ⟨d, hdm, rfl⟩ := List.mem_map.1 hm
      exact hd c hc d hdm (beq_iff_eq.1 he2)
    rw [Memory.writeCells_append, Memory.read_writeCells_congr (ds := cells) (Memory.wf_writeCells hm _)
      (Memory.wf_writeCells hm s.wbuf.flatten) rfl (by rw [List.filter_append, hds, List.append_nil])]
    exact Memory.read_writeCells_of_named (Memory.wf_writeCells hm _) hm hc
  · next h =>
    refine Memory.read_writeCells_congr hm hm rfl ?_
    simp only [List.filter_append, filter_of_not_touches (by simpa using h), List.nil_append]

/-- Processors see a processor's store at once, and everything else as before (20_memory.md R152, R155). -/
theorem processorStore_cpuView_read (s : State) (k : s.Inv) (cpu a : Nat) (data : List Byte) (x : Nat) :
    (s.processorStore cpu a data).cpuView.read x =
      if a ≤ x ∧ x < a + data.length then data.getD (x - a) 0 else s.cpuView.read x := by
  unfold State.processorStore
  split
  · next h =>
    rw [storeToMemory_cpuView_read s k.mem k.wbuf _ (by simp [k.dirty h]), touches_cellsAt]
    simp only [decide_eq_true_eq]
    split
    · next hx => exact (Memory.read_writeBytes k.mem a data x).trans (if_pos hx)
    · rfl
  · rw [cpuView_eq, cpuView_eq]
    have hc : ((cellsAt a data).map (DirtyByte.mk cpu) ++ undirtied (cellsAt a data) s.dirty).map DirtyByte.cell =
        cellsAt a data ++ untouched (cellsAt a data) (s.dirty.map DirtyByte.cell) := by
      rw [List.map_append, List.map_map]
      unfold undirtied untouched
      rw [List.filter_map]
      exact congrArg (· ++ _) (List.map_id _)
    simp only [hc]
    by_cases hx : a ≤ x ∧ x < a + data.length
    · have ht : touches (cellsAt a data) x = true := by rw [touches_cellsAt]; simpa using hx
      have hw := Memory.wf_writeCells k.mem s.wbuf.flatten
      rw [if_pos hx, Memory.writeCells_append, Memory.read_writeCells_congr (ds := cellsAt a data) hw hw rfl
        (by rw [List.filter_append, filter_untouched, if_pos ht, List.append_nil])]
      exact (Memory.read_writeBytes hw a data x).trans (if_pos hx)
    · have ht : touches (cellsAt a data) x = false := by rw [touches_cellsAt]; simpa using hx
      rw [if_neg hx]
      refine Memory.read_writeCells_congr k.mem k.mem rfl ?_
      simp only [List.filter_append, filter_untouched, ht, filter_of_not_touches ht, List.nil_append]
      rfl

/-- A write-back changes nothing that processors see (20_memory.md R152, R155). -/
theorem writeback_cpuView_read (s : State) (k : s.Inv) (cpu a x : Nat) :
    (s.writeback cpu a).cpuView.read x = s.cpuView.read x := by
  unfold State.writeback
  have hn : (s.dirty.map DirtyByte.cell).map (fun c => c.1) = s.dirty.map (fun d => d.cell.1) := List.map_map
  have apart : ∀ d ∈ s.dirty, ∀ e ∈ s.dirty, d.cell.1 = e.cell.1 → d = e := fun d hd e he h =>
    List.inj_on_of_nodup_map k.dirtyOnce hd he h
  rw [storeToMemory_cpuView_read { s with dirty := s.dirty.filter (fun d => !d.coveredBy cpu a) } k.mem k.wbuf]
  · split
    · next h =>
      obtain ⟨c, hc, he⟩ := List.any_eq_true.1 h
      obtain rfl := beq_iff_eq.1 he
      obtain ⟨d, hd, rfl⟩ := List.mem_map.1 hc
      have hs : ((s.dirty.filter (DirtyByte.coveredBy cpu a)).map DirtyByte.cell).map (fun c => c.1) =
          (s.dirty.filter (DirtyByte.coveredBy cpu a)).map (fun d => d.cell.1) := List.map_map
      rw [Memory.read_writeCells_of_mem k.mem (hs ▸ nodup_filter_dirty k.dirtyOnce _) hc]
      unfold State.cpuView
      exact (Memory.read_writeCells_of_mem (Memory.wf_performStores k.mem _) (hn ▸ k.dirtyOnce)
        (List.mem_map_of_mem (List.mem_of_mem_filter hd))).symm
    · next h =>
      rw [cpuView_eq, cpuView_eq]
      refine Memory.read_writeCells_congr k.mem k.mem rfl ?_
      rw [List.filter_append, List.filter_append, List.filter_map, List.filter_map, List.filter_filter]
      congr 2
      refine List.filter_congr (fun d hd => ?_)
      by_cases hx : d.cell.1 = x
      · have : d.coveredBy cpu a = false := by
          by_contra hcon
          refine h (hx ▸ touches_of_mem (List.mem_map_of_mem (List.mem_filter.2 ⟨hd, by simpa using hcon⟩)))
        simp [Function.comp, hx, this]
      · simp [Function.comp, hx]
  · intro c hc d hd e
    obtain ⟨b, hb, rfl⟩ := List.mem_map.1 hc
    obtain ⟨h1, h2⟩ := List.mem_filter.1 hb
    obtain ⟨h3, h4⟩ := List.mem_filter.1 hd
    rw [apart d h3 b h1 e, h2] at h4
    cases h4

/-- The drain of a buffered store changes nothing that processors see. -/
theorem drainStore_cpuView (s : State) : s.drainStore.cpuView = s.cpuView := by
  unfold State.drainStore
  split
  · rfl
  · next h => unfold State.cpuView; rw [h]; rfl

/-! ## Posted items that an event message pushes -/

/-- A status write moves memory and the older copies of its bytes alone. -/
theorem perform_status (s : State) {q : Posted} (h : q.isStatus = true) :
    s.perform q = { s with mem := (s.perform q).mem, wbuf := (s.perform q).wbuf, dirty := (s.perform q).dirty } := by
  cases q with
  | statusWrite a d => rfl
  | logWrite a d => cases h
  | message src a d => cases h

/-- A list of status writes moves memory and the older copies of its bytes alone. -/
theorem foldl_perform_status (qs : List Posted) (h : ∀ q ∈ qs, q.isStatus = true) (s : State) :
    qs.foldl State.perform s = { s with mem := (qs.foldl State.perform s).mem, wbuf := (qs.foldl State.perform s).wbuf,
                                        dirty := (qs.foldl State.perform s).dirty } := by
  induction qs generalizing s with
  | nil => rfl
  | cons q qs ih =>
      rw [List.foldl_cons, ih (fun p hp => h p (List.mem_cons_of_mem _ hp)), perform_status s (h q (List.mem_cons_self ..))]

/-- A byte that no status write of the list covers is as before, in memory and as processors see it. -/
theorem foldl_perform_status_read (qs : List Posted) (h : ∀ q ∈ qs, q.isStatus = true) (s : State) (hw : s.mem.wf = true) (x : Nat)
    (hx : ∀ b w, Posted.statusWrite b w ∈ qs → x < b ∨ b + 4 ≤ x) :
    (qs.foldl State.perform s).mem.read x = s.mem.read x ∧ (qs.foldl State.perform s).cpuView.read x = s.cpuView.read x := by
  induction qs generalizing s with
  | nil => exact ⟨rfl, rfl⟩
  | cons q qs ih =>
      have hr := ih (fun p hp => h p (List.mem_cons_of_mem _ hp)) (s.perform q) ((sameUnit_perform s q).wf hw)
        (fun b w hb => hx b w (List.mem_cons_of_mem _ hb))
      rw [List.foldl_cons]
      cases q with
      | statusWrite b w =>
          have st := stored_writeCoherent s hw b (bytesOfNat 4 w.toNat)
          have ho : x < b ∨ b + (bytesOfNat 4 w.toNat).length ≤ x := by
            rw [bytesOfNat_length]; exact hx b w (List.mem_cons_self ..)
          exact ⟨hr.1.trans (st.memElse x ho), hr.2.trans (st.viewElse x ho)⟩
      | logWrite b w => exact absurd (h _ (List.mem_cons_self ..)) (by simp [Posted.isStatus])
      | message src a d => exact absurd (h _ (List.mem_cons_self ..)) (by simp [Posted.isStatus])

/-- A byte of a status write of the list that no later one covers is the status data's, in memory and as processors see it. -/
theorem foldl_perform_status_byte (before later : List Posted) (b : Nat) (w : BitVec 32)
    (h : ∀ q ∈ before ++ Posted.statusWrite b w :: later, q.isStatus = true) (s : State) (hw : s.mem.wf = true) {i : Nat} {v : Byte}
    (hi : (bytesOfNat 4 w.toNat)[i]? = some v) (hx : ∀ b' w', Posted.statusWrite b' w' ∈ later → b + i < b' ∨ b' + 4 ≤ b + i) :
    ((before ++ Posted.statusWrite b w :: later).foldl State.perform s).mem.read (b + i) = v ∧
      ((before ++ Posted.statusWrite b w :: later).foldl State.perform s).cpuView.read (b + i) = v := by
  have hu := (SameUnit.foldl sameUnit_perform before s).wf hw
  have st := stored_writeCoherent _ hu b (bytesOfNat 4 w.toNat)
  have hr := foldl_perform_status_read later (fun q hq => h q (by simp [hq])) ((before.foldl State.perform s).perform (.statusWrite b w))
    ((sameUnit_perform _ _).wf hu) (b + i) hx
  rw [List.foldl_append, List.foldl_cons]
  exact ⟨hr.1.trans (st.mem i v hi), hr.2.trans (st.view i v hi)⟩

/-! ## Descriptors read ahead -/

/-- The slots between head and tail, which may wrap; none where the tail is invalid. -/
theorem slotQueued_iff (s : State) (slot : Nat) : s.slotQueued slot = true ↔ slot < s.queueSlots ∧ s.qt < s.queueSlots ∧
    if s.qh ≤ s.qt then s.qh ≤ slot ∧ slot < s.qt else s.qh ≤ slot ∨ slot < s.qt := by
  unfold State.slotQueued
  split <;> simp [and_assoc]

theorem dropUnqueued_spec (s : State) :
    s.dropUnqueued = { s with iq := { s.iq with ahead := s.iq.ahead.filter (fun c => s.slotQueued c.slot) } } := rfl

theorem mem_dropUnqueued (s : State) (c : Ahead) :
    c ∈ s.dropUnqueued.iq.ahead ↔ c ∈ s.iq.ahead ∧ s.slotQueued c.slot = true := List.mem_filter

end Sys2Proof.Machine
end

