-- ==== Sys2Proof/Laws/Faults.lean ====
section
/-! SUPPORT. Events, fault logging and queue errors: what each operation leaves alone, and that it keeps the invariant. -/

namespace Sys2Proof.Machine

/-- `t` differs from `s` in its registers at most, and these keep the register part of the invariant. -/
theorem inv_of_reg {s : State} (k : s.Inv) (r : Regs) (hf : r.frcd.length = s.reg.frcd.length)
    (hg : r.gsts &&& 0x007FFFFF = 0) (hs : r.fsts.getLsbD 1 = false) : ({ s with reg := r } : State).Inv where
  mem := k.mem
  frcd := hf.trans k.frcd
  itags := k.itags
  gsts := hg
  fsts := hs
  pfIndex := k.pfIndex
  afIndex := k.afIndex
  wbuf := k.wbuf
  dirty := k.dirty
  dirtyOnce := k.dirtyOnce

/-- A status bit other than PPF. -/
theorem inv_setFsts {s : State} (k : s.Inv) (b : Nat) (hb : b ≠ 1) : (s.setFsts b).Inv :=
  inv_of_reg k _ rfl k.gsts (by simpa using (getLsbD_setBit_of_ne s.reg.fsts true (Ne.symm hb)).trans k.fsts)

theorem inv_setFri {s : State} (k : s.Inv) (i : Nat) : (s.setFri i).Inv :=
  inv_of_reg k _ rfl k.gsts (by
    show (setField s.reg.fsts 8 (BitVec.ofNat 8 i)).getLsbD 1 = false
    rw [getLsbD_setField _ _ _ _ (by omega)]
    simpa using k.fsts)

theorem inv_setFePending {s : State} (k : s.Inv) (v : Bool) : (s.setFePending v).Inv := inv_of_reg k _ rfl k.gsts k.fsts
theorem inv_setIePending {s : State} (k : s.Inv) (v : Bool) : (s.setIePending v).Inv := inv_of_reg k _ rfl k.gsts k.fsts
theorem inv_setIwc {s : State} (k : s.Inv) : s.setIwc.Inv := inv_of_reg k _ rfl k.gsts k.fsts
theorem inv_setPrs {s : State} (k : s.Inv) (v : Bool) : (s.setPrs v).Inv := inv_of_reg k _ rfl k.gsts k.fsts

/-- A bit of GSTS_REG above 22. -/
theorem inv_setGsts {s : State} (k : s.Inv) (b : Nat) (v : Bool) (hb : 23 ≤ b) : (s.setGsts b v).Inv :=
  inv_of_reg k _ rfl (by
    apply BitVec.eq_of_getLsbD_eq
    intro i hi
    have h0 := congrArg (fun x => x.getLsbD i) k.gsts
    simp only [BitVec.getLsbD_and] at h0 ⊢
    by_cases h : i = b
    · have h2 : (0x007FFFFF : BitVec 32).getLsbD i = false := by
        have : i = 23 ∨ i = 24 ∨ i = 25 ∨ i = 26 ∨ i = 27 ∨ i = 28 ∨ i = 29 ∨ i = 30 ∨ i = 31 := by omega
        rcases this with rfl | rfl | rfl | rfl | rfl | rfl | rfl | rfl | rfl <;> decide
      rw [h2, Bool.and_false]; simp
    · rw [getLsbD_setBit_of_ne _ _ h, h0]) k.fsts

/-! ## Operations on events -/

/-- `t` differs from `s` only in the event registers FSTS, FECTL, ICS and IECTL and in posted messages. -/
structure SameButEvents (s t : State) : Prop where
  cfg : t.cfg = s.cfg
  gsts : t.reg.gsts = s.reg.gsts
  frcd : t.reg.frcd = s.reg.frcd
  latch : t.latch = s.latch
  cache : t.cache = s.cache
  log : t.log = s.log
  cmd : t.cmd = s.cmd
  iq : t.iq = s.iq
  itags : t.itags = s.itags
  inflight : t.inflight = s.inflight
  irqs : t.irqs = s.irqs
  wbuf : t.wbuf = s.wbuf
  dirty : t.dirty = s.dirty
  mem : t.mem = s.mem
  agenda : t.agenda = s.agenda
  out : t.out = s.out
  draws : t.draws = s.draws
  posted : s.posted <+: t.posted
  inv : s.Inv → t.Inv

theorem SameButEvents.refl (s : State) : SameButEvents s s :=
  ⟨rfl, rfl, rfl, rfl, rfl, rfl, rfl, rfl, rfl, rfl, rfl, rfl, rfl, rfl, rfl, rfl, rfl, List.prefix_rfl, id⟩

theorem SameButEvents.trans {s t u : State} (h : SameButEvents s t) (k : SameButEvents t u) : SameButEvents s u where
  cfg := k.cfg.trans h.cfg
  gsts := k.gsts.trans h.gsts
  frcd := k.frcd.trans h.frcd
  latch := k.latch.trans h.latch
  cache := k.cache.trans h.cache
  log := k.log.trans h.log
  cmd := k.cmd.trans h.cmd
  iq := k.iq.trans h.iq
  itags := k.itags.trans h.itags
  inflight := k.inflight.trans h.inflight
  irqs := k.irqs.trans h.irqs
  wbuf := k.wbuf.trans h.wbuf
  dirty := k.dirty.trans h.dirty
  mem := k.mem.trans h.mem
  agenda := k.agenda.trans h.agenda
  out := k.out.trans h.out
  draws := k.draws.trans h.draws
  posted := h.posted.trans k.posted
  inv := fun e => k.inv (h.inv e)

theorem SameButEvents.noFaultCached {s t : State} (h : SameButEvents s t) (k : s.NoFaultCached) : t.NoFaultCached where
  ctx := by rw [h.cache, h.cfg]; exact k.ctx
  iotlb := by rw [h.cache, h.cfg]; exact k.iotlb
  pde := by rw [h.cache, h.cfg]; exact k.pde
  iec := by rw [h.cache, h.cfg]; exact k.iec

theorem events_setFsts (s : State) (b : Nat) (hb : b ≠ 1) : SameButEvents s (s.setFsts b) :=
  ⟨rfl, rfl, rfl, rfl, rfl, rfl, rfl, rfl, rfl, rfl, rfl, rfl, rfl, rfl, rfl, rfl, rfl, List.prefix_rfl, fun k => inv_setFsts k b hb⟩
theorem events_setFri (s : State) (i : Nat) : SameButEvents s (s.setFri i) :=
  ⟨rfl, rfl, rfl, rfl, rfl, rfl, rfl, rfl, rfl, rfl, rfl, rfl, rfl, rfl, rfl, rfl, rfl, List.prefix_rfl, fun k => inv_setFri k i⟩
theorem events_setFePending (s : State) (v : Bool) : SameButEvents s (s.setFePending v) :=
  ⟨rfl, rfl, rfl, rfl, rfl, rfl, rfl, rfl, rfl, rfl, rfl, rfl, rfl, rfl, rfl, rfl, rfl, List.prefix_rfl, fun k => inv_setFePending k v⟩
theorem events_setIePending (s : State) (v : Bool) : SameButEvents s (s.setIePending v) :=
  ⟨rfl, rfl, rfl, rfl, rfl, rfl, rfl, rfl, rfl, rfl, rfl, rfl, rfl, rfl, rfl, rfl, rfl, List.prefix_rfl, fun k => inv_setIePending k v⟩
theorem events_setIwc (s : State) : SameButEvents s s.setIwc :=
  ⟨rfl, rfl, rfl, rfl, rfl, rfl, rfl, rfl, rfl, rfl, rfl, rfl, rfl, rfl, rfl, rfl, rfl, List.prefix_rfl, inv_setIwc⟩

/-- Posting messages or writes lengthens the posted list and changes nothing else. -/
theorem events_posted (s : State) (ps : List Posted) : SameButEvents s { s with posted := s.posted ++ ps } :=
  ⟨rfl, rfl, rfl, rfl, rfl, rfl, rfl, rfl, rfl, rfl, rfl, rfl, rfl, rfl, rfl, rfl, rfl, List.prefix_append _ _, fun k =>
    ⟨k.mem, k.frcd, k.itags, k.gsts, k.fsts, k.pfIndex, k.afIndex, k.wbuf, k.dirty, k.dirtyOnce⟩⟩

theorem events_releaseFaultEvent (s : State) : SameButEvents s s.releaseFaultEvent := by
  unfold State.releaseFaultEvent
  split
  · exact (events_posted s _).trans (events_setFePending _ _)
  · exact SameButEvents.refl s

theorem events_faultEventCondition (s : State) : SameButEvents s s.faultEventCondition :=
  (events_setFePending s true).trans (events_releaseFaultEvent _)

theorem events_serviceFaultEvent (s : State) : SameButEvents s s.serviceFaultEvent := by
  unfold State.serviceFaultEvent
  split
  · exact SameButEvents.refl s
  · exact events_setFePending s _

theorem events_raiseStatus (s : State) (b : Nat) (hb : b ≠ 1) : SameButEvents s (s.raiseStatus b) := by
  unfold State.raiseStatus
  split
  · exact events_setFsts s b hb
  · exact (events_setFsts s b hb).trans (events_faultEventCondition _)

theorem events_raiseIte (s : State) : SameButEvents s s.raiseIte := by
  unfold State.raiseIte
  split
  · exact events_raiseStatus s 6 (by decide)
  · exact SameButEvents.refl s

theorem events_releaseInvEvent (s : State) : SameButEvents s s.releaseInvEvent := by
  unfold State.releaseInvEvent
  split
  · exact (events_posted s _).trans (events_setIePending _ _)
  · exact SameButEvents.refl s

theorem events_serviceInvEvent (s : State) : SameButEvents s s.serviceInvEvent := by
  unfold State.serviceInvEvent
  split
  · exact SameButEvents.refl s
  · exact events_setIePending s _

theorem events_completeWithInterrupt (s : State) : SameButEvents s s.completeWithInterrupt := by
  unfold State.completeWithInterrupt
  split
  · exact SameButEvents.refl s
  · exact ((events_setIwc s).trans (events_setIePending _ _)).trans (events_releaseInvEvent _)

theorem releaseFaultEvent_spec (s : State) (h : s.feHold = false) :
    s.releaseFaultEvent.fePending = (s.fePending && s.feMask) ∧
    s.releaseFaultEvent.posted = s.posted ++ (if s.fePending && !s.feMask then
      [.message .fault (messageAddress s.reg.feuaddr s.reg.feaddr) s.reg.fedata] else []) ∧
    s.releaseFaultEvent = { s with reg := { s.reg with fectl := s.releaseFaultEvent.reg.fectl },
                                   posted := s.releaseFaultEvent.posted } := by
  unfold State.releaseFaultEvent
  have hs : ∀ u : State, (u.setFePending false).fePending = false := by simp [State.fePending, State.setFePending]
  cases hp : s.fePending
  · exact ⟨by simp [hp], by simp, rfl⟩
  · cases hm : s.feMask
    · rw [if_pos (by simp [h])]
      exact ⟨hs _, rfl, rfl⟩
    · exact ⟨by simp [hp], by simp, rfl⟩

theorem releaseInvEvent_spec (s : State) (h : s.ieHold = false) :
    s.releaseInvEvent.iePending = (s.iePending && s.ieMask) ∧
    s.releaseInvEvent.posted = s.posted ++ (if s.iePending && !s.ieMask then
      [.message .invalidation (messageAddress s.reg.ieuaddr s.reg.ieaddr) s.reg.iedata] else []) ∧
    s.releaseInvEvent = { s with reg := { s.reg with iectl := s.releaseInvEvent.reg.iectl },
                                 posted := s.releaseInvEvent.posted } := by
  unfold State.releaseInvEvent
  have hs : ∀ u : State, (u.setIePending false).iePending = false := by simp [State.iePending, State.setIePending]
  cases hp : s.iePending
  · exact ⟨by simp [hp], by simp, rfl⟩
  · cases hm : s.ieMask
    · rw [if_pos (by simp [h])]
      exact ⟨hs _, rfl, rfl⟩
    · exact ⟨by simp [hp], by simp, rfl⟩

/-- When no transient condition holds the event messages any more, every pending and unmasked one is posted, the fault event
first. -/
theorem setHolds_ended (s : State) :
    (s.setHolds false false).fePending = (s.fePending && s.feMask) ∧
    (s.setHolds false false).iePending = (s.iePending && s.ieMask) ∧
    (s.setHolds false false).posted = s.posted ++ (if s.fePending && !s.feMask then
        [.message .fault (messageAddress s.reg.feuaddr s.reg.feaddr) s.reg.fedata] else [])
      ++ (if s.iePending && !s.ieMask then
        [.message .invalidation (messageAddress s.reg.ieuaddr s.reg.ieaddr) s.reg.iedata] else []) := by
  obtain ⟨h1, h2, h3⟩ := releaseFaultEvent_spec { s with feHold := false, ieHold := false } rfl
  have hi : ({ s with feHold := false, ieHold := false } : State).releaseFaultEvent.ieHold = false := by rw [h3]
  obtain ⟨k1, k2, k3⟩ := releaseInvEvent_spec _ hi
  unfold State.setHolds
  refine ⟨?_, ?_, ?_⟩
  · rw [k3]; exact h1
  · rw [k1, h3]; rfl
  · rw [k2, h2, h3]; rfl

/-- What an event operation of the fault event does, case by case (60_exceptions.md R501): IP is Set, or the message is
posted and IP is Clear. -/
theorem faultEventCondition_cases (s : State) :
    (s.feMask = false ∧ s.feHold = false ∧
      s.faultEventCondition = ((s.setFePending true).sendFaultEvent).setFePending false) ∨
    ((s.feMask = true ∨ s.feHold = true) ∧ s.faultEventCondition = s.setFePending true) := by
  have hp : (s.setFePending true).fePending = true := by
    show (setBit s.reg.fectl 30 true).getLsbD 30 = true
    rw [getLsbD_setBit_self _ _ _ (by decide)]
  have hm : (s.setFePending true).feMask = s.feMask := getLsbD_setBit_of_ne s.reg.fectl true (by decide)
  have hh : (s.setFePending true).feHold = s.feHold := rfl
  unfold State.faultEventCondition State.releaseFaultEvent
  rw [hp, hm, hh]
  cases h1 : s.feMask <;> cases h2 : s.feHold <;> simp

/-! ## Logging a fault -/

theorem SameButEvents.toFaultLog {s t : State} (h : SameButEvents s t) : SameButFaultLog s t :=
  ⟨h.cfg, h.gsts, h.latch, h.cache, h.cmd, h.itags, h.mem, h.wbuf, h.dirty, h.inflight, h.irqs, h.agenda, h.iq, h.out, h.posted, h.inv⟩

theorem faultLog_writeFaultReg (s : State) (rec : BitVec 128) : SameButFaultLog s (s.writeFaultReg rec) :=
  ⟨rfl, rfl, rfl, rfl, rfl, rfl, rfl, rfl, rfl, rfl, rfl, rfl, rfl, rfl, List.prefix_rfl, fun k =>
    inv_of_reg k _ (by simp) k.gsts k.fsts⟩

theorem faultRegs_pos (c : Config) : 0 < c.faultRegs := Nat.succ_pos _

theorem faultLog_advancePfIndex (s : State) : SameButFaultLog s s.advancePfIndex :=
  ⟨rfl, rfl, rfl, rfl, rfl, rfl, rfl, rfl, rfl, rfl, rfl, rfl, rfl, rfl, List.prefix_rfl, fun k =>
    ⟨k.mem, k.frcd, k.itags, k.gsts, k.fsts, by
      show (if s.tes || s.ires then (s.log.pfIndex + 1) % s.cfg.faultRegs else 0) < s.cfg.faultRegs
      split
      · exact Nat.mod_lt _ (faultRegs_pos _)
      · exact faultRegs_pos _, k.afIndex, k.wbuf, k.dirty, k.dirtyOnce⟩⟩

theorem faultLog_logPrimary (s : State) (rec : BitVec 128) : SameButFaultLog s (s.logPrimary rec) := by
  unfold State.logPrimary
  split
  · exact SameButFaultLog.refl s
  split
  · exact SameButFaultLog.refl s
  split
  · exact (events_setFsts s 0 (by decide)).toFaultLog
  split
  · exact (faultLog_writeFaultReg s rec).trans (faultLog_advancePfIndex _)
  split
  · exact ((faultLog_writeFaultReg s rec).trans (events_setFri _ _).toFaultLog).trans (faultLog_advancePfIndex _)
  · exact (((faultLog_writeFaultReg s rec).trans (events_setFri _ _).toFaultLog).trans
      (events_faultEventCondition _).toFaultLog).trans (faultLog_advancePfIndex _)

theorem events_overflowAdvanced (s : State) : SameButEvents s s.overflowAdvanced := by
  unfold State.overflowAdvanced
  split
  · exact (events_setFsts s 2 (by decide)).trans (events_faultEventCondition _)
  · exact events_setFsts s 2 (by decide)

theorem events_reportAdvanced (s : State) : SameButEvents s s.reportAdvanced := by
  unfold State.reportAdvanced
  split
  · exact SameButEvents.refl s
  split
  · exact events_setFsts s 3 (by decide)
  · exact (events_setFsts s 3 (by decide)).trans (events_faultEventCondition _)

/-- af_index stays inside the latched log. -/
theorem faultLog_advanceAfIndex (s : State) (p : FaultLogPointer) (sid : SourceId) (hp : s.latch.flp = some p) :
    SameButFaultLog s (s.advanceAfIndex p.size sid) := by
  unfold State.advanceAfIndex
  split
  · refine ⟨rfl, rfl, rfl, rfl, rfl, rfl, rfl, rfl, rfl, rfl, rfl, rfl, rfl, rfl, List.prefix_rfl, fun k =>
      ⟨k.mem, k.frcd, k.itags, k.gsts, k.fsts, k.pfIndex, fun q hq => ?_, k.wbuf, k.dirty, k.dirtyOnce⟩⟩
    exact Nat.pos_of_ne_zero (by positivity)
  · next hne =>
    refine ⟨rfl, rfl, rfl, rfl, rfl, rfl, rfl, rfl, rfl, rfl, rfl, rfl, rfl, rfl, List.prefix_rfl, fun k =>
      ⟨k.mem, k.frcd, k.itags, k.gsts, k.fsts, k.pfIndex, fun q hq => ?_, k.wbuf, k.dirty, k.dirtyOnce⟩⟩
    have hq' : s.latch.flp = some q := hq
    have e : p = q := Option.some.inj (hp.symm.trans hq')
    subst e
    have := k.afIndex p hp
    show s.log.afIndex + 1 < _
    omega

/-- Where advanced logging goes on, only the fault log differs. -/
theorem faultLog_logAdvanced (s t : State) (rec : BitVec 128) (h : s.logAdvanced rec = .next t) : SameButFaultLog s t := by
  unfold State.logAdvanced at h
  split at h
  · cases h
  · next p hp =>
    split at h
    · cases h; exact SameButFaultLog.refl s
    split at h
    · cases h; exact SameButFaultLog.refl s
    split at h
    · cases h; exact (events_overflowAdvanced s).toFaultLog
    split at h
    · injection h with h
      subst h
      have h1 := (events_posted s _ : SameButEvents s (s.postRecord (p.base.toNat * 4096 + 16 * s.log.afIndex) rec)).toFaultLog
      have h2 := (events_reportAdvanced (s.postRecord (p.base.toNat * 4096 + 16 * s.log.afIndex) rec))
      exact (h1.trans h2.toFaultLog).trans (faultLog_advanceAfIndex _ p _ (by rw [h2.latch]; exact hp))
    · cases h

theorem andThen_next {r : Result} {f : State → Result} {t : State} (h : andThen r f = .next t) :
    ∃ u, r = .next u ∧ f u = .next t := by
  cases r with
  | next u => exact ⟨u, rfl, h⟩
  | fault e => cases h
  | refused e => cases h

theorem faultLog_tick (s : State) : SameButFaultLog s s.tick :=
  ⟨rfl, rfl, rfl, rfl, rfl, rfl, rfl, rfl, rfl, rfl, rfl, rfl, rfl, rfl, List.prefix_rfl, fun k => (sameUnit_tick s).inv k⟩

/-- `log_fault` (60_exceptions.md R490) changes the fault log alone. -/
theorem faultLog_logFault (s t : State) (rec : BitVec 128) (h : s.logFault rec = .next t) : SameButFaultLog s t := by
  unfold State.logFault at h
  obtain ⟨u, hu, h⟩ := andThen_next h
  cases h
  split at hu
  · exact (faultLog_logAdvanced s u rec hu).trans (faultLog_tick u)
  · cases hu; exact (faultLog_logPrimary s rec).trans (faultLog_tick _)

/-- A fault that waits for the logger is outside the invariant. -/
theorem inv_unlogged {s : State} (k : s.Inv) (fs : List (BitVec 128)) : { s with unlogged := fs }.Inv :=
  ⟨k.mem, k.frcd, k.itags, k.gsts, k.fsts, k.pfIndex, k.afIndex, k.wbuf, k.dirty, k.dirtyOnce⟩

/-- The fault logger's step changes the fault log alone. -/
theorem faultLog_logOldestFault {s t : State} (h : s.logOldestFault = .next t) : SameButFaultLog s t := by
  unfold State.logOldestFault at h
  split at h
  · cases h; exact SameButFaultLog.refl s
  · next rec rest _ =>
    refine SameButFaultLog.trans (t := { s with unlogged := rest }) ?_ (faultLog_logFault _ t _ h)
    exact ⟨rfl, rfl, rfl, rfl, rfl, rfl, rfl, rfl, rfl, rfl, rfl, rfl, rfl, rfl, List.prefix_rfl, fun k => inv_unlogged k _⟩

/-- A raised fault waits behind the others, or is suppressed by FPD; nothing else changes (40_dma_remapping.md R235). -/
theorem raiseDmaFault_spec (s : State) (r : FaultReason) (fpd : Bool) (sid : SourceId) (addr : Nat) (t : Bool)
    (a : BitVec 2) : s.raiseDmaFault r fpd sid addr t a = { s with unlogged := s.unlogged ++
      (if r.qualified && fpd then [] else [faultRecord r.code sid (dmaFaultInfo s.cfg addr) t a]) } := by
  unfold State.raiseDmaFault State.raiseFault
  split <;> simp

/-- A raised interrupt fault waits behind the others, or is suppressed by FPD; of its record T and AT are free. -/
theorem raiseInterruptFault_spec (s : State) (r : FaultReason) (fpd : Bool) (sid : SourceId) (i : Option Nat) :
    ∃ n t a, s.raiseInterruptFault r fpd sid i =
      { s with unlogged := s.unlogged ++
                 (if r.qualified && fpd then [] else [faultRecord r.code sid (interruptFaultInfo (i.getD n)) t a])
               draws := if r.qualified && fpd then s.draws else s.draws + 1 } := by
  refine ⟨s.free 10, s.coin 11, BitVec.ofNat 2 (s.free 12), ?_⟩
  unfold State.raiseInterruptFault
  split <;> simp [State.raiseFault, State.tick]

theorem inv_raiseIqe {s : State} (k : s.Inv) : s.raiseIqe.Inv :=
  (events_raiseStatus _ 4 (by decide)).inv
    ⟨k.mem, k.frcd, k.itags, k.gsts, k.fsts, k.pfIndex, k.afIndex, k.wbuf, k.dirty, k.dirtyOnce⟩

theorem inv_resetPfIndex {s : State} (k : s.Inv) : s.resetPfIndex.Inv := by
  unfold State.resetPfIndex
  split
  · exact k
  · exact ⟨k.mem, k.frcd, k.itags, k.gsts, k.fsts, faultRegs_pos _, k.afIndex, k.wbuf, k.dirty, k.dirtyOnce⟩

end Sys2Proof.Machine
end

