-- ==== Sys2Proof/Laws/Translate.lean ====
section
/-! SUPPORT. Translation: what a walk answers, and what the caches may come to hold. -/

namespace Sys2Proof.Machine

/-! ## Operations that keep both invariants -/

/-- `t` has both invariants where `s` has them. -/
structure Keeps (s t : State) : Prop where
  inv : s.Inv → t.Inv
  valid : s.NoFaultCached → t.NoFaultCached

theorem Keeps.refl (s : State) : Keeps s s := ⟨id, id⟩
theorem Keeps.trans {s t u : State} (h : Keeps s t) (k : Keeps t u) : Keeps s u := ⟨k.inv ∘ h.inv, k.valid ∘ h.valid⟩
theorem SameUnit.keeps {s t : State} (h : SameUnit s t) : Keeps s t := ⟨h.inv, h.noFaultCached⟩
theorem SameButEvents.keeps {s t : State} (h : SameButEvents s t) : Keeps s t := ⟨h.inv, h.noFaultCached⟩
theorem SameButFaultLog.keeps {s t : State} (h : SameButFaultLog s t) : Keeps s t := ⟨h.inv, h.noFaultCached⟩

/-- A change of the caches alone that leaves valid lines valid. -/
theorem keeps_cache {s : State} (c : Caches) (h : s.NoFaultCached → ({ s with cache := c } : State).NoFaultCached) :
    Keeps s { s with cache := c } :=
  ⟨fun k => ⟨k.mem, k.frcd, k.itags, k.gsts, k.fsts, k.pfIndex, k.afIndex, k.wbuf, k.dirty, k.dirtyOnce⟩, h⟩

/-- A change of the caches that only removes lines. -/
theorem keeps_cache_subset {s : State} (c : Caches) (h1 : ∀ l ∈ c.ctx, l ∈ s.cache.ctx) (h2 : ∀ l ∈ c.iotlb, l ∈ s.cache.iotlb)
    (h3 : ∀ l ∈ c.pde, l ∈ s.cache.pde) (h4 : ∀ l ∈ c.iec, l ∈ s.cache.iec) : Keeps s { s with cache := c } :=
  keeps_cache c fun k => ⟨fun e l hl => k.ctx e l (h1 l hl), fun e l hl => k.iotlb e l (h2 l hl),
    fun e l hl => k.pde e l (h3 l hl), fun e l hl => k.iec e l (h4 l hl)⟩

/-! ## Entries of a walk -/

/-- A verdict that reaches a leaf: the mapping is that of the entry with the cumulative permissions, the entry is well-formed
and the need is met. -/
theorem entryVerdict_leaf {cfg : Config} {need : Need} {e : BitVec 64} {level : Nat} {r w : Bool} {m : Mapping}
    (h : entryVerdict cfg need e level r w = .leaf m) :
    m = leafMapping cfg e level r w ∧ pteReserved cfg e level = false ∧ isLeaf cfg e level = true ∧
      need.permitted r w = true ∧ (need = .device → (r || w) = true) := by
  unfold entryVerdict at h
  cases need <;> simp only at h <;> repeat' split at h
  all_goals first | (cases h; done) | (injection h with h; subst h; cases r <;> cases w <;> simp_all [Need.permitted])

/-- A verdict that descends: the entry is a well-formed non-leaf with some permission of its own for the need. -/
theorem entryVerdict_descend {cfg : Config} {need : Need} {e : BitVec 64} {level : Nat} {r w : Bool}
    (h : entryVerdict cfg need e level r w = .descend) :
    pteReserved cfg e level = false ∧ isLeaf cfg e level = false ∧ (need = .device ∨ need.permitted r w = true) := by
  unfold entryVerdict at h
  cases need <;> simp only at h <;> repeat' split at h
  all_goals first | (cases h; done) | (cases r <;> cases w <;> simp_all [Need.permitted])

/-- Only a leaf verdict gives a mapping. -/
theorem entryVerdict_stop {cfg : Config} {need : Need} {e : BitVec 64} {level : Nat} {r w : Bool} {a : WalkAnswer}
    (h : entryVerdict cfg need e level r w = .stop a) : ∀ m, a ≠ .mapped m := by
  unfold entryVerdict at h
  cases need <;> simp only at h <;> repeat' split at h
  all_goals first | (cases h; done) | (injection h with h; subst h; intro m hm; cases hm)

/-- What a cacheable leaf is with CAP.CM = 0: a mapping with some permission. -/
theorem cacheableLeaf_valid {cfg : Config} {e : BitVec 64} {level : Nat} {r w : Bool} {c : IotlbContent}
    (hc : cfg.cm = false) (h : cacheableLeaf cfg e level r w = some c) : ∃ m, c = .mapping m ∧ (m.r || m.w) = true := by
  unfold cacheableLeaf at h
  rw [hc] at h
  repeat' split at h
  all_goals first | contradiction | (cases h; exact ⟨_, rfl, by simp_all [leafMapping]⟩)

theorem cacheablePde_valid {cfg : Config} {did : DomainId} {dva : Nat} {e : BitVec 64} {level : Nat} {r w : Bool}
    (hc : cfg.cm = false) {l : PdeLine} (h : l ∈ cacheablePde cfg did dva e level r w) :
    (pteR l.entry || pteW l.entry) = true ∧ pteReserved cfg l.entry l.level = false := by
  unfold cacheablePde at h
  split at h
  · next hl =>
    simp only [List.mem_singleton] at h; subst h
    unfold pdeCacheable at hl
    rw [hc] at hl
    split at hl
    · simp at hl
    · cases hr : pteR e <;> simp_all
  · cases h

/-- What a walk may put into the caches with CAP.CM = 0 is valid. -/
theorem walkTable_valid (s : State) (vs : List Memory) (g : WalkGoal) (hc : s.cfg.cm = false) :
    ∀ (level base : Nat) (r w : Bool),
      (∀ c, (s.walkTable vs g level base r w).leaf = some c → ∃ m, c = .mapping m ∧ (m.r || m.w) = true) ∧
      (∀ l ∈ (s.walkTable vs g level base r w).tables,
        (pteR l.entry || pteW l.entry) = true ∧ pteReserved s.cfg l.entry l.level = false) := by
  intro level
  induction level with
  | zero =>
      intro base r w
      unfold State.walkTable
      split
      · simp
      · exact ⟨fun _ hm => cacheableLeaf_valid hc hm, by simp⟩
  | succ level ih =>
      intro base r w
      unfold State.walkTable
      split
      · simp
      · next e he =>
        split
        · exact ⟨fun _ hm => cacheableLeaf_valid hc hm, fun l hl => cacheablePde_valid hc hl⟩
        · exact ⟨fun _ hm => cacheableLeaf_valid hc hm, by simp⟩
        · refine ⟨(ih _ _ _).1, fun l hl => ?_⟩
          simp only [List.mem_append] at hl
          rcases hl with hl | hl
          · exact (ih _ _ _).2 l hl
          · exact cacheablePde_valid hc hl

theorem walk_valid (s : State) (vs : List Memory) (ce : BitVec 128) (dva : Nat) (need : Need) (hc : s.cfg.cm = false) :
    (∀ c, (s.walk vs ce dva need).leaf = some c → ∃ m, c = .mapping m ∧ (m.r || m.w) = true) ∧
    (∀ l ∈ (s.walk vs ce dva need).tables,
      (pteR l.entry || pteW l.entry) = true ∧ pteReserved s.cfg l.entry l.level = false) := by
  unfold State.walk
  simp only
  split
  · unfold State.walkCached
    split
    · simp
    · simp
    · exact walkTable_valid s vs _ hc _ _ _ _
  · exact walkTable_valid s vs _ hc _ _ _ _

/-- What a translation may put into the caches with CAP.CM = 0 is valid. -/
structure TranslationValid (cfg : Config) (t : Translation) : Prop where
  ctx : ∀ l, t.ctx = some l → ∃ e, contentAnswer cfg l.content = .entry e
  iotlb : ∀ l, t.iotlb = some l → ∃ m, l.content = .mapping m ∧ (m.r || m.w) = true
  pde : ∀ l ∈ t.pde, (pteR l.entry || pteW l.entry) = true ∧ pteReserved cfg l.entry l.level = false

theorem plain_valid {cfg : Config} {a : TransAnswer} {c : Option CtxLine}
    (h : ∀ l, c = some l → ∃ e, contentAnswer cfg l.content = .entry e) : TranslationValid cfg (Translation.plain a c) :=
  ⟨h, by simp [Translation.plain], by simp [Translation.plain]⟩

theorem contextContent_valid (s : State) (vs : List Memory) (rtp : PageNumber) (sid : SourceId) (hc : s.cfg.cm = false) :
    ∀ l, (s.contextContent vs rtp sid).2 = some l → ∃ e, contentAnswer s.cfg l.content = .entry e := by
  intro l hl
  unfold State.contextContent at hl
  split at hl
  · cases hl
  · simp only at hl
    split at hl
    · next h =>
      cases hl
      unfold ctxCacheable at h
      split at h
      · next e he => exact ⟨e, he⟩
      · rw [hc] at h; cases h
    · cases hl

theorem iotlbLineOf_valid {cfg : Config} {did : DomainId} {sid : SourceId} {dva : Nat} {fpd : Bool} {w : WalkResult}
    (hc : cfg.cm = false) (hw : ∀ c, w.leaf = some c → ∃ m, c = .mapping m ∧ (m.r || m.w) = true) :
    ∀ l, iotlbLineOf cfg did sid dva fpd w = some l → ∃ m, l.content = .mapping m ∧ (m.r || m.w) = true := by
  intro l hl
  unfold iotlbLineOf at hl
  split at hl
  · next c hm => cases hl; exact hw c hm
  · rw [hc] at hl; split at hl <;> simp at hl

/-- Whatever a translation through page tables is answered from, its fault has the FPD of the context-entry looked up
(21_structures.md R191, 40_dma_remapping.md R260). -/
theorem translatePage_fpd {s : State} {vs : List Memory} {ce : BitVec 128} {sid : SourceId} {dva : Nat} {need : Need}
    {c : Option CtxLine} {r : FaultReason} {fpd : Bool}
    (h : (s.translatePage vs ce sid dva need c).answer = .fault r fpd) : fpd = ctxFpd ce := by
  unfold State.translatePage beyondWidthAnswer Translation.plain at h
  repeat' (first | (simp only at h; split at h) | split at h)
  all_goals first | contradiction | (injection h with _ h; exact h.symm)

theorem translatePage_valid (s : State) (vs : List Memory) (ce : BitVec 128) (sid : SourceId) (dva : Nat) (need : Need)
    (c : Option CtxLine) (hc : s.cfg.cm = false) (h : ∀ l, c = some l → ∃ e, contentAnswer s.cfg l.content = .entry e) :
    TranslationValid s.cfg (s.translatePage vs ce sid dva need c) := by
  unfold State.translatePage
  split
  · exact plain_valid h
  · split
    · split
      · exact plain_valid h
      · exact plain_valid h
      · split <;> exact plain_valid h
    · split
      · exact plain_valid h
      · have hw := walk_valid s vs ce dva need hc
        exact ⟨h, iotlbLineOf_valid hc hw.1, hw.2⟩

/-- What a translation may put into the caches with CAP.CM = 0 is valid. -/
theorem translate_valid (s : State) (vs : List Memory) (rtp : PageNumber) (sid : SourceId) (dva : Nat) (need : Need)
    (hc : s.cfg.cm = false) : TranslationValid s.cfg (s.translate vs rtp sid dva need) := by
  have h := contextContent_valid s vs rtp sid hc
  unfold State.translate
  split
  · exact plain_valid (by simp)
  · split
    · unfold State.contextFault
      split
      · exact plain_valid h
      · exact ⟨h, by simp [ctxFaultLine, hc], by simp [Translation.plain]⟩
    · split
      · exact plain_valid h
      · split
        · split <;> exact plain_valid h
        · exact translatePage_valid s vs _ sid dva need _ hc h

/-- What a prefetch may put into the caches with CAP.CM = 0 is valid. -/
theorem prefetched_valid {s : State} {vs : List Memory} {rtp : PageNumber} {sid : SourceId} {dva : Nat} {t : Translation}
    (hc : s.cfg.cm = false) (ht : s.prefetched vs rtp sid dva = some t) : TranslationValid s.cfg t := by
  have h := contextContent_valid s vs rtp sid hc
  unfold State.prefetched at ht
  split at ht
  · cases ht
  · split at ht
    · cases ht; exact translatePage_valid s vs _ sid dva _ _ hc h
    · cases ht; exact plain_valid h

/-! ## Filling -/

theorem fill_mem {α : Type} (s : State) (site : Nat) (c : Option α) (held : List α) (a : α) (h : a ∈ s.fill site c held) :
    a ∈ held ∨ c = some a := by
  unfold State.fill at h
  split at h
  · exact .inl h
  · split at h
    · rcases List.mem_cons.1 h with rfl | h
      · exact .inr rfl
      · exact .inl h
    · exact .inl h

theorem fillPdes_mem (s : State) (ls : List PdeLine) (k : Nat) (held : List PdeLine) (l : PdeLine)
    (h : l ∈ s.fillPdes k ls held) : l ∈ held ∨ l ∈ ls := by
  induction ls generalizing k held with
  | nil => exact .inl h
  | cons x xs ih =>
      rcases ih _ _ h with h | h
      · rcases fill_mem s _ _ _ _ h with h | h
        · exact .inl h
        · cases h; exact .inr (List.mem_cons_self ..)
      · exact .inr (List.mem_cons_of_mem _ h)

/-- Filling the caches with what a translation may leave keeps them valid. -/
theorem keeps_fillCaches (s : State) (t : Translation) (h : s.cfg.cm = false → TranslationValid s.cfg t) :
    Keeps s (s.fillCaches t) := by
  refine keeps_cache _ fun k => ⟨fun e l hl => ?_, fun e l hl => ?_, fun e l hl => ?_, k.iec⟩
  · rcases fill_mem s _ _ _ _ hl with hl | hl
    · exact k.ctx e l hl
    · exact (h e).ctx l hl
  · rcases fill_mem s _ _ _ _ hl with hl | hl
    · exact k.iotlb e l hl
    · exact (h e).iotlb l hl
  · rcases fillPdes_mem s _ _ _ _ hl with hl | hl
    · exact k.pde e l hl
    · exact (h e).pde l hl

theorem keeps_fillTranslated (s : State) (vs : List Memory) (rtp : PageNumber) (sid : SourceId) :
    Keeps s { s with cache := { s.cache with ctx := s.fill 27 (s.checkTranslated vs rtp sid).2 s.cache.ctx } } := by
  refine keeps_cache _ fun k => ⟨fun e l hl => ?_, k.iotlb, k.pde, k.iec⟩
  rcases fill_mem s _ _ _ _ hl with hl | hl
  · exact k.ctx e l hl
  · refine contextContent_valid s vs rtp sid e l ?_
    unfold State.checkTranslated at hl
    split at hl
    · exact hl
    · split at hl <;> exact hl

theorem keeps_fillIec (s : State) (n : Nat) (e : BitVec 128) (sid : SourceId) : Keeps s (s.fillIec n e sid) := by
  refine keeps_cache _ fun k => ⟨k.ctx, k.iotlb, k.pde, fun hc l hl => ?_⟩
  have hc' : s.cfg.cm = false := hc
  rcases fill_mem s _ _ _ _ hl with hl | hl
  · exact k.iec hc l hl
  · rw [hc'] at hl
    split at hl
    · next h =>
      cases hl
      unfold irteFault at h
      split at h
      · cases h
      · split at h
        · cases h
        · next h1 h2 => simp at h1 h2; exact ⟨h1, h2⟩
    · cases hl

/-! ## Permissions -/

/-- The permissions that a walk grants never exceed those of the levels above, and they meet the need
(40_dma_remapping.md R238). -/
theorem walkTable_permissions (s : State) (vs : List Memory) (g : WalkGoal) :
    ∀ (level base : Nat) (r w : Bool) (m : Mapping), (s.walkTable vs g level base r w).answer = .mapped m →
      (m.r = true → r = true) ∧ (m.w = true → w = true) ∧ g.need.permitted m.r m.w = true := by
  intro level
  induction level with
  | zero =>
      intro base r w m h
      unfold State.walkTable at h
      split at h
      · cases h
      · simp only at h
        split at h
        · next hs => exact absurd h (entryVerdict_stop hs m)
        · next hl =>
          cases h
          obtain ⟨rfl, -, -, hp, -⟩ := entryVerdict_leaf hl
          refine ⟨?_, ?_, hp⟩ <;> simp +contextual [leafMapping]
        · cases h
  | succ level ih =>
      intro base r w m h
      unfold State.walkTable at h
      split at h
      · cases h
      · split at h
        · next hs => exact absurd h (entryVerdict_stop hs m)
        · next hl =>
          cases h
          obtain ⟨rfl, -, -, hp, -⟩ := entryVerdict_leaf hl
          refine ⟨?_, ?_, hp⟩ <;> simp +contextual [leafMapping]
        · have := ih _ _ _ m h
          simp only [Bool.and_eq_true] at this
          exact ⟨fun x => (this.1 x).1, fun x => (this.2.1 x).1, this.2.2⟩

end Sys2Proof.Machine
end

