-- ==== Sys2Proof/Laws/Invalidate.lean ====
section
/-! SUPPORT. Draining and invalidation: what each leaves alone, said once, and that it keeps both invariants. -/

namespace Sys2Proof.Machine

/-! ## Frames -/

/-- The flush of the write buffer shows processors the same memory (20_memory.md R155). -/
theorem flushWriteBuffer_cpuView (s : State) : s.flushWriteBuffer.cpuView = s.cpuView := by
  unfold State.flushWriteBuffer
  split <;> rfl

/-- The flush changes no byte but those that a buffered store goes to. -/
theorem flushWriteBuffer_read (s : State) (h : s.mem.wf = true) (a : Nat) (hb : s.bufferedAt a = false) :
    s.flushWriteBuffer.mem.read a = s.mem.read a := by
  unfold State.flushWriteBuffer
  split
  · refine Memory.read_performStores_of_not_mem h fun cells hc c hcc hca => ?_
    unfold State.bufferedAt touches at hb
    rw [List.any_eq_false] at hb
    have h2 := hb cells hc
    simp only [Bool.not_eq_true, List.any_eq_false] at h2
    have := h2 c hcc
    simp at this
    exact this hca
  · rfl

/-- The commit of one in-flight request touches memory, the store buffers, outputs and the draw counter alone. -/
theorem commitRequest_frame (s : State) (f : InFlight) : ∃ m w d o n, s.commitRequest f =
    { s with mem := m, wbuf := w, dirty := d, out := o, draws := n } := by
  unfold State.commitRequest
  split <;> exact ⟨_, _, _, _, _, rfl⟩

theorem foldl_commitRequest_frame (fs : List InFlight) : ∀ s : State, ∃ m w d o n, fs.foldl State.commitRequest s =
    { s with mem := m, wbuf := w, dirty := d, out := o, draws := n } := by
  induction fs with
  | nil => intro s; exact ⟨_, _, _, _, _, rfl⟩
  | cons f fs ih =>
      intro s
      rw [List.foldl_cons]
      obtain ⟨m, w, d, o, n, h⟩ := commitRequest_frame s f
      obtain ⟨m', w', d', o', n', h'⟩ := ih (s.commitRequest f)
      rw [h', h]
      exact ⟨_, _, _, _, _, rfl⟩

/-- A drain leaves in flight what it does not select, and touches memory, the store buffers, outputs and the draw counter
besides. -/
theorem drainWhere_frame (s : State) (p : InFlight → Bool) : ∃ m w d o n, s.drainWhere p =
    { s with inflight := s.inflight.filter (fun f => !p f), mem := m, wbuf := w, dirty := d, out := o, draws := n } :=
  foldl_commitRequest_frame (s.inflight.filter p) { s with inflight := s.inflight.filter (fun f => !p f) }

/-- A drain leaves an empty write buffer empty. -/
theorem drainWhere_wbuf_nil (s : State) (p : InFlight → Bool) (h : s.wbuf = []) : (s.drainWhere p).wbuf = [] := by
  have key : ∀ (fs : List InFlight) (t : State), t.wbuf = [] → (fs.foldl State.commitRequest t).wbuf = [] := by
    intro fs
    induction fs with
    | nil => intro t h; exact h
    | cons f fs ih =>
        intro t h
        rw [List.foldl_cons]
        apply ih
        unfold State.commitRequest
        split
        · simp [State.writeCoherent, h]
        · exact h
  exact key _ _ h

/-- An IOTLB invalidation touches the IOTLB and the PDE caches, memory and the store buffers, in-flight requests, outputs and
the draw counter alone. -/
theorem invalidateIotlb_frame (s : State) (reports : Bool) (code : BitVec 3) (dr dw : Bool) (did : DomainId) (addr : PageNumber)
    (am : BitVec 6) (ih : Bool) : ∃ a b m w d fl o n, s.invalidateIotlb reports code dr dw did addr am ih =
      { s with cache := { s.cache with iotlb := a, pde := b }, mem := m, wbuf := w, dirty := d, inflight := fl, out := o,
               draws := n } := by
  unfold State.invalidateIotlb
  split
  · rw [flushWriteBuffer_spec]; exact ⟨_, _, _, _, _, _, _, _, rfl⟩
  · split
    · rw [flushWriteBuffer_spec]; exact ⟨_, _, _, _, _, _, _, _, rfl⟩
    · unfold State.drainScope
      obtain ⟨m, w, d, o, n, h⟩ := drainWhere_frame _ _
      rw [h, flushWriteBuffer_spec]
      exact ⟨_, _, _, _, _, _, _, _, rfl⟩

/-- An interrupt-entry-cache invalidation, field by field. -/
theorem invalidateIec_spec (s : State) (g : Bool) (im : BitVec 5) (iidx : BitVec 16) : s.invalidateIec g im iidx =
    { s with cache := { s.cache with iec := s.cache.iec.filter (fun l => !s.iecSelects g im iidx l.index) }
             irqs := s.irqs.filter (fun q => !s.iecDrains g im iidx q)
             out := ((s.irqs.filter (s.iecDrains g im iidx)).map (fun q => Output.interrupt q.message)).reverse ++ s.out
             mem := s.flushWriteBuffer.mem
             wbuf := s.flushWriteBuffer.wbuf
             draws := s.draws + 1 } := by
  unfold State.invalidateIec
  rw [drainInterrupts_spec, flushWriteBuffer_spec]
  rfl

/-! ## The two invariants -/

theorem keeps_tick (s : State) : Keeps s s.tick := (sameUnit_tick s).keeps
theorem keeps_emit (s : State) (o : Output) : Keeps s (s.emit o) := (sameUnit_emit s o).keeps

theorem keeps_raiseIqe (s : State) : Keeps s s.raiseIqe :=
  ⟨inv_raiseIqe, fun k => (events_raiseStatus _ 4 (by decide)).noFaultCached ⟨k.ctx, k.iotlb, k.pde, k.iec⟩⟩

theorem keeps_resetPfIndex (s : State) : Keeps s s.resetPfIndex :=
  ⟨inv_resetPfIndex, fun k => by unfold State.resetPfIndex; split; exact k; exact ⟨k.ctx, k.iotlb, k.pde, k.iec⟩⟩

theorem keeps_setGsts (s : State) (b : Nat) (v : Bool) (hb : 23 ≤ b) : Keeps s (s.setGsts b v) :=
  ⟨fun k => inv_setGsts k b v hb, fun k => ⟨k.ctx, k.iotlb, k.pde, k.iec⟩⟩

theorem keeps_setPrs (s : State) (v : Bool) : Keeps s (s.setPrs v) :=
  ⟨fun k => inv_setPrs k v, fun k => ⟨k.ctx, k.iotlb, k.pde, k.iec⟩⟩

theorem keeps_invalidateContext (s : State) (code : BitVec 2) (did : DomainId) (sid : SourceId) (fm : BitVec 2) :
    Keeps s (s.invalidateContext code did sid fm) := by
  have h := ((sameUnit_flushWriteBuffer s).trans (sameUnit_tick _))
  rw [invalidateContext_spec]
  refine h.keeps.trans (keeps_cache_subset _ ?_ ?_ ?_ ?_) <;> rw [h.cache]
  · intro l hl; exact List.mem_of_mem_filter hl
  all_goals exact fun l hl => hl

theorem keeps_removeTranslations (s : State) (g : IotlbGran) (did : DomainId) (addr : PageNumber) (am : BitVec 6)
    (ih : Bool) : Keeps s (s.removeTranslations g did addr am ih) :=
  keeps_cache_subset _ (fun _ h => h) (fun _ h => List.mem_of_mem_filter h) (fun _ h => List.mem_of_mem_filter h)
    (fun _ h => h)

theorem keeps_invalidateIotlb (s : State) (reports : Bool) (code : BitVec 3) (dr dw : Bool) (did : DomainId) (addr : PageNumber)
    (am : BitVec 6) (ih : Bool) : Keeps s (s.invalidateIotlb reports code dr dw did addr am ih) := by
  have h := ((sameUnit_flushWriteBuffer s).trans (sameUnit_tick _)).keeps
  unfold State.invalidateIotlb
  split
  · exact h
  · split
    · exact h
    · exact (h.trans (keeps_removeTranslations _ _ _ _ _ _)).trans (sameUnit_drainWhere _ _).keeps

theorem keeps_invalidateIec (s : State) (g : Bool) (im : BitVec 5) (iidx : BitVec 16) :
    Keeps s (s.invalidateIec g im iidx) := by
  have h := ((sameUnit_flushWriteBuffer s).trans (sameUnit_tick _))
  unfold State.invalidateIec
  refine Keeps.trans (h.keeps.trans (keeps_cache_subset _ ?_ ?_ ?_ ?_)) (sameUnit_drainInterrupts _ _).keeps <;> rw [h.cache]
  on_goal 4 => intro l hl; exact List.mem_of_mem_filter hl
  all_goals exact fun l hl => hl

/-- The ITag table may change where it keeps its size. -/
theorem keeps_itags (s : State) (ts : List (Option ITag)) (h : ts.length = s.itags.length) : Keeps s { s with itags := ts } :=
  ⟨fun k => ⟨k.mem, k.frcd, h.trans k.itags, k.gsts, k.fsts, k.pfIndex, k.afIndex, k.wbuf, k.dirty, k.dirtyOnce⟩,
    fun k => ⟨k.ctx, k.iotlb, k.pde, k.iec⟩⟩

theorem mem_freeTags (s : State) (k : Nat) : k ∈ s.freeTags ↔ k < s.itags.length ∧ s.tag k = none := by
  simp [State.freeTags, List.mem_filter]

/-- What the choice of a tag can be: none exactly where no tag is free. -/
theorem freeTag_none {s : State} (h : s.freeTag = none) (j : Nat) (hj : j < s.itags.length) : s.tag j ≠ none := by
  intro ht
  have hm : j ∈ s.freeTags := (mem_freeTags s j).2 ⟨hj, ht⟩
  unfold State.freeTag at h
  split at h
  case h_1 heq => rw [heq] at hm; exact absurd hm (by simp)
  case h_2 heq => cases h
  case h_3 heq => cases h

theorem freeTag_some {s : State} {k : Nat} (h : s.freeTag = some k) : k < s.itags.length ∧ s.tag k = none := by
  rw [← mem_freeTags]
  unfold State.freeTag at h
  split at h
  case h_1 heq => cases h
  case h_2 i heq => cases h; rw [heq]; simp
  case h_3 i j rest heq =>
    have hlt : s.free 54 % (rest.length + 2) < (i :: j :: rest).length := Nat.mod_lt _ (by omega)
    have hg : (i :: j :: rest).getD (s.free 54 % (rest.length + 2)) i = k := by simpa using h
    rw [heq, ← hg, List.getD_eq_getElem?_getD, List.getElem?_eq_getElem hlt]
    exact List.getElem_mem hlt

theorem keeps_issueDeviceInvalidation (s : State) (sid : SourceId) (b : Bool) (addr : PageNumber) :
    Keeps s (s.issueDeviceInvalidation sid b addr) := by
  unfold State.issueDeviceInvalidation
  split
  · exact Keeps.refl s
  · exact ((keeps_itags s _ (by simp)).trans (keeps_emit _ _)).trans (keeps_tick _)

/-- The queue engine, the pending command, the agenda, the transient conditions, the values that software preserves and the
faults that wait are outside both invariants. -/
theorem keeps_schedule (s : State) (q : QueueEngine) (c : Option CmdWrite) (a : List Event) (f i : Bool) (p : Preserved)
    (us : List (BitVec 128)) :
    Keeps s { s with iq := q, cmd := c, agenda := a, feHold := f, ieHold := i, preserved := p, unlogged := us } :=
  ⟨fun k => ⟨k.mem, k.frcd, k.itags, k.gsts, k.fsts, k.pfIndex, k.afIndex, k.wbuf, k.dirty, k.dirtyOnce⟩,
    fun k => ⟨k.ctx, k.iotlb, k.pde, k.iec⟩⟩

end Sys2Proof.Machine
end

