-- ==== Sys2Proof/Laws/Lookup.lean ====
section
/-! SUPPORT. What a lookup can answer: the choice among cache entries, the reads of structures in memory, and the verdict on one
page-table entry, in the terms of Safety.lean. -/

namespace Sys2Proof.Machine

/-- What is picked is one of the matching entries. -/
theorem pick_mem {α : Type} {s : State} {site : Nat} {l : List α} {a : α} (h : s.pick site l = some a) : a ∈ l := by
  unfold State.pick at h
  split at h
  · cases h
  · exact List.mem_of_getElem? h

@[simp] theorem pick_nil {α : Type} (s : State) (site : Nat) : s.pick site ([] : List α) = none := rfl

/-! ## Structure reads -/

theorem readQuad_eq_none {s : State} {vs : List Memory} {site a : Nat} :
    s.readQuad vs site a = none ↔ accessError s.cfg a 8 = true := by
  unfold State.readQuad; split <;> simp_all

/-- A read sees one of the memories. -/
theorem view_mem (s : State) {vs : List Memory} (site : Nat) (hv : vs ≠ []) : s.view vs site ∈ vs := by
  unfold State.view
  match vs, hv with
  | [m], _ => simp
  | m :: k :: rest, _ =>
    have hlt : s.free site % (m :: k :: rest).length < (m :: k :: rest).length := Nat.mod_lt _ (by simp)
    simp only [List.getD_eq_getElem?_getD, List.getElem?_eq_getElem hlt, Option.getD_some, List.getElem_mem]

theorem readQuad_reads {s : State} {vs : List Memory} {site a : Nat} {v : BitVec 64} (hv : vs ≠ [])
    (h : s.readQuad vs site a = some v) : ReadsQuad s.cfg vs a v := by
  unfold State.readQuad at h
  split at h
  · cases h
  · next he => cases h; exact ⟨by simpa using he, _, view_mem s site hv, rfl⟩

/-- With one memory the read is determined. -/
theorem readQuad_of_reads {s : State} {m : Memory} {site a : Nat} {v : BitVec 64} (h : ReadsQuad s.cfg [m] a v) :
    s.readQuad [m] site a = some v := by
  obtain ⟨h1, k, hk, rfl⟩ := h
  simp only [List.mem_singleton] at hk
  subst hk
  simp [State.readQuad, h1, State.view]

theorem joinQuads_halves (e : BitVec 128) : joinQuads (e.extractLsb' 64 64) (e.extractLsb' 0 64) = e := by
  unfold joinQuads
  apply BitVec.eq_of_getLsbD_eq
  intro i hi
  rw [BitVec.getLsbD_append]
  by_cases h : i < 64
  · simp [h]
  · have h1 : i - 64 < 64 := by omega
    have h2 : 64 + (i - 64) = i := by omega
    simp [h, h1, h2]

theorem joinQuads_low (hi lo : BitVec 64) : (joinQuads hi lo).extractLsb' 0 64 = lo := by
  unfold joinQuads
  apply BitVec.eq_of_getLsbD_eq
  intro i h
  rw [BitVec.getLsbD_extractLsb', BitVec.getLsbD_append]; simp [h]

theorem joinQuads_high (hi lo : BitVec 64) : (joinQuads hi lo).extractLsb' 64 64 = hi := by
  unfold joinQuads
  apply BitVec.eq_of_getLsbD_eq
  intro i h
  rw [BitVec.getLsbD_extractLsb', BitVec.getLsbD_append]; simp [h]

/-- The read of a 128-bit entry fails exactly where one of its halves does. -/
theorem readEntry_eq_none {s : State} {vs : List Memory} {q a : Nat} : s.readEntry vs q a = none ↔ EntryFails s.cfg a := by
  unfold State.readEntry EntryFails
  rw [← readQuad_eq_none (s := s) (vs := vs) (site := siteOf q 0), ← readQuad_eq_none (s := s) (vs := vs) (site := siteOf q 1)]
  cases s.readQuad vs (siteOf q 0) a <;> cases s.readQuad vs (siteOf q 1) (a + 8) <;> simp

theorem readEntry_reads {s : State} {vs : List Memory} {q a : Nat} {e : BitVec 128} (hv : vs ≠ [])
    (h : s.readEntry vs q a = some e) : ReadsEntry s.cfg vs a e := by
  unfold State.readEntry at h
  split at h
  · next lo hi h1 h2 =>
    cases h
    unfold ReadsEntry
    rw [joinQuads_low, joinQuads_high]
    exact ⟨readQuad_reads hv h1, readQuad_reads hv h2⟩
  · cases h
  · cases h

theorem readEntry_of_reads {s : State} {m : Memory} {q a : Nat} {e : BitVec 128} (h : ReadsEntry s.cfg [m] a e) :
    s.readEntry [m] q a = some e := by
  unfold State.readEntry
  rw [readQuad_of_reads h.1, readQuad_of_reads h.2]
  exact congrArg some (joinQuads_halves e)

/-! ## The verdict on a page-table entry -/

theorem entryVerdict_of_ne_device {cfg : Config} {need : Need} (hn : need ≠ .device) (e : BitVec 64) (level : Nat) (r w : Bool) :
    entryVerdict cfg need e level r w =
      if need.permitted r w then
        (if pteReserved cfg e level then .stop (.fault .pageReserved)
         else if isLeaf cfg e level then .leaf (leafMapping cfg e level r w) else .descend)
      else .stop (.fault need.reason) := by
  unfold entryVerdict
  cases need
  · cases w <;> simp [Need.permitted, Need.reason]
  · cases r <;> simp [Need.permitted, Need.reason]
  · cases r <;> cases w <;> simp [Need.permitted, Need.reason]
  · exact absurd rfl hn

theorem entryVerdict_device {cfg : Config} (e : BitVec 64) (level : Nat) (r w : Bool) :
    entryVerdict cfg .device e level r w =
      if pteR e || pteW e then
        (if pteReserved cfg e level then .stop (.fault .pageReserved)
         else if isLeaf cfg e level then (if r || w then .leaf (leafMapping cfg e level r w) else .stop .noAccess) else .descend)
      else .stop .noAccess := by
  unfold entryVerdict
  cases pteR e <;> cases pteW e <;> cases r <;> cases w <;> simp

end Sys2Proof.Machine
end

