-- ==== Sys2Proof/Laws/PerInstr.lean ====
section
/-! SUPPORT. Statements made once for every instruction, one lemma per constructor. -/

namespace Sys2Proof.Laws

/-- A descriptor's bits carry its Type (spec 30_encoding.md R211) and leave every reserved bit of that Type Clear (R216
item c); a command's bits are a write to a command register. -/
def Encoding.Statement (i : Instr) : Prop :=
  ∀ ctx : CmdContext,
    match encode ctx i with
    | .descriptor d =>
        i.isDescriptor = true ∧ 1 ≤ (d.extractLsb' 0 4).toNat ∧ (d.extractLsb' 0 4).toNat ≤ 5 ∧
          d &&& reservedMask (d.extractLsb' 0 4).toNat = 0
    | .command _ => i.isDescriptor = false

theorem extract_append_four {n : Nat} (x : BitVec n) (k : BitVec 4) : (x ++ k).extractLsb' 0 4 = k := by
  ext i hi
  simp only [BitVec.getElem_extractLsb', Nat.zero_add, BitVec.getLsbD_append, hi, if_true, BitVec.getLsbD_eq_getElem]

/-- The claim for a descriptor, the Type being the last field of its bits. -/
theorem Encoding.of_type {i : Instr} {n : Nat} {x : BitVec n} {k : BitVec 4} {d m : BitVec 128}
    (h : ∀ ctx, encode ctx i = .descriptor d)
    (hi : i.isDescriptor = true) (hk : d.extractLsb' 0 4 = (x ++ k).extractLsb' 0 4) (h1 : 1 ≤ k.toNat) (h5 : k.toNat ≤ 5)
    (hm : reservedMask k.toNat = m) (hr : d &&& m = 0) : Encoding.Statement i := by
  intro ctx
  rw [extract_append_four] at hk
  rw [h ctx]
  exact ⟨hi, hk ▸ h1, hk ▸ h5, by rw [hk, hm]; exact hr⟩

theorem Encoding.ccInvDsc (g : BitVec 2) (did : DomainId) (sid : SourceId) (fm : BitVec 2) :
    Encoding.Statement (.ccInvDsc g did sid fm) := by
  have h : ((0#78 ++ fm ++ sid ++ did ++ 0#10 ++ g ++ 1#4) &&& ((0#78 - 1) ++ 0#2 ++ 0#16 ++ 0#16 ++ (0#10 - 1) ++ 0#2 ++ 0#4)) = 0 := by
    simp only [BitVec.and_append, BitVec.and_zero, BitVec.zero_and]
    rfl
  exact Encoding.of_type (k := 1#4) (fun _ => rfl) rfl rfl (by decide) (by decide) (by decide) h

theorem Encoding.iotlbInvDsc (g : BitVec 2) (dw dr : Bool) (did : DomainId) (am : BitVec 6) (ih : Bool) (addr : PageNumber) :
    Encoding.Statement (.iotlbInvDsc g dw dr did am ih addr) := by
  have h : ((addr ++ 0#5 ++ bit ih ++ am ++ 0#32 ++ did ++ 0#8 ++ bit dr ++ bit dw ++ g ++ 2#4) &&& (0#52 ++ (0#5 - 1) ++ 0#1 ++ 0#6 ++ (0#32 - 1) ++ 0#16 ++ (0#8 - 1) ++ 0#1 ++ 0#1 ++ 0#2 ++ 0#4)) = 0 := by
    simp only [BitVec.and_append, BitVec.and_zero, BitVec.zero_and]
    rfl
  exact Encoding.of_type (k := 2#4) (fun _ => rfl) rfl rfl (by decide) (by decide) (by decide) h

theorem Encoding.devIotlbInvDsc (maxInvsPend : BitVec 5) (sid : SourceId) (s : Bool) (addr : PageNumber) :
    Encoding.Statement (.devIotlbInvDsc maxInvsPend sid s addr) := by
  have h : ((addr ++ 0#11 ++ bit s ++ 0#16 ++ sid ++ 0#11 ++ maxInvsPend ++ 0#12 ++ 3#4) &&& (0#52 ++ (0#11 - 1) ++ 0#1 ++ (0#16 - 1) ++ 0#16 ++ (0#11 - 1) ++ 0#5 ++ (0#12 - 1) ++ 0#4)) = 0 := by
    simp only [BitVec.and_append, BitVec.and_zero, BitVec.zero_and]
    rfl
  exact Encoding.of_type (k := 3#4) (fun _ => rfl) rfl rfl (by decide) (by decide) (by decide) h

theorem Encoding.iecInvDsc (g : Bool) (im : BitVec 5) (iidx : BitVec 16) : Encoding.Statement (.iecInvDsc g im iidx) := by
  have h : ((0#80 ++ iidx ++ im ++ 0#22 ++ bit g ++ 4#4) &&& ((0#80 - 1) ++ 0#16 ++ 0#5 ++ (0#22 - 1) ++ 0#1 ++ 0#4)) = 0 := by
    simp only [BitVec.and_append, BitVec.and_zero, BitVec.zero_and]
    rfl
  exact Encoding.of_type (k := 4#4) (fun _ => rfl) rfl rfl (by decide) (by decide) (by decide) h

theorem Encoding.invWaitDsc (iflag sw fn : Bool) (statusData : BitVec 32) (statusAddr : BitVec 62) :
    Encoding.Statement (.invWaitDsc iflag sw fn statusData statusAddr) := by
  have h : ((statusAddr ++ 0#2 ++ statusData ++ 0#25 ++ bit fn ++ bit sw ++ bit iflag ++ 5#4) &&& (0#62 ++ (0#2 - 1) ++ 0#32 ++ (0#25 - 1) ++ 0#1 ++ 0#1 ++ 0#1 ++ 0#4)) = 0 := by
    simp only [BitVec.and_append, BitVec.and_zero, BitVec.zero_and]
    rfl
  exact Encoding.of_type (k := 5#4) (fun _ => rfl) rfl rfl (by decide) (by decide) (by decide) h

theorem Encoding.gcmdTe (enable : Bool) : Encoding.Statement (.gcmdTe enable) := fun _ => rfl
theorem Encoding.gcmdSrtp : Encoding.Statement .gcmdSrtp := fun _ => rfl
theorem Encoding.gcmdSfl : Encoding.Statement .gcmdSfl := fun _ => rfl
theorem Encoding.gcmdEafl (enable : Bool) : Encoding.Statement (.gcmdEafl enable) := fun _ => rfl
theorem Encoding.gcmdWbf : Encoding.Statement .gcmdWbf := fun _ => rfl
theorem Encoding.gcmdQie (enable : Bool) : Encoding.Statement (.gcmdQie enable) := fun _ => rfl
theorem Encoding.gcmdIre (enable : Bool) : Encoding.Statement (.gcmdIre enable) := fun _ => rfl
theorem Encoding.gcmdSirtp : Encoding.Statement .gcmdSirtp := fun _ => rfl
theorem Encoding.gcmdCfi (enable : Bool) : Encoding.Statement (.gcmdCfi enable) := fun _ => rfl
theorem Encoding.ccmdIcc (cirg fm : BitVec 2) (sid : SourceId) (did : DomainId) :
    Encoding.Statement (.ccmdIcc cirg fm sid did) := fun _ => rfl
theorem Encoding.iotlbIvt (iirg : BitVec 3) (dr dw : Bool) (did : DomainId) :
    Encoding.Statement (.iotlbIvt iirg dr dw did) := fun _ => rfl
theorem Encoding.pmenEpm (enable : Bool) : Encoding.Statement (.pmenEpm enable) := fun _ => rfl

end Sys2Proof.Laws
end

