-- ==== Sys2Proof/Laws/Registers.lean ====
section
/-! SUPPORT. Register writes: which bits are reserved, which write finds N, and when a write is refused. -/

namespace Sys2Proof.Machine

/-- Bits n:0 of a mask that begins at bit 0. -/
theorem getLsbD_maskBits_low (n j : Nat) (hj : j < 128) : (maskBits 128 n 0).getLsbD j = decide (j ≤ n) := by
  unfold maskBits
  rw [BitVec.getLsbD_ofNat]
  simp [hj, Nat.testBit_two_pow_sub_one]

/-- The write that finds N is all ones in a doubleword of a base register (12_registers_b.md R108, R110). -/
theorem probesWidth_iff (r : RegId) (k : Nat) (v : BitVec 32) (hk : k < 4) :
    probesWidth r k ((v.setWidth 128) <<< (32 * k)) = true ↔ (r = .plmbase ∨ r = .phmbase) ∧ v = 0xFFFFFFFF := by
  have ones : ((v.setWidth 128) <<< (32 * k)) &&& dwordMask k = dwordMask k ↔ v = 0xFFFFFFFF := by
    unfold dwordMask maskBits
    constructor
    · intro h
      apply BitVec.eq_of_getLsbD_eq
      intro i hi
      have hb := congrArg (fun x => x.getLsbD (32 * k + i)) h
      interval_cases k <;> interval_cases i <;> simp at hb ⊢ <;> exact hb
    · rintro rfl
      interval_cases k <;> decide
  simp only [probesWidth, Bool.and_eq_true, Bool.or_eq_true, beq_iff_eq, ones]

/-- A write is refused for its reserved bits exactly where it puts 1 in a RsvdZ bit without being the write that finds N, or changes
a RsvdP bit from the value last read (10_state.md R35). -/
theorem writeRefusal_reserved_iff (s : State) (r : RegId) (k : Nat) (w : BitVec 128) :
    s.writeRefusal r k w = some .reservedBitWritten ↔
      (w &&& mustBeZeroBits s.cfg r ≠ 0 ∧ probesWidth r k w = false) ∨
        (w ^^^ s.lastRead r) &&& preservedBits s.cfg r &&& dwordMask k ≠ 0 := by
  unfold State.writeRefusal
  split
  · next h => simpa using .inl (by simpa using h)
  · next h =>
    have h1 : w &&& mustBeZeroBits s.cfg r ≠ 0 → probesWidth r k w = true := by simpa [Classical.or_iff_not_imp_left] using h
    split
    · next h2 => exact ⟨fun _ => .inr (by simpa using h2), fun _ => rfl⟩
    · next h2 =>
      have h2 : (w ^^^ s.lastRead r) &&& preservedBits s.cfg r &&& dwordMask k = 0 := by simpa using h2
      refine ⟨fun e => ?_, fun e => ?_⟩
      · split_ifs at e <;> cases e
      · rcases e with ⟨e1, e2⟩ | e
        · rw [h1 e1] at e2; cases e2
        · exact absurd h2 e

/-- What a write that is not refused meets (10_state.md R35; 43_caching_and_register_invalidation.md R365; 70_reset_and_hazards.md
R545). -/
theorem writeRefusal_none {s : State} {r : RegId} {k : Nat} {w : BitVec 128} (h : s.writeRefusal r k w = none) :
    (w &&& mustBeZeroBits s.cfg r = 0 ∨ probesWidth r k w = true) ∧
    (w ^^^ s.lastRead r) &&& preservedBits s.cfg r &&& dwordMask k = 0 ∧ (r.isCommandRegister = true → s.cmd = none) ∧
    (∀ i, s.pendingCommand = some i → ownedBy r i = false) ∧ (r = .iqa → s.qies = false) ∧
    (r.isRegion = true → s.prs = false) := by
  unfold State.writeRefusal at h
  split_ifs at h with h1 h2 h3 h4 h5 h6
  refine ⟨by simpa [Classical.or_iff_not_imp_left] using h1, by simpa using h2, fun e => ?_, fun i e => ?_, fun e => ?_, fun e => ?_⟩
  · cases hc : s.cmd with
    | none => rfl
    | some c => simp [e, hc] at h3
  · rw [e] at h4; exact Bool.eq_false_iff.2 h4
  · simpa [e] using h5
  · simpa [e] using h6

end Sys2Proof.Machine
end

