-- ==== Sys2Proof/Laws/Requests.lean ====
section
/-! SUPPORT. What processing an inbound request can do, said once: `RequestEffect`, and each operation of a request has it. -/

namespace Sys2Proof.Machine

/-- A request took `s` to `t`: it may have filled the caches, raised faults behind those that wait, added in-flight work behind
what was there, and answered; it touched nothing else, and kept both invariants. -/
structure RequestEffect (s t : State) : Prop where
  cfg : t.cfg = s.cfg
  reg : t.reg = s.reg
  preserved : t.preserved = s.preserved
  latch : t.latch = s.latch
  log : t.log = s.log
  cmd : t.cmd = s.cmd
  iq : t.iq = s.iq
  itags : t.itags = s.itags
  feHold : t.feHold = s.feHold
  ieHold : t.ieHold = s.ieHold
  posted : t.posted = s.posted
  mem : t.mem = s.mem
  wbuf : t.wbuf = s.wbuf
  dirty : t.dirty = s.dirty
  agenda : t.agenda = s.agenda
  unlogged : s.unlogged <+: t.unlogged
  inflight : s.inflight <+: t.inflight
  irqs : s.irqs <+: t.irqs
  keeps : Keeps s t

/-- What leaves everything but the waiting faults, in-flight work, the caches, outputs and the draw counter alone. -/
theorem request_of {s : State} (c : Caches) (us : List (BitVec 128)) (fs : List InFlight) (qs : List IrqInFlight)
    (o : List Output) (n : Nat) (h : Keeps s { s with cache := c }) :
    RequestEffect s { s with cache := c, unlogged := s.unlogged ++ us, inflight := s.inflight ++ fs, irqs := s.irqs ++ qs,
                             out := o, draws := n } := by
  refine ⟨rfl, rfl, rfl, rfl, rfl, rfl, rfl, rfl, rfl, rfl, rfl, rfl, rfl, rfl, rfl, List.prefix_append _ _, List.prefix_append _ _,
    List.prefix_append _ _, fun k => ?_, fun k => ?_⟩
  · have k := h.inv k
    exact ⟨k.mem, k.frcd, k.itags, k.gsts, k.fsts, k.pfIndex, k.afIndex, k.wbuf, k.dirty, k.dirtyOnce⟩
  · have k := h.valid k
    exact ⟨k.ctx, k.iotlb, k.pde, k.iec⟩

theorem RequestEffect.refl (s : State) : RequestEffect s s := by
  simpa using request_of s.cache [] [] [] s.out s.draws (Keeps.refl s)

theorem RequestEffect.trans {s t u : State} (h : RequestEffect s t) (k : RequestEffect t u) : RequestEffect s u where
  cfg := k.cfg.trans h.cfg
  reg := k.reg.trans h.reg
  preserved := k.preserved.trans h.preserved
  latch := k.latch.trans h.latch
  log := k.log.trans h.log
  cmd := k.cmd.trans h.cmd
  iq := k.iq.trans h.iq
  itags := k.itags.trans h.itags
  feHold := k.feHold.trans h.feHold
  ieHold := k.ieHold.trans h.ieHold
  posted := k.posted.trans h.posted
  mem := k.mem.trans h.mem
  wbuf := k.wbuf.trans h.wbuf
  dirty := k.dirty.trans h.dirty
  agenda := k.agenda.trans h.agenda
  unlogged := h.unlogged.trans k.unlogged
  inflight := h.inflight.trans k.inflight
  irqs := h.irqs.trans k.irqs
  keeps := h.keeps.trans k.keeps

/-- Raising a fault is such an effect. -/
theorem request_raiseFault (s : State) (rec : BitVec 128) : RequestEffect s (s.raiseFault rec) := by
  simpa [State.raiseFault] using request_of s.cache [rec] [] [] s.out s.draws (Keeps.refl s)

/-- Appending in-flight work is such an effect. -/
theorem request_append (s : State) (fs : List InFlight) (qs : List IrqInFlight) :
    RequestEffect s { s with inflight := s.inflight ++ fs, irqs := s.irqs ++ qs } := by
  simpa using request_of s.cache [] fs qs s.out s.draws (Keeps.refl s)

theorem request_tick (s : State) : RequestEffect s s.tick := by
  simpa [State.tick] using request_of s.cache [] [] [] s.out (s.draws + 1) (Keeps.refl s)

theorem request_emit (s : State) (o : Output) : RequestEffect s (s.emit o) := by
  simpa [State.emit] using request_of s.cache [] [] [] (o :: s.out) s.draws (Keeps.refl s)

/-- A change of the caches alone. -/
theorem request_cache {s : State} {c : Caches} (h : Keeps s { s with cache := c }) : RequestEffect s { s with cache := c } := by
  simpa using request_of c [] [] [] s.out s.draws h

theorem request_raiseDmaFault (s : State) (r : FaultReason) (fpd : Bool) (sid : SourceId) (addr : Nat) (t : Bool)
    (a : BitVec 2) : RequestEffect s (s.raiseDmaFault r fpd sid addr t a) := by
  unfold State.raiseDmaFault
  split
  · exact RequestEffect.refl s
  · exact request_raiseFault s _

theorem request_raiseInterruptFault (s : State) (r : FaultReason) (fpd : Bool) (sid : SourceId) (i : Option Nat) :
    RequestEffect s (s.raiseInterruptFault r fpd sid i) := by
  unfold State.raiseInterruptFault
  split
  · exact RequestEffect.refl s
  · exact (request_raiseFault s _).trans (request_tick _)

theorem request_disposeBlocked (s : State) (r : Request) (a n : Nat) : RequestEffect s (s.disposeBlocked r a n) := by
  unfold State.disposeBlocked
  repeat' split
  · exact request_emit s _
  · exact request_emit s _
  · exact request_emit s _
  · exact (request_emit s _).trans (request_tick _)

theorem request_andThen {s t : State} {r : Result} {f : State → Result} (h : andThen r f = .next t)
    (h1 : ∀ u, r = .next u → RequestEffect s u) (h2 : ∀ u v, f u = .next v → RequestEffect u v) : RequestEffect s t := by
  obtain ⟨u, hu, hv⟩ := andThen_next h
  exact (h1 u hu).trans (h2 u t hv)

/-! ## DMA requests -/

theorem request_forward {s t : State} {r : Request} {p : Piece} {hpa : Nat} {d : Option DomainId} {sn : Bool}
    (h : s.forward r p hpa d sn = .next t) : RequestEffect s t := by
  unfold State.forward at h
  repeat' split at h
  all_goals cases h
  · simpa using request_append s _ []
  · exact request_emit s _

theorem request_forwardRemapped {s t : State} {r : Request} {p : Piece} {hpa : Nat} {d : Option DomainId} {sn : Bool}
    (h : s.forwardRemapped r p hpa d sn = .next t) : RequestEffect s t := by
  unfold State.forwardRemapped at h
  split at h
  · cases h; exact (request_tick s).trans (request_disposeBlocked _ _ _ _)
  · exact (request_tick s).trans (request_forward h)

/-- A translation and the fills that it may leave. -/
theorem request_fill (s : State) (vs : List Memory) (rtp : PageNumber) (sid : SourceId) (a : Nat) (need : Need) :
    RequestEffect s (s.fillCaches (s.translate vs rtp sid a need)).tick :=
  (request_cache (keeps_fillCaches s _ (translate_valid s vs rtp sid a need))).trans (request_tick _)

theorem request_processPiece {s t : State} {r : Request} {vs : List Memory} {p : Piece}
    (h : s.processPiece r vs p = .next t) : RequestEffect s t := by
  unfold State.processPiece at h
  split at h
  · cases h; exact request_emit s _
  split at h
  · cases h; exact request_disposeBlocked _ _ _ _
  split at h
  · cases h
  next rtp hr =>
  have hk := request_fill s vs rtp r.sid p.addr (r.need s.cfg)
  simp only at h
  split at h
  · exact hk.trans (request_forwardRemapped h)
  · exact hk.trans (request_forwardRemapped h)
  · cases h; exact (hk.trans (request_raiseDmaFault ..)).trans (request_disposeBlocked _ _ _ _)
  · cases h; exact hk.trans (request_disposeBlocked _ _ _ _)

theorem request_processPieces {r : Request} {vs : List Memory} (ps : List Piece) :
    ∀ {s t : State}, s.processPieces r vs ps = .next t → RequestEffect s t := by
  induction ps with
  | nil => intro s t h; cases h; exact RequestEffect.refl s
  | cons p ps ih => intro s t h; exact request_andThen h (fun u hu => request_processPiece hu) (fun u v hv => ih hv)

theorem request_processDisabled {s t : State} {r : Request} (h : s.processDisabled r = .next t) : RequestEffect s t := by
  unfold State.processDisabled at h
  split at h
  · cases h; exact request_disposeBlocked _ _ _ _
  split at h
  · cases h; exact request_emit _ _
  · exact request_forward h

theorem request_processUntranslated {s t : State} {r : Request} {vs : List Memory}
    (h : s.processUntranslated r vs = .next t) : RequestEffect s t := by
  unfold State.processUntranslated at h
  split at h
  · cases h; exact request_emit _ _
  split at h
  · cases h; exact request_disposeBlocked _ _ _ _
  split at h
  · cases h
  split at h
  · exact request_processPieces _ h
  · exact request_processDisabled h

theorem request_refuseTranslated (s : State) (r : Request) : RequestEffect s (s.refuseTranslated r) := by
  unfold State.refuseTranslated
  split <;> exact request_emit _ _

theorem request_processTranslated {s t : State} {r : Request} {vs : List Memory} (h : s.processTranslated r vs = .next t) :
    RequestEffect s t := by
  unfold State.processTranslated at h
  split at h
  · cases h; exact request_refuseTranslated _ _
  split at h
  · cases h; exact request_refuseTranslated _ _
  split at h
  · cases h; exact request_disposeBlocked _ _ _ _
  split at h
  · cases h; exact request_refuseTranslated _ _
  split at h
  · cases h
  next rtp hr =>
  have hk := (request_cache (keeps_fillTranslated s vs rtp r.sid)).trans (request_tick _)
  simp only at h
  split at h
  · exact hk.trans (request_forwardRemapped h)
  · cases h; exact (hk.trans (request_raiseDmaFault ..)).trans (request_disposeBlocked _ _ _ _)

theorem request_prefetch (s : State) (sid : SourceId) (a : Nat) (vs : List Memory) :
    RequestEffect s (s.prefetch sid a vs) := by
  unfold State.prefetch
  split
  · exact RequestEffect.refl s
  · split
    · exact RequestEffect.refl s
    · next t ht =>
      have hk := (request_cache (keeps_fillCaches s t (fun hc => prefetched_valid hc ht))).trans (request_tick _)
      split
      · exact hk
      · exact hk
      all_goals exact RequestEffect.refl s

/-! ## Translation requests -/

theorem request_moreEntries (vs : List Memory) (rtp : PageNumber) (sid : SourceId) (level : Nat) :
    ∀ (fuel : Nat) (s : State) (addr : Nat) (acc : List TranslationEntry),
      RequestEffect s (s.moreEntries vs rtp sid level fuel addr acc).1 := by
  intro fuel
  induction fuel with
  | zero => intro s addr acc; exact RequestEffect.refl s
  | succ n ih =>
      intro s addr acc
      unfold State.moreEntries
      simp only
      split
      · exact request_tick s
      · split
        · split
          · exact (request_fill ..).trans (ih _ _ _)
          · exact request_tick s
        · split
          · exact (request_fill ..).trans (ih _ _ _)
          · exact request_tick s
        · exact request_tick s
        · exact request_tick s

theorem request_completeTranslation (s : State) (r : Request) (vs : List Memory) (rtp : PageNumber) (level : Nat)
    (e : TranslationEntry) : RequestEffect s (s.completeTranslation r vs rtp level e) := by
  unfold State.completeTranslation
  split
  · exact (request_emit _ _).trans (request_tick _)
  · exact ((request_moreEntries ..).trans (request_emit _ _)).trans (request_tick _)

theorem request_processTranslationRequest {s t : State} {r : Request} {vs : List Memory}
    (h : s.processTranslationRequest r vs = .next t) : RequestEffect s t := by
  unfold State.processTranslationRequest at h
  split at h
  · cases h; exact request_emit _ _
  split at h
  · cases h; exact (request_emit _ _).trans (request_tick _)
  split at h
  · cases h
  next rtp hr =>
  have hk := request_fill s vs rtp r.sid r.addr.toNat .device
  simp only at h
  split at h
  · cases h; exact (hk.trans (request_raiseDmaFault ..)).trans (request_emit _ _)
  · cases h; exact hk.trans (request_completeTranslation ..)
  · cases h; exact hk.trans (request_completeTranslation ..)
  · cases h; exact request_emit _ _

/-! ## Interrupt requests -/

theorem request_sendInterrupt (s : State) (i : Option Nat) (m : IrqMessage) : RequestEffect s (s.sendInterrupt i m) := by
  simpa [State.sendInterrupt] using request_append s [] [{ index := i, message := m }]

theorem request_blockInterrupt (s : State) (r : Request) (f : FaultReason) (b : Bool) (i : Option Nat) :
    RequestEffect s (s.blockInterrupt r f b i) := (request_raiseInterruptFault ..).trans (request_emit _ _)

theorem request_remapInterrupt {s t : State} {r : Request} {vs : List Memory} (h : s.remapInterrupt r vs = .next t) :
    RequestEffect s t := by
  unfold State.remapInterrupt at h
  split at h
  · cases h; exact request_blockInterrupt ..
  split at h
  · cases h
  simp only at h
  split at h
  · cases h; exact request_blockInterrupt ..
  split at h
  · cases h; exact request_blockInterrupt ..
  split at h
  · cases h; exact ((request_cache (keeps_fillIec ..)).trans (request_tick _)).trans (request_blockInterrupt ..)
  · cases h; exact ((request_cache (keeps_fillIec ..)).trans (request_tick _)).trans (request_sendInterrupt _ _ _)

theorem request_processInterrupt {s t : State} {r : Request} {vs : List Memory} (h : s.processInterrupt r vs = .next t) :
    RequestEffect s t := by
  unfold State.processInterrupt at h
  split at h
  · cases h; exact request_sendInterrupt _ _ _
  split at h
  · exact request_remapInterrupt h
  split at h
  · split at h
    · cases h; exact request_sendInterrupt _ _ _
    · cases h; exact request_blockInterrupt ..
  · cases h; exact request_blockInterrupt ..

/-- A request, and the processor moves that race with it: the effect of the request, then the moves. -/
theorem request_processRequest {s t : State} {r : Request} {race : List CpuMove} (h : s.processRequest r race = .next t) :
    ∃ u, RequestEffect s u ∧ u.processorMoves race = .next t := by
  obtain ⟨u, hu, hv⟩ := andThen_next h
  refine ⟨u, ?_, hv⟩
  repeat' split at hu
  · cases hu; exact request_emit _ _
  · cases hu; exact RequestEffect.refl s
  · exact request_processInterrupt hu
  · exact request_processUntranslated hu
  · exact request_processTranslationRequest hu
  · exact request_processTranslated hu

end Sys2Proof.Machine
end

