-- ==== Sys2Proof/Machine/Dmar.lean ====
section
/-! DEFINITION. The ACPI DMAR table (spec 50_bios_reporting.md R450 to R464): what software reads to learn the platform
parameters: the units, their scopes, and which unit serves a request. The unit never reads it. Byte order and checksum are the
ACPI convention (R451; log 41). -/

namespace Sys2Proof.Machine

/-! ## Device scope (R457, R458) -/

/-- The Type of a Device Scope Entry (R457). -/
inductive ScopeKind
  /-- 01h, a PCI endpoint device. -/
  | endpoint
  /-- 02h, a PCI-PCI bridge and everything downstream of it. -/
  | subHierarchy
  /-- 03h, an I/O APIC. -/
  | ioApic
  /-- 04h, an HPET that can send MSIs. -/
  | msiHpet
  /-- Reserved for future use. -/
  | other (code : Byte)
  deriving DecidableEq, Repr

/-- The meaning of a Type byte (R457). -/
def scopeKindOf (code : Byte) : ScopeKind :=
  if code = 1 then .endpoint else if code = 2 then .subHierarchy else if code = 3 then .ioApic
  else if code = 4 then .msiHpet else .other code

/-- A Device Scope Entry; the path is a list of (device, function). -/
structure ScopeEntry where
  kind : ScopeKind
  enumId : Byte
  startBus : Byte
  path : List (Byte × Byte)
  deriving DecidableEq, Repr

/-- A source-id from bus, device and function (30_encoding.md R202). -/
def sourceIdOf (bus dev func : Byte) : SourceId := bus ++ dev.extractLsb' 0 5 ++ func.extractLsb' 0 3

/-- The walk along a path: each further pair is on the secondary bus of the bridge before it (R458). The bridges' secondary
bus numbers are in PCI configuration space: given by the host. -/
def resolvePath (secondaryBus : Byte → Byte → Byte → Byte) : Byte → List (Byte × Byte) → Option SourceId
  | _, [] => none
  | bus, [(dev, func)] => some (sourceIdOf bus dev func)
  | bus, (dev, func) :: next :: rest => resolvePath secondaryBus (secondaryBus bus dev func) (next :: rest)

/-- The source-id of a Device Scope Entry (R458). -/
def ScopeEntry.sourceId (e : ScopeEntry) (secondaryBus : Byte → Byte → Byte → Byte) : Option SourceId :=
  resolvePath secondaryBus e.startBus e.path

/-- What the entry puts under a scope (R457): its device, or the bridge with the buses behind it, whose numbers are in the
bridge's configuration space and are given by the host (R458). A reserved Type names nothing. -/
def ScopeEntry.device (e : ScopeEntry) (secondaryBus subordinateBus : Byte → Byte → Byte → Byte) : Option ScopeDevice :=
  (e.sourceId secondaryBus).bind (fun sid =>
    let bus := sid.extractLsb' 8 8
    let dev := (sid.extractLsb' 3 5).setWidth 8
    let func := (sid.extractLsb' 0 3).setWidth 8
    match e.kind with
    | .endpoint => some (.device sid)
    | .subHierarchy => some (.hierarchy sid (secondaryBus bus dev func) (subordinateBus bus dev func))
    | .ioApic => some (.device sid)
    | .msiHpet => some (.device sid)
    | .other _ => none)

/-- A Root-Complex integrated device: its source-id does not depend on bus numbering (R458). -/
def ScopeEntry.isRootComplexIntegrated (e : ScopeEntry) : Bool := e.path.length == 1

/-- The pairs of a path, as many as R458's `(Length - 6) / 2` counts: of an odd number of bytes, where R457 has 2 * N, the last one
belongs to no pair (log 41, DEDUCED). -/
def pathPairs : List Byte → List (Byte × Byte)
  | dev :: func :: rest => (dev, func) :: pathPairs rest
  | [_] => []
  | [] => []

/-- The Device Scope Entries in the bytes of a structure's tail; `fuel` bounds their number. None where an entry is malformed
(log 41, DESIGN CHOICE); an odd Length is not: the entry takes all its bytes, and `pathPairs` leaves out the last (DEDUCED). -/
def scopeEntries : Nat → List Byte → Option (List ScopeEntry)
  | 0, bs => if bs.isEmpty then some [] else none
  | _ + 1, [] => some []
  | fuel + 1, kind :: len :: _ :: _ :: enumId :: startBus :: rest =>
      if len.toNat < 8 ∨ rest.length < len.toNat - 6 then none
      else (scopeEntries fuel (rest.drop (len.toNat - 6))).map
        (fun es => { kind := scopeKindOf kind, enumId := enumId, startBus := startBus, path := pathPairs (rest.take (len.toNat - 6)) } :: es)
  | _ + 1, _ :: _ => none

/-! ## The remapping structures (R453 to R463) -/

/-- One remapping unit as its DRHD describes it (R455, R456). -/
structure DmarUnit where
  includePciAll : Bool
  segment : BitVec 16
  registerBase : BitVec 64
  scope : List ScopeEntry
  deriving DecidableEq, Repr

/-- A remapping structure. -/
inductive DmarStructure
  /-- DRHD (R455): one remapping unit. -/
  | drhd (u : DmarUnit)
  /-- RMRR (R462): a memory range that the listed devices must keep reaching. -/
  | rmrr (segment : BitVec 16) (base limit : BitVec 64) (scope : List ScopeEntry)
  /-- ATSR (R463): the root ports that support ATS. -/
  | atsr (allPorts : Bool) (segment : BitVec 16) (scope : List ScopeEntry)
  deriving DecidableEq, Repr

/-- The field of `n` bytes at offset `off`. -/
def tableField (bs : List Byte) (off n : Nat) : Nat := natOfBytes ((bs.drop off).take n)

/-- One structure, from its own bytes. The outer `none` is a malformed structure; the inner one a type that software skips
(R453). -/
def dmarStructure (bs : List Byte) : Option (Option DmarStructure) :=
  match tableField bs 0 2 with
  | 0 =>
      if bs.length < 16 then none
      else (scopeEntries bs.length (bs.drop 16)).map (fun sc =>
        some (.drhd { includePciAll := (BitVec.ofNat 8 (tableField bs 4 1)).getLsbD 0
                      segment := BitVec.ofNat 16 (tableField bs 6 2)
                      registerBase := BitVec.ofNat 64 (tableField bs 8 8)
                      scope := sc }))
  | 1 =>
      if bs.length < 24 then none
      else (scopeEntries bs.length (bs.drop 24)).map (fun sc =>
        some (.rmrr (BitVec.ofNat 16 (tableField bs 6 2)) (BitVec.ofNat 64 (tableField bs 8 8))
          (BitVec.ofNat 64 (tableField bs 16 8)) sc))
  | 2 =>
      if bs.length < 8 then none
      else (scopeEntries bs.length (bs.drop 8)).map (fun sc =>
        some (.atsr ((BitVec.ofNat 8 (tableField bs 4 1)).getLsbD 0) (BitVec.ofNat 16 (tableField bs 6 2)) sc))
  | _ => some none

/-- The list of structures: each begins with its type and its length (R453). That a malformed one (a Length too small or past its
container, a Device Scope Entry of a Length below 8 or past its structure) makes the whole table unreadable is the model's choice:
R453 says nothing of it (log 41, DESIGN CHOICE). -/
def dmarStructures : Nat → List Byte → Option (List DmarStructure)
  | 0, bs => if bs.isEmpty then some [] else none
  | fuel + 1, bs =>
      if bs.isEmpty then some []
      else if bs.length < 4 ∨ tableField bs 2 2 < 4 ∨ bs.length < tableField bs 2 2 then none
      else
        match dmarStructure (bs.take (tableField bs 2 2)), dmarStructures fuel (bs.drop (tableField bs 2 2)) with
        | some (some d), some ds => some (d :: ds)
        | some none, some ds => some ds
        | some _, none => none
        | none, _ => none

/-! ## The table (R451, R452) -/

/-- What software learns from a DMAR table. -/
structure DmarTable where
  oemId : List Byte
  oemTableId : List Byte
  oemRevision : BitVec 32
  creatorId : BitVec 32
  creatorRevision : BitVec 32
  /-- The host address width: the field plus one (R452). -/
  haw : Nat
  /-- INTR_REMAP. -/
  interruptRemapping : Bool
  structures : List DmarStructure
  deriving DecidableEq, Repr

/-- The unit of a DRHD. -/
def DmarStructure.unit? : DmarStructure → Option DmarUnit
  | .drhd u => some u
  | .rmrr _ _ _ _ => none
  | .atsr _ _ _ => none

/-- An ATSR. -/
def DmarStructure.isAtsr : DmarStructure → Bool
  | .drhd _ => false
  | .rmrr _ _ _ _ => false
  | .atsr _ _ _ => true

/-- The platform's remapping units (R464). -/
def DmarTable.units (t : DmarTable) : List DmarUnit := t.structures.filterMap DmarStructure.unit?

/-- The bytes sum to zero modulo 256 (R451). -/
def checksumOk (bs : List Byte) : Bool := (bs.map BitVec.toNat).sum % 256 == 0

/-- The table of bytes whose list of structures was read. -/
def tableOf (bs : List Byte) (ds : List DmarStructure) : DmarTable where
  oemId := (bs.drop 10).take 6
  oemTableId := (bs.drop 16).take 8
  oemRevision := BitVec.ofNat 32 (tableField bs 24 4)
  creatorId := BitVec.ofNat 32 (tableField bs 28 4)
  creatorRevision := BitVec.ofNat 32 (tableField bs 32 4)
  haw := tableField bs 36 1 + 1
  interruptRemapping := (BitVec.ofNat 8 (tableField bs 37 1)).getLsbD 0
  structures := ds

/-- A DMAR table read from its bytes (R451): the signature "DMAR", the length, revision 1 and the checksum are checked, and the
list holds one or more DRHDs. Fields that are Reserved (0) are not looked at, neither here nor by `DmarTable.legal` (header
bytes 38 to 47, flag bits 7:1, DRHD and ATSR byte 5, RMRR bytes 4 and 5, a scope entry's bytes 2 and 3, its Enumeration ID where
it is no I/O APIC): what software makes of a reserved field that is not 0 is not stated (log 41, DESIGN CHOICE). -/
def parseDmar (bs : List Byte) : Option DmarTable :=
  if bs.length < 48 ∨ tableField bs 0 4 ≠ 0x52414D44 ∨ tableField bs 4 4 ≠ bs.length ∨ tableField bs 8 1 ≠ 1 then none
  else if checksumOk bs then
    ((dmarStructures bs.length (bs.drop 48)).map (tableOf bs)).filter (fun t => !t.units.isEmpty)
  else none

/-! ## What BIOS owes (R453 to R463) -/

/-- BIOS reports the structures in numerical order of their types (R453). -/
def DmarStructure.typeCode : DmarStructure → Nat
  | .drhd _ => 0
  | .rmrr _ _ _ _ => 1
  | .atsr _ _ _ => 2

/-- What BIOS owes of one structure: a unit without INCLUDE_PCI_ALL lists one or more entries (R455); with it no endpoint and no
sub-hierarchy is listed (R457); a reserved region is whole pages (R462); an ATSR lists sub-hierarchies, and nothing with
ALL_PORTS (R463). R457 bars only the Types 01h and 02h: that a reserved Type is accepted in a DRHD, whatever the flag, is the
model's choice (log 41, DESIGN CHOICE). R462 and R463 give no least number of entries: that an RMRR, and an ATSR without
ALL_PORTS, may list none is the model's choice too (log 41, DESIGN CHOICE). -/
def DmarStructure.legal : DmarStructure → Bool
  | .drhd u =>
      if u.includePciAll then u.scope.all (fun e => !(e.kind == .endpoint) && !(e.kind == .subHierarchy)) else !u.scope.isEmpty
  | .rmrr _ base limit _ => decide (base.toNat % 4096 = 0) && decide ((limit.toNat + 1) % 4096 = 0) && decide (base ≤ limit)
  | .atsr allPorts _ scope => if allPorts then scope.isEmpty else scope.all (fun e => e.kind == .subHierarchy)

/-! ## Scopes (R456, R464) -/

/-- The devices that a unit's entries name. -/
def DmarUnit.devices (u : DmarUnit) (secondaryBus subordinateBus : Byte → Byte → Byte → Byte) : List ScopeDevice :=
  u.scope.filterMap (fun e => e.device secondaryBus subordinateBus)

/-- `unit_of(segment, source-id)` (R456): the unit whose scope names the device, else the unit of the segment with
INCLUDE_PCI_ALL. Where the scopes of two units name it, which BIOS must not do, the first is taken (log 41). -/
def DmarTable.unitOf (t : DmarTable) (secondaryBus subordinateBus : Byte → Byte → Byte → Byte) (segment : BitVec 16)
    (sid : SourceId) : Option DmarUnit :=
  match t.units.find? (fun u => u.segment == segment
      && (u.devices secondaryBus subordinateBus).any (ScopeDevice.covers sid)) with
  | some u => some u
  | none => t.units.find? (fun u => u.segment == segment && u.includePciAll)

/-! ## What BIOS and the platform owe of the table -/

/-- The PCI segment that a structure speaks of. -/
def DmarStructure.segment : DmarStructure → BitVec 16
  | .drhd u => u.segment
  | .rmrr segment _ _ _ => segment
  | .atsr _ segment _ => segment

/-- The source-ids of a scope's device: the device, or the bridge and every device number on the buses behind it (R457). -/
def ScopeDevice.members : ScopeDevice → List SourceId
  | .device sid => [sid]
  | .hierarchy bridge secondary subordinate =>
      bridge :: (List.range (subordinate.toNat + 1 - secondary.toNat)).flatMap (fun k =>
        (List.range 256).map (fun df => BitVec.ofNat 16 (256 * (secondary.toNat + k) + df)))

/-- The devices that an RMRR lists are under the scope of units of the table (R462). R458's bus numbers have no segment: that one
`secondaryBus` and one `subordinateBus` serve the RMRRs of every segment is the model's choice (log 41, DESIGN CHOICE). -/
def DmarTable.reservedScopesServed (t : DmarTable) (secondaryBus subordinateBus : Byte → Byte → Byte → Byte) : Bool :=
  t.structures.all (fun d =>
    match d with
    | .drhd _ => true
    | .rmrr segment _ _ scope =>
        (scope.filterMap (fun e => e.device secondaryBus subordinateBus)).all (fun dev =>
          (ScopeDevice.members dev).all (fun sid => (t.unitOf secondaryBus subordinateBus segment sid).isSome))
    | .atsr _ _ _ => true)

/-- What BIOS owes of a table: legal structures in the order of their types (R453), a DRHD for every segment (R455; the segments
that the table shows are those of its structures), a unit with INCLUDE_PCI_ALL after the other units of its segment (R456), and
RMRRs that list served devices only (R462). The bus numbers behind the bridges are given by the host (log 41). The order is
asked of the types 0 to 2 only: the parser skips structures of a reserved Type, and one may stand before a DRHD (log 41, DESIGN
CHOICE). -/
def DmarTable.legal (t : DmarTable) (secondaryBus subordinateBus : Byte → Byte → Byte → Byte) : Bool :=
  t.structures.all DmarStructure.legal
    && decide ((t.structures.map DmarStructure.typeCode).Pairwise (· ≤ ·))
    && t.structures.all (fun d => t.units.any (fun u => u.segment == d.segment))
    && decide (t.units.Pairwise (fun a b => a.includePciAll = true → a.segment ≠ b.segment))
    && t.reservedScopesServed secondaryBus subordinateBus

/-- What the platform owes of its units' capabilities: interrupt remapping of the platform means that of its units, each of
which is taken to receive interrupt requests (R464; log 41); an ATSR means a unit with Device-IOTLB support (R464); and each
segment with a unit that supports Device-IOTLBs has an ATSR (R463). -/
def DmarTable.consistent (t : DmarTable) (units : List Config) : Bool :=
  (!t.interruptRemapping || units.all Config.ir) && (!t.structures.any DmarStructure.isAtsr || units.any Config.di)
    && units.all (fun c => !c.di || t.structures.any (fun d => d.isAtsr && d.segment == c.segment))

/-- Whether the table reports the root port at `port` as supporting ATS transactions (R463): an ATSR of the segment has ALL_PORTS,
or lists that port in an entry of Type 02h. Only behind such a port may software enable ATS. R463 bars the other Types and does not
say what software makes of one: it reports no port (log 41, DESIGN CHOICE). That `port` is a root port is the caller's knowledge. -/
def DmarTable.atsCapablePort (t : DmarTable) (secondaryBus : Byte → Byte → Byte → Byte) (segment : BitVec 16) (port : SourceId) :
    Bool :=
  t.structures.any (fun d =>
    match d with
    | .drhd _ => false
    | .rmrr _ _ _ _ => false
    | .atsr allPorts g scope =>
        g == segment && (allPorts || scope.any (fun e => e.kind == .subHierarchy && e.sourceId secondaryBus == some port)))

/-- The configuration of a unit of the table (R464): its register base, segment and scope, and the platform's HAW, over the
other parameters of `c`. -/
def DmarTable.unitConfig (t : DmarTable) (c : Config) (secondaryBus subordinateBus : Byte → Byte → Byte → Byte)
    (u : DmarUnit) : Config :=
  { c with
    haw := t.haw
    regBase := u.registerBase.toNat
    segment := u.segment
    scope := u.devices secondaryBus subordinateBus
    scopeAll := u.includePciAll
    scopeExcept := (t.units.filter (fun v => v.segment == u.segment && !(v == u))).flatMap
      (fun v => v.devices secondaryBus subordinateBus) }

end Sys2Proof.Machine
end

