-- ==== Sys2Proof/Tests/Slice0.lean ====
section
/-! SUPPORT. The model's own tests. Expected values are those of spec/95_test_vectors.md (the vector is named in the test's
docstring or name) or are worked out by hand from a rule. The last part shows, for every statement that has hypotheses, a
state and operands that meet them. -/

open Sys2Proof Sys2Proof.Machine

namespace Sys2Proof.Tests

-- One test after another: evaluated in parallel, the tests ask for more threads than the check allows.
set_option Elab.async false

/-! ## Helpers -/

/-- Memory that holds the quadwords listed, in rising order of address. -/
def quads (qs : List (Nat × Nat)) : Memory :=
  (qs.flatMap (fun q => cellsAt q.1 (bytesOfNat 8 q.2))).filter (fun c => !(c.2 == 0))

/-- Configuration T after reset. -/
def unitT : State := State.initial Config.vectorT

/-- Configuration T with other capability registers. -/
def variant (cap ecap : BitVec 64) : Config := { Config.vectorT with cap := cap, ecap := ecap }

/-- Configuration T with DMA remapping enabled, the root table at 0001_0000h (95 section 1.2), and further quadwords. -/
def dmaOn (qs : List (Nat × Nat)) : State :=
  { unitT with
    mem := quads qs
    latch := { rtp := some 0x10, flp := none, irtp := none }
    reg := { unitT.reg with gsts := 0xC0000000 } }

/-- Image M, as far as the walk of bus 1, device-function 0 to a leaf entry. -/
def leafM (a v : Nat) : List (Nat × Nat) :=
  [(0x10010, 0x20001), (0x20000, 0x30001), (0x20008, 0x701), (0x30000, 0x40003), (0x40488, 0x50003), (a, v)]

/-- Image M, as far as one context-entry of bus 1. -/
def contextM (df lo hi : Nat) : List (Nat × Nat) := [(0x10010, 0x20001), (0x20000 + 16 * df, lo), (0x20008 + 16 * df, hi)]

/-- A request of one doubleword with every byte enabled. -/
def access (kind : ReqKind) (sid : SourceId) (addr : BitVec 64) : Request :=
  { kind := kind, atype := 0, sid := sid, addr := addr, lenDw := 1, firstBe := 15, lastBe := 0, ns := true,
    data := (match kind with | .read => [] | .write => [1, 2, 3, 4]), pcie := true }

/-- An interrupt request. -/
def msi (sid : SourceId) (addr : BitVec 64) (data : BitVec 32) : Request :=
  { access .write sid addr with data := bytesOfNat 4 data.toNat }

/-- A translation request for one page (AT = 01b). -/
def atsRequest (sid : SourceId) (addr : BitVec 64) : Request :=
  { access .read sid addr with atype := 1, lenDw := 2, lastBe := 15 }

/-- Interrupt remapping enabled with 256 entries at 0006_0000h (95 section 5), and one entry. -/
def irqOn (index lo hi : Nat) : State :=
  { unitT with
    mem := quads [(0x60000 + 16 * index, lo), (0x60008 + 16 * index, hi)]
    latch := { rtp := none, flp := none, irtp := some { base := 0x60, size := 7 } }
    reg := { unitT.reg with gsts := 0x03000000 } }

/-- The queue of 95 section 6.4 at 0007_0000h, enabled, with one descriptor in slot 0 and the tail behind it. -/
def queued (lo hi : Nat) : State :=
  { unitT with
    mem := quads [(0x70000, lo), (0x70008, hi)]
    reg := { unitT.reg with gsts := 0x04000000, iqa := 0x70000, iqt := 0x10 } }

/-- A fact about the next state, if there is one. -/
def nextIs (r : Result) (p : State → Bool) : Bool :=
  match r with
  | .next t => p t
  | .fault _ => false
  | .refused _ => false

/-- The machine goes on. -/
def goesOn (r : Result) : Bool := nextIs r (fun _ => true)

/-- The reason of a refusal. -/
def refusal (r : Result) : Option Refusal :=
  match r with
  | .next _ => none
  | .fault _ => none
  | .refused e => some e

theorem next_of_goesOn {r : Result} (h : goesOn r = true) : ∃ t, r = .next t := by
  cases r with
  | next t => exact ⟨t, rfl⟩
  | fault e => cases h
  | refused e => cases h

/-- The host physical address of the one in-flight request. -/
def forwardedTo (r : Result) : Option Nat :=
  match r with
  | .next t => t.inflight.head?.map InFlight.hpa
  | .fault _ => none
  | .refused _ => none

/-- FRCD_REG[0], after the fault logger has run once. -/
def firstRecord (r : Result) : Option (BitVec 128) :=
  match andThen r State.logOldestFault with
  | .next t => t.reg.frcd.head?
  | .fault _ => none
  | .refused _ => none

/-- What was sent last. -/
def lastSent (r : Result) : Option Output :=
  match r with
  | .next t => t.out.head?
  | .fault _ => none
  | .refused _ => none

/-- The entries of the completion sent last. -/
def sentEntries (r : Result) : Option (List TranslationEntry) :=
  match lastSent r with
  | some (.translation _ (.success _ es)) => some es
  | _ => none

/-- The message of the one in-flight interrupt. -/
def delivered (r : Result) : Option IrqMessage :=
  match r with
  | .next t => t.irqs.head?.map IrqInFlight.message
  | .fault _ => none
  | .refused _ => none

/-! ## WellFormed: each check refuses an ill-formed term -/

/-- Configuration full with other capability registers: ECAP.QI is bit 1, DI bit 2, IR bit 3; CAP.AFL is bit 3, RWBF bit 4,
PLMR and PHMR bits 5 and 6. -/
def lacking (cap ecap : BitVec 64) : Config := { Config.full with cap := cap, ecap := ecap }

theorem test_wf_full : [Instr.ccInvDsc 1 0 0 0, .devIotlbInvDsc 0 0 false 0, .iecInvDsc false 0 0, .gcmdSfl, .gcmdEafl true,
    .gcmdWbf, .gcmdQie true, .gcmdIre true, .gcmdSirtp, .gcmdCfi true, .pmenEpm true].all (wellFormed Config.full) = true := by
  decide +kernel

theorem test_wf_needs_qi : [Instr.ccInvDsc 1 0 0 0, .iotlbInvDsc 1 false false 0 0 false 0, .devIotlbInvDsc 0 0 false 0,
    .iecInvDsc false 0 0, .invWaitDsc true false false 0 0, .gcmdQie true].all
    (fun i => !wellFormed (lacking 0x00C907BC20FF1F7E 0xF010ED) i) = true := by decide +kernel

theorem test_wf_needs_di : wellFormed (lacking 0x00C907BC20FF1F7E 0xF010EB) (.devIotlbInvDsc 0 0 false 0) = false := by
  decide +kernel

theorem test_wf_needs_ir : [Instr.iecInvDsc false 0 0, .gcmdIre true, .gcmdSirtp, .gcmdCfi true].all
    (fun i => !wellFormed (lacking 0x00C907BC20FF1F7E 0xF010E7) i) = true := by decide +kernel

theorem test_wf_needs_afl : [Instr.gcmdSfl, .gcmdEafl true].all
    (fun i => !wellFormed (lacking 0x00C907BC207F1F76 0xF010EF) i) = true := by decide +kernel

theorem test_wf_needs_rwbf : wellFormed (lacking 0x00C907BC207F1F6E 0xF010EF) .gcmdWbf = false := by decide +kernel

theorem test_wf_cfi_needs_intel64 : wellFormed { Config.full with arch := .itanium } (.gcmdCfi true) = false := by
  decide +kernel

theorem test_wf_needs_a_region : wellFormed (lacking 0x00C907BC207F1F1E 0xF010EF) (.pmenEpm true) = false := by
  decide +kernel

theorem test_wf_one_region_suffices : wellFormed (lacking 0x00C907BC207F1F3E 0xF010EF) (.pmenEpm true) = true := by
  decide +kernel

/-! ## Words written out: descriptors (95 section 6.2), commands (section 6.1, section 8) -/

theorem test_q1 : decodeDescriptor 0x11 = .instr (.ccInvDsc 1 0 0 0) := by decide +kernel
theorem test_q3 : decodeDescriptor 0x0003010000050031 = .instr (.ccInvDsc 3 5 0x0100 3) := by decide +kernel
theorem test_q5 : decodeDescriptor 0xD2 = .instr (.iotlbInvDsc 1 true true 0 0 false 0) := by decide +kernel
theorem test_q7 : decodeDescriptor 0x000000000010000200000000000700B2 = .instr (.iotlbInvDsc 3 false true 7 2 false 0x100) := by
  decide +kernel
theorem test_q8 : decodeDescriptor 0x000000001234504000000000000700F2 = .instr (.iotlbInvDsc 3 true true 7 0 true 0x12345) := by
  decide +kernel
theorem test_q9 : decodeDescriptor 0x00000000123450000000010700000003 = .instr (.devIotlbInvDsc 0 0x0107 false 0x12345) := by
  decide +kernel
theorem test_q11 : decodeDescriptor 0x7FFFFFFFFFFFF0010000010000000003 =
    .instr (.devIotlbInvDsc 0 0x0100 true 0x7FFFFFFFFFFFF) := by decide +kernel
theorem test_q12 : decodeDescriptor 0x4 = .instr (.iecInvDsc false 0 0) := by decide +kernel
theorem test_q14 : decodeDescriptor 0x0000012010000014 = .instr (.iecInvDsc true 2 0x0120) := by decide +kernel
theorem test_q15 : decodeDescriptor 0x15 = .instr (.invWaitDsc true false false 0 0) := by decide +kernel
theorem test_q16 : decodeDescriptor 0x0000000010000FFCDEADBEEF00000025 =
    .instr (.invWaitDsc false true false 0xDEADBEEF 0x40003FF) := by decide +kernel
theorem test_q18 : decodeDescriptor 0x00000000000800000000000400000065 = .instr (.invWaitDsc false true true 4 0x20000) := by
  decide +kernel

/-- X1, X2, X3 (unknown types) and X6, X7 (reserved bits). -/
theorem test_x_invalid :
    decodeDescriptor 0 = .rejected (.unknownType 0) ∧ decodeDescriptor 7 = .rejected (.unknownType 7) ∧
    decodeDescriptor 15 = .rejected (.unknownType 15) ∧ decodeDescriptor 0x51 = .rejected .reservedBits ∧
    decodeDescriptor 0x00000000000000010000000000000025 = .rejected .reservedBits := by decide +kernel

/-- X8 to X11 are valid. -/
theorem test_x_valid :
    decodeDescriptor 1 = .instr (.ccInvDsc 0 0 0 0) ∧
    decodeDescriptor 0x00070002 = .instr (.iotlbInvDsc 0 false false 7 0 false 0) ∧
    decodeDescriptor 0x000000001234500A0000000000070032 = .instr (.iotlbInvDsc 3 false false 7 10 false 0x12345) ∧
    decodeDescriptor 0x0000001080000014 = .instr (.iecInvDsc true 16 0x0010) := by decide +kernel

/-- The values of 95 section 10.1 and of programs P1 to P5, each against the GSTS_REG value before it. -/
theorem test_gcmd_words :
    decodeGcmd 0 0x40000000 = .instr .gcmdSrtp ∧ decodeGcmd 0x40000000 0x80000000 = .instr (.gcmdTe true) ∧
    decodeGcmd 0xC7000000 0x06000000 = .instr (.gcmdTe false) ∧ decodeGcmd 0 0x20000000 = .instr .gcmdSfl ∧
    decodeGcmd 0x20000000 0x10000000 = .instr (.gcmdEafl true) ∧ decodeGcmd 0xC7000000 0x8E000000 = .instr .gcmdWbf ∧
    decodeGcmd 0xC0000000 0x84000000 = .instr (.gcmdQie true) ∧ decodeGcmd 0xC7800000 0x82800000 = .instr (.gcmdQie false) ∧
    decodeGcmd 0xC5000000 0x86000000 = .instr (.gcmdIre true) ∧ decodeGcmd 0xC4000000 0x85000000 = .instr .gcmdSirtp ∧
    decodeGcmd 0xC7000000 0x86800000 = .instr (.gcmdCfi true) ∧ decodeGcmd 0xC0000000 0x80000000 = .nothing ∧
    decodeGcmd 0xC7000000 0x08000000 = .rejected .severalCommands ∧
    decodeGcmd 0xC0000000 0x80000001 = .rejected .reservedBits := by decide +kernel

/-- C3, C4, C5 (CCMD_REG), C6, C7, C8 (IOTLB_REG), PMEN_REG. -/
theorem test_command_words :
    decodeCcmd 0xE000000001000007 = .instr (.ccmdIcc 3 0 0x0100 7) ∧ decodeCcmd 0xE000000301000007 = .instr (.ccmdIcc 3 3 0x0100 7) ∧
    decodeCcmd 0x8000000000000000 = .instr (.ccmdIcc 0 0 0 0) ∧ decodeCcmd 0x2000000000000000 = .nothing ∧
    decodeIotlb 0x9003000000000000 = .instr (.iotlbIvt 1 true true 0) ∧
    decodeIotlb 0xA000000700000000 = .instr (.iotlbIvt 2 false false 7) ∧
    decodeIotlb 0xB002000700000000 = .instr (.iotlbIvt 3 true false 7) ∧
    decodePmen false 0x80000000 = .instr (.pmenEpm true) ∧ decodePmen true 0 = .instr (.pmenEpm false) ∧
    decodePmen true 0x80000000 = .nothing := by decide +kernel

/-- Little-endian, low quadword at the lower address (95 section 1). -/
theorem test_descriptor_bytes :
    decodeBytes [0x03, 0, 4, 0, 0, 1, 0, 0, 0x01, 0x10, 0x10, 0, 0, 0, 0, 0] = .instr (.devIotlbInvDsc 4 0x0100 true 0x101) := by
  decide +kernel

theorem test_encode_q10 : encode { gsts := 0, prs := false } (.devIotlbInvDsc 4 0x0100 true 0x101) =
    .descriptor 0x00000000001010010000010000040003 := by decide +kernel

theorem test_encode_te_off : encode { gsts := 0xC7000000, prs := false } (.gcmdTe false) =
    .command { reg := .gcmd, value := 0x06000000 } := by decide +kernel

/-! ## Structures and operand ranges -/

/-- Every pair of the table of E1: guest address width and adjusted width. -/
theorem test_agaw : [22, 30, 31, 32, 39, 40, 47, 48, 49, 57, 58, 64].map agawOfGaw =
    [30, 30, 39, 39, 39, 48, 48, 48, 57, 57, 64, 64] := by decide +kernel

/-- 95 section 4.4, row by row. -/
theorem test_device_ranges :
    deviceRange false 0x101 = (0x101000, 0x1000) ∧ deviceRange true 0x100 = (0x100000, 0x2000) ∧
    deviceRange true 0x101 = (0x100000, 0x4000) ∧ deviceRange true 0x103 = (0x100000, 0x8000) ∧
    deviceRange true 0x1FF = (0, 0x400000) ∧ deviceRange true 0x12345 = (0x12344000, 0x4000) ∧
    deviceRange true 0x7FFFFFFFFFFFF = (0, 2 ^ 64) ∧ deviceRange true 0xFFFFFFFFFFFFF = (0, 2 ^ 64) := by decide +kernel

/-- The page-selective ranges of 95 section 6.1. -/
theorem test_page_ranges :
    (pageRangeBase Config.vectorT 0x101 0, pageRangeSize 0) = (0x101000, 0x1000) ∧
    (pageRangeBase Config.vectorT 0x101 2, pageRangeSize 2) = (0x100000, 0x4000) ∧
    (pageRangeBase Config.vectorT 0x12345 9, pageRangeSize 9) = (0x12200000, 0x200000) := by decide +kernel

/-- The function masks of 95 section 6.1, SID 0100h. -/
theorem test_function_masks :
    (List.range 8).map (fun f => sidMatches 1 (0x0100 + BitVec.ofNat 16 f) 0x0100) =
      [true, false, false, false, true, false, false, false] ∧
    (List.range 9).map (fun f => sidMatches 2 (0x0100 + BitVec.ofNat 16 f) 0x0100) =
      [true, false, true, false, true, false, true, false, false] ∧
    sidMatches 3 0x0107 0x0100 = true ∧ sidMatches 3 0x0108 0x0100 = false ∧ sidMatches 0 0x0101 0x0100 = false := by
  decide +kernel

/-- The DMAR table of 95 section 7.1. -/
def tableBytes : List Byte :=
  [0x44, 0x4D, 0x41, 0x52, 0x78, 0, 0, 0, 1, 0xB2, 0x4F, 0x45, 0x4D, 0x49, 0x44, 0x20] ++
  [0x4F, 0x45, 0x4D, 0x54, 0x41, 0x42, 0x4C, 0x45, 1, 0, 0, 0, 0x43, 0x52, 0x54, 0x52] ++
  [1, 0, 0, 0, 0x27, 1, 0, 0, 0, 0, 0, 0, 0, 0, 0, 0] ++
  [0, 0, 0x18, 0, 1, 0, 0, 0, 0, 0, 0xD9, 0xFE, 0, 0, 0, 0] ++
  [3, 8, 0, 0, 2, 0xF0, 0x1F, 0, 1, 0, 0x20, 0, 0, 0, 0, 0] ++
  [0, 0, 0, 0x7C, 0, 0, 0, 0, 0xFF, 0xFF, 0x0F, 0x7C, 0, 0, 0, 0] ++
  [1, 8, 0, 0, 0, 0, 0x1D, 0, 2, 0, 0x10, 0, 0, 0, 0, 0] ++ [2, 8, 0, 0, 0, 0, 1, 0]

theorem test_dmar_table : parseDmar tableBytes = some
    { oemId := [0x4F, 0x45, 0x4D, 0x49, 0x44, 0x20], oemTableId := [0x4F, 0x45, 0x4D, 0x54, 0x41, 0x42, 0x4C, 0x45]
      oemRevision := 1, creatorId := 0x52545243, creatorRevision := 1, haw := 40, interruptRemapping := true
      structures := [
        .drhd { includePciAll := true, segment := 0, registerBase := 0xFED90000
                scope := [{ kind := .ioApic, enumId := 2, startBus := 0xF0, path := [(0x1F, 0)] }] },
        .rmrr 0 0x7C000000 0x7C0FFFFF [{ kind := .endpoint, enumId := 0, startBus := 0, path := [(0x1D, 0)] }],
        .atsr false 0 [{ kind := .subHierarchy, enumId := 0, startBus := 0, path := [(1, 0)] }]] } := by decide +kernel

/-- Another Revision, and the table without its DRHD (both with their checksum mended). -/
theorem test_dmar_refused :
    parseDmar ((tableBytes.set 8 2).set 9 0xB1) = none ∧
    parseDmar (((tableBytes.take 48 ++ tableBytes.drop 72).set 4 0x60).set 9 0x2E) = none := by decide +kernel

/-- E14 as bytes (95 section 7.3): the four units, segment 0. -/
def unitsE14 : DmarTable :=
  { oemId := [], oemTableId := [], oemRevision := 0, creatorId := 0, creatorRevision := 0, haw := 40, interruptRemapping := true
    structures :=
      [(false, 1, [2, 8, 0, 0, 0, 0, 0x0E, 0]), (false, 2, [2, 8, 0, 0, 0, 0, 0x0E, 1]), (false, 3, [1, 8, 0, 0, 0, 0, 0x1D, 0]),
        (true, 4, [3, 8, 0, 0, 1, 0, 0x0C, 0])].map (fun u =>
        .drhd { includePciAll := u.1, segment := 0, registerBase := u.2.1, scope := (scopeEntries 8 u.2.2).getD [] }) }

/-- The table of 95 section 7.1 with bus 2 behind its bridge is what BIOS owes. Not so: its DRHD in another segment (the RMRR's
and the ATSR's segment has none), without INCLUDE_PCI_ALL (the RMRR's device is served by no unit) and with no scope then. -/
theorem test_dmar_legal :
    (parseDmar tableBytes).map (fun t => (t.legal (fun _ _ _ => 2) (fun _ _ _ => 2) ::
      [(true, 1, t.units.flatMap DmarUnit.scope), (false, 0, t.units.flatMap DmarUnit.scope), (false, 0, [])].map (fun u =>
        let d : DmarStructure := .drhd { includePciAll := u.1, segment := u.2.1, registerBase := 0xFED90000, scope := u.2.2 }
        { t with structures := d :: t.structures.tail }.legal (fun _ _ _ => 2) (fun _ _ _ => 2)))) =
      some [true, false, false, false] := by decide +kernel

/-- The same table: only root port 1:0 of segment 0 is ATS-capable; a unit with Device-IOTLBs in segment 1 would need an ATSR. -/
theorem test_dmar_ats :
    (parseDmar tableBytes).map (fun t => ([(0, 0x0008), (0, 0x0010), (1, 0x0008)].map (fun q =>
        t.atsCapablePort (fun _ _ _ => 2) q.1 q.2), t.consistent [Config.full], t.consistent [{ Config.full with segment := 1 }])) =
      some ([true, false, false], true, false) := by decide +kernel

/-- R458: (9 - 6) / 2 = 1 pair, and the next entry follows the whole Length (log 41). R463: of the two ports that the ATSR lists only
the one of Type 02h is reported. -/
theorem test_scope_odd_length :
    scopeEntries 17 [2, 9, 0, 0, 0, 0, 1, 0, 0xFF, 1, 8, 0, 0, 0, 0, 2, 0] =
      some [{ kind := .subHierarchy, enumId := 0, startBus := 0, path := [(1, 0)] },
        { kind := .endpoint, enumId := 0, startBus := 0, path := [(2, 0)] }] ∧
    [0x0008, 0x0010].map ({ unitsE14 with structures := [.atsr false 0
      ((scopeEntries 17 [2, 9, 0, 0, 0, 0, 1, 0, 0xFF, 1, 8, 0, 0, 0, 0, 2, 0]).getD [])] }.atsCapablePort (fun _ _ _ => 0) 0) =
      [true, false] := by decide +kernel

/-- Buses 2 to 4 stand behind root port 14:0, 5 to 7 behind 14:1: the unit of a device below each, of the ports, of the
integrated endpoint, of the I/OxAPIC (source-id 0060h), and of every other device. -/
theorem test_unit_of_e14 :
    [0x0070, 0x0200, 0x04FF, 0x0071, 0x0500, 0x00E8, 0x0060, 0x0800].map (fun sid =>
      (unitsE14.unitOf (fun _ _ f => if f = 0 then 2 else 5) (fun _ _ f => if f = 0 then 4 else 7) 0 sid).map
        (fun u => u.registerBase)) = [some 1, some 1, some 1, some 2, some 2, some 3, some 4, some 4] := by decide +kernel

/-- The unit with INCLUDE_PCI_ALL does not serve the devices of the others. -/
theorem test_unit_scope_e14 :
    (unitsE14.units.getLast?.map (fun u => [0x0070, 0x0200, 0x00E8, 0x0060, 0x0800].map (inScope
      (unitsE14.unitConfig Config.vectorT (fun _ _ f => if f = 0 then 2 else 5) (fun _ _ f => if f = 0 then 4 else 7) u)))) =
      some [false, false, false, true, true] := by decide +kernel

/-- The I/OxAPIC of 95 section 7.1, and the path of two of section 7.2 behind a bridge whose secondary bus is 02h. -/
theorem test_device_scope :
    resolvePath (fun _ _ _ => 2) 0xF0 [(0x1F, 0)] = some 0xF0F8 ∧ resolvePath (fun _ _ _ => 2) 0 [(1, 0), (0, 0)] = some 0x0200 := by
  decide +kernel

/-- E15: the MSI address of index 0123h. -/
theorem test_msi_address : msiAddress 0x0123 = 0xFEE02478 := by decide +kernel

/-! ## One step of each command and descriptor -/

/-- C1: the read-back of a global context-cache invalidation. -/
theorem test_ccmd_global : nextIs
    (exec (.ccmdIcc 1 0 0 0) { unitT with reg := { unitT.reg with ccmd := 0xA000000000000000 } })
    (fun t => t.reg.ccmd == 0x2800000000000000) = true := by decide +kernel

/-- C5: a reserved granularity reports 00b. -/
theorem test_ccmd_reserved : nextIs
    (exec (.ccmdIcc 0 0 0 0) { unitT with reg := { unitT.reg with ccmd := 0x8000000000000000 } })
    (fun t => t.reg.ccmd == 0) = true := by decide +kernel

/-- C6: a global IOTLB invalidation. -/
theorem test_iotlb_global : nextIs
    (exec (.iotlbIvt 1 true true 0) { unitT with reg := { unitT.reg with iotlb := 0x9003000000000000 } })
    (fun t => t.reg.iotlb == 0x1203000000000000) = true := by decide +kernel

/-- C9: an address mask above CAP.MAMV is an incorrect request. -/
theorem test_iotlb_incorrect : nextIs
    (exec (.iotlbIvt 3 false false 7)
      { unitT with reg := { unitT.reg with iva := 0x1234504A, iotlb := 0xB000000700000000 } })
    (fun t => t.reg.iotlb == 0x3000000700000000) = true := by decide +kernel

/-- An entry of the context cache for domain 7. -/
def cachedContext : CtxLine := { sid := 0x0100, content := .entry 0x00000000000007010000000000030001 }

theorem test_cc_inv_dsc_global : nextIs
    (exec (.ccInvDsc 1 0 0 0) { unitT with cache := { unitT.cache with ctx := [cachedContext] } })
    (fun t => t.cache.ctx == []) = true := by decide +kernel

/-- An IOTLB entry of domain 7: 1234_5000h to 0ABC_D000h. -/
def cachedPage : IotlbLine :=
  { did := 7, sid := none, level := 0, page := 0x12345,
    content := .mapping { hpa := 0xABCD000, level := 0, r := true, w := true, snp := false, tm := false } }

theorem test_iotlb_inv_dsc_global : nextIs
    (exec (.iotlbInvDsc 1 true true 0 0 false 0) { unitT with cache := { unitT.cache with iotlb := [cachedPage] } })
    (fun t => t.cache.iotlb == []) = true := by decide +kernel

/-- X9: the reserved granularity removes nothing. -/
theorem test_iotlb_inv_dsc_reserved : nextIs
    (exec (.iotlbInvDsc 0 true true 7 0 false 0) { unitT with cache := { unitT.cache with iotlb := [cachedPage] } })
    (fun t => t.cache.iotlb == [cachedPage]) = true := by decide +kernel

/-- A tag of device 0007h. -/
def busyTag : Option ITag := some { sid := 7, count := 0, seq := 0 }

/-- T1: the request of P2 step 8, where one tag is free (the choice among several is a free value). -/
theorem test_dev_iotlb_inv_dsc : nextIs
    (exec (.devIotlbInvDsc 0 0x0107 false 0x12345) { unitT with itags := [busyTag, none, busyTag] })
    (fun t => t.out == [.invRequest 0x0107 1 0x12345 false]
      && t.itags == [busyTag, some { sid := 0x0107, count := 0, seq := 0 }, busyTag]) = true := by decide +kernel

/-- After reset a request is sent, whatever the tag. -/
theorem test_dev_iotlb_inv_dsc_reset : nextIs (exec (.devIotlbInvDsc 0 0x0107 false 0x12345) unitT)
    (fun t => t.out.length == 1) = true := by decide +kernel

/-- Q14: indexes 0120h to 0123h. -/
theorem test_iec_inv_dsc : nextIs
    (exec (.iecInvDsc true 2 0x0120)
      { unitT with cache := { unitT.cache with
          iec := [0x11F, 0x120, 0x123, 0x124].map (fun k => { index := k, entry := 1 }) } })
    (fun t => t.cache.iec.map IecLine.index == [0x11F, 0x124]) = true := by decide +kernel

/-- P2 step e: the status write, then the message, which the mask of reset would hold. -/
theorem test_inv_wait_dsc : nextIs
    (exec (.invWaitDsc true true false 1 0x20000)
      { unitT with reg := { unitT.reg with iectl := 0, iedata := 0x31, ieaddr := 0xFEE00000 } })
    (fun t => t.posted == [.statusWrite 0x80000 1, .message .invalidation 0xFEE00000 0x31] && t.iwc && !t.iePending) = true := by
  decide +kernel

/-- G1: masked. -/
theorem test_inv_wait_dsc_masked : nextIs (exec (.invWaitDsc true false false 0 0) unitT)
    (fun t => t.posted == [] && t.iwc && t.reg.iectl == 0xC0000000) = true := by decide +kernel

/-- P1 steps 15 and 16. -/
theorem test_te : nextIs (exec (.gcmdTe true) { dmaOn [] with reg := { unitT.reg with gsts := 0x40000000 } })
    (fun t => t.reg.gsts == 0xC0000000) = true := by decide +kernel

theorem test_te_without_pointer : refusal (exec (.gcmdTe true) unitT) = some .pointerNeverSet := by decide +kernel

/-- P1 steps 3 to 5. -/
theorem test_srtp : nextIs (exec .gcmdSrtp { unitT with reg := { unitT.reg with rtaddr := 0x10000 } })
    (fun t => t.latch.rtp == some 0x10 && t.reg.gsts == 0x40000000) = true := by decide +kernel

/-- 95 section 9.3, step 3. -/
theorem test_sfl : nextIs (exec .gcmdSfl { unitT with reg := { unitT.reg with aflog := 0x90200 } })
    (fun t => t.latch.flp == some { base := 0x90, size := 1 } && t.reg.gsts == 0x20000000) = true := by decide +kernel

theorem test_eafl_while_remapping : refusal (exec (.gcmdEafl true) (dmaOn [])) = some .loggingMethodActive := by decide +kernel

/-- A buffered store is in memory after the flush. -/
theorem test_wbf : nextIs
    (exec .gcmdWbf { State.initial Config.full with
      wbuf := [[(0x1000, 0xAB)]], reg := { unitT.reg with gsts := 0x08000000 } })
    (fun t => t.mem == [(0x1000, 0xAB)] && t.wbuf == [] && t.reg.gsts == 0) = true := by decide +kernel

/-- P5 step 3. -/
theorem test_qie_off : nextIs
    (exec (.gcmdQie false) { unitT with reg := { unitT.reg with gsts := 0xC7800000, iqh := 0x60, iqt := 0x60 } })
    (fun t => t.reg.gsts == 0xC3800000 && t.reg.iqh == 0 && t.reg.iqt == 0x60) = true := by decide +kernel

theorem test_qie_off_not_empty : refusal
    (exec (.gcmdQie false) { unitT with reg := { unitT.reg with gsts := 0xC7800000, iqh := 0x60, iqt := 0x70 } }) =
    some .queueNotQuiesced := by decide +kernel

/-- P3 steps 8 and 9: in-flight interrupts are drained. -/
theorem test_ire : nextIs
    (exec (.gcmdIre true) { irqOn 0 0 0 with
      irqs := [{ index := none, message := .forwarded 1 2 3 }], reg := { unitT.reg with gsts := 0xC5000000 } })
    (fun t => t.irqs == [] && t.reg.gsts == 0xC7000000) = true := by decide +kernel

/-- P3 steps 1 to 3. -/
theorem test_sirtp : nextIs (exec .gcmdSirtp { unitT with reg := { unitT.reg with irta := 0x60007 } })
    (fun t => t.latch.irtp == some { base := 0x60, size := 7 } && t.reg.gsts == 0x01000000) = true := by decide +kernel

/-- P3 steps 13 and 14. -/
theorem test_cfi : nextIs (exec (.gcmdCfi true) { unitT with reg := { unitT.reg with gsts := 0xC7000000 } })
    (fun t => t.reg.gsts == 0xC7800000) = true := by decide +kernel

/-- H4. -/
theorem test_pmen : nextIs (exec (.pmenEpm true) { unitT with reg := { unitT.reg with pmen := 0x80000000 } })
    (fun t => t.reg.pmen == 0x80000001) = true := by decide +kernel

/-- A queue step: M1 with inv_wait_dsc(IF = 1), fetched and performed. -/
theorem test_queue_step : nextIs (step (queued 0x15 0)) (fun t => t.reg.iqh == 0x10 && t.iwc && t.iq.pending == []) = true := by
  decide +kernel

/-- V15: address bits 20:0 pass through unchanged, bits 1:0 among them. -/
theorem test_v15 : forwardedTo
    ((dmaOn [(0x10010, 0x20001), (0x20000, 0x30001), (0x20008, 0x701), (0x30000, 0x40003), (0x40490, 0x40000083)]).processRequest
      (access .read 0x0100 0x12412345) []) = some 0x40012345 := by decide +kernel

/-- X2: an invalid descriptor; P4 step 2. -/
theorem test_queue_invalid : nextIs (step (queued 7 0)) (fun t => t.reg.iqh == 0 && t.reg.fsts == 0x10) = true := by decide +kernel

/-- The last slot is read ahead where it lies between head and tail, and no slot is where the tail is invalid (M5: 300 with 256
slots). -/
theorem test_fetch_ahead :
    nextIs ({ queued 0x11 0 with reg := { (queued 0x11 0).reg with iqh := 0x10, iqt := 0 } }.handle (.fetchAhead 255 []))
      (fun t => t.iq.ahead == [{ slot := 255, bits := 0 }]) = true ∧
    nextIs ({ queued 0x11 0 with reg := { (queued 0x11 0).reg with iqt := 0x12C0 } }.handle (.fetchAhead 43 []))
      (fun t => t.iq.ahead == []) = true := by decide +kernel

/-- A tail of 2 leaves the copy of slot 1 between head and tail and the copies of slots 2 and 0FFh outside; a tail of 300 leaves
none. -/
theorem test_tail_drops_copies :
    nextIs ({ queued 0x11 0 with iq := { unitT.iq with ahead := [⟨2, 9⟩, ⟨1, 8⟩, ⟨255, 7⟩] } }.registerWrite 4 0x88 0x20)
      (fun t => t.iq.ahead == [⟨1, 8⟩]) = true ∧
    nextIs ({ queued 0x11 0 with iq := { unitT.iq with ahead := [⟨1, 8⟩] } }.registerWrite 4 0x88 0x12C0)
      (fun t => t.iq.ahead == []) = true := by decide +kernel

/-! ## DMA requests (95 section 3) -/

theorem test_v1 : forwardedTo
    ((dmaOn (leafM 0x50A28 0xABCD003)).processRequest (access .read 0x0100 0x12345678) []) = some 0xABCD678 := by decide +kernel

theorem test_v3 : firstRecord
    ((dmaOn (leafM 0x50A30 0xABCE001)).processRequest (access .write 0x0100 0x12346004) []) =
    some 0x80000005000001000000000012346000 := by decide +kernel

theorem test_v11 : firstRecord
    ((dmaOn (leafM 0x50A48 0x10000000003)).processRequest (access .read 0x0100 0x12349000) []) =
    some 0xC000000C000001000000000012349000 := by decide +kernel

theorem test_v17 : forwardedTo
    ((dmaOn [(0x10010, 0x20001), (0x20000, 0x30001), (0x20008, 0x701), (0x30000, 0x40003), (0x404A0, 0x400FF083)]).processRequest
      (access .write 0x0100 0x1289ABCC) []) = some 0x4009ABCC := by decide +kernel

theorem test_v22 : firstRecord
    ((dmaOn (contextM 0 0x30001 0x701)).processRequest (access .read 0x0100 0x8000000000) []) =
    some 0xC0000004000001000000008000000000 := by decide +kernel

theorem test_v27 : firstRecord
    ((dmaOn (contextM 2 2 0)).processRequest (access .read 0x0102 0x1000) []) = some 0 := by decide +kernel

theorem test_v31 : firstRecord
    ((dmaOn (contextM 5 0x30001 0x10001)).processRequest (access .read 0x0105 0x1000) []) =
    some 0xC000000B000001050000000000001000 := by decide +kernel

theorem test_v37 : firstRecord ((dmaOn []).processRequest (access .write 0x0300 0x1000) []) =
    some 0x80000001000003000000000000001000 := by decide +kernel

/-- A1: Success {R, W, addr 0ABC_D000h}. -/
theorem test_a1 : sentEntries
    ((dmaOn [(0x10010, 0x20001), (0x20070, 0x30005), (0x20078, 0x701), (0x30000, 0x40003), (0x40488, 0x50003),
      (0x50A28, 0xABCD003)]).processRequest (atsRequest 0x0107 0x12345000) []) =
    some [{ r := true, w := true, n := false, u := false, s := false, addr := 0xABCD000 }] := by decide +kernel

/-- R278 item 1: the one translation for a request of four, RCB 64. -/
theorem test_single_translation_header :
    unitT.completionHeader { atsRequest 0x0107 0x12345000 with lenDw := 8 } 1 =
      { lengthDw := 2, byteCount := 8, lowerAddress := 56 } := by decide +kernel

/-- A12: T = 00b blocks a translation request. -/
theorem test_a12 : firstRecord
    ((dmaOn (contextM 0 0x30001 0x701)).processRequest (atsRequest 0x0100 0x12345000) []) =
    some 0xD000000D000001000000000012345000 := by decide +kernel

/-- B2: a translated request of a device without T = 01b. -/
theorem test_b2 : firstRecord
    ((dmaOn (contextM 0 0x30001 0x701)).processRequest { access .read 0x0100 0xABCD678 with atype := 2 } []) =
    some 0xE000000D00000100000000000ABCD000 := by decide +kernel

/-! ## Interrupt requests (95 section 5.2), tags (section 4.3), registers and events (sections 9, 10) -/

theorem test_i1 : delivered ((irqOn 0x10 0x00002A0000410001 0).processRequest (msi 0x00F8 0xFEE00210 0xFFFFFFFF) []) =
    some (.remapped { dest := 0x2A, dm := false, rh := false, dlm := 0, tm := false, vector := 0x41 }) := by decide +kernel

theorem test_i8_blocked : delivered ((irqOn 0x13 0x0000010000510001 0x40100).processRequest (msi 0x0101 0xFEE00270 0) []) =
    none := by decide +kernel

/-- I18: NMI is edge-triggered whatever TM says. -/
theorem test_i18 : delivered ((irqOn 0x1A 0x0000FF0000000F9D 0).processRequest (msi 0x0100 0xFEE00350 0) []) =
    some (.remapped { dest := 0xFF, dm := true, rh := true, dlm := 4, tm := false, vector := 0 }) := by decide +kernel

/-- I24: the sum is not truncated, so it is beyond the table. -/
theorem test_i24 : interruptIndex 0xFEEFFFFC 1 = 0x10000 := by decide +kernel

theorem test_i31 : delivered (unitT.processRequest (msi 0x0100 0xFEE00000 0x4041) []) =
    some (.forwarded 0x0100 0xFEE00000 0x4041) := by decide +kernel

/-- A tag of device 0100h. -/
def tagAt (k count : Nat) : State :=
  { dmaOn [] with itags := unitT.itags.set k (some { sid := 0x0100, count := count, seq := 9 }) }

/-- T3: the second of two completions frees the tag. -/
theorem test_t3 : ((tagAt 3 0).atsCompletion 0x0100 0x8 2).tag 3 = some { sid := 0x0100, count := 1, seq := 9 } ∧
    ((tagAt 3 1).atsCompletion 0x0100 0x8 2).tag 3 = none := by decide +kernel

/-- T4 and T5: FSTS = 0000_0020h, the tag unchanged. -/
theorem test_t4_t5 : ((tagAt 3 0).atsCompletion 0x0100 0x18 1).reg.fsts = 0x20 ∧
    ((tagAt 3 0).atsCompletion 0x0108 0x8 1).reg.fsts = 0x20 ∧
    ((tagAt 3 0).atsCompletion 0x0108 0x8 1).tag 3 = some { sid := 0x0100, count := 0, seq := 9 } := by decide +kernel

/-- H1: the number of low bits of PLMBASE_REG. -/
theorem test_h1 : nextIs (unitT.registerWrite 4 0x68 0xFFFFFFFF) (fun t => t.reg.plmbase == 0xFFE00000) = true := by decide +kernel

/-- H5 and H6: a write to 0030_0000h is blocked, a read of 0040_0000h forwarded. -/
def protectedT : State :=
  { unitT with reg := { unitT.reg with pmen := 0x80000001, plmbase := 0x200000, plmlimit := 0x200000 } }

theorem test_h5_h6 : lastSent (protectedT.processRequest (access .write 0 0x300000) []) = some (.writeDropped 0 0x300000) ∧
    forwardedTo (protectedT.processRequest (access .read 0 0x400000) []) = some 0x400000 := by decide +kernel

/-- P1 steps 20 to 23: the record reads back, and writing 1 to F clears PPF. -/
theorem test_frcd_read : lastSent
    ({ unitT with reg := { unitT.reg with frcd := [0x80000005000001000000000012346000, 0] } }.registerRead 8 0x208) =
    some (.regValue 0x208 8 0x8000000500000100) := by decide +kernel

theorem test_frcd_clear : nextIs
    ({ unitT with reg := { unitT.reg with frcd := [0x80000005000001000000000012346000, 0] } }.registerWrite 4 0x20C 0x80000000)
    (fun t => !t.ppf && t.reg.frcd == [0x00000005000001000000000012346000, 0]) = true := by decide +kernel

/-- F1 and F2: masked, then unmasked. -/
theorem test_f2 : nextIs
    ({ unitT with reg := { unitT.reg with fectl := 0xC0000000, fedata := 0x30, feaddr := 0xFEE00000 } }.registerWrite 4 0x38 0)
    (fun t => t.posted == [.message .fault 0xFEE00000 0x30] && t.reg.fectl == 0) = true := by decide +kernel

/-- U2: RsvdP bits that differ from the value last read (0 before any read) are refused, also after another value was read. -/
theorem test_reserved_preserved :
    refusal (unitT.registerWrite 4 0x38 1) = some .reservedBitWritten ∧
    goesOn ({ unitT with preserved := { unitT.preserved with fectl := 1 } }.registerWrite 4 0x38 0x80000001) = true ∧
    refusal ({ unitT with preserved := { unitT.preserved with fectl := 1 } }.registerWrite 4 0x38 0x80000000) =
      some .reservedBitWritten := by decide +kernel

/-- R23: a processor store that races with an inbound request is a register write when the request is over. -/
theorem test_race_with_register_store : nextIs
    (unitT.handle (.request (access .read 0x0100 0x1000) [.store 0 0xFED90088 [0x20, 0, 0, 0]]))
    (fun t => t.inflight.length == 1 && t.reg.iqt == 0x20) = true := by decide +kernel

/-- A layout with the Types of cc_inv_dsc and iec_inv_dsc exchanged, and a pattern that makes cc_inv_dsc of G = 00b invalid. -/
theorem test_descriptor_parameters :
    queueDescriptor { Config.vectorT with dscLayout := .other [{ code := 4, kind := 1, places := List.range 128 }] } 0x14 =
      some (.ccInvDsc 1 0 0 0) ∧
    queueDescriptor { Config.vectorT with dscLayout := .other [{ code := 4, kind := 1, places := List.range 128 }] } 0x11 = none ∧
    queueDescriptor { Config.vectorT with invalidDsc := .patterns [(0x3F, 1)] } 1 = none ∧
    queueDescriptor { Config.vectorT with invalidDsc := .patterns [(0x3F, 1)] } 0x51 = some (.ccInvDsc 1 0 0 0) := by decide +kernel

/-- R10: a layout has a form for each type, and leaves bits 3:0 to the Type; the register pages are host physical addresses. R22:
FRCD_REG[0] over FEADDR_REG (FRO = 4), and IVA_REG over FRCD_REG[0] (IVO = FRO), are no legal places. -/
theorem test_legal_parameters :
    Config.full.legal = true ∧ Config.vectorT.legal = true ∧
    (DscLayout.other ([1, 2, 3, 4, 5].map (fun k =>
      { code := BitVec.ofNat 4 (k + 1), kind := k, places := List.range 128 }))).legal = true ∧
    (DscLayout.other ([1, 2, 3, 4].map (fun k => { code := BitVec.ofNat 4 k, kind := k, places := List.range 128 }))).legal =
      false ∧
    (DscLayout.other ([1, 2, 3, 4, 5].map (fun k =>
      { code := BitVec.ofNat 4 k, kind := k, places := (List.range 128).reverse }))).legal = false ∧
    { Config.full with regBase := 0x10000000000 }.legal = false ∧
    (variant 0x00C90184046F0662 0xF010CF).legal = false ∧ (variant 0x00C90184206F0662 0xF020CF).legal = false := by decide +kernel

/-- R177, R189: with R and W Clear nothing else of a directory entry is evaluated, so with CAP.CM = 1 SP makes no difference to
the PDE cache; a level-0 entry is none of its. With CAP.CM = 0 nothing is kept. -/
theorem test_not_present_directory_entry_is_kept :
    [0x80, 0].map (fun e => pdeCacheable (variant 0x00C90184206F06E2 0xF010CF) e 1) = [true, true] ∧
    pdeCacheable (variant 0x00C90184206F06E2 0xF010CF) 0 0 = false ∧
    pdeCacheable (variant 0x00C90184206F06E2 0xF010CF) 0x81 1 = false ∧ pdeCacheable Config.vectorT 0 1 = false ∧
    pdeCacheable Config.vectorT 0x50003 1 = true := by decide +kernel

/-- R36, R68: of IVA_REG the write-only fields read as draws, the RsvdZ bits 11:7 as 0. -/
theorem test_iva_reserved_bits_read_zero :
    unitT.freeReadBits .iva = 0xFFFFFFFFFFFFF07F ∧
    ({ unitT with reg := { unitT.reg with iva := 0xFFFFFFFFFFFFF07F } }.regValue .iva).extractLsb' 7 5 = 0 := by decide +kernel

/-- R335, CAP.CM = 1: a write-only leaf with a reserved bit Set (SNP of an implementation without snoop control, as in V42) is
kept, and a cached one answers a read with the permission fault and a write with the reserved-bit fault, as the entry does. -/
theorem test_erroneous_leaf_is_kept :
    cacheableLeaf (variant 0x00C90184206F06E2 0xF0104F) 0xABCD802 0 false true = some (.erroneous 0 false true) ∧
    cacheableLeaf (variant 0x00C90184206F0662 0xF0104F) 0xABCD802 0 false true = none ∧
    entryVerdict (variant 0x00C90184206F06E2 0xF0104F) .read 0xABCD802 0 false true =
      .stop (.fault (erroneousReason .read false true)) ∧
    entryVerdict (variant 0x00C90184206F06E2 0xF0104F) .write 0xABCD802 0 false true =
      .stop (.fault (erroneousReason .write false true)) ∧
    erroneousReason .read false true = .readDenied ∧ erroneousReason .write false true = .pageReserved := by decide +kernel

/-- A translation of domain 7 to beyond MGAW (48 bits) serves no request (R236, R61). -/
theorem test_mgaw_before_iotlb :
    ({ dmaOn (contextM 0 0x30001 0x701) with
        cache := { unitT.cache with iotlb := [{ cachedPage with page := 0x1000000000 }] } }.translate [] 0x10 0x0100
      0x1000000000000 .read).answer = .fault .beyondWidth false := by decide +kernel

/-- R535: a fault that is logged after both remappings were disabled leaves pf_index 0. -/
theorem test_pf_index_stays_0 :
    (unitT.logPrimary 1).log.pfIndex = 0 ∧ recordF ((unitT.logPrimary 1).faultReg 0) = true ∧
    ((unitT.setGsts 31 true).logPrimary 1).log.pfIndex = 1 := by decide +kernel

/-- R152: the write-back of one processor leaves another processor's byte of the quadword. -/
theorem test_writeback_per_processor :
    (((({ unitT with cfg := { Config.vectorT with ecap := 0xF010CE } }.processorStore 0 0x1000 [0xAA]).processorStore 1 0x1001
      [0xBB]).writeback 0 0x1000).mem.readBytes 0x1000 2) = [0xAA, 0] := by decide +kernel

/-- R290: with a tag allocated the queue is not quiesced. -/
theorem test_quiesced_needs_free_tags :
    (unitT.quiesced, { unitT with itags := [busyTag] }.quiesced) = (true, false) := by decide +kernel

/-! ## The hypotheses of every statement are met -/

/-- A pending descriptor. -/
def dsc (seq epoch : Nat) (i : Instr) : Pending := { seq := seq, epoch := epoch, instr := i }

/-- The unit with descriptors in its queue engine. -/
def holding (ps : List Pending) : State := { unitT with iq := { unitT.iq with pending := ps } }

/-- A command is pending and nothing else is to be done. -/
def commanded (w : CmdWrite) : State := { unitT with cmd := some w }

theorem test_witness_DecodeOfEncodeIsTheInstruction :
    requestable { gsts := 0x80000000, prs := true } (.gcmdTe false) = true ∧
    requestable { gsts := 0x80000000, prs := true } (.pmenEpm false) = true ∧
    requestable { gsts := 0, prs := false } (.iotlbInvDsc 3 true true 0xFFFF 0x3F true 0xFFFFFFFFFFFFF) = true := by decide +kernel

theorem test_witness_DescriptorBitsAreDetermined :
    decodeDescriptor 0xFFFFFFFFFFFFF07F00000000FFFF00F2 =
      .instr (.iotlbInvDsc 3 true true 0xFFFF 0x3F true 0xFFFFFFFFFFFFF) := by decide +kernel

theorem test_witness_StepRunsThePendingCommand :
    (commanded { reg := .gcmd, value := 0x40000000 }).agenda = [] ∧
    decodeCommand (commanded { reg := .gcmd, value := 0x40000000 }).cmdContext { reg := .gcmd, value := 0x40000000 } =
      .instr .gcmdSrtp ∧ wellFormed (commanded { reg := .gcmd, value := 0x40000000 }).cfg .gcmdSrtp = true := by decide +kernel

/-- A Device-IOTLB descriptor; for the others the last hypothesis asks nothing. -/
theorem test_witness_StepRunsTheDescriptorAtTheHead :
    (queued 0x10700000003 0x12345000).cfg.dscLayout = .reference ∧ (queued 0x10700000003 0x12345000).cfg.invalidDsc = .decisionD7 ∧
    (queued 0x10700000003 0x12345000).agenda = [] ∧ (queued 0x10700000003 0x12345000).cmd = none ∧
    (queued 0x10700000003 0x12345000).iq.pending = [] ∧ (queued 0x10700000003 0x12345000).iq.ahead = [] ∧
    (queued 0x10700000003 0x12345000).fetchEnabled = true ∧
    (queued 0x10700000003 0x12345000).qt < (queued 0x10700000003 0x12345000).queueSlots ∧
    accessError (queued 0x10700000003 0x12345000).cfg
      ((queued 0x10700000003 0x12345000).slotAddress (queued 0x10700000003 0x12345000).qh) 16 = false ∧
    queueBytes (queued 0x10700000003 0x12345000).cfg ((queued 0x10700000003 0x12345000).cpuView.readBytes
      ((queued 0x10700000003 0x12345000).slotAddress (queued 0x10700000003 0x12345000).qh) 16) =
      some (.devIotlbInvDsc 0 0x0107 false 0x12345) ∧
    0 < (queued 0x10700000003 0x12345000).itags.length ∧ (queued 0x10700000003 0x12345000).tag 0 = none ∧
    (queued 0x10700000003 0x12345000).issued (queued 0x10700000003 0x12345000).iq.nextSeq = false := by decide +kernel

/-- The last slot of the queue: M2. -/
def lastSlot (lo : Nat) : State :=
  { queued 0 0 with mem := quads [(0x70FF0, lo)], reg := { unitT.reg with gsts := 0x04000000, iqa := 0x70000, iqh := 0xFF0 } }

/-- A descriptor in the first slot and in the last, a wait; an invalid descriptor, an invalid tail (M5), an access error (M6). -/
theorem test_witness_FetchAdvancesOrHoldsTheHead :
    ((queued 0x11 0).fetchEnabled = true ∧ (queued 0x11 0).fetched [(queued 0x11 0).cpuView] = some (.ccInvDsc 1 0 0 0)) ∧
    ((lastSlot 0x11).fetchEnabled = true ∧ (lastSlot 0x11).fetched [(lastSlot 0x11).cpuView] = some (.ccInvDsc 1 0 0 0)) ∧
    (queued 0x15 0).fetched [(queued 0x15 0).cpuView] = some (.invWaitDsc true false false 0 0) ∧
    (queued 7 0).fetched [(queued 7 0).cpuView] = none ∧
    { queued 0x11 0 with reg := { (queued 0x11 0).reg with iqt := 0x1000 } }.fetched [(queued 0x11 0).cpuView] = none ∧
    { queued 0x11 0 with cfg := { Config.vectorT with accessErrors := [{ base := 0x70000, size := 16 }] } }.fetched
      [(queued 0x11 0).cpuView] = none := by decide +kernel

/-- An unmasked fault event that a transient condition holds. -/
def heldEvent : State := { unitT with reg := { unitT.reg with fectl := 0x40000000 }, feHold := true }

/-- A descriptor that is ready, one to fetch, and the unit with nothing before it but an event message that is held. -/
theorem test_witness_TheScheduleServesAllThatIsOwed :
    unitT.agenda = [] ∧ unitT.cmd = none ∧
    (holding [dsc 0 0 (.ccInvDsc 1 0 0 0)]).iq.pending.find? (holding [dsc 0 0 (.ccInvDsc 1 0 0 0)]).ready =
      some (dsc 0 0 (.ccInvDsc 1 0 0 0)) ∧
    goesOn (step (holding [dsc 0 0 (.ccInvDsc 1 0 0 0)])) = true ∧
    (queued 7 0).iq.pending.find? (queued 7 0).ready = none ∧ (queued 7 0).fetchEnabled = true ∧
    goesOn (step (queued 7 0)) = true ∧ unitT.iq.pending.find? unitT.ready = none ∧ unitT.fetchEnabled = false ∧
    unitT.unlogged = [] ∧ unitT.inflight = [] ∧ unitT.irqs = [] ∧ unitT.posted = [] ∧
    heldEvent.iq.pending.find? heldEvent.ready = none ∧ heldEvent.fetchEnabled = false ∧ heldEvent.wbuf = [] ∧
    heldEvent.fePending = true ∧ heldEvent.feMask = false ∧ heldEvent.feHold = true := by decide +kernel

/-- R557: the idle unit sends it. -/
theorem test_held_event_is_sent : nextIs (step heldEvent)
    (fun t => t.posted == [.message .fault 0 0] && !t.fePending && !t.feHold) = true := by decide +kernel

/-- One hold event that ends both conditions: the fault message first (log 34). -/
theorem test_holds_end_together :
    ({ unitT with reg := { unitT.reg with fectl := 0x40000000, iectl := 0x40000000 }, feHold := true, ieHold := true }.setHolds
      false false).posted = [.message .fault 0 0, .message .invalidation 0 0] := by decide +kernel

theorem test_witness_IotlbWaitsForContextCache :
    dsc 1 0 (.iotlbInvDsc 1 false false 0 0 false 0) ∈
      (holding [dsc 0 0 (.ccInvDsc 1 0 0 0), dsc 1 0 (.iotlbInvDsc 1 false false 0 0 false 0)]).iq.pending ∧
    dsc 0 0 (.ccInvDsc 1 0 0 0) ∈
      (holding [dsc 0 0 (.ccInvDsc 1 0 0 0), dsc 1 0 (.iotlbInvDsc 1 false false 0 0 false 0)]).iq.pending ∧ 0 < 1 ∧
    ∀ r ∈ (holding [dsc 0 0 (.ccInvDsc 1 0 0 0), dsc 1 0 (.iotlbInvDsc 1 false false 0 0 false 0)]).iq.pending,
      r.seq = 1 → r = dsc 1 0 (.iotlbInvDsc 1 false false 0 0 false 0) := by decide +kernel

/-- Both alternatives: behind an iotlb_inv_dsc (0) and behind an iec_inv_dsc (1). -/
theorem test_witness_DeviceIotlbWaitsForIotlbAndIec :
    (∀ q ∈ [dsc 0 0 (.iotlbInvDsc 1 false false 0 0 false 0), dsc 1 0 (.iecInvDsc false 0 0)],
      q ∈ (holding [dsc 0 0 (.iotlbInvDsc 1 false false 0 0 false 0), dsc 1 0 (.iecInvDsc false 0 0),
        dsc 2 0 (.devIotlbInvDsc 0 7 false 0)]).iq.pending ∧ q.seq < 2) ∧
    ∀ r ∈ (holding [dsc 0 0 (.iotlbInvDsc 1 false false 0 0 false 0), dsc 1 0 (.iecInvDsc false 0 0),
        dsc 2 0 (.devIotlbInvDsc 0 7 false 0)]).iq.pending, r.seq = 2 → r = dsc 2 0 (.devIotlbInvDsc 0 7 false 0) := by
  decide +kernel

/-- Both alternatives: a wait (1) behind a descriptor of its epoch (0), and anything (2) behind a fenced wait (1). -/
theorem test_witness_WaitsAndFencesHoldBack :
    (dsc 0 0 (.ccInvDsc 1 0 0 0)).epoch = (dsc 1 0 (.invWaitDsc false true true 0 0)).epoch ∧
    ∀ r ∈ (holding [dsc 0 0 (.ccInvDsc 1 0 0 0), dsc 1 0 (.invWaitDsc false true true 0 0), dsc 2 1 (.iecInvDsc false 0 0)]).iq.pending,
      (r.seq = 1 → r = dsc 1 0 (.invWaitDsc false true true 0 0)) ∧ (r.seq = 2 → r = dsc 2 1 (.iecInvDsc false 0 0)) := by
  decide +kernel

/-- An implementation with a write buffer and one without, memory in canonical form, and an address that the buffered store
does not touch. The four granularity codes exclude each other. -/
theorem test_witness_CcInvDscInvalidatesTheContextCache :
    (State.initial Config.full).cfg.rwbf = true ∧ unitT.cfg.rwbf = false ∧ (quads [(0x1000, 0xFF)]).wf = true ∧
    { unitT with wbuf := [[(0x1000, 0xAB)]] }.bufferedAt 0x1001 = false := by decide +kernel

/-- An in-flight write of domain 7 to 0ABC_D000h. -/
def writeInFlight : InFlight :=
  { kind := .write, atype := 0, sid := 0x0100, did := some 7, dva := 0x12345000, hpa := 0xABCD000,
    enables := [true, true, true, true], data := [1, 2, 3, 4], snoop := true }

/-- A drained write in the scope of the request, an address beside it, an address mask on each side of CAP.MAMV, and a
page-selective request without CAP.PSI, which the queue form must serve. -/
theorem test_witness_IotlbInvDscRemovesAndDrains :
    unitT.cfg.dwd = true ∧ unitT.cfg.drd = true ∧ drainable .write writeInFlight = true ∧
    inRequestedScope unitT.cfg 3 7 0x12345 0 writeInFlight = true ∧
    { unitT with inflight := [writeInFlight] }.writtenInFlight (fun f => drainable .write f) 0xABCD004 = false ∧
    { unitT with inflight := [writeInFlight] }.writtenInFlight (fun f => drainable .write f) 0xABCD003 = true ∧
    iotlbRequestValid unitT.cfg false 3 9 = true ∧ iotlbRequestIncorrect unitT.cfg 3 10 = true ∧
    iotlbRequestValid (variant 0x00C90104206F0662 0xF010CF) false 3 10 = true ∧
    (variant 0x00C90104206F0662 0xF010CF).psi = false := by decide +kernel

/-- CAIG = 01b, which the last clauses speak of, is what a global request reports (C1); the codes exclude each other. -/
theorem test_witness_CcmdIccReportsWhatItDid : nextIs
    (exec (.ccmdIcc 1 0 0 0) { unitT with reg := { unitT.reg with ccmd := 0xA000000000000000 } })
    (fun t => t.reg.ccmd.extractLsb' 59 2 == 1) = true := by decide +kernel

/-- No tag is free (T7); the last one is; and MaxInvsPend tags are allocated to the device. -/
theorem test_witness_DevIotlbInvDscIssuesOrDefers :
    (∀ j ∈ List.range 32, { unitT with itags := List.replicate 32 busyTag }.tag j ≠ none) ∧
    nextIs (exec (.devIotlbInvDsc 0 7 false 0) { unitT with itags := List.replicate 31 busyTag ++ [none] })
      (fun t => t.tag 31 == some { sid := 7, count := 0, seq := 0 } && t.out == [.invRequest 7 31 0 false]) = true ∧
    (2 : BitVec 5).toNat ≤ { unitT with itags := [busyTag, none, busyTag] }.tagsOf 7 := by decide +kernel

/-- The index masks on both sides of ECAP.MHMV. -/
theorem test_witness_IecInvDscInvalidatesAndDrains :
    (15 : BitVec 5).toNat ≤ unitT.cfg.mhmv ∧ unitT.cfg.mhmv < (16 : BitVec 5).toNat ∧ unitT.mem.wf = true := by decide +kernel

/-- The last doubleword of the address space, and of memory below the interrupt range; the first one at 2^HAW, and of the
interrupt range. -/
theorem test_witness_InvWaitDscPostsStatusAndEvent :
    unitWritable unitT.cfg ((0x3FFFFFFFFF : BitVec 62).toNat * 4) 4 = true ∧
    unitWritable unitT.cfg ((0x3FB7FFFF : BitVec 62).toNat * 4) 4 = true ∧
    unitWritable unitT.cfg ((0x4000000000 : BitVec 62).toNat * 4) 4 = false ∧
    unitWritable unitT.cfg ((0x3FB80000 : BitVec 62).toNat * 4) 4 = false ∧
    refusal (exec (.invWaitDsc false true false 0 0x3FB80000) unitT) = some .unitWriteError := by decide +kernel

/-- Two status writes that overlap, with a log write between them; the message behind them. -/
def postedT : State :=
  { unitT with posted := [.statusWrite 0x80000 0x11223344, .logWrite 0x90000 1, .statusWrite 0x80002 0x55667788,
      .message .invalidation 0xFEDFFFFC 0x31, .statusWrite 0x80000 0] }

/-- A message address in memory, the interrupt range's edge, and an address that is no memory of the unit. The invalidation
message at place 3 pushes the status writes at 0 and 2 and not the one at 4; the log write at 1 is no such message, and at 5 there
is nothing. Of the two status writes that meet at 80002h the younger one stays (log 51). -/
theorem test_witness_PostedItemsBecomeVisible :
    (quads [(0x80000, 0x1122334455667788)]).wf = true ∧ unitWritable unitT.cfg (0xFEDFFFFC : BitVec 64).toNat 4 = true ∧
    unitWritable unitT.cfg (0xFEE00000 : BitVec 64).toNat 4 = false ∧
    (unitT.perform (.logWrite 0x90008 0x8000000500000100)).mem.read 0x9000F = 0x80 ∧
    (postedT.posted[0]? = some (.statusWrite 0x80000 0x11223344) ∧ postedT.posted[1]? = some (.logWrite 0x90000 1) ∧
      postedT.posted[3]? = some (.message .invalidation 0xFEDFFFFC 0x31) ∧ postedT.posted[5]? = none) ∧
    (postedT.deliver 3).posted = [.logWrite 0x90000 1, .statusWrite 0x80000 0] ∧
    (postedT.deliver 3).mem.readBytes 0x80000 6 = [0x44, 0x33, 0x88, 0x77, 0x66, 0x55] ∧
    (postedT.deliver 3).mem.read 0xFEDFFFFC = 0x31 := by decide +kernel

/-- No CAP.PSI, a write of domain 7 in flight, and IVA_REG naming its page. -/
def withoutPsi : State :=
  { State.initial (variant 0x00C90104206F0662 0xF010CF) with
    inflight := [writeInFlight], reg := { unitT.reg with iva := 0x12345000 } }

/-- The address masks on both sides of CAP.MAMV, a reserved code, and a page-selective request without CAP.PSI, which is
neither one that must be served nor one that must be ignored; IAIG = 1 where CAP.PSI = 0, with the drain performed. -/
theorem test_witness_IotlbIvtReportsWhatItDid :
    nextIs (exec (.iotlbIvt 4 true true 7) unitT) (fun t => t.reg.iotlb.extractLsb' 57 3 == 0) = true ∧
    iotlbRequestValid unitT.cfg true 3 9 = true ∧ iotlbRequestIncorrect unitT.cfg 3 10 = true ∧
    iotlbRequestIncorrect unitT.cfg 4 0 = true ∧ iotlbRequestValid unitT.cfg true 1 0 = true ∧
    iotlbRequestValid (variant 0x00C90104206F0662 0xF010CF) true 3 0 = false ∧
    iotlbRequestIncorrect (variant 0x00C90104206F0662 0xF010CF) 3 0 = false ∧
    (variant 0x00C90104206F0662 0xF010CF).psi = false ∧
    nextIs (exec (.iotlbIvt 1 true true 7) withoutPsi) (fun t => t.reg.iotlb.extractLsb' 57 3 == 1 && t.inflight == []) = true := by
  decide +kernel

/-- D28: without CAP.PSI a page-selective request is performed, its drain too, or ignored, whatever the draw. -/
theorem test_page_selective_without_psi : ∃ t, exec (.iotlbIvt 3 true true 7) withoutPsi = .next t ∧
    ((t.reg.iotlb.extractLsb' 57 3 = 0 ∧ t.inflight = [writeInFlight]) ∨
      ((t.reg.iotlb.extractLsb' 57 3 = 1 ∨ t.reg.iotlb.extractLsb' 57 3 = 2) ∧ t.inflight = [])) := by
  refine ⟨_, rfl, ?_⟩
  cases hi : iotlbIgnored withoutPsi.cfg true 3 (ivaMask withoutPsi.reg.iva) (withoutPsi.free 5) with
  | true =>
      left
      simp only [State.invalidateIotlb, State.iotlbGranularity, hi, if_true]
      exact ⟨by decide +kernel, by decide +kernel⟩
  | false =>
      right
      have hg : iotlbGranOf (3 : BitVec 3) = some .page := rfl
      simp only [State.invalidateIotlb, State.iotlbGranularity, hi, hg, Option.map, Bool.false_eq_true, if_false]
      have hc : coarsenIotlb withoutPsi.cfg .page (withoutPsi.free 5) = .domain ∨
          coarsenIotlb withoutPsi.cfg .page (withoutPsi.free 5) = .global := by
        have hp : withoutPsi.cfg.psi = false := by decide +kernel
        unfold coarsenIotlb
        rw [hp]
        simp only [Bool.false_and, Bool.false_eq_true, if_false]
        split
        · exact .inl rfl
        · exact .inr rfl
      rcases hc with hc | hc <;> rw [hc]
      · exact ⟨.inr (by decide +kernel), by decide +kernel⟩
      · exact ⟨.inl (by decide +kernel), by decide +kernel⟩

/-- An implementation that drains and one that does not (CAP.DRD = CAP.DWD = 0); a byte beside an in-flight write. -/
theorem test_witness_TranslationEnableAndDisable :
    (dmaOn []).latch.rtp ≠ none ∧ ((dmaOn []).cfg.drd || (dmaOn []).cfg.dwd) = true ∧
    ((variant 0x00090184206F0662 0xF010CF).drd || (variant 0x00090184206F0662 0xF010CF).dwd) = false ∧
    (dmaOn [(0x1000, 0xFF)]).mem.wf = true ∧
    { dmaOn [] with inflight := [writeInFlight] }.writtenInFlight (drainable .write) 0xABCD004 = false := by decide +kernel

/-- Both remappings disabled, a fault log pointer, and a quiesced queue (P5 step 3). -/
theorem test_witness_LevelCommandsSetOneStatusBit :
    unitT.tes = false ∧ unitT.ires = false ∧
    { unitT with latch := { unitT.latch with flp := some { base := 0x90, size := 0 } } }.latch.flp ≠ none ∧
    { unitT with reg := { unitT.reg with iqh := 0x60, iqt := 0x60 } }.qh =
      { unitT with reg := { unitT.reg with iqh := 0x60, iqt := 0x60 } }.qt ∧
    unitT.iq.lastWait = true ∧ unitT.iq.pending = [] ∧ (∀ g ∈ unitT.itags, g = none) := by decide +kernel

theorem test_witness_WriteBufferFlushPerformsTheStores :
    (State.initial Config.full).cfg.rwbf = true ∧ unitT.cfg.rwbf = false ∧ unitT.mem.wf = true ∧
    { unitT with wbuf := [[(0x1000, 0xAB)]] }.bufferedAt 0x1001 = false := by decide +kernel

/-- Two interrupts are drained in the order of their arrival: the younger one is the last sent. -/
theorem test_witness_InterruptEnableAndDisable : (irqOn 0 0 0).latch.irtp ≠ none ∧
    nextIs (exec (.gcmdIre true) { irqOn 0 0 0 with irqs :=
      [{ index := none, message := .forwarded 1 0xFEE00000 0x41 }, { index := none, message := .forwarded 2 0xFEE00000 0x42 }] })
      (fun t => t.out == [.interrupt (.forwarded 2 0xFEE00000 0x42), .interrupt (.forwarded 1 0xFEE00000 0x41)]) = true := by
  decide +kernel

/-- A region on the interrupt range, and one beside it. -/
theorem test_witness_ProtectedMemoryEnableAndDisable :
    overlapsProtected unitT.cfg unitT.reg 0xFEE00000 0x100000 = false ∧
    overlapsProtected unitT.cfg { unitT.reg with plmbase := 0xFEC00000, plmlimit := 0xFEE00000 } 0xFEE00000 0x100000 = true := by
  decide +kernel

/-- Each refusal happens, that of the queue without a last wait and with a tag allocated. -/
theorem test_witness_CommandsRefusedExactlyWhen :
    refusal (exec (.gcmdTe true) unitT) = some .pointerNeverSet ∧ refusal (exec (.gcmdIre true) unitT) = some .pointerNeverSet ∧
    refusal (exec (.gcmdEafl false) (dmaOn [])) = some .loggingMethodActive ∧
    refusal (exec (.gcmdEafl true) unitT) = some .pointerNeverSet ∧
    refusal (exec (.gcmdQie false) { unitT with iq := { unitT.iq with lastWait := false } }) = some .queueNotQuiesced ∧
    refusal (exec (.gcmdQie false) { unitT with itags := [busyTag] }) = some .queueNotQuiesced ∧
    refusal (exec (.pmenEpm true) { unitT with reg := { unitT.reg with plmlimit := 0xFEE00000 } }) =
      some .protectedOverInterrupts := by decide +kernel

/-- A level command and each of the four commands that change a status bit at once. -/
theorem test_witness_GcmdWriteSubmitsOneCommand :
    State.reset.cmd = none ∧ decodeGcmd State.reset.reg.gsts 0x80000000 = .instr (.gcmdTe true) ∧
    wellFormed State.reset.cfg (.gcmdTe true) = true ∧ decodeGcmd State.reset.reg.gsts 0x40000000 = .instr .gcmdSrtp ∧
    decodeGcmd State.reset.reg.gsts 0x20000000 = .instr .gcmdSfl ∧ wellFormed State.reset.cfg .gcmdSfl = true ∧
    decodeGcmd State.reset.reg.gsts 0x08000000 = .instr .gcmdWbf ∧ wellFormed State.reset.cfg .gcmdWbf = true ∧
    decodeGcmd State.reset.reg.gsts 0x01000000 = .instr .gcmdSirtp ∧ wellFormed State.reset.cfg .gcmdSirtp = true := by
  decide +kernel

/-- Each refusal happens: a RsvdZ bit and a changed RsvdP bit; the first and the last of bits N:0 of each protected-memory register,
and all ones in a limit register (not in a base register); a write of each register that a pending command bars, and of the
operand register of SRTP, of SIRTP and of EPM; IQA_REG
and both invalidation commands while the queue is enabled; a protected-memory register while PRS = 1; and at GCMD_REG two
commands, and an absent facility. -/
theorem test_witness_BadSubmissionsAreRefused :
    refusal (unitT.registerWrite 4 0x18 1) = some .reservedBitWritten ∧
    refusal (unitT.registerWrite 4 0x64 2) = some .reservedBitWritten ∧
    [(0x68, 1), (0x68, 0x100000), (0x6C, 1), (0x6C, 0x100000), (0x70, 1), (0x78, 1), (0x6C, 0xFFFFFFFF), (0x78, 0xFFFFFFFF)].map
      (fun w => refusal (unitT.registerWrite 4 w.1 w.2)) = List.replicate 8 (some .reservedBitWritten) ∧
    [(0x68, 0x200000), (0x6C, 0x200000), (0x68, 0xFFFFFFFF), (0x70, 0xFFFFFFFF), (0x74, 0xFFFFFFFF), (0x7C, 1)].map
      (fun w => goesOn (unitT.registerWrite 4 w.1 w.2)) = List.replicate 6 true ∧
    [(4, 0x18), (4, 0x2C), (4, 0x100), (4, 0x10C), (4, 0x64)].map (fun w =>
      refusal ((commanded { reg := .gcmd, value := 0x40000000 }).registerWrite w.1 w.2 0)) =
      List.replicate 5 (some .commandPending) ∧
    refusal ((commanded { reg := .gcmd, value := 0x40000000 }).registerWrite 4 0x20 0) = some .registerOwned ∧
    refusal ((commanded { reg := .gcmd, value := 0x01000000 }).registerWrite 4 0xB8 0) = some .registerOwned ∧
    refusal ((commanded { reg := .pmen, value := 0x80000000 }).registerWrite 4 0x68 0) = some .registerOwned ∧
    [0x90, 0x94].map (fun off => refusal ((queued 0 0).registerWrite 4 off 0)) = List.replicate 2 (some .queueEnabled) ∧
    [0x68, 0x6C, 0x70, 0x7C].map (fun off => refusal (protectedT.registerWrite 4 off 0)) =
      List.replicate 4 (some .protectedEnabled) ∧
    refusal (unitT.registerWrite 4 0x18 0xC0000000) = some .severalCommands ∧
    refusal (unitT.registerWrite 4 0x18 0x20000000) = some .unsupportedField ∧
    refusal ((queued 0 0).registerWrite 8 0x28 0xA000000000000000) = some .queueEnabled ∧
    (goodAccess unitT.cfg 8 0x108 = true ∧ registerAt unitT.cfg 0x108 = some (.iotlb, 0) ∧
      registerAt unitT.cfg 0x10C = some (.iotlb, 1)) ∧
    refusal ((queued 0 0).registerWrite 8 0x108 0x9003000000000000) = some .queueEnabled := by decide +kernel

/-- C1, C6 and H4 as register writes; the same with ICC, IVT and EPM Clear; a GCMD_REG word that repeats the status and Sets
nothing else; and lower doublewords as stored. -/
theorem test_witness_RegisterWritesSubmitTheirCommand :
    unitT.cmd = none ∧ unitT.qies = false ∧ (0xA000000000000000 : BitVec 64) &&& 0x07FFFFFC00000000 = 0 ∧
    goodAccess unitT.cfg 8 0x108 = true ∧ registerAt unitT.cfg 0x108 = some (.iotlb, 0) ∧
    registerAt unitT.cfg 0x10C = some (.iotlb, 1) ∧ (0x9003000000000000 : BitVec 64) &&& 0x01FC000000000000 = 0 ∧
    (0x9003000000000000 : BitVec 64).setWidth 32 = unitT.preserved.iotlb ∧ (unitT.cfg.plmr || unitT.cfg.phmr) = true ∧
    (0x80000000 : BitVec 32).getLsbD 31 ≠ unitT.prs ∧
    (0x80000000 : BitVec 32) &&& 0x7FFFFFFE = unitT.preserved.pmen &&& 0x7FFFFFFE ∧
    (0xA000000000000000 : BitVec 64).getLsbD 63 = true ∧ (0x20000003FFFFFFFF : BitVec 64).getLsbD 63 = false ∧
    (0x20000003FFFFFFFF : BitVec 64) &&& 0x07FFFFFC00000000 = 0 ∧
    (0xA000000000000000 : BitVec 64).setWidth 32 = unitT.reg.ccmd.setWidth 32 ∧
    (0x9003000000000000 : BitVec 64).getLsbD 63 = true ∧ (0x7003FFFF00000000 : BitVec 64).getLsbD 63 = false ∧
    (0x7003FFFF00000000 : BitVec 64) &&& 0x01FC000000000000 = 0 ∧
    (0x7003FFFF00000000 : BitVec 64).setWidth 32 = unitT.preserved.iotlb ∧ (0 : BitVec 32).getLsbD 31 = unitT.prs ∧
    ((0x86800000 : BitVec 32) &&& 0x007FFFFF = 0 ∧
      [31, 28, 26, 25, 23].map (0x86800000 : BitVec 32).getLsbD = [31, 28, 26, 25, 23].map (0xC6800000 : BitVec 32).getLsbD ∧
      [30, 29, 27, 24].map (0x86800000 : BitVec 32).getLsbD = List.replicate 4 false) := by decide +kernel

/-- The domain-id of a request is stored to the width that CAP.ND gives, the other writable bits as written (12 R121). -/
theorem test_request_without_icc : nextIs (unitT.registerWrite 8 0x28 0x2000000312340007)
    (fun t => t.reg.ccmd == 0x2000000312340007 && t.cmd == none) = true := by decide +kernel

/-- The first and the last plain register, a high doubleword, IQT_REG and IQA_REG. -/
theorem test_witness_PlainRegistersReadBack :
    (registerAt unitT.cfg 0x20 = some (.rtaddr, 0) ∧ unitT.writeRefusal .rtaddr 0 0x10000 = none ∧ RegId.isPlain .rtaddr = true) ∧
    (registerAt unitT.cfg 0xBC = some (.irta, 1) ∧ unitT.writeRefusal .irta 1 0xFF00000000 = none ∧ RegId.isPlain .irta = true) ∧
    (registerAt unitT.cfg 0x88 = some (.iqt, 0) ∧ unitT.writeRefusal .iqt 0 0x20 = none ∧ RegId.isPlain .iqt = true) ∧
    registerAt unitT.cfg 0x90 = some (.iqa, 0) ∧ unitT.writeRefusal .iqa 0 0x70000 = none ∧ unitT.cfg.qi = true := by decide +kernel

theorem test_witness_RegisterWriteTouchesRegistersOnly :
    ∃ t, unitT.registerWrite 8 0x90 0x70000 = .next t := next_of_goesOn (by decide +kernel)

/-- The registers that the statement names, the last doubleword of the register pages, and a reserved one. -/
theorem test_witness_RegisterReadPushesPostedWrites :
    goodAccess unitT.cfg 4 0 = true ∧ goodAccess unitT.cfg 8 0x08 = true ∧ goodAccess unitT.cfg 4 0x1C = true ∧
    goodAccess unitT.cfg 4 0x34 = true ∧ goodAccess unitT.cfg 4 0xFFC = true ∧ registerAt unitT.cfg 0xFFC = none ∧
    goodAccess unitT.cfg 4 0x30 = true ∧ registerAt unitT.cfg 0x30 = none := by decide +kernel

/-- The first and the last fault recording register. -/
theorem test_witness_WritingFaultBitClearsTheRecord :
    registerAt unitT.cfg 0x20C = some (.frcd 0, 3) ∧ 0 < unitT.reg.frcd.length ∧
    registerAt unitT.cfg 0x21C = some (.frcd 1, 3) ∧ 1 < unitT.reg.frcd.length ∧ registerAt unitT.cfg 0x22C = none := by
  decide +kernel

/-- A pending event behind each mask (F1, G1), IWC to be cleared (G2), and IQE to be serviced (P4). -/
theorem test_witness_UnmaskingAndServicingEvents :
    { unitT with reg := { unitT.reg with fectl := 0xC0000000 } }.fePending = true ∧ unitT.feHold = false ∧
    { unitT with reg := { unitT.reg with iectl := 0xC0000000 } }.iePending = true ∧ unitT.ieHold = false ∧
    unitT.cfg.qi = true ∧ (0 : BitVec 32) &&& 0x3FFFFFFF = unitT.preserved.fectl &&& 0x3FFFFFFF ∧
    (0 : BitVec 32) &&& 0x3FFFFFFF = unitT.preserved.iectl &&& 0x3FFFFFFF ∧
    (0x71 : BitVec 32).setWidth 128 &&& mustBeZeroBits unitT.cfg .fsts = 0 ∧
    nextIs ({ queued 0x11 0 with reg := { (queued 0x11 0).reg with fsts := 0x10 } }.registerWrite 4 0x34 0x10)
      (fun t => t.fetchEnabled) = true := by decide +kernel

theorem inv_unitT : unitT.Inv where
  mem := by decide +kernel
  frcd := by decide +kernel
  itags := by decide +kernel
  gsts := by decide +kernel
  fsts := by decide +kernel
  pfIndex := by decide +kernel
  afIndex := fun _ h => nomatch h
  wbuf := fun _ => rfl
  dirty := fun _ => rfl
  dirtyOnce := List.nodup_nil

/-- One record is held, and the next one goes to the other register, the last. -/
def oneRecord : State :=
  { unitT with
    reg := { unitT.reg with gsts := 0x80000000, frcd := [0x80000005000001000000000012346000, 0] }
    log := { unitT.log with pfIndex := 1 } }

theorem inv_oneRecord : oneRecord.Inv where
  mem := by decide +kernel
  frcd := by decide +kernel
  itags := by decide +kernel
  gsts := by decide +kernel
  fsts := by decide +kernel
  pfIndex := by decide +kernel
  afIndex := fun _ h => nomatch h
  wbuf := fun _ => rfl
  dirty := fun _ => rfl
  dirtyOnce := List.nodup_nil

/-- Nothing recorded before (the first register), one record held (the last register), overflow met, and overflow Set; an
implementation that compresses, which drops a second fault of the source-id of the record held. -/
theorem test_witness_PrimaryLoggingRecordsTheFault :
    (unitT.Inv ∧ unitT.cfg.faultCompression = false ∧ unitT.pfo = false ∧
      recordF (unitT.faultReg unitT.log.pfIndex) = false ∧ unitT.ppf = false ∧ unitT.anyStatus = false) ∧
    (oneRecord.Inv ∧ oneRecord.cfg.faultCompression = false) ∧
    (oneRecord.pfo = false ∧ recordF (oneRecord.faultReg oneRecord.log.pfIndex) = false ∧ oneRecord.ppf = true) ∧
    recordF ({ oneRecord with log := { oneRecord.log with pfIndex := 0 } }.faultReg 0) = true ∧
    { oneRecord with reg := { oneRecord.reg with fsts := 1 } }.pfo = true ∧ oneRecord.afls = false ∧
    { Config.vectorT with faultCompression := true }.faultCompression = true ∧
    (oneRecord.faultReg 0).extractLsb' 64 16 = (0x0100 : SourceId) :=
  ⟨⟨inv_unitT, by decide +kernel⟩, ⟨inv_oneRecord, by decide +kernel⟩, by decide +kernel⟩

/-- The first record of the smallest log, and its last one. -/
def advancedLog (i : Nat) : State :=
  { State.initial Config.full with
    latch := { rtp := none, flp := some { base := 0x90, size := 0 }, irtp := none }
    log := { unitT.log with afIndex := i } }

/-- The first record of a log with no status waiting, and the last; the log wrapped; AFO Set. -/
theorem test_witness_AdvancedLoggingPostsTheRecord :
    (advancedLog 0).latch.flp = some { base := 0x90, size := 0 } ∧ (advancedLog 0).cfg.faultCompression = false ∧
    (advancedLog 0).afo = false ∧ (advancedLog 0).log.afWrapped = false ∧ unitWritable (advancedLog 0).cfg 0x90000 16 = true ∧
    (advancedLog 0).apf = false ∧ (advancedLog 0).anyStatus = false ∧ unitWritable (advancedLog 255).cfg 0x90FF0 16 = true ∧
    255 + 1 = 2 ^ ((0 : BitVec 3).toNat + 8) ∧
    { advancedLog 0 with log := { unitT.log with afWrapped := true } }.log.afWrapped = true ∧
    ((advancedLog 0).setFsts 2).afo = true ∧
    { advancedLog 1 with log := { unitT.log with afPrevSid := some 0x0100 } }.log.afPrevSid =
      some ((0x80000005000001000000000012346000 : BitVec 128).extractLsb' 64 16) ∧
    { Config.full with faultCompression := true }.faultCompression = true ∧
    nextIs ({ advancedLog 0 with reg := { (advancedLog 0).reg with gsts := 0x10000000 } }.logFault 0x80000005000001000000000012346000)
      (fun t => t.log.afIndex == 1) = true := by
  decide +kernel

/-- R495: bit 127 of the record in memory is 0, whichever half is issued first. -/
theorem test_posted_record_bit_127 :
    .logWrite 0x90008 0x7FFFFFFFFFFFFFFF ∈ (unitT.postRecord 0x90000 (BitVec.allOnes 128)).posted := by
  unfold State.postRecord
  split <;> decide +kernel

/-- V34. -/
theorem test_witness_FaultProcessingDisableSuppressesTheRecord :
    (dmaOn (contextM 8 0x30003 0x701)).latch.rtp = some 0x10 ∧
    (access .write 0x0108 0x12346004).kind = .write ∧ (dmaOn []).cfg.mgawAer = false ∧
    ((dmaOn (contextM 8 0x30003 0x701)).translate [(dmaOn (contextM 8 0x30003 0x701)).mem] 0x10 0x0108
      (access .write 0x0108 0x12346004).whole.addr ((access .write 0x0108 0x12346004).need (dmaOn []).cfg)).answer =
      .fault .writeDenied true ∧
    FaultReason.writeDenied.qualified = true := by decide +kernel

/-- V37. -/
theorem test_witness_FaultingRequestReachesNoMemory :
    (dmaOn []).latch.rtp = some 0x10 ∧
    ((dmaOn []).translate [] 0x10 0x0300 0x1000 ((access .write 0x0300 0x1000).need (dmaOn []).cfg)).answer =
      .fault .rootNotPresent false ∧
    ∃ t, (dmaOn []).processPiece (access .write 0x0300 0x1000) [] (access .write 0x0300 0x1000).whole = .next t :=
  ⟨by decide +kernel, by decide +kernel, next_of_goesOn (by decide +kernel)⟩

/-- A forwarded write (V48) and a blocked one (V37). -/
theorem test_witness_RequestsReachMemoryOnlyByCommit :
    (∃ t, unitT.handle (.request (access .write 0x0100 0x12346004) []) = .next t) ∧
    ∃ t, (dmaOn []).handle (.request (access .write 0x0300 0x1000) []) = .next t :=
  ⟨next_of_goesOn (by decide +kernel), next_of_goesOn (by decide +kernel)⟩

/-- Something waits to be serviced, nothing does with the mask Set, nothing does with it Clear. -/
theorem test_witness_RaisingAQueueStatus :
    oneRecord.anyStatus = true ∧ unitT.anyStatus = false ∧ (unitT.feMask || unitT.feHold) = true ∧
    ({ unitT with reg := { unitT.reg with fectl := 0 } }.feMask || { unitT with reg := { unitT.reg with fectl := 0 } }.feHold) =
      false := by decide +kernel

/-- An in-flight write and a read; a write that is not snooped supersedes an older copy in the write buffer too. -/
theorem test_witness_CommitsPerformTheRequest :
    { unitT with inflight := [writeInFlight] }.inflight[0]? = some writeInFlight ∧ writeInFlight.kind = .write ∧
    { unitT with inflight := [{ writeInFlight with kind := .read }] }.inflight[0]? = some { writeInFlight with kind := .read } ∧
    unitT.mem.wf = true ∧
    ({ unitT with wbuf := [[(0xABCD001, 0xEE)]], inflight := [{ writeInFlight with snoop := false }] }.commitAt 0).cpuView.read
      0xABCD001 = 2 := by
  decide +kernel

/-- The last doubleword of memory; with protected memory enabled, the first one beyond the region, the last one in it, and H7,
which ends in it. -/
theorem test_witness_DisabledRemappingForwardsOrBlocks :
    (unitT.tes = false ∧ (access .write 7 0xFFFFFFFFFC).atype = 0 ∧ (access .write 7 0xFFFFFFFFFC).malformed unitT.cfg = false ∧
      inScope unitT.cfg 7 = true ∧ meetsInterruptRange (access .write 7 0xFFFFFFFFFC).base 4 = false ∧
      (access .write 7 0xFFFFFFFFFC).crossesPage = false ∧ unitT.prs = false ∧
      meetsRegisterPages unitT.cfg 0xFFFFFFFFFC 4 = false ∧ isSystemMemory unitT.cfg 0xFFFFFFFFFC 4 = true) ∧
    protectedT.prs = true ∧ overlapsProtected protectedT.cfg protectedT.reg 0x400000 4 = false ∧
    overlapsProtected protectedT.cfg protectedT.reg (access .write 0 0x3FFFFC).base (access .write 0 0x3FFFFC).size = true ∧
    overlapsProtected protectedT.cfg protectedT.reg 0x1FFFFC 8 = true ∧
    isSystemMemory unitT.cfg (access .write 7 0x10000000000).base 4 = false ∧ (access .read 7 0xFEEFFFFC).kind = .read ∧
    meetsInterruptRange (access .read 7 0xFEEFFFFC).base (access .read 7 0xFEEFFFFC).size = true := by decide +kernel

/-- A request of two doublewords. -/
def access2 (kind : ReqKind) (addr : BitVec 64) : Request :=
  { access kind 0x0100 addr with lenDw := 2, lastBe := 15, data := (match kind with | .read => [] | .write => List.replicate 8 5) }

/-- Two doublewords around the edges of FEEx_xxxxh with remapping disabled: a read that runs in is answered by an error, a write
that runs in goes on, and a write that starts there is the one that the spec does not classify (91, N9). -/
theorem test_runs_into_the_interrupt_range :
    (access2 .write 0xFEDFFFFC).malformed unitT.cfg = false ∧ unitT.cfg.crossPage = .unitSplits ∧
    (access2 .write 0xFEDFFFFC).inInterruptRange = false ∧ (access2 .write 0xFEE00000).inInterruptRange = true ∧
    (access2 .write 0xFEE00000).lenDw ≠ 1 ∧
    lastSent (unitT.handle (.request (access2 .read 0xFEDFFFFC) [])) = some (.readError 0x0100 0xFEDFFFFC) ∧
    (lastSent (unitT.handle (.request (access2 .write 0xFEDFFFFC) []))).isSome = true ∧
    refusal (unitT.handle (.request (access2 .write 0xFEE00000) [])) = some .interruptRangeWrite ∧
    refusal (unitT.handle (.request (access2 .write 0xFEEFFFFC) [])) = some .interruptRangeWrite := by decide +kernel

/-- With remapping enabled each piece is remapped, the one in FEEx_xxxxh like the other: without a root-entry each is a fault
(V37). -/
theorem test_remapped_into_the_interrupt_range :
    nextIs ((dmaOn []).handle (.request (access2 .write 0xFEDFFFFC) []))
      (fun t => t.unlogged.length == 2) = true := by decide +kernel

/-- V1's walk, entry by entry. -/
theorem walkGives_v1 : WalkGives Config.vectorT [(dmaOn (leafM 0x50A28 0xABCD003)).mem]
    { did := 7, dva := 0x12345678, need := .read, top := 2 } 2 0x30000 true true
    (.mapped { hpa := 0xABCD000, level := 0, r := true, w := true, snp := false, tm := false }) :=
  .next 1 0x30000 true true 0x40003 _ ⟨by decide +kernel, _, List.mem_cons_self, by decide +kernel⟩
    (.descend (by decide +kernel) (by decide +kernel) (by decide +kernel))
    (.next 0 0x40000 true true 0x50003 _ ⟨by decide +kernel, _, List.mem_cons_self, by decide +kernel⟩
      (.descend (by decide +kernel) (by decide +kernel) (by decide +kernel))
      (.leaf 0 0x50000 true true 0xABCD003 _ ⟨by decide +kernel, _, List.mem_cons_self, by decide +kernel⟩
        (.leaf (by decide +kernel) (by decide +kernel) (by decide +kernel) (fun h => (nomatch h)))))

/-- V1's context-entry, as memory holds it. -/
theorem readsContext_v1 : ReadsContext Config.vectorT [(dmaOn (leafM 0x50A28 0xABCD003)).mem] 0x10 0x0100
    0x00000000000007010000000000030001 :=
  ⟨0x20001, ⟨⟨by decide +kernel, _, List.mem_cons_self, by decide +kernel⟩,
      ⟨by decide +kernel, _, List.mem_cons_self, by decide +kernel⟩⟩, by decide +kernel, by decide +kernel,
    ⟨by decide +kernel, _, List.mem_cons_self, by decide +kernel⟩, ⟨by decide +kernel, _, List.mem_cons_self, by decide +kernel⟩⟩

/-- The lookup finds it in memory, whatever the caches are. -/
theorem findsContext_v1 (c : Caches) : { dmaOn (leafM 0x50A28 0xABCD003) with cache := c }.FindsContext
    [(dmaOn (leafM 0x50A28 0xABCD003)).mem] 0x10 0x0100 0x00000000000007010000000000030001 :=
  have sound : ContextSound Config.vectorT 0x00000000000007010000000000030001 :=
    ⟨by decide +kernel, by decide +kernel, by decide +kernel⟩
  ⟨.entry _ readsContext_v1, sound⟩

/-- V1's translation, from the root-entry on. -/
theorem translationGives_v1 : TranslationGives (dmaOn (leafM 0x50A28 0xABCD003)) [(dmaOn (leafM 0x50A28 0xABCD003)).mem] 0x10 0x0100
    0x12345678 .read (.mapped 7 { hpa := 0xABCD000, level := 0, r := true, w := true, snp := false, tm := false }) :=
  .walk 0x00000000000007010000000000030001
    (.mapped { hpa := 0xABCD000, level := 0, r := true, w := true, snp := false, tm := false })
    (findsContext_v1 _) (by decide +kernel) (by decide +kernel) (by decide +kernel) (.top _ walkGives_v1)

/-- The same answer by the IOTLB entry of domain 7 for its page; an entry of domain 8, or of the next page, is no hit. -/
theorem translationGives_held : TranslationGives
    { dmaOn (leafM 0x50A28 0xABCD003) with cache := { unitT.cache with iotlb := [cachedPage] } }
    [(dmaOn (leafM 0x50A28 0xABCD003)).mem] 0x10 0x0100 0x12345678 .read
    (.mapped 7 { hpa := 0xABCD000, level := 0, r := true, w := true, snp := false, tm := false }) :=
  .hit 0x00000000000007010000000000030001 cachedPage
    (.mapped { hpa := 0xABCD000, level := 0, r := true, w := true, snp := false, tm := false })
    (findsContext_v1 _) (by decide +kernel) (by decide +kernel) (by decide +kernel)
    ⟨List.mem_cons_self, by decide +kernel, by decide +kernel, .inl rfl⟩ (.mapped _ (by decide +kernel) (fun h => (nomatch h)))

theorem test_iotlb_hits_by_key : { unitT with cache := { unitT.cache with iotlb := [cachedPage] } }.iotlbMatches 7 0x0100 0x12345678 =
      [cachedPage] ∧
    { unitT with cache := { unitT.cache with iotlb := [cachedPage] } }.iotlbMatches 8 0x0100 0x12345678 = [] ∧
    { unitT with cache := { unitT.cache with iotlb := [cachedPage] } }.iotlbMatches 7 0x0100 0x12346678 = [] := by decide +kernel

theorem cachesMiss_leafM (a v : Nat) (sid : SourceId) : (dmaOn (leafM a v)).cachesMiss sid :=
  ⟨fun _ h => (nomatch h), rfl, rfl⟩

/-- V1, a mapped read, by the walker's answer and by what memory holds; V26, pass-through (context-entry 04h); and a frame that is
no system memory. -/
theorem test_witness_RemappedRequestsReachTheirFrame :
    ((dmaOn (leafM 0x50A28 0xABCD003)).cachesMiss 0x0100 ∧ TranslationGives (dmaOn (leafM 0x50A28 0xABCD003))
      [(dmaOn (leafM 0x50A28 0xABCD003)).mem] 0x10 0x0100 0x12345678 ((access .read 0x0100 0x12345678).need Config.vectorT)
      (.mapped 7 { hpa := 0xABCD000, level := 0, r := true, w := true, snp := false, tm := false })) ∧
    isSystemMemory { Config.vectorT with nonMemory := [⟨0xABCD000, 0x1000⟩] } 0xABCD678 4 = false ∧
    ((dmaOn []).tes = true ∧ (access .read 0x0100 0x12345678).malformed Config.vectorT = false ∧
      inScope Config.vectorT 0x0100 = true ∧ meetsInterruptRange (access .read 0x0100 0x12345678).base 4 = false ∧
      (access .read 0x0100 0x12345678).crossesPage = false ∧ (dmaOn []).cfg.mgawAer = false ∧
      (dmaOn []).latch.rtp = some 0x10) ∧
    ((dmaOn (leafM 0x50A28 0xABCD003)).translate [(dmaOn (leafM 0x50A28 0xABCD003)).mem] 0x10 0x0100 0x12345678
      .read).answer = .mapped 7 { hpa := 0xABCD000, level := 0, r := true, w := true, snp := false, tm := false } ∧
    (meetsInterruptRange 0xABCD678 4 = false ∧ meetsRegisterPages Config.vectorT 0xABCD678 4 = false ∧
      isSystemMemory Config.vectorT 0xABCD678 4 = true) ∧
    ((dmaOn (contextM 4 0x9 0x901)).translate [(dmaOn (contextM 4 0x9 0x901)).mem] 0x10 0x0104 0x1000 .read).answer =
      .passThrough 9 :=
  ⟨⟨cachesMiss_leafM _ _ _, translationGives_v1⟩, by decide +kernel⟩

/-- The context-entries of A1 (T = 01b), for translation requests and for translated ones. -/
def deviceM : State :=
  dmaOn [(0x10010, 0x20001), (0x20070, 0x30005), (0x20078, 0x701), (0x30000, 0x40003), (0x40488, 0x50003), (0x50A28, 0xABCD003)]

/-- A20, A11, A12, A1 and A4 (the next page is not present). -/
theorem test_witness_TranslationRequestsAreAnswered :
    ((atsRequest 0x0107 0x12345000).atype = 1 ∧ (atsRequest 0x0107 0x12345000).malformed Config.vectorT = false ∧
      inScope Config.vectorT 0x0107 = true ∧ unitT.tes = false ∧ deviceM.tes = true ∧
      (atsRequest 0x0107 0x12345000).inInterruptRange = false ∧ (atsRequest 0x0107 0xFEE00000).inInterruptRange = true ∧
      deviceM.latch.rtp = some 0x10) ∧
    ((dmaOn (contextM 0 0x30001 0x701)).translate [(dmaOn (contextM 0 0x30001 0x701)).mem] 0x10 0x0100 0x12345000
      .device).answer = .fault .typeBlocked false ∧
    (deviceM.translate [deviceM.mem] 0x10 0x0107 0x12345000 .device).answer =
      .mapped 7 { hpa := 0xABCD000, level := 0, r := true, w := true, snp := false, tm := false } ∧
    (deviceM.translate [deviceM.mem] 0x10 0x0107 0x12346000 .device).answer = .noAccess ∧
    TransAnswer.hasLevel .noAccess 0 ∧
    (TransAnswer.mapped 7 { hpa := 0xABCD000, level := 0, r := true, w := true, snp := false, tm := false }).hasLevel 0 :=
  ⟨by decide +kernel, by decide +kernel, by decide +kernel, by decide +kernel, .inl ⟨rfl, rfl⟩, .inr ⟨_, _, rfl, rfl⟩⟩

/-- B1, B2, a translated write to the interrupt range, a read at 2^MGAW, and one with remapping disabled. -/
theorem test_witness_TranslatedRequestsAreChecked :
    ({ access .read 0x0107 0xABCD678 with atype := 2 }.malformed Config.vectorT = false ∧
      { access .read 0x0107 0xABCD678 with atype := 2 }.crossesPage = false ∧
      meetsInterruptRange { access .read 0x0107 0xABCD678 with atype := 2 }.base 4 = false ∧
      (0xABCD678 : BitVec 64).toNat < 2 ^ deviceM.cfg.mgawBits ∧ deviceM.latch.rtp = some 0x10) ∧
    (deviceM.checkTranslated [deviceM.mem] 0x10 0x0107).1 = .entry 0x00000000000007010000000000030005 ∧
    (meetsRegisterPages Config.vectorT 0xABCD678 4 = false ∧ isSystemMemory Config.vectorT 0xABCD678 4 = true ∧
      deviceM.prs = false) ∧
    ((dmaOn (contextM 0 0x30001 0x701)).checkTranslated [(dmaOn (contextM 0 0x30001 0x701)).mem] 0x10 0x0100).1 =
      .fault .typeBlocked false ∧ meetsInterruptRange { access .write 0x0107 0xFEE00000 with atype := 2 }.base 4 = true ∧
    unitT.tes = false ∧ deviceM.cfg.mgawBits = 48 ∧
    lastSent (deviceM.handle (.request { access .read 0x0107 0x1000000000000 with atype := 2 } [])) =
      some (.readError 0x0107 0x1000000000000) ∧
    lastSent (unitT.handle (.request { access .read 0x0107 0xABCD678 with atype := 2 } [])) =
      some (.readError 0x0107 0xABCD678) := by decide +kernel

/-- V1's context-entry has T = 00b: a translated request is blocked with Dh, and no line of the device is cached. -/
theorem translatedCheckGives_v1 : TranslatedCheckGives (dmaOn (leafM 0x50A28 0xABCD003))
      [(dmaOn (leafM 0x50A28 0xABCD003)).mem] 0x10 0x0100 (.fault .typeBlocked false) ∧
    ∀ l ∈ (dmaOn (leafM 0x50A28 0xABCD003)).cache.ctx, l.sid ≠ 0x0100 :=
  ⟨.typeBlocked 0x00000000000007010000000000030001 (findsContext_v1 _) (by decide +kernel), fun _ h => (nomatch h)⟩

/-- V1, by the walker and by what memory holds. -/
theorem test_witness_TranslationsGrantTheNeededPermission :
    ((dmaOn (leafM 0x50A28 0xABCD003)).translate [] 0x10 0x0100 0x12345678 .read).answer =
      .mapped 7 { hpa := 0xABCD000, level := 0, r := true, w := true, snp := false, tm := false } ∧
    (dmaOn (leafM 0x50A28 0xABCD003)).cachesMiss 0x0100 ∧
    TranslationGives (dmaOn (leafM 0x50A28 0xABCD003)) [(dmaOn (leafM 0x50A28 0xABCD003)).mem] 0x10 0x0100 0x12345678 .read
      (.mapped 7 { hpa := 0xABCD000, level := 0, r := true, w := true, snp := false, tm := false }) :=
  ⟨by decide +kernel, cachesMiss_leafM _ _ _, translationGives_v1⟩

/-- V15: the 2MB page at 4000_0000h, from level 2; and V1's walk as memory gives it. -/
theorem test_witness_WalksReachAlignedFramesBelowHaw :
    ((dmaOn [(0x30000, 0x40003), (0x40490, 0x40000083)]).walkTable []
      { did := 7, dva := 0x12412345, need := .read, top := 2 } 2 0x30000 true true).answer =
      .mapped { hpa := 0x40000000, level := 1, r := true, w := true, snp := false, tm := false } ∧
    WalkGives Config.vectorT [(dmaOn (leafM 0x50A28 0xABCD003)).mem]
      { did := 7, dva := 0x12345678, need := .read, top := 2 } 2 0x30000 true true
      (.mapped { hpa := 0xABCD000, level := 0, r := true, w := true, snp := false, tm := false }) :=
  ⟨by decide +kernel, walkGives_v1⟩

/-- I31, I30, I29; D24: on Itanium the request is dropped and its record waits. -/
theorem test_witness_CompatibilityInterruptsFollowCfis :
    unitT.ires = false ∧ (irqOn 0 0 0).ires = true ∧ (irqOn 0 0 0).cfg.arch = .intel64 ∧
    (msi 0x0100 0xFEE00000 0x4041).addr.getLsbD 4 = false ∧ (irqOn 0 0 0).cfis = false ∧
    { irqOn 0 0 0 with reg := { unitT.reg with gsts := 0x03800000 } }.cfis = true ∧
    goesOn ((irqOn 0 0 0).processInterrupt (msi 0x0100 0xFEE00000 0x4041) []) = true ∧
    ({ irqOn 0 0 0 with cfg := { Config.vectorT with arch := .itanium } }.ires = true ∧
      { Config.vectorT with arch := .itanium }.arch = .itanium) ∧
    nextIs ({ irqOn 0 0 0 with cfg := { Config.vectorT with arch := .itanium } }.processInterrupt (msi 0x0100 0xFEE00000 0x4041) [])
      (fun t => t.unlogged.length == 1 && t.irqs == [] && t.out == [.writeDropped 0x0100 0xFEE00000]) = true := by decide +kernel

/-- I23, the first index beyond the table, and I27, the same by a subhandle. -/
theorem test_witness_InterruptIndexBound :
    (irqOn 0 0 0).ires = true ∧ (irqOn 0 0 0).latch.irtp = some { base := 0x60, size := 7 } ∧
    (msi 0x0100 0xFEE02010 0).addr.getLsbD 4 = true ∧ (msi 0x0100 0xFEE02010 0).addr.getLsbD 3 = false ∧
    interruptIndex 0xFEE02010 0 = 2 ^ (7 + 1) ∧
    (∃ t, (irqOn 0 0 0).processInterrupt (msi 0x0100 0xFEE02010 0) [] = .next t) ∧
    (msi 0x0100 0xFEE01E18 0x10).irqData.extractLsb' 16 16 = 0 ∧ interruptIndex 0xFEE01E18 0x10 = 2 ^ (7 + 1) ∧
    ∃ t, (irqOn 0 0 0).processInterrupt (msi 0x0100 0xFEE01E18 0x10) [] = .next t :=
  ⟨by decide +kernel, by decide +kernel, by decide +kernel, by decide +kernel, by decide +kernel,
    next_of_goesOn (by decide +kernel), by decide +kernel, by decide +kernel, next_of_goesOn (by decide +kernel)⟩

/-- I22: the last index of the table is delivered. -/
theorem test_witness_RemappedInterruptsComeFromCheckedEntries :
    ∃ t, (irqOn 0xFF 0x0000030000EE0001 0).remapInterrupt (msi 0x0100 0xFEE01FF0 0) [] = .next t :=
  next_of_goesOn (by decide +kernel)

/-- I22's entry, the last of the table, as memory holds it; a cached line of its index, and no line of it. -/
theorem interruptEntryGives_i22 :
    InterruptEntryGives (irqOn 0xFF 0x0000030000EE0001 0) [(irqOn 0xFF 0x0000030000EE0001 0).mem] { base := 0x60, size := 7 } 0xFF
      (some 0x0000030000EE0001) ∧
    InterruptEntryGives { unitT with cache := { unitT.cache with iec := [{ index := 0xFF, entry := 1 }] } } []
      { base := 0x60, size := 7 } 0xFF (some 1) ∧
    (∀ l ∈ (irqOn 0xFF 0x0000030000EE0001 0).cache.iec, l.index ≠ 0xFF) :=
  ⟨.read _ ⟨⟨by decide +kernel, _, List.mem_cons_self, by decide +kernel⟩,
      ⟨by decide +kernel, _, List.mem_cons_self, by decide +kernel⟩⟩, .held { index := 0xFF, entry := 1 } List.mem_cons_self rfl,
    fun _ h => (nomatch h)⟩

/-- I22 again, and an absent entry at the same index; SHV with a reserved data bit Set (its first and its last); a table that
starts at 2^HAW. -/
theorem test_witness_RemappableInterruptsAreDeliveredOrBlocked :
    ((irqOn 0xFF 0x0000030000EE0001 0).ires = true ∧ (msi 0x0100 0xFEE01FF0 0).addr.getLsbD 4 = true ∧
      (msi 0x0100 0xFEE01FF0 0).addr.getLsbD 3 = false ∧
      (irqOn 0xFF 0x0000030000EE0001 0).latch.irtp = some { base := 0x60, size := 7 } ∧
      interruptIndex 0xFEE01FF0 0 = 0xFF ∧ 0xFF < 2 ^ ((7 : BitVec 4).toNat + 1)) ∧
    ((irqOn 0xFF 0x0000030000EE0001 0).readIrte [(irqOn 0xFF 0x0000030000EE0001 0).mem] { base := 0x60, size := 7 } 0xFF =
        some 0x0000030000EE0001 ∧ irtePresent 0x0000030000EE0001 = true ∧
      irteReserved Config.vectorT 0x0000030000EE0001 = false ∧ irteSidOk 0x0000030000EE0001 0x0100 = true) ∧
    ((irqOn 0xFF 0 0).readIrte [(irqOn 0xFF 0 0).mem] { base := 0x60, size := 7 } 0xFF = some 0 ∧ irtePresent 0 = false) ∧
    ((msi 0x0100 0xFEE01FF8 0x10000).addr.getLsbD 3 = true ∧ (msi 0x0100 0xFEE01FF8 0x10000).irqData.extractLsb' 16 16 ≠ 0 ∧
      (msi 0x0100 0xFEE01FF8 0x80000000).irqData.extractLsb' 16 16 ≠ 0) ∧
    (irqOn 0xFF 0 0).readIrte [(irqOn 0xFF 0 0).mem] { base := 0x10000000, size := 7 } 0xFF = none := by
  decide +kernel

/-- A tag of device 0100h, and translated writes of that device and of device 0007h. -/
def translatedWrites : State :=
  { tagAt 3 0 with inflight := [{ writeInFlight with atype := 2 }, { writeInFlight with atype := 2, sid := 7 }] }

/-- One tag, the last, at its last completion and before it; the count of 0 is 8. A free tag (T4) and another device's (T5). A
translated write of the device, which is drained, and another device's, which is not. Remapping disabled. -/
theorem test_witness_CompletionsCountAndFreeTags :
    (tagAt 31 7).tes = true ∧ (tagAt 31 7).cfg.di = true ∧
    (∀ k ∈ List.range 32, (0x80000000 : BitVec 32).getLsbD k = true →
      (tagAt 31 7).tag k = some { sid := 0x0100, count := 7, seq := 9 }) ∧
    ((tagAt 31 7).atsCompletion 0x0100 0x80000000 0).tag 31 = none ∧
    ((tagAt 31 6).atsCompletion 0x0100 0x80000000 0).tag 31 = some { sid := 0x0100, count := 7, seq := 9 } ∧
    (0x18 : BitVec 32).getLsbD 4 = true ∧ (tagAt 3 0).tag 4 = none ∧ (tagAt 3 0).tag 3 = some { sid := 0x0100, count := 0, seq := 9 } ∧
    (translatedWrites.atsCompletion 0x0100 8 1).inflight = [{ writeInFlight with atype := 2, sid := 7 }] ∧
    (translatedWrites.atsCompletion 0x0100 8 1).mem.read 0xABCD003 = 4 ∧ unitT.tes = false := by decide +kernel

/-- R100: without Device-IOTLB support ITE is reserved. -/
theorem test_ite_needs_di :
    ((tagAt 0 0).timeout 0).ite = true ∧
    ({ tagAt 0 0 with cfg := variant 0x00C90184206F0662 0xF010CB }.timeout 0).ite = false := by decide +kernel

/-- A failed descriptor, one ahead of it and a wait behind it. -/
theorem test_witness_TimeOutCompletesNoWait :
    (tagAt 0 0).tag 0 = some { sid := 0x0100, count := 0, seq := 9 } ∧
    ({ tagAt 0 0 with iq := { unitT.iq with pending := [dsc 8 0 (.ccInvDsc 1 0 0 0), dsc 9 0 (.devIotlbInvDsc 0 0x0100 false 0),
        dsc 10 0 (.invWaitDsc true true false 1 0)] } }.timeout 0).iq.pending = [dsc 8 0 (.ccInvDsc 1 0 0 0)] := by
  decide +kernel

/-- A command step, and a queue step, of a state with the invariant. -/
theorem test_witness_EveryStepKeepsInv :
    (commanded { reg := .gcmd, value := 0x40000000 }).Inv ∧ ∃ t, step (commanded { reg := .gcmd, value := 0x40000000 }) = .next t :=
  ⟨{ inv_unitT with }, next_of_goesOn (by decide +kernel)⟩

theorem noFault_unitT : unitT.NoFaultCached where
  ctx := fun _ _ h => nomatch h
  iotlb := fun _ _ h => nomatch h
  pde := fun _ _ h => nomatch h
  iec := fun _ _ h => nomatch h

/-- A step that translates a request (V1), which may fill every cache. -/
theorem test_witness_NoStepCachesAFault :
    { dmaOn (leafM 0x50A28 0xABCD003) with agenda := [.request (access .read 0x0100 0x12345678) []] }.NoFaultCached ∧
    (dmaOn []).cfg.cm = false ∧
    ∃ t, step { dmaOn (leafM 0x50A28 0xABCD003) with agenda := [.request (access .read 0x0100 0x12345678) []] } = .next t :=
  ⟨{ noFault_unitT with }, by decide +kernel, next_of_goesOn (by decide +kernel)⟩

/-- The least of implementations: no optional facility. -/
def bareT : State := State.initial (variant 0x00C90184206F0602 0xF01040)

theorem implemented_bareT : bareT.Implemented where
  log := fun _ => by decide +kernel
  flush := fun _ => by decide +kernel
  queue := fun _ => by decide +kernel
  interrupts := fun _ => by decide +kernel
  compatibility := fun _ => by decide +kernel
  pending := fun _ h => nomatch h

theorem test_witness_AbsentFacilitiesStayOff :
    { bareT with cmd := some { reg := .gcmd, value := 0x40000000 } }.Implemented ∧
    bareT.cfg.afl = false ∧ bareT.cfg.rwbf = false ∧ bareT.cfg.qi = false ∧ bareT.cfg.ir = false ∧
    ∃ t, step { bareT with cmd := some { reg := .gcmd, value := 0x40000000 } } = .next t :=
  ⟨{ implemented_bareT with }, by decide +kernel, by decide +kernel, by decide +kernel, by decide +kernel,
    next_of_goesOn (by decide +kernel)⟩

theorem implemented_dmaOn : (dmaOn []).Implemented where
  log := fun _ => by decide +kernel
  flush := fun _ => by decide +kernel
  queue := fun h => absurd h (by decide +kernel)
  interrupts := fun h => absurd h (by decide +kernel)
  compatibility := fun _ => by decide +kernel
  pending := fun _ h => nomatch h

/-- Powergood reset turns remapping off. -/
theorem test_witness_OnlyTheCommandOrResetDisablesRemapping :
    { dmaOn [] with agenda := [.powergood] }.Implemented ∧ (dmaOn []).tes = true ∧
    ∃ t, step { dmaOn [] with agenda := [.powergood] } = .next t ∧ t.tes = false :=
  ⟨{ implemented_dmaOn with }, by decide +kernel, _, rfl, by decide +kernel⟩

theorem test_witness_ConfigurationNeverChanges : ∃ t, step unitT = .next t := next_of_goesOn (by decide +kernel)

theorem test_witness_ResetAndPowergoodValues : ∃ t, step { dmaOn [] with agenda := [.powergood] } = .next t :=
  next_of_goesOn (by decide +kernel)

/-- ECAP.C = 0, and unwritten-back bytes of two processors in one quadword and the next. -/
def unsnooped : State :=
  { State.initial (variant 0x00C90184206F0662 0xF010CE) with
    dirty := [{ cpu := 0, cell := (0x1007, 0xAA) }, { cpu := 1, cell := (0x1006, 0xBB) }, { cpu := 0, cell := (0x1008, 0xCC) }] }

theorem inv_unsnooped : unsnooped.Inv :=
  { inv_unitT with
    wbuf := fun _ => rfl
    dirty := fun h => absurd h (by decide +kernel)
    dirtyOnce := by decide +kernel }

/-- The write buffer of CAP.RWBF = 1, with one store in it. -/
def buffered : State := { State.initial Config.full with wbuf := [[(0x1000, 0xAB)]] }

theorem inv_buffered : buffered.Inv where
  mem := by decide +kernel
  frcd := by decide +kernel
  itags := by decide +kernel
  gsts := by decide +kernel
  fsts := by decide +kernel
  pfIndex := by decide +kernel
  afIndex := fun _ h => nomatch h
  wbuf := fun h => absurd h (by decide +kernel)
  dirty := fun _ => rfl
  dirtyOnce := List.nodup_nil

/-- Each place of a store: memory, the write buffer, the unwritten-back bytes, in place of another processor's; a write-back of one
processor's quadword; a drain. The last doubleword below 2^HAW and one byte on; the bytes before, at and behind the register pages. -/
theorem test_witness_ProcessorMovesReachTheirPlace :
    (unitT.Inv ∧ unitT.cfg.coherent = true ∧ unitT.cfg.rwbf = false) ∧
    (buffered.Inv ∧ buffered.cfg.coherent = true ∧ buffered.cfg.rwbf = true) ∧
    (unsnooped.Inv ∧ unsnooped.cfg.coherent = false ∧ unsnooped.cfg.rwbf = false) ∧
    (0xFFFFFFFFFC + 4 = 2 ^ unitT.cfg.haw ∧ 2 ^ unitT.cfg.haw < 0xFFFFFFFFFD + 4 ∧ 0xFFFFFFFFFF < 2 ^ unitT.cfg.haw ∧
      [(0xFFFFFFFFFC, 4), (0xFED8FFFC, 4), (0xFED91000, 4)].map (fun w => meetsRegisterPages unitT.cfg w.1 w.2) =
        [false, false, false] ∧
      [(0xFED8FFFD, 4), (0xFED90FFC, 4)].map (fun w => meetsRegisterPages unitT.cfg w.1 w.2) = [true, true] ∧
      refusal (unitT.handle (.cpu (.store 0 0xFED8FFFD [1, 2, 3, 4]))) = some .badRegisterAccess) ∧
    nextIs (unitT.handle (.cpu (.store 0 0xFFFFFFFFFE [1, 2]))) (fun t => t.mem == [(0xFFFFFFFFFE, 1), (0xFFFFFFFFFF, 2)]) = true ∧
    nextIs (buffered.handle (.cpu (.store 0 0x1000 [1, 2])))
      (fun t => t.wbuf == [[(0x1000, 0xAB)], [(0x1000, 1), (0x1001, 2)]] && t.cpuView.read 0x1000 == 1) = true ∧
    nextIs (unsnooped.handle (.cpu (.store 0 0x1005 [1, 2])))
      (fun t => t.dirty.map DirtyByte.cell == [(0x1005, 1), (0x1006, 2), (0x1007, 0xAA), (0x1008, 0xCC)] && t.mem == []) = true ∧
    nextIs (unsnooped.handle (.cpu (.writeback 0 0x1000)))
      (fun t => t.dirty.map DirtyByte.cell == [(0x1006, 0xBB), (0x1008, 0xCC)] && t.mem == [(0x1007, 0xAA)]) = true ∧
    nextIs (buffered.handle (.cpu .drain)) (fun t => t.mem == [(0x1000, 0xAB)] && t.wbuf == []) = true ∧
    nextIs (unsnooped.handle (.load 0x1006 3)) (fun t => t.out == [.loadValue 0x1006 [0xBB, 0xAA, 0xCC]]) = true :=
  ⟨⟨inv_unitT, by decide +kernel⟩, ⟨inv_buffered, by decide +kernel⟩, ⟨inv_unsnooped, by decide +kernel⟩, by decide +kernel⟩

end Sys2Proof.Tests
end

section
/-! The configuration along a step (00_scope.md R9): every operation of the unit, of software and of the surroundings leaves
`State.cfg` as it is. For the operations that Laws/ describes by a relation between the states before and after, the relation
says so; here the same is said of the others, up to `step`, in the order of the model's files. -/

namespace Sys2Proof.Machine

/-! ## State operations -/

@[simp] theorem State.resetPfIndex_cfg (s : State) : s.resetPfIndex.cfg = s.cfg := by
  unfold State.resetPfIndex
  split <;> rfl

@[simp] theorem State.invalidateContext_cfg (s : State) (code : BitVec 2) (did : DomainId) (sid : SourceId) (fm : BitVec 2) :
    (s.invalidateContext code did sid fm).cfg = s.cfg := by
  rw [invalidateContext_spec]
  exact (sameUnit_flushWriteBuffer s).cfg

@[simp] theorem State.invalidateIotlb_cfg (s : State) (reports : Bool) (code : BitVec 3) (dr dw : Bool) (did : DomainId)
    (addr : PageNumber) (am : BitVec 6) (ih : Bool) : (s.invalidateIotlb reports code dr dw did addr am ih).cfg = s.cfg := by
  obtain ⟨_, _, _, _, _, _, _, _, h⟩ := invalidateIotlb_frame s reports code dr dw did addr am ih
  rw [h]

@[simp] theorem State.invalidateIec_cfg (s : State) (g : Bool) (im : BitVec 5) (iidx : BitVec 16) :
    (s.invalidateIec g im iidx).cfg = s.cfg := by
  rw [invalidateIec_spec]

@[simp] theorem State.evict_cfg (s : State) (c : CacheKind) (k : Nat) : (s.evict c k).cfg = s.cfg := by
  cases c <;> rfl

@[simp] theorem State.raiseIqe_cfg (s : State) : s.raiseIqe.cfg = s.cfg := (events_raiseStatus _ 4 (by decide)).cfg

@[simp] theorem State.setHolds_cfg (s : State) (fault inv : Bool) : (s.setHolds fault inv).cfg = s.cfg :=
  ((events_releaseFaultEvent _).trans (events_releaseInvEvent _)).cfg

@[simp] theorem State.issueDeviceInvalidation_cfg (s : State) (sid : SourceId) (sbit : Bool) (addr : PageNumber) :
    (s.issueDeviceInvalidation sid sbit addr).cfg = s.cfg := by
  unfold State.issueDeviceInvalidation
  split <;> rfl

@[simp] theorem State.atsCompletion_cfg (s : State) (sid : SourceId) (vec : BitVec 32) (cc : BitVec 3) :
    (s.atsCompletion sid vec cc).cfg = s.cfg := by
  unfold State.atsCompletion
  split
  · rfl
  split
  · exact (events_raiseStatus s 5 (by decide)).cfg
  · exact (sameUnit_drainWhere s _).cfg

@[simp] theorem State.timeout_cfg (s : State) (i : Nat) : (s.timeout i).cfg = s.cfg := by
  unfold State.timeout
  split
  · rfl
  · exact (events_raiseIte _).cfg

@[simp] theorem State.setReg_cfg (s : State) (r : RegId) (v : BitVec 128) : (s.setReg r v).cfg = s.cfg := by
  cases r <;> rfl

@[simp] theorem State.beginCommand_cfg (s : State) (i : Instr) : (s.beginCommand i).cfg = s.cfg := by
  cases i <;> rfl

@[simp] theorem State.fetchDescriptor_cfg (s : State) (vs : List Memory) : (s.fetchDescriptor vs).cfg = s.cfg := by
  unfold State.fetchDescriptor
  split
  · split
    · rfl
    · exact s.raiseIqe_cfg
  · rfl

@[simp] theorem State.fetchAhead_cfg (s : State) (slot : Nat) (vs : List Memory) : (s.fetchAhead slot vs).cfg = s.cfg := by
  unfold State.fetchAhead
  split <;> rfl

@[simp] theorem State.retire_cfg (s : State) (p : Pending) : (s.retire p).cfg = s.cfg := by
  unfold State.retire
  split <;> rfl

/-! ## The meanings of the instructions -/

variable {s t : State}

/-- The drain that a command asks for where the implementation supports draining (45_global_commands.md R422, R435). -/
theorem drainAll_if_drainsDma_cfg (s : State) : (if s.drainsDma then s.drainAll else s).cfg = s.cfg := by
  split
  · exact (sameUnit_drainAll s).cfg
  · rfl

theorem cfg_of_execGcmdTe {enable : Bool} (h : execGcmdTe enable s = .next t) : t.cfg = s.cfg := by
  unfold execGcmdTe at h
  split at h
  · split at h
    · cases h
    · cases h; exact drainAll_if_drainsDma_cfg s
  · cases h
    rw [State.resetPfIndex_cfg]
    exact (sameUnit_drainWhere s _).cfg

theorem cfg_of_execGcmdIre {enable : Bool} (h : execGcmdIre enable s = .next t) : t.cfg = s.cfg := by
  unfold execGcmdIre at h
  split at h
  · split at h
    · cases h
    · cases h; exact (sameUnit_drainInterrupts s _).cfg
  · cases h
    rw [State.resetPfIndex_cfg]
    exact (sameUnit_drainInterrupts s _).cfg

theorem cfg_of_execGcmdEafl {enable : Bool} (h : execGcmdEafl enable s = .next t) : t.cfg = s.cfg := by
  unfold execGcmdEafl at h
  split at h
  · cases h
  split at h
  · cases h
  · cases h; rfl

theorem cfg_of_execGcmdQie {enable : Bool} (h : execGcmdQie enable s = .next t) : t.cfg = s.cfg := by
  unfold execGcmdQie at h
  split at h
  · cases h; rfl
  split at h
  · cases h; rfl
  · cases h

theorem cfg_of_execPmenEpm {enable : Bool} (h : execPmenEpm enable s = .next t) : t.cfg = s.cfg := by
  unfold execPmenEpm at h
  split at h
  · split at h
    · cases h
    · cases h; exact drainAll_if_drainsDma_cfg s
  · cases h; rfl

theorem cfg_of_execDevIotlbInvDsc {mip : BitVec 5} {sid : SourceId} {sbit : Bool} {addr : PageNumber}
    (h : execDevIotlbInvDsc mip sid sbit addr s = .next t) : t.cfg = s.cfg := by
  unfold execDevIotlbInvDsc at h
  split at h
  · cases h; rfl
  · cases h; exact s.issueDeviceInvalidation_cfg sid sbit addr

theorem cfg_of_execInvWaitDsc {iflag sw fn : Bool} {data : BitVec 32} {addr : BitVec 62}
    (h : execInvWaitDsc iflag sw fn data addr s = .next t) : t.cfg = s.cfg := by
  have posted : (if sw then postStatus data addr s else s).cfg = s.cfg := by split <;> rfl
  unfold execInvWaitDsc at h
  split at h
  · cases h
  · cases h
    split
    · exact (events_completeWithInterrupt _).cfg.trans posted
    · exact posted

/-- An instruction, however it is executed, leaves the configuration. -/
theorem cfg_of_exec {i : Instr} (h : exec i s = .next t) : t.cfg = s.cfg := by
  cases i with
  | ccInvDsc => cases h; exact State.invalidateContext_cfg ..
  | iotlbInvDsc => cases h; exact State.invalidateIotlb_cfg ..
  | devIotlbInvDsc => exact cfg_of_execDevIotlbInvDsc h
  | iecInvDsc => cases h; exact State.invalidateIec_cfg ..
  | invWaitDsc _ _ fn => exact cfg_of_execInvWaitDsc (fn := fn) h
  | gcmdTe => exact cfg_of_execGcmdTe h
  | gcmdSrtp => cases h; rfl
  | gcmdSfl => cases h; rfl
  | gcmdEafl => exact cfg_of_execGcmdEafl h
  | gcmdWbf => cases h; exact (sameUnit_flushWriteBuffer s).cfg
  | gcmdQie => exact cfg_of_execGcmdQie h
  | gcmdIre => exact cfg_of_execGcmdIre h
  | gcmdSirtp => cases h; rfl
  | gcmdCfi => cases h; rfl
  | ccmdIcc => cases h; exact State.invalidateContext_cfg ..
  | iotlbIvt => cases h; exact State.invalidateIotlb_cfg ..
  | pmenEpm => exact cfg_of_execPmenEpm h

/-! ## Register accesses -/

theorem cfg_of_registerRead {bytes off : Nat} (h : s.registerRead bytes off = .next t) : t.cfg = s.cfg := by
  unfold State.registerRead at h
  split at h
  · cases h
  split at h <;> (cases h; exact (sameUnit_flushPosted s).cfg)

theorem cfg_of_submitCommand {w : CmdWrite} (h : s.submitCommand w = .next t) : t.cfg = s.cfg := by
  unfold State.submitCommand at h
  split at h
  · cases h
  · cases h; rfl
  split at h
  · cases h
  split at h
  · cases h
  · cases h; exact s.beginCommand_cfg _

theorem cfg_of_afterWrite {r : RegId} {k : Nat} {w : BitVec 128} (h : s.afterWrite r k w = .next t) : t.cfg = s.cfg := by
  cases r with
  | gcmd => exact cfg_of_submitCommand h
  | pmen | ccmd | iotlb =>
      simp only [State.afterWrite] at h
      split at h
      · exact cfg_of_submitCommand h
      · cases h; rfl
  | fsts | frcd => cases h; exact (events_serviceFaultEvent s).cfg
  | fectl => cases h; exact (events_releaseFaultEvent s).cfg
  | ics => cases h; exact (events_serviceInvEvent s).cfg
  | iectl => cases h; exact (events_releaseInvEvent s).cfg
  | iqa =>
      simp only [State.afterWrite] at h
      split at h <;> (cases h; rfl)
  | _ => cases h; rfl

theorem cfg_of_writeDword {off : Nat} {v : BitVec 32} (h : s.writeDword off v = .next t) : t.cfg = s.cfg := by
  unfold State.writeDword at h
  split at h
  · cases h; rfl
  simp only at h
  split at h
  · cases h
  · exact (cfg_of_afterWrite h).trans (s.setReg_cfg _ _)

theorem cfg_of_registerWrite {bytes off : Nat} {v : BitVec 64} (h : s.registerWrite bytes off v = .next t) :
    t.cfg = s.cfg := by
  unfold State.registerWrite at h
  split at h
  · cases h
  split at h
  · exact cfg_of_writeDword h
  · obtain ⟨u, hlow, hhigh⟩ := andThen_next h
    exact (cfg_of_writeDword hhigh).trans (cfg_of_writeDword hlow)

/-! ## Processors -/

theorem cfg_of_processorMove {m : CpuMove} (h : s.processorMove m = .next t) : t.cfg = s.cfg := by
  unfold State.processorMove at h
  split at h
  · cases h
  cases m with
  | store cpu a data =>
      simp only at h
      split at h
      · split at h
        · exact cfg_of_registerWrite h
        · cases h
      · cases h; exact (sameUnit_processorStore s cpu a data).cfg
  | writeback cpu a => cases h; exact (sameUnit_writeback s cpu a).cfg
  | drain => cases h; exact (sameUnit_drainStore s).cfg

theorem cfg_of_processorMoves {ms : List CpuMove} (h : s.processorMoves ms = .next t) : t.cfg = s.cfg := by
  induction ms generalizing s with
  | nil => cases h; rfl
  | cons m ms ih =>
      obtain ⟨u, hm, hms⟩ := andThen_next h
      exact (ih hms).trans (cfg_of_processorMove hm)

theorem cfg_of_processorLoad {a n : Nat} (h : s.processorLoad a n = .next t) : t.cfg = s.cfg := by
  unfold State.processorLoad at h
  split at h
  · cases h
  split at h
  · split at h
    · exact cfg_of_registerRead h
    · cases h
  · cases h; rfl

theorem cfg_of_processRequest {r : Request} {race : List CpuMove} (h : s.processRequest r race = .next t) :
    t.cfg = s.cfg := by
  obtain ⟨u, hrequest, hrace⟩ := request_processRequest h
  exact (cfg_of_processorMoves hrace).trans hrequest.cfg

/-! ## The engines -/

theorem cfg_of_runCommand (h : s.runCommand = .next t) : t.cfg = s.cfg := by
  unfold State.runCommand at h
  split at h
  · cases h; rfl
  split at h
  · cases h
  · cases h; rfl
  split at h
  · exact cfg_of_exec (s := { s with cmd := none }) h
  · cases h

theorem cfg_of_executePending {p : Pending} (h : s.executePending p = .next t) : t.cfg = s.cfg := by
  obtain ⟨u, hexec, hretire⟩ := andThen_next h
  cases hretire
  exact (u.retire_cfg p).trans (cfg_of_exec (s := { s with iq := { s.iq with current := p.seq } }) hexec)

theorem cfg_of_executeSeq {seq : Nat} (h : s.executeSeq seq = .next t) : t.cfg = s.cfg := by
  unfold State.executeSeq at h
  split at h
  · exact cfg_of_executePending h
  · cases h; rfl

theorem cfg_of_fetchAndRun (h : s.fetchAndRun = .next t) : t.cfg = s.cfg := by
  unfold State.fetchAndRun at h
  split at h
  · cases h; exact s.fetchDescriptor_cfg _
  · exact (cfg_of_executeSeq h).trans (s.fetchDescriptor_cfg _)

theorem cfg_of_settle (h : s.settle = .next t) : t.cfg = s.cfg := by
  unfold State.settle at h
  split at h
  · exact (faultLog_logOldestFault h).cfg
  split at h
  · cases h; exact (sameUnit_commitAt s 0).cfg
  split at h
  · cases h; exact (sameUnit_commitIrqAt s 0).cfg
  split at h
  · cases h; exact (sameUnit_deliver s 0).cfg
  split at h
  · cases h; exact (sameUnit_drainStore s).cfg
  split at h
  · cases h; exact s.setHolds_cfg false false
  split at h
  · exact cfg_of_executePending h
  · cases h; rfl

theorem cfg_of_idleStep (h : s.idleStep = .next t) : t.cfg = s.cfg := by
  unfold State.idleStep at h
  split at h
  · exact cfg_of_runCommand h
  split at h
  · exact cfg_of_executePending h
  split at h
  · exact cfg_of_fetchAndRun h
  · exact cfg_of_settle h

/-! ## A step -/

/-- Powergood reset too: it resets the same implementation (70_reset_and_hazards.md R531). -/
theorem cfg_of_handle {e : Event} (h : s.handle e = .next t) : t.cfg = s.cfg := by
  cases e with
  | cpu m => exact cfg_of_processorMove h
  | load a n => exact cfg_of_processorLoad h
  | regRead bytes off => exact cfg_of_registerRead h
  | regWrite bytes off v => exact cfg_of_registerWrite h
  | request r race => exact cfg_of_processRequest h
  | upstreamInvRequest sid => cases h; rfl
  | atsCompletion sid vec cc => cases h; exact s.atsCompletion_cfg sid vec cc
  | timeout i => cases h; exact s.timeout_cfg i
  | powergood => cases h; rfl
  | runCommand => exact cfg_of_runCommand h
  | fetch race => exact (cfg_of_processorMoves h).trans (s.fetchDescriptor_cfg _)
  | fetchAhead slot race => exact (cfg_of_processorMoves h).trans (s.fetchAhead_cfg slot _)
  | execute seq => exact cfg_of_executeSeq h
  | commit k => cases h; exact (sameUnit_commitAt s k).cfg
  | commitIrq k => cases h; exact (sameUnit_commitIrqAt s k).cfg
  | deliver k => cases h; exact (sameUnit_deliver s k).cfg
  | evict c k => cases h; exact s.evict_cfg c k
  | prefetch sid dva race => exact (cfg_of_processorMoves h).trans (request_prefetch s sid dva _).cfg
  | logFault => exact (faultLog_logOldestFault h).cfg
  | hold fault inv => cases h; exact s.setHolds_cfg fault inv

/-- Settles O58, by the two kinds of step: an event of the agenda, and the engines' own move. -/
theorem configurationNeverChanges : Obligations.ConfigurationNeverChanges := by
  intro s t h
  unfold step at h
  split at h
  · exact cfg_of_idleStep h
  · next e rest _ => exact cfg_of_handle (s := { s with agenda := rest }) h

end Sys2Proof.Machine
end

section
/-! Register writes, said once (10_state.md R23, R35): where a write of a doubleword goes, when it is refused, what it stores, and
what a submission refuses. -/

namespace Sys2Proof.Machine

variable {s : State}

/-! ## Which doubleword -/

/-- The width of a register in bits (10_state.md R22). -/
def RegId.width : RegId → Nat
  | .cap | .ecap | .rtaddr | .ccmd | .aflog | .phmbase | .phmlimit | .iqh | .iqt | .iqa | .irta | .iva | .iotlb => 64
  | .frcd _ => 128
  | _ => 32

theorem fixedRegister_within_width {off k : Nat} {r : RegId} (h : fixedRegister off = some (r, k)) : 32 * k + 32 ≤ r.width := by
  unfold fixedRegister at h
  split at h <;> cases h <;> decide

/-- An offset names a doubleword that its register has. -/
theorem registerAt_within_width {cfg : Config} {off k : Nat} {r : RegId} (h : registerAt cfg off = some (r, k)) :
    32 * k + 32 ≤ r.width := by
  unfold registerAt at h
  split at h
  · next hfixed => cases h; exact fixedRegister_within_width hfixed
  split_ifs at h <;> cases h <;> simp only [RegId.width] <;> omega

theorem RegId.width_le (r : RegId) : r.width ≤ 128 := by
  cases r <;> simp [RegId.width]

theorem registerAt_doubleword_lt {cfg : Config} {off k : Nat} {r : RegId} (h : registerAt cfg off = some (r, k)) : k < 4 := by
  have hk := registerAt_within_width h
  have hr := r.width_le
  omega

/-! ## Accesses -/

/-- The first register page is always there. -/
theorem page_le_registerPages (cfg : Config) : 4096 ≤ 4096 * cfg.registerPages := by
  unfold Config.registerPages
  omega

theorem goodAccess_four {cfg : Config} {off : Nat} (hoff : off + 4 ≤ 4096) (ha : off % 4 = 0) : goodAccess cfg 4 off = true := by
  have hp := page_le_registerPages cfg
  have hin : off + 4 ≤ 4096 * cfg.registerPages := by omega
  simp [goodAccess, hin, ha]

theorem goodAccess_eight {cfg : Config} {off k m : Nat} {r : RegId} (hoff : off + 8 ≤ 4096) (ha : off % 8 = 0)
    (hlow : registerAt cfg off = some (r, k)) (hhigh : registerAt cfg (off + 4) = some (r, m)) : goodAccess cfg 8 off = true := by
  have hp := page_le_registerPages cfg
  have hin : off + 8 ≤ 4096 * cfg.registerPages := by omega
  simp [goodAccess, hin, ha, hlow, hhigh]

theorem registerWrite_four {off : Nat} (h : goodAccess s.cfg 4 off = true) (v : BitVec 32) :
    s.registerWrite 4 off (v.setWidth 64) = s.writeDword off v := by
  simp [State.registerWrite, h]

theorem registerWrite_eight {off : Nat} (h : goodAccess s.cfg 8 off = true) (v : BitVec 64) :
    s.registerWrite 8 off v =
      andThen (s.writeDword off (v.setWidth 32)) (fun t => t.writeDword (off + 4) (v.extractLsb' 32 32)) := by
  simp [State.registerWrite, h]

/-! ## The bits of a doubleword write -/

/-- The bits of a doubleword at its place in the register. -/
theorem getLsbD_dword_shiftLeft (v : BitVec 32) {k : Nat} (hk : k < 4) (m : Nat) :
    ((v.setWidth 128) <<< (32 * k)).getLsbD m = (decide (m / 32 = k) && v.getLsbD (m % 32)) := by
  rw [BitVec.getLsbD_shiftLeft, BitVec.getLsbD_setWidth]
  by_cases hm : m / 32 = k
  · have hsub : m - 32 * k = m % 32 := by omega
    have hlt : m < 128 := by omega
    have hge : ¬ m < 32 * k := by omega
    have hmod : m % 32 < 128 := by omega
    simp [hm, hsub, hlt, hge, hmod]
  · by_cases hge : m < 32 * k
    · simp [hm, hge]
    · simp [hm, BitVec.getLsbD_of_ge v (m - 32 * k) (by omega)]

theorem getLsbD_dwordMask (k m : Nat) (hm : m < 128) : (dwordMask k).getLsbD m = decide (m / 32 = k) := by
  have hiff : (32 * k ≤ m ∧ m ≤ 32 * k + 31) ↔ m / 32 = k := by omega
  rw [dwordMask, getLsbD_maskBits 128 _ _ _ (by omega)]
  simp [hm, ← hiff]

/-- Without RW1C fields a write stores its bits in the writable bits of its doubleword and keeps all others (10_state.md R35). -/
theorem getLsbD_writtenValue {cfg : Config} {r : RegId} (hr : clearableBits cfg r = 0) (old : BitVec 128) (v : BitVec 32) {k : Nat}
    (hk : k < 4) {m : Nat} (hm : m < 128) :
    (writtenValue cfg r old ((v.setWidth 128) <<< (32 * k)) (dwordMask k)).getLsbD m =
      if m / 32 = k ∧ (writableBits cfg r).getLsbD m = true then v.getLsbD (m % 32) else old.getLsbD m := by
  simp only [writtenValue, hr, BitVec.getLsbD_and, BitVec.getLsbD_or, BitVec.getLsbD_not, getLsbD_dword_shiftLeft v hk,
    getLsbD_dwordMask k m hm]
  by_cases hd : m / 32 = k <;> cases (writableBits cfg r).getLsbD m <;> simp [hm, hd]

/-! ## Refusals -/

/-- The write puts no 1 in a RsvdZ bit, or is the one that finds N, and leaves the RsvdP bits as last read (10_state.md R35). -/
def State.KeepsReserved (s : State) (r : RegId) (k : Nat) (w : BitVec 128) : Prop :=
  (w &&& mustBeZeroBits s.cfg r = 0 ∨ probesWidth r k w = true) ∧
    (w ^^^ s.lastRead r) &&& preservedBits s.cfg r &&& dwordMask k = 0

/-- The two tests of `State.writeRefusal` on reserved bits. -/
theorem State.KeepsReserved.tests {r : RegId} {k : Nat} {w : BitVec 128} (h : s.KeepsReserved r k w) :
    (w &&& mustBeZeroBits s.cfg r == 0 || probesWidth r k w) = true ∧
      ((w ^^^ s.lastRead r) &&& preservedBits s.cfg r &&& dwordMask k == 0) = true := by
  simpa [State.KeepsReserved] using h

theorem pendingCommand_of_none (h : s.cmd = none) : s.pendingCommand = none := by
  simp [State.pendingCommand, h]

theorem pendingCommand_of_decodes {c : CmdWrite} {i : Instr} (hc : s.cmd = some c) (hi : decodeCommand s.cmdContext c = .instr i) :
    s.pendingCommand = some i := by
  simp [State.pendingCommand, hc, hi, Decoded.instr?]

section Refusals

variable {r : RegId} {k : Nat} {w : BitVec 128} (h : s.KeepsReserved r k w)
include h

theorem writeRefusal_commandPending (hr : r.isCommandRegister = true) (hc : s.cmd.isSome = true) :
    s.writeRefusal r k w = some .commandPending := by
  obtain ⟨hzero, hkept⟩ := h.tests
  rw [State.writeRefusal, hzero, hkept]
  simp [hr, hc]

theorem writeRefusal_registerOwned {i : Instr} (hr : r.isCommandRegister = false) (hp : s.pendingCommand = some i)
    (ho : ownedBy r i = true) : s.writeRefusal r k w = some .registerOwned := by
  obtain ⟨hzero, hkept⟩ := h.tests
  rw [State.writeRefusal, hzero, hkept]
  simp [hr, hp, ho]

/-- With no command pending only the queue and the protected regions bar a register. -/
theorem writeRefusal_of_no_command (hc : s.cmd = none) :
    s.writeRefusal r k w =
      if r == .iqa && s.qies then some .queueEnabled else if r.isRegion && s.prs then some .protectedEnabled else none := by
  obtain ⟨hzero, hkept⟩ := h.tests
  rw [State.writeRefusal, hzero, hkept]
  simp [hc, pendingCommand_of_none hc]

end Refusals

/-! ## What a write stores -/

/-- The state in which a write of `v` to doubleword `k` of a register is stored, before its side effects. -/
def State.stored (s : State) (r : RegId) (k : Nat) (v : BitVec 32) : State :=
  s.setReg r (writtenValue s.cfg r (s.regValue r) ((v.setWidth 128) <<< (32 * k)) (dwordMask k))

theorem writeDword_refused {off k : Nat} {r : RegId} {v : BitVec 32} {e : Refusal} (hat : registerAt s.cfg off = some (r, k))
    (h : s.writeRefusal r k ((v.setWidth 128) <<< (32 * k)) = some e) : s.writeDword off v = .refused e := by
  simp [State.writeDword, hat, h]

theorem writeDword_accepted {off k : Nat} {r : RegId} {v : BitVec 32} (hat : registerAt s.cfg off = some (r, k))
    (h : s.writeRefusal r k ((v.setWidth 128) <<< (32 * k)) = none) :
    s.writeDword off v = (s.stored r k v).afterWrite r k ((v.setWidth 128) <<< (32 * k)) := by
  simp [State.writeDword, hat, h, State.stored]

/-- Storing a register changes registers alone. -/
theorem setReg_frame (s : State) (r : RegId) (v : BitVec 128) : s.setReg r v = { s with reg := (s.setReg r v).reg } := by
  cases r <;> rfl

theorem stored_frame (s : State) (r : RegId) (k : Nat) (v : BitVec 32) :
    s.stored r k v = { s with reg := (s.stored r k v).reg } := setReg_frame s r _

@[simp] theorem stored_cfg (s : State) (r : RegId) (k : Nat) (v : BitVec 32) : (s.stored r k v).cfg = s.cfg := by
  rw [stored_frame]

@[simp] theorem stored_cmd (s : State) (r : RegId) (k : Nat) (v : BitVec 32) : (s.stored r k v).cmd = s.cmd := by
  rw [stored_frame]

@[simp] theorem stored_iq (s : State) (r : RegId) (k : Nat) (v : BitVec 32) : (s.stored r k v).iq = s.iq := by
  rw [stored_frame]

@[simp] theorem setReg_gsts (s : State) (r : RegId) (v : BitVec 128) : (s.setReg r v).reg.gsts = s.reg.gsts := by
  cases r <;> rfl

@[simp] theorem setReg_iqh (s : State) (r : RegId) (v : BitVec 128) : (s.setReg r v).reg.iqh = s.reg.iqh := by
  cases r <;> rfl

@[simp] theorem stored_qies (s : State) (r : RegId) (k : Nat) (v : BitVec 32) : (s.stored r k v).qies = s.qies := by
  rw [State.qies, State.stored, setReg_gsts, State.qies]

/-- Storing a register leaves the RsvdP bits as last read. -/
theorem keepsReserved_stored (s : State) (r : RegId) (k : Nat) (v : BitVec 32) {q : RegId} {j : Nat} {w : BitVec 128} :
    (s.stored r k v).KeepsReserved q j w ↔ s.KeepsReserved q j w := by
  rw [stored_frame]
  rfl

/-! ## What the written register then holds -/

section Stored

variable {r : RegId} {k : Nat}

/-- The registers that hold what a write stores: they have RW and WO fields, no RW1C field and no computed one. -/
def RegId.isStored (r : RegId) : Bool :=
  r.isPlain || r == .iqa || r == .ccmd || r == .iotlb || r == .pmen || r == .fectl

theorem RegId.isStored_of_isPlain {r : RegId} (h : r.isPlain = true) : r.isStored = true := by
  simp [RegId.isStored, h]

theorem getLsbD_regValue_of_width_le (hr : r.isStored = true) {m : Nat} (hm : r.width ≤ m) :
    (s.regValue r).getLsbD m = false := by
  cases r <;> simp_all [RegId.isStored, RegId.isPlain, RegId.width, State.regValue]

/-- Such a register holds every bit of the value it is given that it has room for. -/
theorem getLsbD_regValue_setReg (hr : r.isStored = true) (v : BitVec 128) {m : Nat} (hm : m < r.width) :
    ((s.setReg r v).regValue r).getLsbD m = v.getLsbD m := by
  have hw := r.width_le
  have hm128 : m < 128 := by omega
  cases r <;> simp_all [RegId.isStored, RegId.isPlain, RegId.width, State.regValue, State.setReg]

theorem regValue_setReg_of_ne (hr : r.isStored = true) {q : RegId} (hq : q ≠ r) (v : BitVec 128) :
    (s.setReg r v).regValue q = s.regValue q := by
  cases r <;> simp [RegId.isStored, RegId.isPlain] at hr <;> cases q <;> try rfl
  all_goals exact absurd rfl hq

theorem clearableBits_eq_zero (cfg : Config) (hr : r.isStored = true) : clearableBits cfg r = 0 := by
  cases r <;> simp_all [RegId.isStored, RegId.isPlain, clearableBits]

section Doubleword

variable (hr : r.isStored = true) (hk : 32 * k + 32 ≤ r.width) (v : BitVec 32)
include hr hk

/-- Of the doubleword written the writable bits take the written ones, the others keep theirs (10_state.md R35). -/
theorem getLsbD_regValue_stored {j : Nat} (hj : j < 32) :
    ((s.stored r k v).regValue r).getLsbD (32 * k + j) =
      if (writableBits s.cfg r).getLsbD (32 * k + j) then v.getLsbD j else (s.regValue r).getLsbD (32 * k + j) := by
  have hw := r.width_le
  have hdiv : (32 * k + j) / 32 = k := by omega
  have hmod : (32 * k + j) % 32 = j := by omega
  rw [State.stored, getLsbD_regValue_setReg hr _ (by omega),
    getLsbD_writtenValue (clearableBits_eq_zero _ hr) _ _ (by omega) (by omega)]
  simp [hdiv, hmod]

theorem getLsbD_regValue_stored_of_ne {m : Nat} (hm : m / 32 ≠ k) :
    ((s.stored r k v).regValue r).getLsbD m = (s.regValue r).getLsbD m := by
  have hw := r.width_le
  rcases Nat.lt_or_ge m r.width with hlt | hge
  · rw [State.stored, getLsbD_regValue_setReg hr _ hlt,
      getLsbD_writtenValue (clearableBits_eq_zero _ hr) _ _ (by omega) (by omega)]
    simp [hm]
  · rw [getLsbD_regValue_of_width_le hr hge, getLsbD_regValue_of_width_le hr hge]

end Doubleword

end Stored

/-! ## What a submission refuses -/

section Submission

variable {c : CmdWrite}

theorem submitCommand_rejected {e : DecodeError} (h : decodeCommand s.cmdContext c = .rejected e) :
    s.submitCommand c = .refused (decodeRefusal e) := by
  simp [State.submitCommand, h]

theorem submitCommand_unsupported {i : Instr} (h : decodeCommand s.cmdContext c = .instr i) (hw : wellFormed s.cfg i = false) :
    s.submitCommand c = .refused .unsupportedField := by
  simp [State.submitCommand, h, hw]

theorem submitCommand_queueEnabled {i : Instr} (h : decodeCommand s.cmdContext c = .instr i) (hw : wellFormed s.cfg i = true)
    (hr : isInvalidationRegister c.reg = true) (hq : s.qies = true) : s.submitCommand c = .refused .queueEnabled := by
  simp [State.submitCommand, h, hw, hr, hq]

end Submission

end Sys2Proof.Machine
end

section
/-! Refused register writes (10_state.md R35; 43_caching_and_register_invalidation.md R352, R365; 45_global_commands.md R421, R431;
70_reset_and_hazards.md R545). -/

namespace Sys2Proof.Machine

variable {s : State} {off k : Nat} {r : RegId}

/-! ## A write of one doubleword -/

/-- The RsvdZ bits of the protected-memory registers are bits N:0 (12_registers_b.md R108 to R111). -/
theorem getLsbD_mustBeZeroBits_low {cfg : Config} (hreg : cfg.plmr = true) (hr : r = .plmbase ∨ r = .plmlimit) {j : Nat}
    (hj : j < 128) : (mustBeZeroBits cfg r).getLsbD j = decide (j ≤ cfg.plmN) := by
  obtain rfl | rfl := hr <;> simp only [mustBeZeroBits, whenHas, hreg, if_true, getLsbD_maskBits_low _ j hj]

theorem getLsbD_mustBeZeroBits_high {cfg : Config} (hreg : cfg.phmr = true) (hr : r = .phmbase ∨ r = .phmlimit) {j : Nat}
    (hj : j < 128) : (mustBeZeroBits cfg r).getLsbD j = decide (j ≤ cfg.phmN) := by
  obtain rfl | rfl := hr <;> simp only [mustBeZeroBits, whenHas, hreg, if_true, getLsbD_maskBits_low _ j hj]

/-- The write that finds N is stored, where no command is pending and the regions are off (12_registers_b.md R108, R110). -/
theorem writeDword_probe (hat : registerAt s.cfg off = some (r, k)) (hr : r = .plmbase ∨ r = .phmbase) (hc : s.cmd = none)
    (hprs : s.prs = false) : s.writeDword off 0xFFFFFFFF = .next (s.stored r k 0xFFFFFFFF) := by
  have hprobe := (probesWidth_iff r k 0xFFFFFFFF (registerAt_doubleword_lt hat)).2 ⟨hr, rfl⟩
  have hkeeps : s.KeepsReserved r k (((0xFFFFFFFF : BitVec 32).setWidth 128) <<< (32 * k)) :=
    ⟨.inr hprobe, by obtain rfl | rfl := hr <;> simp [preservedBits]⟩
  have hok := writeRefusal_of_no_command hkeeps hc
  obtain rfl | rfl := hr
  · exact writeDword_accepted hat (by simpa [hprs] using hok)
  · exact writeDword_accepted hat (by simpa [hprs] using hok)

theorem isRegion_iff (r : RegId) : r.isRegion = true ↔ r = .plmbase ∨ r = .plmlimit ∨ r = .phmbase ∨ r = .phmlimit := by
  simp [RegId.isRegion, or_assoc]

/-- Which command owns which operand register (43_caching_and_register_invalidation.md R365; 45_global_commands.md R423, R435). -/
theorem ownedBy_iff (r : RegId) (i : Instr) : ownedBy r i = true ↔
    (r = .rtaddr ∧ i = .gcmdSrtp) ∨ (r = .aflog ∧ i = .gcmdSfl) ∨ (r = .irta ∧ i = .gcmdSirtp) ∨ (r = .iqa ∧ ∃ b, i = .gcmdQie b) ∨
      ((r = .plmbase ∨ r = .plmlimit ∨ r = .phmbase ∨ r = .phmlimit) ∧ ∃ b, i = .pmenEpm b) := by
  simp only [Bool.exists_bool, or_comm (a := i = .gcmdQie false), or_comm (a := i = .pmenEpm false)]
  simp [ownedBy, isRegion_iff, or_assoc]

/-- The registers that a pending command owns are none of those that every pending command bars. -/
theorem isCommandRegister_of_ownedBy {i : Instr} (h : ownedBy r i = true) : r.isCommandRegister = false := by
  cases r with
  | gcmd | ccmd | iotlb | iva | pmen => simp [ownedBy, RegId.isRegion] at h
  | _ => rfl

/-- A doubleword of a quadword, at its place in the register, sets no bit that the quadword has not. -/
theorem dword_and_eq_zero {v m : BitVec 64} (h : v &&& m = 0) {d : BitVec 32} (hk : k < 4)
    (hd : ∀ j, j < 32 → d.getLsbD j = v.getLsbD (32 * k + j)) : (d.setWidth 128) <<< (32 * k) &&& m.setWidth 128 = 0 := by
  apply BitVec.eq_of_getLsbD_eq
  intro i hi
  rw [BitVec.getLsbD_and, getLsbD_dword_shiftLeft d hk, BitVec.getLsbD_setWidth]
  by_cases hdiv : i / 32 = k
  · have hplace : 32 * k + i % 32 = i := by omega
    have hbit : (v &&& m).getLsbD i = false := by rw [h]; exact BitVec.getLsbD_zero
    rw [BitVec.getLsbD_and] at hbit
    simp [hdiv, hi, hd _ (Nat.mod_lt i (by decide)), hplace, hbit]
  · simp [hdiv]

theorem getLsbD_low_half (v : BitVec 64) {j : Nat} (hj : j < 32) : (v.setWidth 32).getLsbD j = v.getLsbD (32 * 0 + j) := by
  simp [hj]

theorem getLsbD_high_half (v : BitVec 64) {j : Nat} (hj : j < 32) : (v.extractLsb' 32 32).getLsbD j = v.getLsbD (32 * 1 + j) := by
  simp [hj]

/-! ## GCMD_REG -/

theorem registerAt_gcmd (cfg : Config) : registerAt cfg 0x18 = some (.gcmd, 0) := rfl

/-- With no command pending a write of GCMD_REG is what `decodeGcmd` makes of it. -/
theorem registerWrite_gcmd (hc : s.cmd = none) {v : BitVec 32} (hv : v &&& 0x007FFFFF = 0) :
    s.registerWrite 4 0x18 (v.setWidth 64) = s.submitCommand { reg := .gcmd, value := v.setWidth 64 } := by
  have hwide : v.setWidth 64 &&& (0x007FFFFF : BitVec 32).setWidth 64 = 0 := by rw [← BitVec.setWidth_and, hv]; rfl
  have hzero : (v.setWidth 128) <<< (32 * 0) &&& mustBeZeroBits s.cfg .gcmd = 0 :=
    dword_and_eq_zero hwide (by decide) (fun j hj => by rw [BitVec.getLsbD_setWidth]; simp; omega)
  have hkeeps : s.KeepsReserved .gcmd 0 ((v.setWidth 128) <<< (32 * 0)) := ⟨.inl hzero, by simp [preservedBits]⟩
  rw [registerWrite_four (goodAccess_four (by decide) (by decide)),
    writeDword_accepted (registerAt_gcmd _) (writeRefusal_of_no_command hkeeps hc)]
  simp [State.afterWrite, State.stored, State.setReg]

theorem registerWrite_gcmd_severalCommands (hc : s.cmd = none) {v : BitVec 32} (hv : v &&& 0x007FFFFF = 0)
    (h : decodeGcmd s.reg.gsts v = .rejected .severalCommands) :
    s.registerWrite 4 0x18 (v.setWidth 64) = .refused .severalCommands := by
  have hdec : decodeCommand s.cmdContext { reg := .gcmd, value := v.setWidth 64 } = .rejected .severalCommands := by
    simpa [decodeCommand, State.cmdContext] using h
  rw [registerWrite_gcmd hc hv, submitCommand_rejected hdec, decodeRefusal]

theorem registerWrite_gcmd_unsupportedField (hc : s.cmd = none) {v : BitVec 32} (hv : v &&& 0x007FFFFF = 0) {i : Instr}
    (h : decodeGcmd s.reg.gsts v = .instr i) (hw : wellFormed s.cfg i = false) :
    s.registerWrite 4 0x18 (v.setWidth 64) = .refused .unsupportedField := by
  have hdec : decodeCommand s.cmdContext { reg := .gcmd, value := v.setWidth 64 } = .instr i := by
    simpa [decodeCommand, State.cmdContext] using h
  rw [registerWrite_gcmd hc hv, submitCommand_unsupported hdec hw]

/-! ## Register-based invalidation while the queue is enabled -/

/-- A value without reserved bits whose trigger bit is written 1 is an invalidation command, which every implementation
has. -/
theorem decodeCcmd_masked (cfg : Config) {x : BitVec 64} (h : x.getLsbD 63 = true) :
    ∃ i, decodeCcmd (x &&& 0xE0000003FFFFFFFF) = .instr i ∧ wellFormed cfg i = true := by
  have hzero : x &&& 0xE0000003FFFFFFFF &&& 0x07FFFFFC00000000 = 0 := by
    rw [BitVec.and_assoc]
    exact BitVec.and_zero
  have htrigger : (x &&& 0xE0000003FFFFFFFF).getLsbD 63 = true := by
    rw [BitVec.getLsbD_and, h]
    decide
  exact ⟨_, by rw [decodeCcmd, if_pos hzero, if_pos htrigger], rfl⟩

/-- The same of IOTLB_REG. -/
theorem decodeIotlb_masked (cfg : Config) {x : BitVec 64} (h : x.getLsbD 63 = true) :
    ∃ i, decodeIotlb (x &&& 0xF003FFFF00000000) = .instr i ∧ wellFormed cfg i = true := by
  have hzero : x &&& 0xF003FFFF00000000 &&& 0x01FC000000000000 = 0 := by
    rw [BitVec.and_assoc]
    exact BitVec.and_zero
  have htrigger : (x &&& 0xF003FFFF00000000).getLsbD 63 = true := by
    rw [BitVec.getLsbD_and, h]
    decide
  exact ⟨_, by rw [decodeIotlb, if_pos hzero, if_pos htrigger], rfl⟩

/-- ICC and IVT, bit 63, are stored as written. -/
theorem getLsbD_stored_trigger (hr : r = .ccmd ∨ r = .iotlb) (v : BitVec 32) :
    ((s.stored r 1 v).regValue r).getLsbD 63 = v.getLsbD 31 := by
  obtain rfl | rfl := hr <;> rw [getLsbD_regValue_stored (j := 31) rfl (by decide) v (by decide)] <;>
    simp [writableBits]

theorem afterWrite_low_invalidation (hr : r = .ccmd ∨ r = .iotlb) (w : BitVec 128) : s.afterWrite r 0 w = .next s := by
  obtain rfl | rfl := hr <;> simp [State.afterWrite]

/-- The submission of a register-based invalidation is refused while the queue is enabled
(43_caching_and_register_invalidation.md R352). -/
theorem afterWrite_high_invalidation (hr : r = .ccmd ∨ r = .iotlb) (hq : s.qies = true) (h : (s.regValue r).getLsbD 63 = true)
    (w : BitVec 128) : s.afterWrite r 1 w = .refused .queueEnabled := by
  obtain rfl | rfl := hr
  · obtain ⟨i, hdec, hwf⟩ := decodeCcmd_masked s.cfg (x := s.reg.ccmd) (by simpa [State.regValue] using h)
    rw [State.afterWrite, if_pos rfl]
    exact submitCommand_queueEnabled hdec hwf rfl hq
  · obtain ⟨i, hdec, hwf⟩ := decodeIotlb_masked s.cfg (x := s.reg.iotlb) (by simpa [State.regValue] using h)
    rw [State.afterWrite, if_pos rfl]
    exact submitCommand_queueEnabled hdec hwf rfl hq

/-- With no command pending nothing but reserved bits bars CCMD_REG and IOTLB_REG. -/
theorem writeRefusal_invalidation {w : BitVec 128} (hr : r = .ccmd ∨ r = .iotlb) (hc : s.cmd = none)
    (hkeeps : s.KeepsReserved r k w) : s.writeRefusal r k w = none := by
  rw [writeRefusal_of_no_command hkeeps hc]
  obtain rfl | rfl := hr <;> simp [RegId.isRegion]

/-- A quadword write of CCMD_REG or IOTLB_REG that Sets the trigger bit is refused while the queue is enabled: its lower half is
stored, and its upper half submits the command. -/
theorem registerWrite_invalidation (hr : r = .ccmd ∨ r = .iotlb) (hgood : goodAccess s.cfg 8 off = true)
    (hlow : registerAt s.cfg off = some (r, 0)) (hhigh : registerAt s.cfg (off + 4) = some (r, 1)) (hq : s.qies = true)
    (hc : s.cmd = none) {v : BitVec 64} (hv : v.getLsbD 63 = true)
    (hkeepsLow : s.KeepsReserved r 0 (((v.setWidth 32).setWidth 128) <<< (32 * 0)))
    (hkeepsHigh : s.KeepsReserved r 1 (((v.extractLsb' 32 32).setWidth 128) <<< (32 * 1))) :
    s.registerWrite 8 off v = .refused .queueEnabled := by
  have hfirst : s.writeDword off (v.setWidth 32) = .next (s.stored r 0 (v.setWidth 32)) := by
    rw [writeDword_accepted hlow (writeRefusal_invalidation hr hc hkeepsLow), afterWrite_low_invalidation hr]
  have hat : registerAt (s.stored r 0 (v.setWidth 32)).cfg (off + 4) = some (r, 1) := by rwa [stored_cfg]
  have hok := writeRefusal_invalidation hr ((stored_cmd s r 0 (v.setWidth 32)).trans hc)
    ((keepsReserved_stored s r 0 (v.setWidth 32)).2 hkeepsHigh)
  have htrigger : (v.extractLsb' 32 32).getLsbD 31 = true := by rw [getLsbD_high_half v (by decide)]; exact hv
  rw [registerWrite_eight hgood, hfirst]
  exact (writeDword_accepted hat hok).trans
    (afterWrite_high_invalidation hr (by rw [stored_qies, stored_qies, hq]) (by rw [getLsbD_stored_trigger hr, htrigger]) _)

theorem registerAt_ccmd (cfg : Config) : registerAt cfg 0x28 = some (.ccmd, 0) ∧ registerAt cfg 0x2C = some (.ccmd, 1) := ⟨rfl, rfl⟩

theorem keepsReserved_ccmd {d : BitVec 32} {v : BitVec 64} (hv : v &&& 0x07FFFFFC00000000 = 0) (hk : k < 4)
    (hd : ∀ j, j < 32 → d.getLsbD j = v.getLsbD (32 * k + j)) : s.KeepsReserved .ccmd k ((d.setWidth 128) <<< (32 * k)) :=
  ⟨.inl (dword_and_eq_zero hv hk hd), by simp [preservedBits]⟩

/-- The lower doubleword of IOTLB_REG is RsvdP (11_registers_a.md R67). -/
theorem keepsReserved_iotlb_low {v : BitVec 64} (hv : v &&& 0x01FC000000000000 = 0) (hp : v.setWidth 32 = s.preserved.iotlb) :
    s.KeepsReserved .iotlb 0 (((v.setWidth 32).setWidth 128) <<< (32 * 0)) :=
  ⟨.inl (dword_and_eq_zero hv (by decide) fun _ => getLsbD_low_half v), by simp [State.lastRead, hp]⟩

theorem keepsReserved_iotlb_high {v : BitVec 64} (hv : v &&& 0x01FC000000000000 = 0) :
    s.KeepsReserved .iotlb 1 (((v.extractLsb' 32 32).setWidth 128) <<< (32 * 1)) := by
  refine ⟨.inl (dword_and_eq_zero hv (by decide) fun _ => getLsbD_high_half v), ?_⟩
  have hmask : preservedBits s.cfg .iotlb &&& dwordMask 1 = 0 := by
    rw [show preservedBits s.cfg .iotlb = 0xFFFFFFFF from rfl]
    decide
  rw [BitVec.and_assoc, hmask]
  exact BitVec.and_zero

/-! ## The obligation -/

/-- Settles O28: each clause is one test of `State.writeRefusal` or of `State.submitCommand`, the tests before it being passed. -/
theorem badSubmissionsAreRefused : Obligations.BadSubmissionsAreRefused := by
  intro s
  refine ⟨fun off k r v w hgood hat hw => ?dword, fun v hv hc => ⟨?several, fun i => ?unsupported⟩,
    fun v hq hc hv => ⟨fun hmask => ?ccmd, fun off hgood hlow hhigh hmask hp => ?iotlb⟩⟩
  case several => exact registerWrite_gcmd_severalCommands hc hv
  case unsupported => exact registerWrite_gcmd_unsupportedField hc hv
  case ccmd =>
    obtain ⟨hlow, hhigh⟩ := registerAt_ccmd s.cfg
    exact registerWrite_invalidation (.inl rfl) (goodAccess_eight (by decide) (by decide) hlow hhigh) hlow hhigh hq hc hv
      (keepsReserved_ccmd hmask (by decide) fun _ => getLsbD_low_half v)
      (keepsReserved_ccmd hmask (by decide) fun _ => getLsbD_high_half v)
  case iotlb =>
    exact registerWrite_invalidation (.inr rfl) hgood hlow hhigh hq hc hv (keepsReserved_iotlb_low hmask hp)
      (keepsReserved_iotlb_high hmask)
  case dword =>
    subst hw
    rw [registerWrite_four hgood]
    have hprobe := probesWidth_iff r k v (registerAt_doubleword_lt hat)
    refine ⟨fun hbad => ?reserved, fun hreg hr j hj => getLsbD_mustBeZeroBits_low hreg hr (by omega),
      fun hreg hr j hj => getLsbD_mustBeZeroBits_high hreg hr (by omega), fun hr hones hc hprs => ?probe, fun hzero hkept => ?kept⟩
    case reserved =>
      refine writeDword_refused hat ((writeRefusal_reserved_iff s r k _).2 ?_)
      rwa [← Bool.not_eq_true, hprobe]
    case probe =>
      subst hones
      exact ⟨_, writeDword_probe hat hr hc hprs⟩
    case kept =>
      have hkeeps : s.KeepsReserved r k ((v.setWidth 128) <<< (32 * k)) := ⟨hzero.imp_right hprobe.2, hkept⟩
      refine ⟨fun hc hr => writeDword_refused hat (writeRefusal_commandPending hkeeps ?command hc),
        fun c i hc hi hown => ?owned, fun hc hr hq => writeDword_refused hat ?queue,
        fun hc hr hprs => writeDword_refused hat ?region⟩
      case command => simpa [RegId.isCommandRegister, or_assoc] using hr
      case owned =>
        have howned : ownedBy r i = true := (ownedBy_iff r i).2 hown
        exact writeDword_refused hat (writeRefusal_registerOwned hkeeps (isCommandRegister_of_ownedBy howned)
          (pendingCommand_of_decodes hc hi) howned)
      case queue => rw [writeRefusal_of_no_command hkeeps hc]; simp [hr, hq]
      case region =>
        have hregion : r.isRegion = true := (isRegion_iff r).2 hr
        have hne : r ≠ .iqa := by rintro rfl; simp [RegId.isRegion] at hregion
        simp [writeRefusal_of_no_command hkeeps hc, hregion, hne, hprs]

end Sys2Proof.Machine
end

section
/-! The frame of a register write (10_state.md R23; 45_global_commands.md R420): what each part of a write leaves alone. -/

namespace Sys2Proof.Machine

/-- `t` differs from `s` in its registers, the pending command, the copies read ahead and posted messages at most; of GSTS_REG
only the bits of one-shot commands, and IQH_REG only by being zeroed. -/
structure RegistersOnly (s t : State) : Prop where
  frame : t = { s with reg := t.reg, cmd := t.cmd, iq := { s.iq with ahead := t.iq.ahead }, posted := t.posted }
  gsts : ∀ k, k ≠ 30 → k ≠ 29 → k ≠ 27 → k ≠ 24 → t.reg.gsts.getLsbD k = s.reg.gsts.getLsbD k
  iqh : t.reg.iqh = s.reg.iqh ∨ t.reg.iqh = 0

theorem RegistersOnly.refl (s : State) : RegistersOnly s s := ⟨rfl, fun _ _ _ _ _ => rfl, .inl rfl⟩

theorem RegistersOnly.trans {s t u : State} (h : RegistersOnly s t) (k : RegistersOnly t u) : RegistersOnly s u where
  frame := k.frame.trans (by rw [h.frame])
  gsts := fun i h30 h29 h27 h24 => (k.gsts i h30 h29 h27 h24).trans (h.gsts i h30 h29 h27 h24)
  iqh := k.iqh.elim (fun e => h.iqh.imp e.trans e.trans) .inr

variable {s t : State}

/-! ## Storing and its side effects -/

/-- Registers other than GSTS_REG and IQH_REG, and posted messages. -/
theorem registersOnly_of_gsts_iqh (s : State) (r : Regs) (ps : List Posted) (hg : r.gsts = s.reg.gsts) (hh : r.iqh = s.reg.iqh) :
    RegistersOnly s { s with reg := r, posted := ps } :=
  ⟨rfl, fun _ _ _ _ _ => by rw [hg], .inl hh⟩

theorem registersOnly_setReg (s : State) (r : RegId) (v : BitVec 128) : RegistersOnly s (s.setReg r v) := by
  rw [setReg_frame]
  exact registersOnly_of_gsts_iqh s _ s.posted (setReg_gsts s r v) (setReg_iqh s r v)

theorem registersOnly_serviceFaultEvent (s : State) : RegistersOnly s s.serviceFaultEvent := by
  unfold State.serviceFaultEvent
  split
  · exact RegistersOnly.refl s
  · exact registersOnly_of_gsts_iqh s _ _ rfl rfl

theorem registersOnly_releaseFaultEvent (s : State) : RegistersOnly s s.releaseFaultEvent := by
  unfold State.releaseFaultEvent
  split
  · exact registersOnly_of_gsts_iqh s _ _ rfl rfl
  · exact RegistersOnly.refl s

theorem registersOnly_serviceInvEvent (s : State) : RegistersOnly s s.serviceInvEvent := by
  unfold State.serviceInvEvent
  split
  · exact RegistersOnly.refl s
  · exact registersOnly_of_gsts_iqh s _ _ rfl rfl

theorem registersOnly_releaseInvEvent (s : State) : RegistersOnly s s.releaseInvEvent := by
  unfold State.releaseInvEvent
  split
  · exact registersOnly_of_gsts_iqh s _ _ rfl rfl
  · exact RegistersOnly.refl s

theorem registersOnly_dropUnqueued (s : State) : RegistersOnly s s.dropUnqueued :=
  ⟨rfl, fun _ _ _ _ _ => rfl, .inl rfl⟩

/-! ## Submission -/

/-- A one-shot command's status bit. -/
theorem registersOnly_setGsts (s : State) {b : Nat} (v : Bool) (hb : b = 30 ∨ b = 29 ∨ b = 27 ∨ b = 24) :
    RegistersOnly s (s.setGsts b v) :=
  ⟨rfl, fun k _ _ _ _ => getLsbD_setBit_of_ne _ _ (by omega), .inl rfl⟩

theorem registersOnly_beginCommand (s : State) (i : Instr) : RegistersOnly s (s.beginCommand i) := by
  cases i with
  | gcmdSrtp | gcmdSfl | gcmdWbf | gcmdSirtp => exact registersOnly_setGsts s _ (by decide)
  | _ => exact RegistersOnly.refl s

theorem registersOnly_pending (s : State) (c : Option CmdWrite) : RegistersOnly s { s with cmd := c } :=
  ⟨rfl, fun _ _ _ _ _ => rfl, .inl rfl⟩

theorem registersOnly_of_submitCommand {c : CmdWrite} (h : s.submitCommand c = .next t) : RegistersOnly s t := by
  unfold State.submitCommand at h
  split at h
  · cases h
  · cases h; exact RegistersOnly.refl s
  split at h
  · cases h
  split at h
  · cases h
  · cases h; exact (registersOnly_beginCommand s _).trans (registersOnly_pending _ _)

/-! ## The write -/

theorem registersOnly_of_afterWrite {r : RegId} {k : Nat} {w : BitVec 128} (h : s.afterWrite r k w = .next t) :
    RegistersOnly s t := by
  cases r with
  | gcmd => exact registersOnly_of_submitCommand h
  | pmen | ccmd | iotlb =>
      simp only [State.afterWrite] at h
      split at h
      · exact registersOnly_of_submitCommand h
      · cases h; exact RegistersOnly.refl s
  | fsts | frcd => cases h; exact registersOnly_serviceFaultEvent s
  | fectl => cases h; exact registersOnly_releaseFaultEvent s
  | ics => cases h; exact registersOnly_serviceInvEvent s
  | iectl => cases h; exact registersOnly_releaseInvEvent s
  | iqa =>
      simp only [State.afterWrite] at h
      split at h
      · cases h; exact ⟨rfl, fun _ _ _ _ _ => rfl, .inr rfl⟩
      · cases h; exact RegistersOnly.refl s
  | iqt => cases h; exact registersOnly_dropUnqueued s
  | _ => cases h; exact RegistersOnly.refl s

theorem registersOnly_of_writeDword {off : Nat} {v : BitVec 32} (h : s.writeDword off v = .next t) : RegistersOnly s t := by
  unfold State.writeDword at h
  split at h
  · cases h; exact RegistersOnly.refl s
  simp only at h
  split at h
  · cases h
  · exact (registersOnly_setReg s _ _).trans (registersOnly_of_afterWrite h)

theorem registersOnly_of_registerWrite {bytes off : Nat} {v : BitVec 64} (h : s.registerWrite bytes off v = .next t) :
    RegistersOnly s t := by
  unfold State.registerWrite at h
  split at h
  · cases h
  split at h
  · exact registersOnly_of_writeDword h
  · obtain ⟨u, hlow, hhigh⟩ := andThen_next h
    exact (registersOnly_of_writeDword hlow).trans (registersOnly_of_writeDword hhigh)

/-- Settles O29, by what a doubleword write, its side effects and the submission of a command leave alone. -/
theorem registerWriteTouchesRegistersOnly : Obligations.RegisterWriteTouchesRegistersOnly := by
  intro s t bytes off v h
  obtain ⟨hframe, hgsts, hiqh⟩ := registersOnly_of_registerWrite h
  exact ⟨hframe, hgsts, hiqh⟩

end Sys2Proof.Machine
end

section
/-! The plain read-write registers and IQA_REG (10_state.md R35, R36; 12_registers_b.md R114): what a write stores, what it leaves,
and what reads back. -/

namespace Sys2Proof.Machine

variable {s : State} {r : RegId} {k : Nat}

/-! ## Reads -/

/-- A register reads as it is wherever the read value is not a draw (10_state.md R36). -/
theorem getLsbD_readReg_of_not_free {m : Nat} (h : (s.freeReadBits r).getLsbD m = false) :
    (s.readReg r).getLsbD m = (s.regValue r).getLsbD m := by
  unfold State.readReg
  split
  · rfl
  · simp only [BitVec.getLsbD_or, BitVec.getLsbD_and, BitVec.getLsbD_not, h]
    by_cases hm : m < 128
    · simp [hm]
    · simp [BitVec.getLsbD_of_ge _ m (Nat.le_of_not_lt hm)]

theorem getLsbD_readDword {off j : Nat} (hat : registerAt s.cfg off = some (r, k)) (hj : j < 32) :
    (s.readDword off).getLsbD j = (s.readReg r).getLsbD (32 * k + j) := by
  simp [State.readDword, hat, dwordOf, hj]

/-! ## Side effects -/

/-- The only side effect of a plain register is that of IQT_REG on the copies read ahead (20_memory.md R153). -/
theorem afterWrite_of_plain (hr : r.isPlain = true) (w : BitVec 128) :
    s.afterWrite r k w =
      .next { s with iq := { s.iq with ahead := if r = .iqt then s.dropUnqueued.iq.ahead else s.iq.ahead } } := by
  cases r <;> simp_all [RegId.isPlain, State.afterWrite, dropUnqueued_spec]

theorem afterWrite_iqa (hq : s.cfg.qi = true) (w : BitVec 128) :
    s.afterWrite .iqa k w = .next { s with reg := { s.reg with iqh := 0, iqt := 0 }, iq := { s.iq with ahead := [] } } := by
  simp [State.afterWrite, hq]

/-- A value depends on the configuration and the registers alone. -/
theorem regValue_congr {t : State} (hcfg : t.cfg = s.cfg) (hreg : t.reg = s.reg) (q : RegId) : t.regValue q = s.regValue q := by
  cases q <;> simp only [State.regValue, State.fstsValue, State.ppf, State.faultReg, hcfg, hreg]

/-- The copies that a write of IQT_REG keeps are those whose slots lie between head and the new tail (20_memory.md R153). -/
theorem mem_ahead_stored_iqt (k : Nat) (v : BitVec 32) (c : Ahead) :
    c ∈ (s.stored .iqt k v).dropUnqueued.iq.ahead ↔
      c ∈ s.iq.ahead ∧ c.slot < s.queueSlots ∧ (s.stored .iqt k v).qt < s.queueSlots ∧
        if s.qh ≤ (s.stored .iqt k v).qt then s.qh ≤ c.slot ∧ c.slot < (s.stored .iqt k v).qt
        else s.qh ≤ c.slot ∨ c.slot < (s.stored .iqt k v).qt :=
  (mem_dropUnqueued _ c).trans (and_congr_right fun _ => slotQueued_iff (s.stored .iqt k v) c.slot)

theorem qh_eq_zero (h : s.reg.iqh = 0) : s.qh = 0 := by simp [State.qh, h]

theorem qt_eq_zero (h : s.reg.iqt = 0) : s.qt = 0 := by simp [State.qt, h]

/-- The state after a write of a plain register that is not refused. -/
def State.plainWritten (s : State) (r : RegId) (k : Nat) (v : BitVec 32) : State :=
  { s.stored r k v with
    iq := { s.iq with ahead := if r = .iqt then (s.stored r k v).dropUnqueued.iq.ahead else s.iq.ahead } }

theorem writeDword_plain {off : Nat} {v : BitVec 32} (hr : r.isPlain = true) (hat : registerAt s.cfg off = some (r, k))
    (hok : s.writeRefusal r k ((v.setWidth 128) <<< (32 * k)) = none) :
    s.writeDword off v = .next (s.plainWritten r k v) := by
  rw [writeDword_accepted hat hok, afterWrite_of_plain hr, State.plainWritten, stored_iq]

@[simp] theorem plainWritten_cfg (v : BitVec 32) : (s.plainWritten r k v).cfg = s.cfg := stored_cfg s r k v

@[simp] theorem plainWritten_regValue (v : BitVec 32) (q : RegId) :
    (s.plainWritten r k v).regValue q = (s.stored r k v).regValue q := regValue_congr rfl rfl q

theorem plainWritten_frame (v : BitVec 32) :
    s.plainWritten r k v =
      { s with reg := (s.plainWritten r k v).reg, iq := { s.iq with ahead := (s.plainWritten r k v).iq.ahead } } := by
  cases r <;> rfl

/-- Settles O31: the bits are those of `State.stored`, and the side effect is said by `afterWrite_of_plain`, of IQA_REG by
`afterWrite_iqa`. -/
theorem plainRegistersReadBack : Obligations.PlainRegistersReadBack := by
  intro s off k r v hat hok
  have hk := registerAt_within_width hat
  refine ⟨fun hplain => ?plain, fun hiqa hqi => ?iqa⟩
  case plain =>
    refine ⟨s.plainWritten r k v, writeDword_plain hplain hat hok, fun j hj => ?written, fun m _ hm => ?kept,
      fun j hj hfree => ?reads, fun q hq => ?others, fun hne => if_neg hne, fun hiqt c => ?ahead, plainWritten_frame v⟩
    case written => rw [plainWritten_regValue, getLsbD_regValue_stored (RegId.isStored_of_isPlain hplain) hk v hj]
    case kept => rw [plainWritten_regValue, getLsbD_regValue_stored_of_ne (RegId.isStored_of_isPlain hplain) hk v hm]
    case reads => rw [getLsbD_readDword (by rwa [plainWritten_cfg]) hj, getLsbD_readReg_of_not_free hfree]
    case others => rw [plainWritten_regValue, State.stored, regValue_setReg_of_ne (RegId.isStored_of_isPlain hplain) hq]
    case ahead =>
      subst hiqt
      exact mem_ahead_stored_iqt k v c
  case iqa =>
    subst hiqa
    have hq : (s.stored .iqa k v).cfg.qi = true := hqi
    exact ⟨_, (writeDword_accepted hat hok).trans (afterWrite_iqa hq _), qh_eq_zero rfl, qt_eq_zero rfl, rfl,
      fun j hj => getLsbD_regValue_stored rfl hk v hj, fun m _ hm => getLsbD_regValue_stored_of_ne rfl hk v hm, rfl⟩

end Sys2Proof.Machine
end

section
/-! DMA remapping along a step (11_registers_a.md R64; 45_global_commands.md R422): what each operation does to GSTS_REG, whose
bit 31 is TES. The unit's own moves leave the whole register alone but for the pending command; a register write leaves TES. -/

namespace Sys2Proof.Machine

variable {s t : State}

/-! ## GSTS_REG under state operations -/

theorem SameUnit.gsts (h : SameUnit s t) : t.reg.gsts = s.reg.gsts := congrArg Regs.gsts h.reg

theorem RequestEffect.gsts (h : RequestEffect s t) : t.reg.gsts = s.reg.gsts := congrArg Regs.gsts h.reg

@[simp] theorem State.resetPfIndex_reg (s : State) : s.resetPfIndex.reg = s.reg := by
  unfold State.resetPfIndex
  split <;> rfl

@[simp] theorem State.invalidateContext_reg (s : State) (code : BitVec 2) (did : DomainId) (sid : SourceId) (fm : BitVec 2) :
    (s.invalidateContext code did sid fm).reg = s.reg := by
  rw [invalidateContext_spec]
  exact (sameUnit_flushWriteBuffer s).reg

@[simp] theorem State.invalidateIotlb_reg (s : State) (reports : Bool) (code : BitVec 3) (dr dw : Bool) (did : DomainId)
    (addr : PageNumber) (am : BitVec 6) (ih : Bool) : (s.invalidateIotlb reports code dr dw did addr am ih).reg = s.reg := by
  obtain ⟨_, _, _, _, _, _, _, _, h⟩ := invalidateIotlb_frame s reports code dr dw did addr am ih
  rw [h]

@[simp] theorem State.invalidateIec_reg (s : State) (g : Bool) (im : BitVec 5) (iidx : BitVec 16) :
    (s.invalidateIec g im iidx).reg = s.reg := by
  rw [invalidateIec_spec]

@[simp] theorem State.issueDeviceInvalidation_reg (s : State) (sid : SourceId) (sbit : Bool) (addr : PageNumber) :
    (s.issueDeviceInvalidation sid sbit addr).reg = s.reg := by
  unfold State.issueDeviceInvalidation
  split <;> rfl

@[simp] theorem State.evict_reg (s : State) (c : CacheKind) (k : Nat) : (s.evict c k).reg = s.reg := by
  cases c <;> rfl

@[simp] theorem State.retire_reg (s : State) (p : Pending) : (s.retire p).reg = s.reg := by
  unfold State.retire
  split <;> rfl

@[simp] theorem State.fetchAhead_reg (s : State) (slot : Nat) (vs : List Memory) : (s.fetchAhead slot vs).reg = s.reg := by
  unfold State.fetchAhead
  split <;> rfl

@[simp] theorem State.setHolds_gsts (s : State) (fault inv : Bool) : (s.setHolds fault inv).reg.gsts = s.reg.gsts :=
  ((events_releaseFaultEvent _).trans (events_releaseInvEvent _)).gsts

@[simp] theorem State.raiseIqe_gsts (s : State) : s.raiseIqe.reg.gsts = s.reg.gsts :=
  (events_raiseStatus _ 4 (by decide)).gsts

@[simp] theorem State.atsCompletion_gsts (s : State) (sid : SourceId) (vec : BitVec 32) (cc : BitVec 3) :
    (s.atsCompletion sid vec cc).reg.gsts = s.reg.gsts := by
  unfold State.atsCompletion
  split
  · rfl
  split
  · exact (events_raiseStatus s 5 (by decide)).gsts
  · exact (sameUnit_drainWhere s _).gsts

@[simp] theorem State.timeout_gsts (s : State) (i : Nat) : (s.timeout i).reg.gsts = s.reg.gsts := by
  unfold State.timeout
  split
  · rfl
  · exact (events_raiseIte _).gsts

@[simp] theorem State.fetchDescriptor_gsts (s : State) (vs : List Memory) :
    (s.fetchDescriptor vs).reg.gsts = s.reg.gsts := by
  unfold State.fetchDescriptor
  split
  · split
    · rfl
    · exact s.raiseIqe_gsts
  · rfl

/-! ## The queue engine holds descriptors only -/

/-- The queue engine's part of `State.Implemented`. -/
def State.HoldsDescriptors (s : State) : Prop := ∀ p ∈ s.iq.pending, p.instr.isDescriptor = true

theorem State.Implemented.holdsDescriptors (h : s.Implemented) : s.HoldsDescriptors := h.pending

theorem isDescriptor_of_descriptorFields {d : BitVec 128} {k : Nat} {i : Instr} (h : descriptorFields d k = some i) :
    i.isDescriptor = true := by
  unfold descriptorFields at h
  split at h <;> cases h <;> rfl

theorem isDescriptor_of_decodeDescriptor {d : BitVec 128} {i : Instr} (h : decodeDescriptor d = .instr i) :
    i.isDescriptor = true := by
  unfold decodeDescriptor at h
  split at h
  · cases h
  next j hfields =>
    split at h
    · cases h; exact isDescriptor_of_descriptorFields hfields
    · cases h

/-- Whatever the implementation takes for an invalid descriptor, what it reads in a slot is a descriptor (30_encoding.md R220). -/
theorem isDescriptor_of_queueDescriptor {cfg : Config} {bits : BitVec 128} {i : Instr}
    (h : queueDescriptor cfg bits = some i) : i.isDescriptor = true := by
  unfold queueDescriptor at h
  simp only at h
  split at h
  · obtain ⟨hdec, -⟩ := Option.filter_eq_some_iff.1 h
    cases hd : decodeDescriptor (cfg.dscLayout.toReference bits) with
    | instr j => rw [hd] at hdec; cases hdec; exact isDescriptor_of_decodeDescriptor hd
    | nothing => rw [hd] at hdec; cases hdec
    | rejected e => rw [hd] at hdec; cases hdec
  · split at h
    · cases h
    · exact isDescriptor_of_descriptorFields h

theorem isDescriptor_of_fetched {vs : List Memory} {i : Instr} (h : s.fetched vs = some i) : i.isDescriptor = true := by
  unfold State.fetched at h
  split at h
  · cases h
  split at h
  · cases h
  unfold queueBytes at h
  split at h
  · exact isDescriptor_of_queueDescriptor h
  · cases h

/-- An invalid descriptor does not enter the queue engine (44_queued_invalidation.md R376). -/
@[simp] theorem State.raiseIqe_pending (s : State) : s.raiseIqe.iq.pending = s.iq.pending := by
  unfold State.raiseIqe
  rw [(events_raiseStatus _ 4 (by decide)).iq]

theorem State.HoldsDescriptors.fetchDescriptor (h : s.HoldsDescriptors) (vs : List Memory) :
    (s.fetchDescriptor vs).HoldsDescriptors := by
  unfold State.fetchDescriptor
  split
  · split
    · next i hi =>
      intro p hp
      rcases List.mem_append.1 hp with hold | hnew
      · exact h p hold
      · cases List.mem_singleton.1 hnew
        exact isDescriptor_of_fetched hi
    · intro p hp
      exact h p (s.raiseIqe_pending ▸ hp)
  · exact h

/-! ## TES -/

theorem tes_of_gsts (h : t.reg.gsts = s.reg.gsts) : t.tes = s.tes := congrArg (BitVec.getLsbD · 31) h

theorem tes_setGsts_of_ne (s : State) {b : Nat} (v : Bool) (hb : b ≠ 31) : (s.setGsts b v).tes = s.tes :=
  getLsbD_setBit_of_ne _ _ hb.symm

@[simp] theorem tes_setGsts (s : State) (v : Bool) : (s.setGsts 31 v).tes = v := getLsbD_setBit_self _ _ _ (by decide)

theorem SameUnit.tes (h : SameUnit s t) : t.tes = s.tes := tes_of_gsts h.gsts

/-! ## The meanings of the instructions -/

theorem gsts_of_execInvWaitDsc {iflag sw fn : Bool} {data : BitVec 32} {addr : BitVec 62}
    (h : execInvWaitDsc iflag sw fn data addr s = .next t) : t.reg.gsts = s.reg.gsts := by
  have posted : (if sw then postStatus data addr s else s).reg.gsts = s.reg.gsts := by split <;> rfl
  unfold execInvWaitDsc at h
  split at h
  · cases h
  · cases h
    split
    · exact (events_completeWithInterrupt _).gsts.trans posted
    · exact posted

theorem gsts_of_execDevIotlbInvDsc {mip : BitVec 5} {sid : SourceId} {sbit : Bool} {addr : PageNumber}
    (h : execDevIotlbInvDsc mip sid sbit addr s = .next t) : t.reg.gsts = s.reg.gsts := by
  unfold execDevIotlbInvDsc at h
  split at h
  · cases h; rfl
  · cases h; rw [State.issueDeviceInvalidation_reg]

/-- No descriptor changes GSTS_REG. -/
theorem gsts_of_exec_descriptor {i : Instr} (hi : i.isDescriptor = true) (h : exec i s = .next t) :
    t.reg.gsts = s.reg.gsts := by
  cases i with
  | ccInvDsc => cases h; rw [State.invalidateContext_reg]
  | iotlbInvDsc => cases h; rw [State.invalidateIotlb_reg]
  | devIotlbInvDsc => exact gsts_of_execDevIotlbInvDsc h
  | iecInvDsc => cases h; rw [State.invalidateIec_reg]
  | invWaitDsc _ _ fn => exact gsts_of_execInvWaitDsc (fn := fn) h
  | _ => cases hi

theorem sameUnit_drainAll_if_drainsDma (s : State) : SameUnit s (if s.drainsDma then s.drainAll else s) := by
  split
  · exact sameUnit_drainAll s
  · exact SameUnit.refl s

/-- GCMD.TE gives TES its operand (45_global_commands.md R422). -/
theorem tes_of_execGcmdTe {enable : Bool} (h : execGcmdTe enable s = .next t) : t.tes = enable := by
  unfold execGcmdTe at h
  split at h
  · next hon =>
    split at h
    · cases h
    · cases h; rw [tes_setGsts, hon]
  · next hoff =>
    cases h
    rw [tes_of_gsts (congrArg Regs.gsts (State.resetPfIndex_reg _)), tes_setGsts, Bool.eq_false_iff.2 hoff]

theorem tes_of_execGcmdEafl {enable : Bool} (h : execGcmdEafl enable s = .next t) : t.tes = s.tes := by
  unfold execGcmdEafl at h
  split at h
  · cases h
  split at h
  · cases h
  · cases h; exact tes_setGsts_of_ne s _ (by decide)

theorem tes_of_execGcmdQie {enable : Bool} (h : execGcmdQie enable s = .next t) : t.tes = s.tes := by
  unfold execGcmdQie at h
  split at h
  · cases h; exact tes_setGsts_of_ne s _ (by decide)
  split at h
  · cases h; exact tes_setGsts_of_ne s _ (by decide)
  · cases h

theorem tes_of_execGcmdIre {enable : Bool} (h : execGcmdIre enable s = .next t) : t.tes = s.tes := by
  unfold execGcmdIre at h
  split at h
  · split at h
    · cases h
    · cases h; exact (tes_setGsts_of_ne _ _ (by decide)).trans (sameUnit_drainInterrupts s _).tes
  · cases h
    rw [tes_of_gsts (congrArg Regs.gsts (State.resetPfIndex_reg _))]
    exact (tes_setGsts_of_ne _ _ (by decide)).trans (sameUnit_drainInterrupts s _).tes

theorem gsts_of_execPmenEpm {enable : Bool} (h : execPmenEpm enable s = .next t) : t.reg.gsts = s.reg.gsts := by
  unfold execPmenEpm at h
  split at h
  · split at h
    · cases h
    · cases h; exact (sameUnit_drainAll_if_drainsDma s).gsts
  · cases h; rfl

/-- No other instruction changes TES. -/
theorem tes_of_exec {i : Instr} (hi : ∀ b, i ≠ .gcmdTe b) (h : exec i s = .next t) : t.tes = s.tes := by
  cases i with
  | ccInvDsc | iotlbInvDsc | devIotlbInvDsc | iecInvDsc | invWaitDsc => exact tes_of_gsts (gsts_of_exec_descriptor rfl h)
  | gcmdTe b => exact absurd rfl (hi b)
  | gcmdSrtp | gcmdSfl | gcmdSirtp | gcmdCfi => cases h; exact tes_setGsts_of_ne _ _ (by decide)
  | gcmdEafl => exact tes_of_execGcmdEafl h
  | gcmdWbf => cases h; exact (tes_setGsts_of_ne _ _ (by decide)).trans (sameUnit_flushWriteBuffer s).tes
  | gcmdQie => exact tes_of_execGcmdQie h
  | gcmdIre => exact tes_of_execGcmdIre h
  | ccmdIcc => cases h; exact tes_of_gsts (by simp)
  | iotlbIvt => cases h; exact tes_of_gsts (by simp)
  | pmenEpm => exact tes_of_gsts (gsts_of_execPmenEpm h)

/-! ## Register accesses and processors -/

theorem gsts_of_registerRead {bytes off : Nat} (h : s.registerRead bytes off = .next t) : t.reg.gsts = s.reg.gsts := by
  unfold State.registerRead at h
  split at h
  · cases h
  split at h <;> (cases h; exact (sameUnit_flushPosted s).gsts)

/-- GSTS_REG is read-only, and the submission of a command changes the bits of one-shot commands alone. -/
theorem RegistersOnly.tes (h : RegistersOnly s t) : t.tes = s.tes :=
  h.gsts 31 (by decide) (by decide) (by decide) (by decide)

theorem tes_of_processorMove {m : CpuMove} (h : s.processorMove m = .next t) : t.tes = s.tes := by
  unfold State.processorMove at h
  split at h
  · cases h
  cases m with
  | store cpu a data =>
      simp only at h
      split at h
      · split at h
        · exact (registersOnly_of_registerWrite h).tes
        · cases h
      · cases h; exact (sameUnit_processorStore s cpu a data).tes
  | writeback cpu a => cases h; exact (sameUnit_writeback s cpu a).tes
  | drain => cases h; exact (sameUnit_drainStore s).tes

theorem tes_of_processorMoves {ms : List CpuMove} (h : s.processorMoves ms = .next t) : t.tes = s.tes := by
  induction ms generalizing s with
  | nil => cases h; rfl
  | cons m ms ih =>
      obtain ⟨u, hm, hms⟩ := andThen_next h
      exact (ih hms).trans (tes_of_processorMove hm)

theorem gsts_of_processorLoad {a n : Nat} (h : s.processorLoad a n = .next t) : t.reg.gsts = s.reg.gsts := by
  unfold State.processorLoad at h
  split at h
  · cases h
  split at h
  · split at h
    · exact gsts_of_registerRead h
    · cases h
  · cases h; rfl

theorem tes_of_processRequest {r : Request} {race : List CpuMove} (h : s.processRequest r race = .next t) :
    t.tes = s.tes := by
  obtain ⟨u, hrequest, hrace⟩ := request_processRequest h
  exact (tes_of_processorMoves hrace).trans (tes_of_gsts hrequest.gsts)

/-! ## The engines -/

theorem gsts_of_executePending {p : Pending} (hp : p.instr.isDescriptor = true) (h : s.executePending p = .next t) :
    t.reg.gsts = s.reg.gsts := by
  obtain ⟨u, hexec, hretire⟩ := andThen_next h
  cases hretire
  rw [State.retire_reg]
  exact gsts_of_exec_descriptor (s := { s with iq := { s.iq with current := p.seq } }) hp hexec

theorem gsts_of_executeSeq {seq : Nat} (hd : s.HoldsDescriptors) (h : s.executeSeq seq = .next t) :
    t.reg.gsts = s.reg.gsts := by
  unfold State.executeSeq at h
  split at h
  · next p hfind => exact gsts_of_executePending (hd p (List.mem_of_find?_eq_some hfind)) h
  · cases h; rfl

theorem gsts_of_fetchAndRun (hd : s.HoldsDescriptors) (h : s.fetchAndRun = .next t) : t.reg.gsts = s.reg.gsts := by
  unfold State.fetchAndRun at h
  split at h
  · cases h; exact s.fetchDescriptor_gsts _
  · exact (gsts_of_executeSeq (hd.fetchDescriptor _) h).trans (s.fetchDescriptor_gsts _)

theorem gsts_of_settle (hd : s.HoldsDescriptors) (h : s.settle = .next t) : t.reg.gsts = s.reg.gsts := by
  unfold State.settle at h
  split at h
  · exact (faultLog_logOldestFault h).gsts
  split at h
  · cases h; exact (sameUnit_commitAt s 0).gsts
  split at h
  · cases h; exact (sameUnit_commitIrqAt s 0).gsts
  split at h
  · cases h; exact (sameUnit_deliver s 0).gsts
  split at h
  · cases h; exact (sameUnit_drainStore s).gsts
  split at h
  · cases h; exact s.setHolds_gsts false false
  split at h
  · next p hfind => exact gsts_of_executePending (hd p (List.mem_of_find?_eq_some hfind)) h
  · cases h; rfl

/-- With no command pending the unit's own moves leave GSTS_REG alone. -/
theorem gsts_of_idleStep (hd : s.HoldsDescriptors) (hc : s.cmd.isSome = false) (h : s.idleStep = .next t) :
    t.reg.gsts = s.reg.gsts := by
  rw [State.idleStep, hc, if_neg Bool.false_ne_true] at h
  split at h
  · next p hfind => exact gsts_of_executePending (hd p (List.mem_of_find?_eq_some hfind)) h
  split at h
  · exact gsts_of_fetchAndRun hd h
  · exact gsts_of_settle hd h

/-- The pending command is GCMD.TE = 0 (45_global_commands.md R422). -/
def State.DisablesDma (s : State) : Prop := ∃ w, s.cmd = some w ∧ decodeCommand s.cmdContext w = .instr (.gcmdTe false)

/-- Of the commands only GCMD.TE = 0 turns DMA remapping off when it is performed. -/
theorem disablesDma_of_runCommand (h : s.runCommand = .next t) (hon : s.tes = true) (hoff : t.tes = false) :
    s.DisablesDma := by
  have changed : t.tes ≠ s.tes := by rw [hon, hoff]; decide
  unfold State.runCommand at h
  split at h
  · cases h; exact absurd rfl changed
  next w hw =>
    split at h
    · cases h
    · cases h; exact absurd rfl changed
    next i hdec =>
      split at h
      · by_cases hi : ∃ b, i = .gcmdTe b
        · obtain ⟨b, rfl⟩ := hi
          obtain rfl : b = false := (tes_of_execGcmdTe h).symm.trans hoff
          exact ⟨w, hw, hdec⟩
        · exact absurd (tes_of_exec (not_exists.1 hi) h) changed
      · cases h

/-! ## A step -/

theorem tes_of_handle {e : Event} (hd : s.HoldsDescriptors) (hreset : e ≠ .powergood) (hrun : e ≠ .runCommand)
    (h : s.handle e = .next t) : t.tes = s.tes := by
  cases e with
  | cpu m => exact tes_of_processorMove h
  | load a n => exact tes_of_gsts (gsts_of_processorLoad h)
  | regRead bytes off => exact tes_of_gsts (gsts_of_registerRead h)
  | regWrite bytes off v => exact (registersOnly_of_registerWrite h).tes
  | request r race => exact tes_of_processRequest h
  | upstreamInvRequest sid => cases h; rfl
  | atsCompletion sid vec cc => cases h; exact tes_of_gsts (s.atsCompletion_gsts sid vec cc)
  | timeout i => cases h; exact tes_of_gsts (s.timeout_gsts i)
  | powergood => exact absurd rfl hreset
  | runCommand => exact absurd rfl hrun
  | fetch race => exact (tes_of_processorMoves h).trans (tes_of_gsts (s.fetchDescriptor_gsts _))
  | fetchAhead slot race =>
      exact (tes_of_processorMoves h).trans (tes_of_gsts (congrArg Regs.gsts (s.fetchAhead_reg slot _)))
  | execute seq => exact tes_of_gsts (gsts_of_executeSeq hd h)
  | commit k => cases h; exact (sameUnit_commitAt s k).tes
  | commitIrq k => cases h; exact (sameUnit_commitIrqAt s k).tes
  | deliver k => cases h; exact (sameUnit_deliver s k).tes
  | evict c k => cases h; exact tes_of_gsts (congrArg Regs.gsts (s.evict_reg c k))
  | prefetch sid dva race =>
      exact (tes_of_processorMoves h).trans (tes_of_gsts (request_prefetch s sid dva _).gsts)
  | logFault => exact tes_of_gsts (faultLog_logOldestFault h).gsts
  | hold fault inv => cases h; exact tes_of_gsts (s.setHolds_gsts fault inv)

/-- An event that turns DMA remapping off. -/
theorem handle_disables {e : Event} (hd : s.HoldsDescriptors) (h : s.handle e = .next t) (hon : s.tes = true)
    (hoff : t.tes = false) : e = .powergood ∨ e = .runCommand ∧ s.DisablesDma := by
  by_cases hreset : e = .powergood
  · exact .inl hreset
  by_cases hrun : e = .runCommand
  · subst hrun
    exact .inr ⟨rfl, disablesDma_of_runCommand h hon hoff⟩
  · exact absurd ((tes_of_handle hd hreset hrun h).trans hon) (by rw [hoff]; decide)

/-- A move of the unit's own that turns DMA remapping off. -/
theorem idleStep_disables (hd : s.HoldsDescriptors) (h : s.idleStep = .next t) (hon : s.tes = true) (hoff : t.tes = false) :
    s.DisablesDma := by
  cases hc : s.cmd.isSome with
  | true =>
      rw [State.idleStep, if_pos hc] at h
      exact disablesDma_of_runCommand h hon hoff
  | false => exact absurd ((tes_of_gsts (gsts_of_idleStep hd hc h)).trans hon) (by rw [hoff]; decide)

/-- Settles O57, by the two kinds of step: an event of the agenda (`handle_disables`), and the engines' own move
(`idleStep_disables`). -/
theorem onlyTheCommandOrResetDisablesRemapping : Obligations.OnlyTheCommandOrResetDisablesRemapping := by
  intro s t himpl h hon hoff
  have hd := himpl.holdsDescriptors
  unfold step at h
  split at h
  · next hidle => exact .inr ⟨.inl hidle, idleStep_disables hd h hon hoff⟩
  · next e rest hagenda =>
    obtain rfl | ⟨rfl, hte⟩ := handle_disables (s := { s with agenda := rest }) hd h hon hoff
    · exact .inl ⟨rest, hagenda⟩
    · exact .inr ⟨.inr ⟨rest, hagenda⟩, hte⟩

end Sys2Proof.Machine
end

section
/-! Servicing a fault recording register (12_registers_b.md R105; 60_exceptions.md R502, R511): the write of 1 to F stores one cleared
bit, and what is left to service decides FECTL.IP. -/

namespace Sys2Proof.Machine

variable {s : State}

/-! ## Servicing the fault event -/

theorem serviceFaultEvent_frame (s : State) :
    s.serviceFaultEvent = { s with reg := { s.reg with fectl := s.serviceFaultEvent.reg.fectl } } := by
  unfold State.serviceFaultEvent
  split <;> rfl

/-- IP is none of the conditions that software services. -/
@[simp] theorem anyStatus_serviceFaultEvent (s : State) : s.serviceFaultEvent.anyStatus = s.anyStatus := by
  rw [serviceFaultEvent_frame]
  rfl

@[simp] theorem faultReg_serviceFaultEvent (s : State) (n : Nat) : s.serviceFaultEvent.faultReg n = s.faultReg n := by
  rw [serviceFaultEvent_frame]
  rfl

@[simp] theorem fePending_serviceFaultEvent (s : State) : s.serviceFaultEvent.fePending = (s.fePending && s.anyStatus) := by
  unfold State.serviceFaultEvent
  split
  · next hany => rw [hany, Bool.and_true]
  · next hany =>
    rw [Bool.eq_false_iff.2 hany, Bool.and_false]
    exact getLsbD_setBit_self s.reg.fectl 30 false (by decide)

theorem getLsbD_fectl_serviceFaultEvent (s : State) {k : Nat} (hk : k ≠ 30) :
    s.serviceFaultEvent.reg.fectl.getLsbD k = s.reg.fectl.getLsbD k := by
  unfold State.serviceFaultEvent
  split
  · rfl
  · exact getLsbD_setBit_of_ne s.reg.fectl false hk

/-! ## Clearing F -/

/-- F of fault recording register `n` Cleared, everything else as it was. -/
def State.clearRecordF (s : State) (n : Nat) : State :=
  { s with reg := { s.reg with frcd := s.reg.frcd.set n (setBit (s.faultReg n) 127 false) } }

theorem faultReg_clearRecordF {n : Nat} (hn : n < s.reg.frcd.length) :
    (s.clearRecordF n).faultReg n = setBit (s.faultReg n) 127 false := by
  simp [State.clearRecordF, State.faultReg, hn]

theorem faultReg_clearRecordF_of_ne {n m : Nat} (hm : m ≠ n) : (s.clearRecordF n).faultReg m = s.faultReg m := by
  simp [State.clearRecordF, State.faultReg, List.getElem?_set_ne hm.symm]

/-! ## The write -/

/-- 80000000h in the highest doubleword of a fault recording register is its F bit. -/
theorem recordF_dword : ((0x80000000 : BitVec 32).setWidth 128) <<< (32 * 3) = 1#128 <<< 127 := by decide

/-- A write of a fault recording register stores nothing: it Clears F where it has a 1 there (12_registers_b.md R105). -/
theorem writtenValue_frcd (cfg : Config) (n : Nat) (old w m : BitVec 128) :
    writtenValue cfg (.frcd n) old w m = old &&& ~~~(w &&& maskBits 128 127 127) := by
  simp only [writtenValue, writableBits, clearableBits, BitVec.ofNat_eq_ofNat, BitVec.zero_and, BitVec.and_zero, BitVec.or_zero,
    BitVec.not_zero, BitVec.and_allOnes]

theorem stored_recordF (s : State) (n : Nat) : s.stored (.frcd n) 3 0x80000000 = s.clearRecordF n := by
  have hbit : (1#128 <<< 127) &&& maskBits 128 127 127 = 1#128 <<< 127 := by decide
  rw [State.stored, recordF_dword, writtenValue_frcd, hbit]
  rfl

/-- F is no reserved bit, whichever fields the implementation leaves out of the register (10_state.md R39). -/
theorem recordF_and_mustBeZeroBits (cfg : Config) (n : Nat) : (1#128 <<< 127) &&& mustBeZeroBits cfg (.frcd n) = 0 := by
  rw [mustBeZeroBits]
  cases cfg.di <;> decide

/-- No command owns a fault recording register. -/
theorem ownedBy_frcd (n : Nat) (i : Instr) : ownedBy (.frcd n) i = false := by
  simp [ownedBy, RegId.isRegion]

/-- Nothing but reserved bits bars a write of a fault recording register: no pending command, queue or protected region does. -/
theorem writeRefusal_frcd {n k : Nat} {w : BitVec 128} (hw : w &&& mustBeZeroBits s.cfg (.frcd n) = 0) :
    s.writeRefusal (.frcd n) k w = none := by
  cases hp : s.pendingCommand <;>
    simp [State.writeRefusal, hw, hp, preservedBits, ownedBy_frcd, RegId.isCommandRegister, RegId.isRegion]

/-- Writing 1 to F Clears it and then services the fault event (60_exceptions.md R502). -/
theorem writeDword_recordF {off n : Nat} (hat : registerAt s.cfg off = some (.frcd n, 3)) :
    s.writeDword off 0x80000000 = .next (s.clearRecordF n).serviceFaultEvent := by
  have hok : s.writeRefusal (.frcd n) 3 (((0x80000000 : BitVec 32).setWidth 128) <<< (32 * 3)) = none := by
    rw [recordF_dword]
    exact writeRefusal_frcd (recordF_and_mustBeZeroBits s.cfg n)
  rw [writeDword_accepted hat hok, stored_recordF]
  rfl

/-- Settles O32: the write is `State.clearRecordF`, whose one changed bit `faultReg_clearRecordF` says, and then
`State.serviceFaultEvent`, which changes FECTL.IP at most. -/
theorem writingFaultBitClearsTheRecord : Obligations.WritingFaultBitClearsTheRecord := by
  intro s off n hat hn
  refine ⟨(s.clearRecordF n).serviceFaultEvent, writeDword_recordF hat, ?cleared, fun k hk => ?fields, fun m hm => ?others,
    ?pending, fun k hk => getLsbD_fectl_serviceFaultEvent _ hk, ?frame⟩
  case cleared =>
    rw [faultReg_serviceFaultEvent, faultReg_clearRecordF hn]
    exact getLsbD_setBit_self _ 127 false (by decide)
  case fields => rw [faultReg_serviceFaultEvent, faultReg_clearRecordF hn, getLsbD_setBit_of_ne _ _ hk]
  case others => rw [faultReg_serviceFaultEvent, faultReg_clearRecordF_of_ne hm]
  case pending =>
    rw [fePending_serviceFaultEvent, anyStatus_serviceFaultEvent]
    rfl
  case frame =>
    rw [serviceFaultEvent_frame]
    rfl

end Sys2Proof.Machine
end

section
/-! The invariant along a step (10_state.md R29, R34; 11_registers_a.md R64; 20_memory.md R152, R157; 60_exceptions.md R492). Laws/
says of most operations that they keep both invariants of Safety.lean (`Keeps`); here the same is said of the others, up to
`step`, in the order of the model's files. -/

namespace Sys2Proof.Machine

variable {s t : State}

/-! ## State operations -/

/-- A change of registers alone: the file keeps its size, GSTS_REG its bits, and PPF stays unstored. -/
theorem keeps_reg {s : State} (r : Regs) (hfrcd : r.frcd.length = s.reg.frcd.length) (hgsts : r.gsts = s.reg.gsts)
    (hfsts : s.reg.fsts.getLsbD 1 = false → r.fsts.getLsbD 1 = false) : Keeps s { s with reg := r } :=
  ⟨fun k => inv_of_reg k r hfrcd (hgsts ▸ k.gsts) (hfsts k.fsts), fun k => ⟨k.ctx, k.iotlb, k.pde, k.iec⟩⟩

/-- A change of the latched pointers and of the log's positions that leaves af_index inside the log. -/
theorem keeps_latch {s : State} (l : Latches) (g : LogState) (hpf : g.pfIndex = s.log.pfIndex)
    (haf : s.Inv → ∀ p, l.flp = some p → g.afIndex < 2 ^ (p.size.toNat + 8)) : Keeps s { s with latch := l, log := g } :=
  ⟨fun k => ⟨k.mem, k.frcd, k.itags, k.gsts, k.fsts, hpf ▸ k.pfIndex, haf k, k.wbuf, k.dirty, k.dirtyOnce⟩,
    fun k => ⟨k.ctx, k.iotlb, k.pde, k.iec⟩⟩

/-- A latched pointer other than the log's. -/
theorem keeps_pointer {s : State} (l : Latches) (hflp : l.flp = s.latch.flp) : Keeps s { s with latch := l } :=
  keeps_latch l s.log rfl (fun k => hflp ▸ k.afIndex)

theorem keeps_evict (s : State) (c : CacheKind) (k : Nat) : Keeps s (s.evict c k) := by
  cases c with
  | ctx => exact keeps_cache_subset _ (fun _ => List.mem_of_mem_eraseIdx) (fun _ => id) (fun _ => id) (fun _ => id)
  | iotlb => exact keeps_cache_subset _ (fun _ => id) (fun _ => List.mem_of_mem_eraseIdx) (fun _ => id) (fun _ => id)
  | pde => exact keeps_cache_subset _ (fun _ => id) (fun _ => id) (fun _ => List.mem_of_mem_eraseIdx) (fun _ => id)
  | iec => exact keeps_cache_subset _ (fun _ => id) (fun _ => id) (fun _ => id) (fun _ => List.mem_of_mem_eraseIdx)

theorem keeps_setHolds (s : State) (fault inv : Bool) : Keeps s (s.setHolds fault inv) :=
  (keeps_schedule s s.iq s.cmd s.agenda fault inv s.preserved s.unlogged).trans
    ((events_releaseFaultEvent _).trans (events_releaseInvEvent _)).keeps

theorem keeps_atsCompletion (s : State) (sid : SourceId) (vec : BitVec 32) (cc : BitVec 3) :
    Keeps s (s.atsCompletion sid vec cc) := by
  have hpush : SameUnit s (s.pushTranslated sid) := sameUnit_drainWhere s _
  have htags : (s.itags.mapIdx (countTag vec cc)).length = (s.pushTranslated sid).itags.length := by simp [hpush.itags]
  unfold State.atsCompletion
  split
  · exact keeps_emit s _
  split
  · exact (events_raiseStatus s 5 (by decide)).keeps
  · exact (hpush.keeps.trans (keeps_itags _ _ htags)).trans (keeps_schedule _ _ _ _ _ _ _ _)

theorem keeps_timeout (s : State) (i : Nat) : Keeps s (s.timeout i) := by
  unfold State.timeout
  split
  · exact Keeps.refl s
  · next tag _ =>
    have hfree : Keeps s { s with itags := s.itags.set i none } := keeps_itags s _ (by simp)
    exact ((hfree.trans (keeps_schedule _ _ _ _ _ _ _ _)).trans (events_raiseIte _).keeps).trans (keeps_tick _)

/-! ## The meanings of the instructions -/

theorem keeps_drainAll_if_drainsDma (s : State) : Keeps s (if s.drainsDma then s.drainAll else s) :=
  (sameUnit_drainAll_if_drainsDma s).keeps

theorem keeps_of_execGcmdTe {enable : Bool} (h : execGcmdTe enable s = .next t) : Keeps s t := by
  unfold execGcmdTe at h
  split at h
  · split at h
    · cases h
    · cases h; exact (keeps_drainAll_if_drainsDma s).trans (keeps_setGsts _ _ _ (by decide))
  · cases h
    exact ((((sameUnit_drainWhere s _).keeps).trans (keeps_tick _)).trans (keeps_setGsts _ _ _ (by decide))).trans
      (keeps_resetPfIndex _)

theorem keeps_of_execGcmdIre {enable : Bool} (h : execGcmdIre enable s = .next t) : Keeps s t := by
  unfold execGcmdIre at h
  split at h
  · split at h
    · cases h
    · cases h; exact (sameUnit_drainInterrupts s _).keeps.trans (keeps_setGsts _ _ _ (by decide))
  · cases h
    exact (((sameUnit_drainInterrupts s _).keeps.trans (keeps_tick _)).trans (keeps_setGsts _ _ _ (by decide))).trans
      (keeps_resetPfIndex _)

theorem keeps_of_execGcmdSrtp (h : execGcmdSrtp s = .next t) : Keeps s t := by
  cases h
  exact (keeps_pointer { s.latch with rtp := some (pageNumber s.cfg s.reg.rtaddr) } rfl).trans
    (keeps_setGsts _ 30 true (by decide))

theorem keeps_of_execGcmdSirtp (h : execGcmdSirtp s = .next t) : Keeps s t := by
  cases h
  exact (keeps_pointer
    { s.latch with irtp := some { base := pageNumber s.cfg s.reg.irta, size := s.reg.irta.extractLsb' 0 4 } } rfl).trans
    (keeps_setGsts _ 24 true (by decide))

/-- GCMD.SFL starts the log anew at its first record (45_global_commands.md R424). -/
theorem keeps_of_execGcmdSfl (h : execGcmdSfl s = .next t) : Keeps s t := by
  cases h
  exact (keeps_latch _ { s.log with afIndex := 0, afWrapped := false, afPrevSid := none } rfl
    (fun _ _ _ => Nat.two_pow_pos _)).trans (keeps_setGsts _ 29 true (by decide))

theorem keeps_of_execGcmdEafl {enable : Bool} (h : execGcmdEafl enable s = .next t) : Keeps s t := by
  unfold execGcmdEafl at h
  split at h
  · cases h
  split at h
  · cases h
  · cases h; exact keeps_setGsts _ _ _ (by decide)

theorem keeps_resetHead (s : State) : Keeps s s.resetHead :=
  (keeps_reg { s.reg with iqh := 0 } rfl rfl id).trans (keeps_schedule _ _ _ _ _ _ _ _)

theorem keeps_of_execGcmdQie {enable : Bool} (h : execGcmdQie enable s = .next t) : Keeps s t := by
  unfold execGcmdQie at h
  split at h
  · cases h; exact keeps_setGsts _ _ _ (by decide)
  split at h
  · cases h; exact (keeps_setGsts _ _ _ (by decide)).trans (keeps_resetHead _)
  · cases h

theorem keeps_of_execPmenEpm {enable : Bool} (h : execPmenEpm enable s = .next t) : Keeps s t := by
  unfold execPmenEpm at h
  split at h
  · split at h
    · cases h
    · cases h; exact (keeps_drainAll_if_drainsDma s).trans (keeps_setPrs _ _)
  · cases h; exact keeps_setPrs _ _

theorem keeps_of_execDevIotlbInvDsc {mip : BitVec 5} {sid : SourceId} {sbit : Bool} {addr : PageNumber}
    (h : execDevIotlbInvDsc mip sid sbit addr s = .next t) : Keeps s t := by
  unfold execDevIotlbInvDsc at h
  split at h
  · cases h; exact keeps_tick s
  · cases h; exact keeps_issueDeviceInvalidation s sid sbit addr

theorem keeps_of_execInvWaitDsc {iflag sw fn : Bool} {data : BitVec 32} {addr : BitVec 62}
    (h : execInvWaitDsc iflag sw fn data addr s = .next t) : Keeps s t := by
  have posted : Keeps s (if sw then postStatus data addr s else s) := by
    split
    · exact (events_posted s _).keeps
    · exact Keeps.refl s
  unfold execInvWaitDsc at h
  split at h
  · cases h
  · cases h
    split
    · exact posted.trans (events_completeWithInterrupt _).keeps
    · exact posted

/-- An instruction, however it is executed, keeps both invariants. -/
theorem keeps_of_exec {i : Instr} (h : exec i s = .next t) : Keeps s t := by
  cases i with
  | ccInvDsc => cases h; exact keeps_invalidateContext ..
  | iotlbInvDsc => cases h; exact keeps_invalidateIotlb ..
  | devIotlbInvDsc => exact keeps_of_execDevIotlbInvDsc h
  | iecInvDsc => cases h; exact keeps_invalidateIec ..
  | invWaitDsc _ _ fn => exact keeps_of_execInvWaitDsc (fn := fn) h
  | gcmdTe => exact keeps_of_execGcmdTe h
  | gcmdSrtp => exact keeps_of_execGcmdSrtp h
  | gcmdSfl => exact keeps_of_execGcmdSfl h
  | gcmdEafl => exact keeps_of_execGcmdEafl h
  | gcmdWbf => cases h; exact (sameUnit_flushWriteBuffer s).keeps.trans (keeps_setGsts _ _ _ (by decide))
  | gcmdQie => exact keeps_of_execGcmdQie h
  | gcmdIre => exact keeps_of_execGcmdIre h
  | gcmdSirtp => exact keeps_of_execGcmdSirtp h
  | gcmdCfi => cases h; exact keeps_setGsts _ _ _ (by decide)
  | ccmdIcc => cases h; exact (keeps_invalidateContext ..).trans (keeps_reg _ rfl rfl id)
  | iotlbIvt => cases h; exact (keeps_invalidateIotlb ..).trans (keeps_reg _ rfl rfl id)
  | pmenEpm => exact keeps_of_execPmenEpm h

/-! ## Register accesses -/

theorem keeps_of_registerRead {bytes off : Nat} (h : s.registerRead bytes off = .next t) : Keeps s t := by
  have hread : ∀ (o : Output) (p : Preserved), Keeps s ({ s.flushPosted.emit o with preserved := p } : State).tick := fun o p =>
    (((sameUnit_flushPosted s).keeps.trans (keeps_emit _ o)).trans (keeps_schedule _ _ _ _ _ _ p _)).trans (keeps_tick _)
  unfold State.registerRead at h
  split at h
  · cases h
  split at h <;> (cases h; exact hread _ _)

/-- A stored register: FRCD_REG keeps its size, and FSTS_REG is stored with PPF Clear (60_exceptions.md R492). -/
theorem keeps_setReg (s : State) (r : RegId) (v : BitVec 128) : Keeps s (s.setReg r v) := by
  rw [setReg_frame]
  refine keeps_reg _ ?size (setReg_gsts s r v) ?ppf
  case size =>
    cases r with
    | frcd n => exact List.length_set
    | _ => rfl
  case ppf =>
    cases r with
    | fsts => exact fun _ => getLsbD_setBit_self _ 1 false (by decide)
    | _ => exact id

theorem keeps_beginCommand (s : State) (i : Instr) : Keeps s (s.beginCommand i) := by
  cases i with
  | gcmdSrtp | gcmdSfl | gcmdWbf | gcmdSirtp => exact keeps_setGsts _ _ _ (by decide)
  | _ => exact Keeps.refl s

theorem keeps_of_submitCommand {w : CmdWrite} (h : s.submitCommand w = .next t) : Keeps s t := by
  unfold State.submitCommand at h
  split at h
  · cases h
  · cases h; exact Keeps.refl s
  split at h
  · cases h
  split at h
  · cases h
  · cases h; exact (keeps_beginCommand s _).trans (keeps_schedule _ _ _ _ _ _ _ _)

theorem keeps_dropUnqueued (s : State) : Keeps s s.dropUnqueued := keeps_schedule _ _ _ _ _ _ _ _

theorem keeps_of_afterWrite {r : RegId} {k : Nat} {w : BitVec 128} (h : s.afterWrite r k w = .next t) : Keeps s t := by
  cases r with
  | gcmd => exact keeps_of_submitCommand h
  | pmen | ccmd | iotlb =>
      simp only [State.afterWrite] at h
      split at h
      · exact keeps_of_submitCommand h
      · cases h; exact Keeps.refl s
  | fsts | frcd => cases h; exact (events_serviceFaultEvent _).keeps
  | fectl => cases h; exact (events_releaseFaultEvent s).keeps
  | ics => cases h; exact (events_serviceInvEvent s).keeps
  | iectl => cases h; exact (events_releaseInvEvent s).keeps
  | iqa =>
      simp only [State.afterWrite] at h
      split at h
      · cases h
        exact (keeps_reg { s.reg with iqh := 0, iqt := 0 } rfl rfl id).trans (keeps_schedule _ _ _ _ _ _ _ _)
      · cases h; exact Keeps.refl s
  | iqt => cases h; exact keeps_dropUnqueued s
  | _ => cases h; exact Keeps.refl s

theorem keeps_of_writeDword {off : Nat} {v : BitVec 32} (h : s.writeDword off v = .next t) : Keeps s t := by
  unfold State.writeDword at h
  split at h
  · cases h; exact Keeps.refl s
  simp only at h
  split at h
  · cases h
  · exact (keeps_setReg s _ _).trans (keeps_of_afterWrite h)

theorem keeps_of_registerWrite {bytes off : Nat} {v : BitVec 64} (h : s.registerWrite bytes off v = .next t) : Keeps s t := by
  unfold State.registerWrite at h
  split at h
  · cases h
  split at h
  · exact keeps_of_writeDword h
  · obtain ⟨u, hlow, hhigh⟩ := andThen_next h
    exact (keeps_of_writeDword hlow).trans (keeps_of_writeDword hhigh)

/-! ## Processors -/

theorem keeps_of_processorMove {m : CpuMove} (h : s.processorMove m = .next t) : Keeps s t := by
  unfold State.processorMove at h
  split at h
  · cases h
  cases m with
  | store cpu a data =>
      simp only at h
      split at h
      · split at h
        · exact keeps_of_registerWrite h
        · cases h
      · cases h; exact (sameUnit_processorStore s cpu a data).keeps
  | writeback cpu a => cases h; exact (sameUnit_writeback s cpu a).keeps
  | drain => cases h; exact (sameUnit_drainStore s).keeps

theorem keeps_of_processorMoves {ms : List CpuMove} (h : s.processorMoves ms = .next t) : Keeps s t := by
  induction ms generalizing s with
  | nil => cases h; exact Keeps.refl _
  | cons m ms ih =>
      obtain ⟨u, hm, hms⟩ := andThen_next h
      exact (keeps_of_processorMove hm).trans (ih hms)

theorem keeps_of_processorLoad {a n : Nat} (h : s.processorLoad a n = .next t) : Keeps s t := by
  unfold State.processorLoad at h
  split at h
  · cases h
  split at h
  · split at h
    · exact keeps_of_registerRead h
    · cases h
  · cases h; exact keeps_emit s _

theorem keeps_of_processRequest {r : Request} {race : List CpuMove} (h : s.processRequest r race = .next t) : Keeps s t := by
  obtain ⟨u, hrequest, hrace⟩ := request_processRequest h
  exact hrequest.keeps.trans (keeps_of_processorMoves hrace)

/-! ## The engines -/

theorem keeps_of_runCommand (h : s.runCommand = .next t) : Keeps s t := by
  have hempty : Keeps s { s with cmd := none } := keeps_schedule _ _ _ _ _ _ _ _
  unfold State.runCommand at h
  split at h
  · cases h; exact Keeps.refl s
  split at h
  · cases h
  · cases h; exact hempty
  split at h
  · exact hempty.trans (keeps_of_exec h)
  · cases h

theorem keeps_acceptDescriptor (s : State) (i : Instr) : Keeps s (s.acceptDescriptor i) :=
  (keeps_reg { s.reg with iqh := queueIndex ((s.qh + 1) % s.queueSlots) } rfl rfl id).trans (keeps_schedule _ _ _ _ _ _ _ _)

theorem keeps_fetchDescriptor (s : State) (vs : List Memory) : Keeps s (s.fetchDescriptor vs) := by
  unfold State.fetchDescriptor
  split
  · split
    · exact (keeps_acceptDescriptor s _).trans (keeps_tick _)
    · exact (keeps_raiseIqe s).trans (keeps_tick _)
  · exact Keeps.refl s

theorem keeps_fetchAhead (s : State) (slot : Nat) (vs : List Memory) : Keeps s (s.fetchAhead slot vs) := by
  unfold State.fetchAhead
  split
  · exact (keeps_schedule _ _ _ _ _ _ _ _).trans (keeps_tick _)
  · exact Keeps.refl s

theorem keeps_retire (s : State) (p : Pending) : Keeps s (s.retire p) := by
  unfold State.retire
  split
  · exact Keeps.refl s
  · exact keeps_schedule _ _ _ _ _ _ _ _

theorem keeps_of_executePending {p : Pending} (h : s.executePending p = .next t) : Keeps s t := by
  obtain ⟨u, hexec, hretire⟩ := andThen_next h
  cases hretire
  have hcurrent : Keeps s { s with iq := { s.iq with current := p.seq } } := keeps_schedule _ _ _ _ _ _ _ _
  exact (hcurrent.trans (keeps_of_exec hexec)).trans (keeps_retire u p)

theorem keeps_of_executeSeq {seq : Nat} (h : s.executeSeq seq = .next t) : Keeps s t := by
  unfold State.executeSeq at h
  split at h
  · exact keeps_of_executePending h
  · cases h; exact Keeps.refl s

theorem keeps_of_fetchAndRun (h : s.fetchAndRun = .next t) : Keeps s t := by
  unfold State.fetchAndRun at h
  split at h
  · cases h; exact keeps_fetchDescriptor s _
  · exact (keeps_fetchDescriptor s _).trans (keeps_of_executeSeq h)

theorem keeps_of_settle (h : s.settle = .next t) : Keeps s t := by
  unfold State.settle at h
  split at h
  · exact (faultLog_logOldestFault h).keeps
  split at h
  · cases h; exact (sameUnit_commitAt s 0).keeps
  split at h
  · cases h; exact (sameUnit_commitIrqAt s 0).keeps
  split at h
  · cases h; exact (sameUnit_deliver s 0).keeps
  split at h
  · cases h; exact (sameUnit_drainStore s).keeps
  split at h
  · cases h; exact keeps_setHolds s false false
  split at h
  · exact keeps_of_executePending h
  · cases h; exact Keeps.refl s

theorem keeps_of_idleStep (h : s.idleStep = .next t) : Keeps s t := by
  unfold State.idleStep at h
  split at h
  · exact keeps_of_runCommand h
  split at h
  · exact keeps_of_executePending h
  split at h
  · exact keeps_of_fetchAndRun h
  · exact keeps_of_settle h

/-! ## A step -/

/-- Powergood reset gives the unit the sizes of its configuration, empties its caches and buffers, and leaves memory
(70_reset_and_hazards.md R531, R534). -/
theorem keeps_powergood (s : State) : Keeps s s.powergood where
  inv k :=
    { mem := k.mem
      frcd := List.length_replicate
      itags := List.length_replicate
      gsts := BitVec.zero_and
      fsts := BitVec.getLsbD_zero
      pfIndex := faultRegs_pos s.cfg
      afIndex := fun _ h => absurd h (Option.some_ne_none _).symm
      wbuf := fun _ => rfl
      dirty := fun _ => rfl
      dirtyOnce := List.nodup_nil }
  valid _ :=
    { ctx := fun _ _ h => absurd h List.not_mem_nil
      iotlb := fun _ _ h => absurd h List.not_mem_nil
      pde := fun _ _ h => absurd h List.not_mem_nil
      iec := fun _ _ h => absurd h List.not_mem_nil }

theorem keeps_of_handle {e : Event} (h : s.handle e = .next t) : Keeps s t := by
  cases e with
  | cpu m => exact keeps_of_processorMove h
  | load a n => exact keeps_of_processorLoad h
  | regRead bytes off => exact keeps_of_registerRead h
  | regWrite bytes off v => exact keeps_of_registerWrite h
  | request r race => exact keeps_of_processRequest h
  | upstreamInvRequest sid => cases h; exact keeps_emit s _
  | atsCompletion sid vec cc => cases h; exact keeps_atsCompletion s sid vec cc
  | timeout i => cases h; exact keeps_timeout s i
  | powergood => cases h; exact keeps_powergood s
  | runCommand => exact keeps_of_runCommand h
  | fetch race => exact (keeps_fetchDescriptor s _).trans (keeps_of_processorMoves h)
  | fetchAhead slot race => exact (keeps_fetchAhead s slot _).trans (keeps_of_processorMoves h)
  | execute seq => exact keeps_of_executeSeq h
  | commit k => cases h; exact (sameUnit_commitAt s k).keeps
  | commitIrq k => cases h; exact (sameUnit_commitIrqAt s k).keeps
  | deliver k => cases h; exact (sameUnit_deliver s k).keeps
  | evict c k => cases h; exact keeps_evict s c k
  | prefetch sid dva race => exact (request_prefetch s sid dva _).keeps.trans (keeps_of_processorMoves h)
  | logFault => exact (faultLog_logOldestFault h).keeps
  | hold fault inv => cases h; exact keeps_setHolds s fault inv

theorem keeps_of_step (h : step s = .next t) : Keeps s t := by
  unfold step at h
  split at h
  · exact keeps_of_idleStep h
  · next e rest _ =>
    have hnext : Keeps s { s with agenda := rest } := keeps_schedule _ _ _ _ _ _ _ _
    exact hnext.trans (keeps_of_handle h)

/-- Settles O53, by the two kinds of step: an event of the agenda, and the engines' own move (`keeps_of_step`). -/
theorem everyStepKeepsInv : Obligations.EveryStepKeepsInv := by
  intro s t hs h
  exact (keeps_of_step h).inv hs

end Sys2Proof.Machine
end

section
/-! In-flight requests (20_memory.md R162; 40_dma_remapping.md R256, R257; 43_caching_and_register_invalidation.md R360): a request
that is processed joins them, and one that completes writes or reads its enabled bytes. -/

namespace Sys2Proof.Machine

variable {s : State}

/-- Settles O38: with no move racing, the state after a request is that of its `RequestEffect`. -/
theorem requestsReachMemoryOnlyByCommit : Obligations.RequestsReachMemoryOnlyByCommit := by
  intro s t r h
  obtain ⟨u, he, hrace⟩ := request_processRequest h
  obtain rfl : u = t := by cases hrace; rfl
  exact ⟨he.mem, he.wbuf, he.dirty, he.reg, he.posted, he.unlogged, he.inflight, he.irqs⟩

/-! ## The enabled bytes of a write -/

/-- The cells of a write: one for each enabled byte, at its place. -/
theorem mem_enabledCells {a : Nat} {es : List Bool} {ds : List Byte} {c : Host.Cell} :
    c ∈ enabledCells a es ds ↔ ∃ i, es[i]? = some true ∧ c = (a + i, ds.getD i 0) := by
  induction es generalizing a ds with
  | nil => simp [enabledCells]
  | cons e es ih =>
    have hhead : ds.headD 0 = ds.getD 0 0 := by cases ds <;> rfl
    have htail : ∀ i, ds.tail.getD i 0 = ds.getD (i + 1) 0 := by cases ds <;> simp
    have hplace : ∀ i, a + 1 + i = a + (i + 1) := fun i => by omega
    have hfirst : c ∈ (if e then [(a, ds.getD 0 0)] else []) ↔ e = true ∧ c = (a, ds.getD 0 0) := by cases e <;> simp
    rw [enabledCells, List.mem_append, hhead, hfirst, ih]
    simp only [htail, hplace]
    constructor
    · rintro (⟨rfl, rfl⟩ | ⟨i, hi, rfl⟩)
      · exact ⟨0, rfl, rfl⟩
      · exact ⟨i + 1, hi, rfl⟩
    · rintro ⟨i, hi, rfl⟩
      cases i with
      | zero => exact .inl ⟨Option.some.inj hi, rfl⟩
      | succ i => exact .inr ⟨i, hi, rfl⟩

/-- No two cells of a write have one address. -/
theorem nodup_enabledCells (a : Nat) (es : List Bool) (ds : List Byte) : ((enabledCells a es ds).map (fun c => c.1)).Nodup := by
  induction es generalizing a ds with
  | nil => exact List.nodup_nil
  | cons e es ih =>
    cases e with
    | false => exact ih (a + 1) ds.tail
    | true =>
      refine List.nodup_cons.2 ⟨fun h => ?_, ih (a + 1) ds.tail⟩
      obtain ⟨c, hc, ha⟩ := List.mem_map.1 h
      obtain ⟨i, -, rfl⟩ := mem_enabledCells.1 hc
      have : a + 1 + i = a := ha
      omega

/-- After the write an enabled byte is the request's. -/
theorem read_writeCells_enabled {m : Memory} (hm : m.wf = true) {a i : Nat} {es : List Bool} (ds : List Byte)
    (hi : es[i]? = some true) : (m.writeCells (enabledCells a es ds)).read (a + i) = ds.getD i 0 :=
  Memory.read_writeCells_of_mem hm (nodup_enabledCells a es ds) (mem_enabledCells.2 ⟨i, hi, rfl⟩)

theorem touches_enabledCells_eq_true {a i : Nat} {es : List Bool} (ds : List Byte) (hi : es[i]? = some true) :
    touches (enabledCells a es ds) (a + i) = true := touches_of_mem (mem_enabledCells.2 ⟨i, hi, rfl⟩)

theorem touches_enabledCells_eq_false {a x : Nat} {es : List Bool} (ds : List Byte)
    (hx : ∀ i, es[i]? = some true → x ≠ a + i) : touches (enabledCells a es ds) x = false := by
  refine List.any_eq_false.2 fun c hc => ?_
  obtain ⟨i, hi, rfl⟩ := mem_enabledCells.1 hc
  simpa using (hx i hi).symm

/-- A byte that no cell goes to reads as before. -/
theorem Memory.read_writeCells_of_not_touches {m : Memory} (hm : m.wf = true) {cells : List Host.Cell} {x : Nat}
    (h : touches cells x = false) : (m.writeCells cells).read x = m.read x := by
  refine Memory.read_writeCells_of_not_mem hm fun c hc hcx => ?_
  rw [← hcx, touches_of_mem hc] at h
  cases h

/-- Processors see no byte changed that the write does not go to. -/
theorem writeCoherent_cpuView_read_of_not_touches (hw : s.mem.wf = true) {cells : List Host.Cell} {x : Nat}
    (h : touches cells x = false) : (s.writeCoherent cells).cpuView.read x = s.cpuView.read x := by
  rw [writeCoherent_cpuView_read s hw, h]
  rfl

theorem writeCoherent_cpuView_read_enabled (hw : s.mem.wf = true) {a i : Nat} {es : List Bool} (ds : List Byte)
    (hi : es[i]? = some true) : (s.writeCoherent (enabledCells a es ds)).cpuView.read (a + i) = ds.getD i 0 := by
  rw [writeCoherent_cpuView_read s hw, if_pos (touches_enabledCells_eq_true ds hi)]
  exact read_writeCells_enabled hw ds hi

/-! ## The bytes of a read -/

@[simp] theorem enabledBytes_length (m : Memory) (a : Nat) (es : List Bool) (fs : List Byte) :
    (enabledBytes m a es fs).length = es.length := by
  induction es generalizing a fs with
  | nil => rfl
  | cons e es ih => simp [enabledBytes, ih]

/-- An enabled byte of a read is memory's. -/
theorem getElem?_enabledBytes {m : Memory} {a i : Nat} {es : List Bool} (fs : List Byte) (hi : es[i]? = some true) :
    (enabledBytes m a es fs)[i]? = some (m.read (a + i)) := by
  induction es generalizing a i fs with
  | nil => cases hi
  | cons e es ih =>
    cases i with
    | zero => obtain rfl := Option.some.inj hi; rfl
    | succ i =>
      rw [enabledBytes, List.getElem?_cons_succ, ih _ hi, Nat.add_assoc, Nat.add_comm 1 i]

/-- What a read sees where it is not snooped is memory or what processors see. -/
theorem readView_cases (s : State) (f : InFlight) :
    (if s.snooped f then s.cpuView else s.mem) = s.cpuView ∨
      (f.snoop = false ∧ (if s.snooped f then s.cpuView else s.mem) = s.mem) := by
  cases hsnooped : s.snooped f with
  | true => exact .inl rfl
  | false =>
    refine .inr ⟨?_, rfl⟩
    unfold State.snooped at hsnooped
    cases hsnoop : f.snoop with
    | false => rfl
    | true => simp [hsnoop] at hsnooped

/-! ## The commit -/

/-- A request that is in flight leaves the in-flight set and completes. -/
theorem commitAt_of_getElem? {k : Nat} {f : InFlight} (hf : s.inflight[k]? = some f) :
    s.commitAt k = ({ s with inflight := s.inflight.eraseIdx k } : State).commitRequest f := by
  simp only [State.commitAt, hf, List.eraseIdx_eq_take_drop_succ]

theorem commitRequest_write {f : InFlight} (hk : f.kind = .write) :
    s.commitRequest f = s.writeCoherent (enabledCells f.hpa f.enables f.data) := by
  simp only [State.commitRequest, hk]

theorem commitRequest_readRequest {f : InFlight} (hk : f.kind = .read) :
    s.commitRequest f = (s.emit (.readData f.sid f.dva (enabledBytes (if s.snooped f then s.cpuView else s.mem) f.hpa f.enables
      (s.freeBytes 2 f.enables.length)))).tick := by
  simp only [State.commitRequest, hk]

/-- Settles O39, by the kind of the request: a write is a coherent write of its `enabledCells`, a read is answered with its
`enabledBytes`. -/
theorem commitsPerformTheRequest : Obligations.CommitsPerformTheRequest := by
  intro s k f hf
  rw [commitAt_of_getElem? hf]
  refine ⟨commitRequest_inflight _ f, fun hk => ?write, fun hk => ?read, ?frame⟩
  case write =>
    rw [commitRequest_write hk]
    exact ⟨rfl, rfl, rfl, rfl, fun hw => ⟨fun i hi => read_writeCells_enabled hw f.data hi,
      fun a ha => Memory.read_writeCells_of_not_touches hw (touches_enabledCells_eq_false f.data ha),
      fun i hi => writeCoherent_cpuView_read_enabled hw f.data hi,
      fun a ha => writeCoherent_cpuView_read_of_not_touches hw (touches_enabledCells_eq_false f.data ha)⟩⟩
  case read =>
    rw [commitRequest_readRequest hk]
    exact ⟨rfl, rfl, rfl, _, _, readView_cases _ f, rfl, enabledBytes_length .., fun i hi => getElem?_enabledBytes _ hi⟩
  case frame =>
    obtain ⟨m, w, d, o, n, h⟩ := commitRequest_frame { s with inflight := s.inflight.eraseIdx k } f
    rw [h]

end Sys2Proof.Machine
end

section
/-! A register read (10_state.md R23, R35, R37; 20_memory.md R158, R159): what it pushes, what it answers, and the RsvdP bits that it
gives software to write back. -/

namespace Sys2Proof.Machine

variable {s : State}

/-! ## What a read pushes -/

/-- A posted item that becomes visible touches memory, the store buffers and outputs alone. -/
theorem perform_frame (s : State) (p : Posted) : s.perform p =
    { s with mem := (s.perform p).mem, wbuf := (s.perform p).wbuf, dirty := (s.perform p).dirty, out := (s.perform p).out } := by
  cases p with
  | statusWrite a d => rfl
  | logWrite a d => rfl
  | message src a d =>
    simp only [State.perform]
    split <;> rfl

theorem foldl_perform_frame (ps : List Posted) (s : State) : ps.foldl State.perform s =
    { s with mem := (ps.foldl State.perform s).mem, wbuf := (ps.foldl State.perform s).wbuf,
             dirty := (ps.foldl State.perform s).dirty, out := (ps.foldl State.perform s).out } := by
  induction ps generalizing s with
  | nil => rfl
  | cons p ps ih => rw [List.foldl_cons, ih, perform_frame]

theorem flushPosted_frame (s : State) : s.flushPosted =
    { s with posted := [], mem := s.flushPosted.mem, wbuf := s.flushPosted.wbuf, dirty := s.flushPosted.dirty,
             out := s.flushPosted.out } := foldl_perform_frame s.posted { s with posted := [] }

/-! ## What a read answers -/

/-- The value of an access: a doubleword zero-extended, or two doublewords, the lower at the lower offset. -/
def State.accessValue (s : State) (bytes off : Nat) : BitVec 64 :=
  if bytes = 4 then (s.readDword off).setWidth 64 else s.readDword (off + 4) ++ s.readDword off

theorem accessValue_four (off : Nat) : s.accessValue 4 off = (s.readDword off).setWidth 64 := if_pos rfl

theorem accessValue_eight (off : Nat) : s.accessValue 8 off = s.readDword (off + 4) ++ s.readDword off := if_neg (by decide)

/-- The low half of an answer is the doubleword at its offset. -/
theorem accessValue_low (s : State) (bytes off : Nat) : (s.accessValue bytes off).setWidth 32 = s.readDword off := by
  unfold State.accessValue
  split
  · exact BitVec.setWidth_setWidth_of_le _ (by decide)
  · exact BitVec.setWidth_append_eq_right

/-- An access that has a behaviour is one of 4 or 8 bytes (10_state.md R23). -/
theorem bytes_of_goodAccess {cfg : Config} {bytes off : Nat} (h : goodAccess cfg bytes off = true) : bytes = 4 ∨ bytes = 8 := by
  unfold goodAccess at h
  simp only [Bool.and_eq_true, Bool.or_eq_true, beq_iff_eq] at h
  obtain ⟨-, ⟨rfl, -⟩ | ⟨⟨rfl, -⟩, -⟩⟩ := h
  · exact .inl rfl
  · exact .inr rfl

/-- A register read, said once: everything posted becomes visible, the value is sent, the RsvdP bits read are noted. -/
theorem registerRead_spec {bytes off : Nat} (h : goodAccess s.cfg bytes off = true) : s.registerRead bytes off =
    .next ({ s.flushPosted.emit (.regValue off bytes (s.accessValue bytes off)) with preserved := s.noteRead off } : State).tick := by
  unfold State.registerRead
  obtain rfl | rfl := bytes_of_goodAccess h
  · simp only [h, accessValue_four]; rfl
  · simp only [h, accessValue_eight]; rfl

/-- A register without draws reads as it is. -/
theorem readReg_of_no_draw {r : RegId} (h : s.freeReadBits r = 0) : s.readReg r = s.regValue r := if_pos h

theorem readDword_of_registerAt {off k : Nat} {r : RegId} (h : registerAt s.cfg off = some (r, k)) :
    s.readDword off = dwordOf (s.readReg r) k := by
  simp only [State.readDword, h]

theorem readDword_of_reserved {off : Nat} (h : registerAt s.cfg off = none) : s.readDword off = 0 := by
  simp only [State.readDword, h]

/-- Doubleword 0 of a register of 32 bits is all of it. -/
theorem dwordOf_zero_setWidth (v : BitVec 32) : dwordOf (v.setWidth 128) 0 = v := by
  apply BitVec.eq_of_getLsbD_eq
  intro i hi
  have hi128 : i < 128 := by omega
  simp [dwordOf, hi, hi128]

/-- The two doublewords of a register of 64 bits make it up. -/
theorem dwordOf_append_setWidth (v : BitVec 64) : dwordOf (v.setWidth 128) 1 ++ dwordOf (v.setWidth 128) 0 = v := by
  apply BitVec.eq_of_getLsbD_eq
  intro i hi
  have hi128 : i < 128 := by omega
  rw [BitVec.getLsbD_append]
  split
  · next hlow => simp [dwordOf, hlow, hi128]
  · next hhigh =>
    have hplace : 32 + (i - 32) = i := by omega
    have hin : i - 32 < 32 := by omega
    simp [dwordOf, hin, hplace, hi128]

theorem readDword_ver (s : State) : s.readDword 0x00 = 0x10 := by
  rw [readDword_of_registerAt (r := .ver) rfl, readReg_of_no_draw rfl]
  exact dwordOf_zero_setWidth _

theorem readDword_gsts (s : State) : s.readDword 0x1C = s.reg.gsts := by
  rw [readDword_of_registerAt (r := .gsts) rfl, readReg_of_no_draw rfl]
  exact dwordOf_zero_setWidth _

theorem readDword_cap (s : State) : s.readDword (0x08 + 4) ++ s.readDword 0x08 = s.cfg.cap := by
  rw [readDword_of_registerAt (r := .cap) (k := 1) rfl, readDword_of_registerAt (r := .cap) (k := 0) rfl, readReg_of_no_draw rfl]
  exact dwordOf_append_setWidth _

/-- PPF reads as the OR of the F fields (60_exceptions.md R492). -/
theorem getLsbD_readDword_ppf (s : State) : (s.readDword 0x34).getLsbD 1 = s.ppf := by
  have hdraw : (s.freeReadBits .fsts).getLsbD (32 * 0 + 1) = false := by
    rw [State.freeReadBits]
    split <;> decide
  rw [getLsbD_readDword (r := .fsts) (k := 0) rfl (by decide), getLsbD_readReg_of_not_free hdraw]
  simp [State.regValue, State.fstsValue]

/-! ## The RsvdP bits -/

/-- The registers with RsvdP fields at fixed offsets (12_registers_b.md R101, R107, R116): each is one doubleword. -/
theorem registerAt_eq_fixed {cfg : Config} {off : Nat} {r : RegId} (hr : r = .fectl ∨ r = .iectl ∨ r = .pmen) :
    registerAt cfg off = some (r, 0) ↔ fixedRegister off = some (r, 0) := by
  unfold registerAt
  split
  · next hfixed => rw [hfixed]
  · next hfixed =>
    rw [hfixed]
    split_ifs <;> obtain rfl | rfl | rfl := hr <;> simp

theorem registerAt_preserved (cfg : Config) (off : Nat) : (registerAt cfg off = some (.fectl, 0) ↔ off = 0x38) ∧
    (registerAt cfg off = some (.iectl, 0) ↔ off = 0xA0) ∧ (registerAt cfg off = some (.pmen, 0) ↔ off = 0x64) := by
  rw [registerAt_eq_fixed (.inl rfl), registerAt_eq_fixed (.inr (.inl rfl)), registerAt_eq_fixed (.inr (.inr rfl))]
  refine ⟨⟨fun h => ?_, fun h => h ▸ rfl⟩, ⟨fun h => ?_, fun h => h ▸ rfl⟩, ⟨fun h => ?_, fun h => h ▸ rfl⟩⟩
  all_goals
    unfold fixedRegister at h
    split at h <;> cases h
    rfl

/-- The RsvdP bits after a read of the doubleword at `off`, which answered `v` (10_state.md R35). -/
def State.preservedAfter (s : State) (off : Nat) (v : BitVec 32) : Preserved where
  fectl := if off = 0x38 then v &&& 0x3FFFFFFF else s.preserved.fectl
  iectl := if off = 0xA0 ∧ s.cfg.qi = true then v &&& 0x3FFFFFFF else if off = 0xA0 then 0 else s.preserved.iectl
  pmen := if off = 0x64 ∧ (s.cfg.plmr || s.cfg.phmr) = true then v &&& 0x7FFFFFFE
          else if off = 0x64 then 0 else s.preserved.pmen
  iotlb := if registerAt s.cfg off = some (.iotlb, 0) then v else s.preserved.iotlb

/-- The lowest doublewords of the RsvdP fields. -/
theorem dwordOf_preservedBits (cfg : Config) (r : RegId) : dwordOf (preservedBits cfg r) 0 =
    match r with
    | .fectl => 0x3FFFFFFF
    | .iectl => if cfg.qi then 0x3FFFFFFF else 0
    | .pmen => if cfg.plmr || cfg.phmr then 0x7FFFFFFE else 0
    | .iotlb => BitVec.allOnes 32
    | _ => 0 := by
  cases r with
  | iectl => simp only [preservedBits, whenHas]; split <;> rfl
  | pmen => simp only [preservedBits, whenHas]; split <;> rfl
  | _ => rfl

theorem noteRead_eq (s : State) (off : Nat) : s.noteRead off = s.preservedAfter off (s.readDword off) := by
  obtain ⟨hfectl, hiectl, hpmen⟩ := registerAt_preserved s.cfg off
  simp only [State.noteRead, State.preservedAfter, ← hfectl, ← hiectl, ← hpmen]
  split
  · next r hat =>
    rw [dwordOf_preservedBits, hat]
    cases r with
    | fectl => simp [Preserved.note, BitVec.and_comm]
    | iectl => cases s.cfg.qi <;> simp [Preserved.note, BitVec.and_comm]
    | pmen => cases (s.cfg.plmr || s.cfg.phmr) <;> simp [Preserved.note, BitVec.and_comm]
    | iotlb => simp [Preserved.note, -BitVec.reduceAllOnes]
    | _ => simp [Preserved.note]
  · next hat => simp [hat]
  · next hat => simp [hat]

/-- Settles O30: the read is `registerRead_spec`, which says what it pushes and sends; each value is that of its doubleword. -/
theorem registerReadPushesPostedWrites : Obligations.RegisterReadPushesPostedWrites := by
  intro s bytes off hgood
  have hframe := flushPosted_frame s
  refine ⟨_, s.accessValue bytes off, registerRead_spec hgood, ?posted, rfl, rfl, ?ver, ?cap, ?gsts, ?ppf, ?reserved, ?preserved,
    ?frame⟩
  case posted => exact congrArg State.posted hframe
  case ver => rintro rfl rfl; rw [accessValue_four, readDword_ver]; rfl
  case cap => rintro rfl rfl; rw [accessValue_eight, readDword_cap]
  case gsts => rintro rfl rfl; rw [accessValue_four, readDword_gsts]
  case ppf => rintro rfl rfl; rw [accessValue_four, BitVec.getLsbD_setWidth, getLsbD_readDword_ppf]; simp
  case reserved => rintro rfl hnone; rw [accessValue_four, readDword_of_reserved hnone]; rfl
  case preserved => rw [accessValue_low]; exact noteRead_eq s off
  case frame => rw [hframe]; rfl

end Sys2Proof.Machine
end

section
/-! Processors and memory (20_memory.md R140, R152, R155, R157; 10_state.md R23): where a store, a write-back, a drain and a load of a
processor put and take their bytes. -/

namespace Sys2Proof.Machine

variable {s : State}

/-! ## Which kind of access -/

theorem processorMove_fault {m : CpuMove} (h : moveFault s.cfg m = true) : s.handle (.cpu m) = .fault .noSuchAddress := if_pos h

/-- A store on the register pages is a register write; one that begins below them is refused (10_state.md R23; log 31). -/
theorem handle_store_register {cpu a : Nat} {data : List Byte} (hin : a + data.length ≤ 2 ^ s.cfg.haw)
    (hpages : meetsRegisterPages s.cfg a data.length = true) : s.handle (.cpu (.store cpu a data)) =
      if s.cfg.regBase ≤ a then s.registerWrite data.length (a - s.cfg.regBase) (BitVec.ofNat 64 (natOfBytes data))
      else .refused .badRegisterAccess := by
  simp [State.handle, State.processorMove, moveFault, Nat.not_lt.2 hin, hpages]

theorem handle_store_memory {cpu a : Nat} {data : List Byte} (hin : a + data.length ≤ 2 ^ s.cfg.haw)
    (hpages : meetsRegisterPages s.cfg a data.length = false) :
    s.handle (.cpu (.store cpu a data)) = .next (s.processorStore cpu a data) := by
  simp [State.handle, State.processorMove, moveFault, Nat.not_lt.2 hin, hpages]

theorem handle_writeback {cpu a : Nat} (hin : a < 2 ^ s.cfg.haw) :
    s.handle (.cpu (.writeback cpu a)) = .next (s.writeback cpu a) := by
  simp [State.handle, State.processorMove, moveFault, Nat.not_le.2 hin]

theorem handle_drain (s : State) : s.handle (.cpu .drain) = .next s.drainStore := rfl

/-- The bytes from an address on. -/
theorem Memory.readBytes_eq (m : Memory) (a n : Nat) : m.readBytes a n = (List.range n).map (fun i => m.read (a + i)) := by
  induction n generalizing a with
  | zero => rfl
  | succ n ih =>
    rw [Memory.readBytes, ih, List.range_succ_eq_map, List.map_cons, List.map_map]
    congr 2
    funext i
    exact congrArg m.read (by simp only [Nat.succ_eq_add_one]; omega)

/-- A load off the register pages answers what processors see. -/
theorem handle_load_memory {a n : Nat} (hin : a + n ≤ 2 ^ s.cfg.haw) (hpages : meetsRegisterPages s.cfg a n = false) :
    s.handle (.load a n) =
      .next { s with out := .loadValue a ((List.range n).map (fun i => s.cpuView.read (a + i))) :: s.out } := by
  rw [← Memory.readBytes_eq]
  simp [State.handle, State.processorLoad, Nat.not_lt.2 hin, hpages, State.emit]

/-- A load of the register pages is a register read. -/
theorem handle_load_register {a n : Nat} (hin : a + n ≤ 2 ^ s.cfg.haw) (hpages : meetsRegisterPages s.cfg a n = true) :
    s.handle (.load a n) =
      if s.cfg.regBase ≤ a then s.registerRead n (a - s.cfg.regBase) else .refused .badRegisterAccess := by
  simp [State.handle, State.processorLoad, Nat.not_lt.2 hin, hpages]

/-! ## Where stores go that leave a processor -/

theorem storeToMemory_buffered (h : s.cfg.rwbf = true) (cells : List Host.Cell) :
    s.storeToMemory cells = { s with wbuf := s.wbuf ++ [cells] } := if_pos h

theorem storeToMemory_direct (h : s.cfg.rwbf = false) (cells : List Host.Cell) :
    s.storeToMemory cells = { s with mem := s.mem.writeCells cells } := if_neg (by simp [h])

/-! ## Stores -/

theorem processorStore_coherent (h : s.cfg.coherent = true) (cpu a : Nat) (data : List Byte) :
    s.processorStore cpu a data = s.storeToMemory (cellsAt a data) := if_pos h

theorem processorStore_cached (h : s.cfg.coherent = false) (cpu a : Nat) (data : List Byte) :
    s.processorStore cpu a data =
      { s with dirty := (cellsAt a data).map (DirtyByte.mk cpu) ++ undirtied (cellsAt a data) s.dirty } := if_neg (by simp [h])

/-- A store touches memory and the store buffers alone. -/
theorem processorStore_frame (s : State) (cpu a : Nat) (data : List Byte) : s.processorStore cpu a data =
    { s with mem := (s.processorStore cpu a data).mem, wbuf := (s.processorStore cpu a data).wbuf,
             dirty := (s.processorStore cpu a data).dirty } := by
  unfold State.processorStore State.storeToMemory
  split
  · split <;> rfl
  · rfl

/-- What reads as `data` from `a` on and as `w` elsewhere, byte by byte. -/
theorem reads_of_range {v w : Memory} {a : Nat} {data : List Byte}
    (h : ∀ x, v.read x = if a ≤ x ∧ x < a + data.length then data.getD (x - a) 0 else w.read x) :
    (∀ i b, data[i]? = some b → v.read (a + i) = b) ∧ (∀ x, x < a ∨ a + data.length ≤ x → v.read x = w.read x) := by
  refine ⟨fun i b hi => ?_, fun x hx => ?_⟩
  · obtain ⟨hlt, -⟩ := List.getElem?_eq_some_iff.1 hi
    rw [h, if_pos (by omega), Nat.add_sub_cancel_left, List.getD_eq_getElem?_getD, hi]
    rfl
  · rw [h, if_neg (by omega)]

/-- The bytes that a store leaves in the processor's cache. -/
theorem mem_map_cellsAt {cpu a : Nat} {data : List Byte} {d : DirtyByte} :
    d ∈ (cellsAt a data).map (DirtyByte.mk cpu) ↔ ∃ i b, data[i]? = some b ∧ d = { cpu := cpu, cell := (a + i, b) } := by
  simp only [cellsAt_eq, List.mem_map, List.mem_mapIdx, List.getElem?_eq_some_iff]
  constructor
  · rintro ⟨c, ⟨i, hi, rfl⟩, rfl⟩
    exact ⟨i, _, ⟨hi, rfl⟩, rfl⟩
  · rintro ⟨i, b, ⟨hi, rfl⟩, rfl⟩
    exact ⟨_, ⟨i, hi, rfl⟩, rfl⟩

/-- The older unwritten-back bytes that a store leaves. -/
theorem mem_undirtied_cellsAt {a : Nat} {data : List Byte} {old : List DirtyByte} {d : DirtyByte} :
    d ∈ undirtied (cellsAt a data) old ↔ d ∈ old ∧ (d.cell.1 < a ∨ a + data.length ≤ d.cell.1) := by
  rw [undirtied, List.mem_filter, touches_cellsAt]
  refine and_congr_right fun _ => ?_
  simp only [Bool.not_eq_true', decide_eq_false_iff_not]
  omega

/-! ## Write-backs -/

/-- The cells that a write-back takes: the processor's own unwritten-back bytes of the aligned quadword (log 16). -/
def State.writtenBack (s : State) (cpu a : Nat) : List Host.Cell :=
  (s.dirty.filter (DirtyByte.coveredBy cpu a)).map DirtyByte.cell

theorem coveredBy_iff {cpu a : Nat} {d : DirtyByte} : d.coveredBy cpu a = true ↔ d.cpu = cpu ∧ d.cell.1 / 8 = a / 8 := by
  simp [DirtyByte.coveredBy]

theorem mem_writtenBack {cpu a : Nat} {c : Host.Cell} :
    c ∈ s.writtenBack cpu a ↔ ∃ d ∈ s.dirty, d.cpu = cpu ∧ d.cell.1 / 8 = a / 8 ∧ d.cell = c := by
  simp only [State.writtenBack, List.mem_map, List.mem_filter, coveredBy_iff, and_assoc]

/-- No two of them have one address. -/
theorem nodup_writtenBack (k : s.Inv) (cpu a : Nat) : ((s.writtenBack cpu a).map (fun c => c.1)).Nodup := by
  have h := nodup_filter_dirty k.dirtyOnce (DirtyByte.coveredBy cpu a)
  rw [State.writtenBack, List.map_map]
  exact h

theorem writeback_buffered (h : s.cfg.rwbf = true) (cpu a : Nat) : s.writeback cpu a =
    { s with dirty := s.dirty.filter (fun d => !d.coveredBy cpu a), wbuf := s.wbuf ++ [s.writtenBack cpu a] } :=
  storeToMemory_buffered (s := { s with dirty := s.dirty.filter (fun d => !d.coveredBy cpu a) }) h _

theorem writeback_direct (h : s.cfg.rwbf = false) (cpu a : Nat) : s.writeback cpu a =
    { s with dirty := s.dirty.filter (fun d => !d.coveredBy cpu a), mem := s.mem.writeCells (s.writtenBack cpu a) } :=
  storeToMemory_direct (s := { s with dirty := s.dirty.filter (fun d => !d.coveredBy cpu a) }) h _

/-- A write-back touches memory and the store buffers alone, and leaves the bytes that it does not cover. -/
theorem writeback_frame (s : State) (cpu a : Nat) : s.writeback cpu a =
    { s with mem := (s.writeback cpu a).mem, wbuf := (s.writeback cpu a).wbuf,
             dirty := s.dirty.filter (fun d => !d.coveredBy cpu a) } := by
  cases h : s.cfg.rwbf with
  | true => rw [writeback_buffered h]
  | false => rw [writeback_direct h]

theorem mem_writeback_dirty {cpu a : Nat} {d : DirtyByte} :
    d ∈ (s.writeback cpu a).dirty ↔ d ∈ s.dirty ∧ ¬ (d.cpu = cpu ∧ d.cell.1 / 8 = a / 8) := by
  rw [writeback_frame]
  simp only [List.mem_filter, ← coveredBy_iff, Bool.not_eq_true', Bool.not_eq_true]

/-! ## Drains -/

theorem drainStore_nil (h : s.wbuf = []) : s.drainStore = s := by
  simp only [State.drainStore, h]

theorem drainStore_cons {cells : List Host.Cell} {rest : List (List Host.Cell)} (h : s.wbuf = cells :: rest) :
    s.drainStore = { s with mem := s.mem.writeCells cells, wbuf := rest } := by
  simp only [State.drainStore, h]

/-! ## The four moves -/

/-- Settles O60, move by move: where its bytes go is `processorStore_coherent` and `processorStore_cached`, `writeback_buffered` and
`writeback_direct`, `drainStore_cons`; what processors then see is said by the laws of `State.cpuView`. -/
theorem processorMovesReachTheirPlace : Obligations.ProcessorMovesReachTheirPlace := by
  intro s k
  refine ⟨fun cpu a data => ⟨fun hout => ?storeOut, fun hin hpages => handle_store_register hin hpages, fun hin hpages => ?store⟩,
    fun cpu a => ⟨fun hout => ?writebackOut, fun hin => ?writeback⟩, fun hnil => ?drainNothing, fun cells rest hcons => ?drain,
    fun a n => ⟨fun hout => if_pos hout, fun hin hpages => handle_load_register hin hpages,
      fun hin hpages => handle_load_memory hin hpages⟩⟩
  case storeOut | writebackOut => exact processorMove_fault (decide_eq_true hout)
  case store =>
    obtain ⟨hview, hviewElse⟩ := reads_of_range (processorStore_cpuView_read s k cpu a data)
    refine ⟨_, handle_store_memory hin hpages, hview, hviewElse, fun hc hb => ?buffered, fun hc hb => ?direct, fun hc => ?cached,
      processorStore_frame s cpu a data⟩
    case buffered =>
      rw [processorStore_coherent hc, storeToMemory_buffered hb, cellsAt_eq]
      exact ⟨rfl, rfl, rfl⟩
    case direct =>
      rw [processorStore_coherent hc, storeToMemory_direct hb]
      exact ⟨rfl, rfl, reads_of_range (Memory.read_writeBytes k.mem a data)⟩
    case cached =>
      rw [processorStore_cached hc]
      exact ⟨rfl, rfl, fun d => List.mem_append.trans (or_congr mem_map_cellsAt mem_undirtied_cellsAt)⟩
  case writeback =>
    refine ⟨_, handle_writeback hin, writeback_cpuView_read s k cpu a, fun d => mem_writeback_dirty, fun hb => ?buffered,
      fun hb => ?direct, by rw [writeback_frame]⟩
    case buffered =>
      rw [writeback_buffered hb]
      exact ⟨rfl, _, rfl, fun c => mem_writtenBack⟩
    case direct =>
      rw [writeback_direct hb]
      refine ⟨rfl, fun d hd hcpu hquad => ?_, fun x hx => Memory.read_writeCells_of_not_mem k.mem fun c hc => ?_⟩
      · exact Memory.read_writeCells_of_mem k.mem (nodup_writtenBack k cpu a) (mem_writtenBack.2 ⟨d, hd, hcpu, hquad, rfl⟩)
      · obtain ⟨d, hd, hcpu, hquad, rfl⟩ := mem_writtenBack.1 hc
        exact hx d hd hcpu hquad
  case drainNothing => rw [handle_drain, drainStore_nil hnil]
  case drain =>
    have hdrained := drainStore_cons hcons
    refine ⟨_, (handle_drain s).trans (congrArg _ hdrained), rfl, rfl,
      fun x hx => Memory.read_writeCells_of_not_touches k.mem hx, fun x => ?_, rfl⟩
    rw [← hdrained, drainStore_cpuView]

end Sys2Proof.Machine
end

section
/-! The page walk against the structures in memory (40_dma_remapping.md R237 to R239, R259; 41_device_iotlb.md R273): the model's
verdict on an entry is what `EntryDecides` says, its walk ends as `WalkGives` says, and what it maps is a page of the host address
space (21_structures.md R177, R180). -/

namespace Sys2Proof.Machine

/-! ## One entry -/

/-- How the walk ends at an entry that it does not look further at. -/
def Need.denial : Need → WalkAnswer
  | .device => .noAccess
  | need => .fault need.reason

theorem Need.denial_of_ne_device {need : Need} (hn : need ≠ .device) : need.denial = .fault need.reason := by
  cases need with
  | device => exact absurd rfl hn
  | write | read | zeroRead => rfl

section Entry

variable {cfg : Config} {need : Need} {e : BitVec 64} {level : Nat} {r w : Bool}

theorem Need.looksOn_device : Need.device.looksOn e r w = (pteR e || pteW e) := if_pos rfl

theorem Need.looksOn_of_ne_device (hn : need ≠ .device) : need.looksOn e r w = need.permitted r w := if_neg hn

/-- The verdict on an entry, for every need alike: the denial, the reserved fields, the leaf, in this order (decision D35). -/
theorem entryVerdict_eq_ite : entryVerdict cfg need e level r w =
    if need.looksOn e r w then
      if pteReserved cfg e level then .stop (.fault .pageReserved)
      else if isLeaf cfg e level then
        (if need = .device → (r || w) = true then .leaf (leafMapping cfg e level r w) else .stop .noAccess)
      else .descend
    else .stop need.denial := by
  by_cases hn : need = .device
  · subst hn
    rw [entryVerdict_device, Need.looksOn_device]
    simp only [forall_const, Need.denial]
  · rw [entryVerdict_of_ne_device hn, Need.looksOn_of_ne_device hn, Need.denial_of_ne_device hn]
    simp only [hn, false_implies, if_true]

/-- An entry that is not looked at further stops the walk with the denial, whatever else it holds (decision D35). -/
theorem entryVerdict_denied (h : need.looksOn e r w = false) : entryVerdict cfg need e level r w = .stop need.denial := by
  rw [entryVerdict_eq_ite, h]; rfl

theorem EntryDecides.denied (h : need.looksOn e r w = false) : EntryDecides cfg need e level r w (.stop need.denial) := by
  cases need with
  | write => exact .writeDenied rfl h
  | read => exact .readDenied (.inl rfl) h
  | zeroRead =>
    obtain ⟨hr, hw⟩ : r = false ∧ w = false := Bool.or_eq_false_iff.1 h
    exact .readDenied (.inr ⟨rfl, hw⟩) hr
  | device =>
    obtain ⟨hr, hw⟩ := Bool.or_eq_false_iff.1 (Need.looksOn_device.symm.trans h)
    exact .notPresent rfl hr hw

/-- The model's verdict on an entry is what the entry decides. -/
theorem entryDecides_entryVerdict : EntryDecides cfg need e level r w (entryVerdict cfg need e level r w) := by
  rw [entryVerdict_eq_ite]
  split
  case isFalse hlook => exact .denied (Bool.eq_false_iff.2 hlook)
  case isTrue hlook =>
    split
    case isTrue hres => exact .reserved hlook hres
    case isFalse hres =>
      rw [Bool.not_eq_true] at hres
      split
      case isFalse hleaf => exact .descend hlook hres (Bool.eq_false_iff.2 hleaf)
      case isTrue hleaf =>
        split
        case isTrue hperm => exact .leaf hlook hres hleaf hperm
        case isFalse hperm =>
          obtain ⟨hn, hnone⟩ := Classical.not_imp.1 hperm
          obtain ⟨hr, hw⟩ := Bool.or_eq_false_iff.1 (Bool.eq_false_iff.2 hnone)
          exact .leafWithout hn hlook hres hleaf hr hw

/-- An entry decides one thing only. -/
theorem EntryDecides.entryVerdict_eq {v : EntryVerdict} (h : EntryDecides cfg need e level r w v) :
    entryVerdict cfg need e level r w = v := by
  cases h with
  | writeDenied hn hw => subst hn; exact entryVerdict_denied hw
  | readDenied hn hr =>
    rcases hn with rfl | ⟨rfl, hw⟩
    · exact entryVerdict_denied hr
    · exact entryVerdict_denied (Bool.or_eq_false_iff.2 ⟨hr, hw⟩)
  | notPresent hn hr hw =>
    subst hn
    exact entryVerdict_denied (Need.looksOn_device.trans (Bool.or_eq_false_iff.2 ⟨hr, hw⟩))
  | reserved hlook hres => rw [entryVerdict_eq_ite, if_pos hlook, if_pos hres]
  | leafWithout hn hlook hres hleaf hr hw =>
    have hnone : ¬ (need = .device → (r || w) = true) := fun h => by simpa [hr, hw] using h hn
    rw [entryVerdict_eq_ite, if_pos hlook, hres, if_pos hleaf, if_neg hnone]; rfl
  | leaf hlook hres hleaf hperm => rw [entryVerdict_eq_ite, if_pos hlook, hres, if_pos hleaf, if_pos hperm]; rfl
  | descend hlook hres hleaf => rw [entryVerdict_eq_ite, if_pos hlook, hres, hleaf]; rfl

theorem entryDecides_iff {v : EntryVerdict} : EntryDecides cfg need e level r w v ↔ entryVerdict cfg need e level r w = v :=
  ⟨EntryDecides.entryVerdict_eq, fun h => h ▸ entryDecides_entryVerdict⟩

/-- The tables of level 0 hold leaves only (21_structures.md R178). -/
theorem entryVerdict_zero_ne_descend : entryVerdict cfg need e 0 r w ≠ .descend := fun h => by
  obtain ⟨-, hleaf, -⟩ := entryVerdict_descend h
  exact Bool.noConfusion hleaf

/-- The frame of a leaf lies below 2^HAW (21_structures.md R180). -/
theorem pageFrame_lt (cfg : Config) (e : BitVec 64) (level : Nat) : pageFrame cfg e level < 2 ^ cfg.haw :=
  (Nat.div_mul_le_self _ _).trans_lt (Nat.mod_lt _ (Nat.two_pow_pos _))

/-- The frame of a leaf is aligned on the size of its page (21_structures.md R180). -/
theorem pageFrame_mod (cfg : Config) (e : BitVec 64) (level : Nat) : pageFrame cfg e level % 2 ^ pageBits level = 0 :=
  Nat.mul_mod_left _ _

theorem nextTable_eq (cfg : Config) (e : BitVec 64) : nextTable cfg e = nextTableAt cfg e := by
  unfold nextTable pageAddress nextTableAt
  rw [BitVec.toNat_setWidth_of_le (by decide)]

end Entry

/-! ## One table -/

section Table

variable {s : State} {vs : List Memory} {g : WalkGoal} {level base : Nat} {r w : Bool} {e : BitVec 64}

theorem walkTable_answer_of_none (h : s.readQuad vs (siteOf 23 level) (base + 8 * tableIndex level g.dva) = none) :
    (s.walkTable vs g level base r w).answer = .fault (if g.top = level then .contextInvalid else .tableAccess) := by
  cases level <;> simp [State.walkTable, h]

theorem walkTable_answer_of_stop {a : WalkAnswer}
    (h : s.readQuad vs (siteOf 23 level) (base + 8 * tableIndex level g.dva) = some e)
    (hv : entryVerdict s.cfg g.need e level (r && pteR e) (w && pteW e) = .stop a) :
    (s.walkTable vs g level base r w).answer = a := by
  cases level <;> simp [State.walkTable, h, hv]

theorem walkTable_answer_of_leaf {m : Mapping}
    (h : s.readQuad vs (siteOf 23 level) (base + 8 * tableIndex level g.dva) = some e)
    (hv : entryVerdict s.cfg g.need e level (r && pteR e) (w && pteW e) = .leaf m) :
    (s.walkTable vs g level base r w).answer = .mapped m := by
  cases level <;> simp [State.walkTable, h, hv]

theorem walkTable_answer_of_descend
    (h : s.readQuad vs (siteOf 23 (level + 1)) (base + 8 * tableIndex (level + 1) g.dva) = some e)
    (hv : entryVerdict s.cfg g.need e (level + 1) (r && pteR e) (w && pteW e) = .descend) :
    (s.walkTable vs g (level + 1) base r w).answer =
      (s.walkTable vs g level (nextTableAt s.cfg e) (r && pteR e) (w && pteW e)).answer := by
  simp [State.walkTable, h, hv, nextTable_eq]

/-- At any level the walk ends as its entry decides, or its entry points to the next table. -/
theorem walkGives_or_descends (hvs : vs ≠ []) :
    WalkGives s.cfg vs g level base r w (s.walkTable vs g level base r w).answer ∨
      ∃ e, s.readQuad vs (siteOf 23 level) (base + 8 * tableIndex level g.dva) = some e ∧
        entryVerdict s.cfg g.need e level (r && pteR e) (w && pteW e) = .descend := by
  cases hread : s.readQuad vs (siteOf 23 level) (base + 8 * tableIndex level g.dva) with
  | none =>
    have haccess := readQuad_eq_none.1 hread
    rw [walkTable_answer_of_none hread]
    by_cases htop : g.top = level
    · rw [if_pos htop]; exact .inl (.topAccess _ _ _ _ haccess htop.symm)
    · rw [if_neg htop]; exact .inl (.tableAccess _ _ _ _ haccess (Ne.symm htop))
  | some e =>
    have hreads := readQuad_reads hvs hread
    cases hv : entryVerdict s.cfg g.need e level (r && pteR e) (w && pteW e) with
    | stop a =>
      rw [walkTable_answer_of_stop hread hv]
      exact .inl (.stop _ _ _ _ e a hreads (entryDecides_iff.2 hv))
    | leaf m =>
      rw [walkTable_answer_of_leaf hread hv]
      exact .inl (.leaf _ _ _ _ e m hreads (entryDecides_iff.2 hv))
    | descend => exact .inr ⟨e, rfl, hv⟩

end Table

/-! ## The whole walk -/

section Walk

variable {s : State} {vs : List Memory} {g : WalkGoal}

/-- The model's walk ends in one of the ways that the entries on its path allow. -/
theorem walkGives_walkTable (hvs : vs ≠ []) (level base : Nat) (r w : Bool) :
    WalkGives s.cfg vs g level base r w (s.walkTable vs g level base r w).answer := by
  induction level generalizing base r w with
  | zero => exact (walkGives_or_descends hvs).resolve_right fun ⟨_, _, hv⟩ => entryVerdict_zero_ne_descend hv
  | succ level ih =>
    rcases walkGives_or_descends hvs with hgives | ⟨e, hread, hv⟩
    · exact hgives
    · rw [walkTable_answer_of_descend hread hv]
      exact .next _ _ _ _ e _ (readQuad_reads hvs hread) (entryDecides_iff.2 hv) (ih _ _ _)

/-- With one memory the entries on the path allow one end only. -/
theorem WalkGives.walkTable_answer {m : Memory} {level base : Nat} {r w : Bool} {a : WalkAnswer}
    (h : WalkGives s.cfg [m] g level base r w a) : (s.walkTable [m] g level base r w).answer = a := by
  induction h with
  | topAccess level base r w haccess htop => rw [walkTable_answer_of_none (readQuad_eq_none.2 haccess), if_pos htop.symm]
  | tableAccess level base r w haccess htop =>
    rw [walkTable_answer_of_none (readQuad_eq_none.2 haccess), if_neg (Ne.symm htop)]
  | stop level base r w e a hreads hv => exact walkTable_answer_of_stop (readQuad_of_reads hreads) hv.entryVerdict_eq
  | leaf level base r w e m hreads hv => exact walkTable_answer_of_leaf (readQuad_of_reads hreads) hv.entryVerdict_eq
  | next level base r w e a hreads hv _ ih =>
    exact (walkTable_answer_of_descend (readQuad_of_reads hreads) hv.entryVerdict_eq).trans ih

/-- A walk that maps the address ended at a leaf of its own level or of one below. -/
theorem WalkGives.mapped_leaf {cfg : Config} {level base : Nat} {r w : Bool} {m : Mapping}
    (h : WalkGives cfg vs g level base r w (.mapped m)) :
    ∃ e l r' w', m = leafMapping cfg e l r' w' ∧ l ≤ level := by
  generalize ha : WalkAnswer.mapped m = a at h
  induction h with
  | topAccess | tableAccess => cases ha
  | stop level base r w e a _ hv => exact absurd ha.symm (entryVerdict_stop hv.entryVerdict_eq m)
  | leaf level base r w e m' _ hv =>
    cases ha
    obtain ⟨hm, -⟩ := entryVerdict_leaf hv.entryVerdict_eq
    exact ⟨e, level, _, _, hm, Nat.le_refl level⟩
  | next level base r w e a _ _ _ ih =>
    obtain ⟨e', l, r', w', hm, hl⟩ := ih ha
    exact ⟨e', l, r', w', hm, Nat.le_succ_of_le hl⟩

/-- A read that no race concerns sees memory as it is: the walk is the one in that memory. -/
theorem walkTable_nil (s : State) (g : WalkGoal) (level base : Nat) (r w : Bool) :
    s.walkTable [] g level base r w = s.walkTable [s.mem] g level base r w := by
  have hread : ∀ site a, s.readQuad [] site a = s.readQuad [s.mem] site a := fun _ _ => rfl
  induction level generalizing base r w with
  | zero => simp only [State.walkTable, hread]
  | succ level ih => simp only [State.walkTable, hread, ih]

theorem walkTable_mapped_leaf {level base : Nat} {r w : Bool} {m : Mapping}
    (h : (s.walkTable vs g level base r w).answer = .mapped m) :
    ∃ e l r' w', m = leafMapping s.cfg e l r' w' ∧ l ≤ level := by
  by_cases hvs : vs = []
  · subst hvs
    rw [walkTable_nil] at h
    exact (h ▸ walkGives_walkTable (List.cons_ne_nil _ _) level base r w).mapped_leaf
  · exact (h ▸ walkGives_walkTable hvs level base r w).mapped_leaf

end Walk

/-- Settles O46: the walk and `WalkGives` agree by induction on the level and on the relation, and a page reached is a leaf's
frame. -/
theorem walksReachAlignedFramesBelowHaw : Obligations.WalksReachAlignedFramesBelowHaw := by
  intro s vs g level base r w
  refine ⟨fun hvs => walkGives_walkTable hvs level base r w, fun m a hvs h => ?single, fun m h => ?page⟩
  case single => subst hvs; exact h.walkTable_answer
  case page =>
    obtain ⟨e, l, r', w', rfl, hl⟩ := walkTable_mapped_leaf h
    exact ⟨pageFrame_lt s.cfg e l, pageFrame_mod s.cfg e l, hl⟩

end Sys2Proof.Machine
end

section
/-! The encoding (30_encoding.md R211 to R218, R220; 45_global_commands.md R421): the decoder undoes the encoder, and the encoder
gives back the bits of every descriptor that decodes. One way the fields of an encoding are read off its bits one by one; the other
way a descriptor is joined again from its fields, its reserved bits and its Type. -/

namespace Sys2Proof

open Laws (Encoding.Statement extract_append_four)

/-! ## Bits as concatenations of fields -/

theorem getLsbD_bit_zero (b : Bool) : (bit b).getLsbD 0 = b := by cases b <;> rfl

theorem bit_getLsbD {w : Nat} (d : BitVec w) (k : Nat) : bit (d.getLsbD k) = d.extractLsb' k 1 := by
  ext i hi
  obtain rfl : i = 0 := by omega
  simp [bit]

/-- A field that a mask covers is 0 where the mask meets no Set bit. -/
theorem extract_eq_zero_of_masked {w lo n : Nat} {d m : BitVec w} (hd : d &&& m = 0)
    (hm : m.extractLsb' lo n = BitVec.allOnes n) : d.extractLsb' lo n = 0#n := by
  calc d.extractLsb' lo n = d.extractLsb' lo n &&& m.extractLsb' lo n := by rw [hm, BitVec.and_allOnes]
    _ = (d &&& m).extractLsb' lo n := BitVec.extractLsb'_and.symm
    _ = 0#n := by rw [hd]; simp

/-! ## From a descriptor's operands to its bits and back (R211 to R217) -/

/-- A descriptor decodes exactly to what its fields say, where no reserved bit is Set. -/
theorem decodeDescriptor_eq_instr {d : BitVec 128} {i : Instr} : decodeDescriptor d = .instr i ↔
    descriptorFields d (d.extractLsb' 0 4).toNat = some i ∧ d &&& reservedMask (d.extractLsb' 0 4).toNat = 0 := by
  unfold decodeDescriptor
  split
  next hnone => simp only [hnone, reduceCtorEq, false_and]
  next j hsome =>
    rw [hsome]
    split
    next hreserved => simp only [hreserved, Decoded.instr.injEq, Option.some.injEq, and_true]
    next hreserved => simp only [hreserved, reduceCtorEq, and_false]

/-- The encoder leaves the reserved bits Clear, so its bits decode to what their fields say. -/
theorem decode_encode_of_fields {ctx : CmdContext} {i : Instr} {d : BitVec 128} {k : BitVec 4} (hs : Encoding.Statement i)
    (he : encode ctx i = .descriptor d) (hk : d.extractLsb' 0 4 = k) (hf : descriptorFields d k.toNat = some i) :
    decode ctx (encode ctx i) = .instr i := by
  have hbits := hs ctx
  rw [he] at hbits ⊢
  obtain ⟨-, -, -, hreserved⟩ := hbits
  exact decodeDescriptor_eq_instr.2 ⟨hk ▸ hf, hreserved⟩

section ReadFields

open BitVec (extractLsb'_append_eq_of_le extractLsb'_append_eq_of_add_le extractLsb'_eq_self getLsbD_append)

variable (ctx : CmdContext)

theorem decode_encode_ccInvDsc (g : BitVec 2) (did : DomainId) (sid : SourceId) (fm : BitVec 2) :
    decode ctx (encode ctx (.ccInvDsc g did sid fm)) = .instr (.ccInvDsc g did sid fm) := by
  refine decode_encode_of_fields (k := 1#4) (Laws.Encoding.ccInvDsc g did sid fm) rfl (extract_append_four _ _) ?_
  simp only [descriptorFields, extractLsb'_append_eq_of_le, extractLsb'_append_eq_of_add_le, extractLsb'_eq_self,
    Nat.reduceLeDiff, Nat.reduceSub, BitVec.reduceToNat]

theorem decode_encode_iotlbInvDsc (g : BitVec 2) (dw dr : Bool) (did : DomainId) (am : BitVec 6) (ih : Bool) (addr : PageNumber) :
    decode ctx (encode ctx (.iotlbInvDsc g dw dr did am ih addr)) = .instr (.iotlbInvDsc g dw dr did am ih addr) := by
  refine decode_encode_of_fields (k := 2#4) (Laws.Encoding.iotlbInvDsc g dw dr did am ih addr) rfl (extract_append_four _ _) ?_
  simp only [descriptorFields, extractLsb'_append_eq_of_le, extractLsb'_append_eq_of_add_le, extractLsb'_eq_self, getLsbD_append,
    getLsbD_bit_zero, Nat.reduceLeDiff, Nat.reduceSub, Nat.reduceLT, if_true, if_false, BitVec.reduceToNat]

theorem decode_encode_devIotlbInvDsc (mip : BitVec 5) (sid : SourceId) (s : Bool) (addr : PageNumber) :
    decode ctx (encode ctx (.devIotlbInvDsc mip sid s addr)) = .instr (.devIotlbInvDsc mip sid s addr) := by
  refine decode_encode_of_fields (k := 3#4) (Laws.Encoding.devIotlbInvDsc mip sid s addr) rfl (extract_append_four _ _) ?_
  simp only [descriptorFields, extractLsb'_append_eq_of_le, extractLsb'_append_eq_of_add_le, extractLsb'_eq_self, getLsbD_append,
    getLsbD_bit_zero, Nat.reduceLeDiff, Nat.reduceSub, Nat.reduceLT, if_true, if_false, BitVec.reduceToNat]

theorem decode_encode_iecInvDsc (g : Bool) (im : BitVec 5) (iidx : BitVec 16) :
    decode ctx (encode ctx (.iecInvDsc g im iidx)) = .instr (.iecInvDsc g im iidx) := by
  refine decode_encode_of_fields (k := 4#4) (Laws.Encoding.iecInvDsc g im iidx) rfl (extract_append_four _ _) ?_
  simp only [descriptorFields, extractLsb'_append_eq_of_le, extractLsb'_append_eq_of_add_le, extractLsb'_eq_self, getLsbD_append,
    getLsbD_bit_zero, Nat.reduceLeDiff, Nat.reduceSub, Nat.reduceLT, if_true, if_false, BitVec.reduceToNat]

theorem decode_encode_invWaitDsc (iflag sw fn : Bool) (data : BitVec 32) (addr : BitVec 62) :
    decode ctx (encode ctx (.invWaitDsc iflag sw fn data addr)) = .instr (.invWaitDsc iflag sw fn data addr) := by
  refine decode_encode_of_fields (k := 5#4) (Laws.Encoding.invWaitDsc iflag sw fn data addr) rfl (extract_append_four _ _) ?_
  simp only [descriptorFields, extractLsb'_append_eq_of_le, extractLsb'_append_eq_of_add_le, extractLsb'_eq_self, getLsbD_append,
    getLsbD_bit_zero, Nat.reduceLeDiff, Nat.reduceSub, Nat.reduceLT, if_true, if_false, BitVec.reduceToNat]

end ReadFields

section JoinFields

open BitVec (extractLsb'_append_extractLsb'_eq_extractLsb' extractLsb'_eq_self)

variable {ctx : CmdContext} {d : BitVec 128} {i : Instr}

theorem encode_of_ccInvDsc_fields (hk : d.extractLsb' 0 4 = 1#4) (hr : d &&& reservedMask 1 = 0)
    (hf : descriptorFields d 1 = some i) : encode ctx i = .descriptor d := by
  have h50 : d.extractLsb' 50 78 = 0#78 := extract_eq_zero_of_masked hr (by decide)
  have h6 : d.extractLsb' 6 10 = 0#10 := extract_eq_zero_of_masked hr (by decide)
  calc encode ctx i = .descriptor (d.extractLsb' 50 78 ++ d.extractLsb' 48 2 ++ d.extractLsb' 32 16 ++ d.extractLsb' 16 16 ++
        d.extractLsb' 6 10 ++ d.extractLsb' 4 2 ++ d.extractLsb' 0 4) := by
        cases hf
        rw [hk, h50, h6]
        rfl
    _ = .descriptor d := by
        repeat rw [extractLsb'_append_extractLsb'_eq_extractLsb' (by rfl)]
        exact congrArg Encoded.descriptor extractLsb'_eq_self

theorem encode_of_iotlbInvDsc_fields (hk : d.extractLsb' 0 4 = 2#4) (hr : d &&& reservedMask 2 = 0)
    (hf : descriptorFields d 2 = some i) : encode ctx i = .descriptor d := by
  have h71 : d.extractLsb' 71 5 = 0#5 := extract_eq_zero_of_masked hr (by decide)
  have h32 : d.extractLsb' 32 32 = 0#32 := extract_eq_zero_of_masked hr (by decide)
  have h8 : d.extractLsb' 8 8 = 0#8 := extract_eq_zero_of_masked hr (by decide)
  calc encode ctx i = .descriptor (d.extractLsb' 76 52 ++ d.extractLsb' 71 5 ++ d.extractLsb' 70 1 ++ d.extractLsb' 64 6 ++
        d.extractLsb' 32 32 ++ d.extractLsb' 16 16 ++ d.extractLsb' 8 8 ++ d.extractLsb' 7 1 ++ d.extractLsb' 6 1 ++
        d.extractLsb' 4 2 ++ d.extractLsb' 0 4) := by
        cases hf
        rw [hk, h71, h32, h8, ← bit_getLsbD d 70, ← bit_getLsbD d 7, ← bit_getLsbD d 6]
        rfl
    _ = .descriptor d := by
        repeat rw [extractLsb'_append_extractLsb'_eq_extractLsb' (by rfl)]
        exact congrArg Encoded.descriptor extractLsb'_eq_self

theorem encode_of_devIotlbInvDsc_fields (hk : d.extractLsb' 0 4 = 3#4) (hr : d &&& reservedMask 3 = 0)
    (hf : descriptorFields d 3 = some i) : encode ctx i = .descriptor d := by
  have h65 : d.extractLsb' 65 11 = 0#11 := extract_eq_zero_of_masked hr (by decide)
  have h48 : d.extractLsb' 48 16 = 0#16 := extract_eq_zero_of_masked hr (by decide)
  have h21 : d.extractLsb' 21 11 = 0#11 := extract_eq_zero_of_masked hr (by decide)
  have h4 : d.extractLsb' 4 12 = 0#12 := extract_eq_zero_of_masked hr (by decide)
  calc encode ctx i = .descriptor (d.extractLsb' 76 52 ++ d.extractLsb' 65 11 ++ d.extractLsb' 64 1 ++ d.extractLsb' 48 16 ++
        d.extractLsb' 32 16 ++ d.extractLsb' 21 11 ++ d.extractLsb' 16 5 ++ d.extractLsb' 4 12 ++ d.extractLsb' 0 4) := by
        cases hf
        rw [hk, h65, h48, h21, h4, ← bit_getLsbD d 64]
        rfl
    _ = .descriptor d := by
        repeat rw [extractLsb'_append_extractLsb'_eq_extractLsb' (by rfl)]
        exact congrArg Encoded.descriptor extractLsb'_eq_self

theorem encode_of_iecInvDsc_fields (hk : d.extractLsb' 0 4 = 4#4) (hr : d &&& reservedMask 4 = 0)
    (hf : descriptorFields d 4 = some i) : encode ctx i = .descriptor d := by
  have h48 : d.extractLsb' 48 80 = 0#80 := extract_eq_zero_of_masked hr (by decide)
  have h5 : d.extractLsb' 5 22 = 0#22 := extract_eq_zero_of_masked hr (by decide)
  calc encode ctx i = .descriptor (d.extractLsb' 48 80 ++ d.extractLsb' 32 16 ++ d.extractLsb' 27 5 ++ d.extractLsb' 5 22 ++
        d.extractLsb' 4 1 ++ d.extractLsb' 0 4) := by
        cases hf
        rw [hk, h48, h5, ← bit_getLsbD d 4]
        rfl
    _ = .descriptor d := by
        repeat rw [extractLsb'_append_extractLsb'_eq_extractLsb' (by rfl)]
        exact congrArg Encoded.descriptor extractLsb'_eq_self

theorem encode_of_invWaitDsc_fields (hk : d.extractLsb' 0 4 = 5#4) (hr : d &&& reservedMask 5 = 0)
    (hf : descriptorFields d 5 = some i) : encode ctx i = .descriptor d := by
  have h64 : d.extractLsb' 64 2 = 0#2 := extract_eq_zero_of_masked hr (by decide)
  have h7 : d.extractLsb' 7 25 = 0#25 := extract_eq_zero_of_masked hr (by decide)
  calc encode ctx i = .descriptor (d.extractLsb' 66 62 ++ d.extractLsb' 64 2 ++ d.extractLsb' 32 32 ++ d.extractLsb' 7 25 ++
        d.extractLsb' 6 1 ++ d.extractLsb' 5 1 ++ d.extractLsb' 4 1 ++ d.extractLsb' 0 4) := by
        cases hf
        rw [hk, h64, h7, ← bit_getLsbD d 6, ← bit_getLsbD d 5, ← bit_getLsbD d 4]
        rfl
    _ = .descriptor d := by
        repeat rw [extractLsb'_append_extractLsb'_eq_extractLsb' (by rfl)]
        exact congrArg Encoded.descriptor extractLsb'_eq_self

end JoinFields

/-! ## GCMD_REG (R63, R421) -/

/-- The level fields of GCMD_REG, which a write keeps as GSTS_REG has them. -/
def levelFields : BitVec 32 := 0x96800000

theorem gcmdValue_eq (gsts : BitVec 32) (b : Nat) (v : Bool) : gcmdValue gsts b v = setBit (gsts &&& levelFields) b v := rfl

section Requests

variable (gsts : BitVec 32) {b k : Nat} (v : Bool)

theorem getLsbD_gcmdValue_self (hb : b < 32) : (gcmdValue gsts b v).getLsbD b = v := getLsbD_setBit_self _ _ _ hb

theorem getLsbD_gcmdValue_of_ne (h : k ≠ b) : (gcmdValue gsts b v).getLsbD k = (gsts.getLsbD k && levelFields.getLsbD k) := by
  rw [gcmdValue_eq, getLsbD_setBit_of_ne _ _ h, BitVec.getLsbD_and]

/-- Below bit 23 a write of GCMD_REG has no bit Set. -/
theorem gcmdValue_reserved (hb : 23 ≤ b) : gcmdValue gsts b v &&& 0x007FFFFF = 0 := by
  have hlow : ∀ k < 23, levelFields.getLsbD k = false := by decide
  have hhigh : ∀ k < 32, 23 ≤ k → (0x007FFFFF : BitVec 32).getLsbD k = false := by decide
  refine BitVec.eq_of_getLsbD_eq fun k hk => ?_
  rw [BitVec.getLsbD_and, show (0 : BitVec 32).getLsbD k = false from BitVec.getLsbD_zero]
  rcases Nat.lt_or_ge k 23 with h | h
  · rw [getLsbD_gcmdValue_of_ne gsts v (by omega), hlow k h, Bool.and_false, Bool.false_and]
  · rw [hhigh k hk h, Bool.and_false]

/-- Of the level fields only the one that is written can differ from its status bit. -/
theorem levelRequest_gcmdValue (i : Bool → Instr) (hk : k < 32) (hlevel : levelFields.getLsbD k = true) :
    levelRequest gsts (gcmdValue gsts b v) k i = if k = b ∧ v ≠ gsts.getLsbD k then [i v] else [] := by
  unfold levelRequest
  by_cases h : k = b
  · subst h
    rw [getLsbD_gcmdValue_self gsts v hk]
    by_cases hv : v = gsts.getLsbD k <;> simp [hv]
  · rw [getLsbD_gcmdValue_of_ne gsts v h, hlevel, Bool.and_true, if_pos rfl, if_neg (fun hb => h hb.1)]

/-- Of the one-shot fields only the one that is written can be 1. -/
theorem oneShotRequest_gcmdValue (i : Instr) (hk : k < 32) (hshot : levelFields.getLsbD k = false) :
    oneShotRequest (gcmdValue gsts b v) k i = if k = b ∧ v = true then [i] else [] := by
  unfold oneShotRequest
  by_cases h : k = b
  · subst h
    simp only [getLsbD_gcmdValue_self gsts v hk, true_and]
  · rw [getLsbD_gcmdValue_of_ne gsts v h, hshot, Bool.and_false, if_neg Bool.false_ne_true, if_neg (fun hb => h hb.1)]

end Requests

theorem decode_gcmdWrite_eq (ctx : CmdContext) (b : Nat) (v : Bool) :
    decode ctx (gcmdWrite ctx b v) = decodeGcmd ctx.gsts (gcmdValue ctx.gsts b v) :=
  congrArg (decodeGcmd ctx.gsts) (BitVec.setWidth_setWidth_of_le _ (by decide))

/-- A write of GCMD_REG that requests one modification decodes to it. -/
theorem decode_gcmdWrite {ctx : CmdContext} {b : Nat} {v : Bool} {i : Instr} (hb : 23 ≤ b)
    (h : gcmdRequests ctx.gsts (gcmdValue ctx.gsts b v) = [i]) : decode ctx (gcmdWrite ctx b v) = .instr i := by
  rw [decode_gcmdWrite_eq, decodeGcmd, if_pos (gcmdValue_reserved ctx.gsts v hb), h]

/-! ## CCMD_REG, IOTLB_REG and PMEN_REG (R66, R67, R107) -/

theorem decodeCcmd_of_icc {v : BitVec 64} (hreserved : v &&& 0x07FFFFFC00000000 = 0) (hicc : v.getLsbD 63 = true) :
    decodeCcmd v =
      .instr (.ccmdIcc (v.extractLsb' 61 2) (v.extractLsb' 32 2) (v.extractLsb' 16 16) (v.extractLsb' 0 16)) := by
  rw [decodeCcmd, if_pos hreserved, if_pos hicc]

theorem decodeIotlb_of_ivt {v : BitVec 64} (hreserved : v &&& 0x01FC000000000000 = 0) (hivt : v.getLsbD 63 = true) :
    decodeIotlb v = .instr (.iotlbIvt (v.extractLsb' 60 3) (v.getLsbD 49) (v.getLsbD 48) (v.extractLsb' 32 16)) := by
  rw [decodeIotlb, if_pos hreserved, if_pos hivt]

section OtherCommands

open BitVec (extractLsb'_append_eq_of_le extractLsb'_append_eq_of_add_le extractLsb'_eq_self getLsbD_append)

variable (ctx : CmdContext)

theorem decode_encode_ccmdIcc (cirg fm : BitVec 2) (sid : SourceId) (did : DomainId) :
    decode ctx (encode ctx (.ccmdIcc cirg fm sid did)) = .instr (.ccmdIcc cirg fm sid did) := by
  have hreserved : (1#1 ++ cirg ++ 0#27 ++ fm ++ sid ++ did) &&& (0#1 ++ 0#2 ++ 0x1FFFFFF#27 ++ 0#2 ++ 0#16 ++ 0#16) = 0 := by
    simp only [BitVec.and_append, BitVec.and_zero, BitVec.zero_and]
    rfl
  have hicc : (1#1 ++ cirg ++ 0#27 ++ fm ++ sid ++ did).getLsbD 63 = true := by
    simp only [getLsbD_append, Nat.reduceSub, Nat.reduceLT, if_false]
    rfl
  refine (decodeCcmd_of_icc hreserved hicc).trans ?_
  simp only [extractLsb'_append_eq_of_le, extractLsb'_append_eq_of_add_le, extractLsb'_eq_self, Nat.reduceLeDiff, Nat.reduceSub]

theorem decode_encode_iotlbIvt (iirg : BitVec 3) (dr dw : Bool) (did : DomainId) :
    decode ctx (encode ctx (.iotlbIvt iirg dr dw did)) = .instr (.iotlbIvt iirg dr dw did) := by
  have hreserved : (1#1 ++ iirg ++ 0#10 ++ bit dr ++ bit dw ++ did ++ 0#32) &&&
      (0#1 ++ 0#3 ++ 0x7F#10 ++ 0#1 ++ 0#1 ++ 0#16 ++ 0#32) = 0 := by
    simp only [BitVec.and_append, BitVec.and_zero, BitVec.zero_and]
    rfl
  have hivt : (1#1 ++ iirg ++ 0#10 ++ bit dr ++ bit dw ++ did ++ 0#32).getLsbD 63 = true := by
    simp only [getLsbD_append, Nat.reduceSub, Nat.reduceLT, if_false]
    rfl
  refine (decodeIotlb_of_ivt hreserved hivt).trans ?_
  simp only [extractLsb'_append_eq_of_le, extractLsb'_append_eq_of_add_le, extractLsb'_eq_self, getLsbD_append, getLsbD_bit_zero,
    Nat.reduceLeDiff, Nat.reduceSub, Nat.reduceLT, if_true, if_false]

theorem decode_encode_pmenEpm {b : Bool} (h : requestable ctx (.pmenEpm b) = true) :
    decode ctx (encode ctx (.pmenEpm b)) = .instr (.pmenEpm b) := by
  have hepm : (((bit b ++ 0#31 : BitVec 32).setWidth 64).setWidth 32).getLsbD 31 = b := by
    cases b <;> rfl
  refine (if_neg ?_).trans (congrArg (fun e => Decoded.instr (.pmenEpm e)) hepm)
  exact hepm.symm ▸ bne_iff_ne.1 h

end OtherCommands

/-! ## The obligations -/

/-- Settles O1: a descriptor by its fields, a command of GCMD_REG by what its write requests, the others by trigger and fields. -/
theorem decodeOfEncodeIsTheInstruction : Obligations.DecodeOfEncodeIsTheInstruction := by
  intro ctx i h
  cases i with
  | ccInvDsc g did sid fm => exact decode_encode_ccInvDsc ctx g did sid fm
  | iotlbInvDsc g dw dr did am ih addr => exact decode_encode_iotlbInvDsc ctx g dw dr did am ih addr
  | devIotlbInvDsc mip sid s addr => exact decode_encode_devIotlbInvDsc ctx mip sid s addr
  | iecInvDsc g im iidx => exact decode_encode_iecInvDsc ctx g im iidx
  | invWaitDsc iflag sw fn data addr => exact decode_encode_invWaitDsc ctx iflag sw fn data addr
  | gcmdTe b | gcmdEafl b | gcmdQie b | gcmdIre b | gcmdCfi b =>
    have hchange := bne_iff_ne.1 h
    exact decode_gcmdWrite (by decide)
      (by simpa (disch := decide) [gcmdRequests, levelRequest_gcmdValue, oneShotRequest_gcmdValue] using hchange)
  | gcmdSrtp | gcmdSfl | gcmdWbf | gcmdSirtp =>
    exact decode_gcmdWrite (by decide)
      (by simp (disch := decide) [gcmdRequests, levelRequest_gcmdValue, oneShotRequest_gcmdValue])
  | ccmdIcc cirg fm sid did => exact decode_encode_ccmdIcc ctx cirg fm sid did
  | iotlbIvt iirg dr dw did => exact decode_encode_iotlbIvt ctx iirg dr dw did
  | pmenEpm b => exact decode_encode_pmenEpm ctx h

/-- Settles O2: the bits are joined from the fields, for each of the five Types. -/
theorem descriptorBitsAreDetermined : Obligations.DescriptorBitsAreDetermined := by
  intro ctx d i h
  obtain ⟨hfields, hreserved⟩ := decodeDescriptor_eq_instr.1 h
  have htype : ∀ k : BitVec 4, (d.extractLsb' 0 4).toNat = k.toNat → d.extractLsb' 0 4 = k := fun _ => BitVec.eq_of_toNat_eq
  generalize (d.extractLsb' 0 4).toNat = n at hfields hreserved htype
  match n, hfields with
  | 1, hf => exact encode_of_ccInvDsc_fields (htype 1 rfl) hreserved hf
  | 2, hf => exact encode_of_iotlbInvDsc_fields (htype 2 rfl) hreserved hf
  | 3, hf => exact encode_of_devIotlbInvDsc_fields (htype 3 rfl) hreserved hf
  | 4, hf => exact encode_of_iecInvDsc_fields (htype 4 rfl) hreserved hf
  | 5, hf => exact encode_of_invWaitDsc_fields (htype 5 rfl) hreserved hf
  | 0, hf | _ + 6, hf => cases hf

/-- Settles O3: each of the words is the encoding of its instruction, so it decodes to it. -/
theorem writtenOutWordsDecode : Obligations.WrittenOutWordsDecode := by
  let ctx : CmdContext := { gsts := 0xC7000000, prs := false }
  have h := decodeOfEncodeIsTheInstruction ctx
  have hvalue : (0x8E000000 : BitVec 32) = gcmdValue ctx.gsts 27 true := by decide
  have hwbf : decodeGcmd ctx.gsts 0x8E000000 = .instr .gcmdWbf := by
    rw [hvalue, ← decode_gcmdWrite_eq]
    exact h .gcmdWbf rfl
  exact ⟨h (.ccInvDsc 3 5 0x0100 3) rfl, h (.iotlbInvDsc 3 true true 7 0 true 0x12345) rfl,
    h (.devIotlbInvDsc 4 0x0100 true 0x101) rfl, h (.iecInvDsc true 2 0x0120) rfl, h (.invWaitDsc false true true 1 0x80000) rfl,
    hwbf, h (.ccmdIcc 3 3 0x0100 7) rfl, h (.iotlbIvt 3 true false 7) rfl⟩

end Sys2Proof
end

section
/-! Translation against the caches and the structures in memory (40_dma_remapping.md R232 to R240, R259, R260; 41_device_iotlb.md
R273; 43_caching_and_register_invalidation.md R330 to R335): the model's answer is one that `TranslationGives` allows; where the
caches hold nothing for the device and the reads see one memory it allows no other. -/

namespace Sys2Proof.Machine

/-! ## The context lookup -/

section Context

variable {s : State} {vs : List Memory} {rtp : PageNumber} {sid : SourceId}

theorem contentGives_fetchContext (hvs : vs ≠ []) : ContentGives s vs rtp sid (s.fetchContext vs rtp sid) := by
  unfold State.fetchContext
  cases hroot : s.readEntry vs 20 (rootEntryAddress rtp sid) with
  | none => exact .rootAccess (readEntry_eq_none.1 hroot)
  | some re =>
    have hreads := readEntry_reads hvs hroot
    cases hpresent : rootPresent re with
    | false => simpa [hpresent] using .rootNotPresent re hreads hpresent
    | true =>
      cases hres : rootReserved s.cfg re with
      | true => simpa [hpresent, hres] using .rootReserved re hreads hpresent hres
      | false =>
        cases hctx : s.readEntry vs 21 (contextEntryAddress s.cfg re sid) with
        | none => simpa [hpresent, hres, hctx] using .contextAccess re hreads hpresent hres (readEntry_eq_none.1 hctx)
        | some ce => simpa [hpresent, hres, hctx] using .entry ce ⟨re, hreads, hpresent, hres, readEntry_reads hvs hctx⟩

theorem contentGives_contextContent (hvs : vs ≠ []) : ContentGives s vs rtp sid (s.contextContent vs rtp sid).1 := by
  unfold State.contextContent
  split
  case h_1 l hpick =>
    obtain ⟨hheld, hsid⟩ := List.mem_filter.1 (pick_mem hpick)
    exact .held l hheld (eq_of_beq hsid)
  case h_2 => exact contentGives_fetchContext hvs

/-- A device of which the context cache holds no line is looked up in memory. -/
theorem contextContent_of_miss (hmiss : ∀ l ∈ s.cache.ctx, l.sid ≠ sid) :
    (s.contextContent vs rtp sid).1 = s.fetchContext vs rtp sid := by
  have hnone : s.cache.ctx.filter (fun l => l.sid == sid) = [] :=
    List.filter_eq_nil_iff.2 fun l hl => by simpa using hmiss l hl
  unfold State.contextContent
  rw [hnone, pick_nil]

/-- With one memory, a device of which the context cache holds no line finds one thing only. -/
theorem ContentGives.fetchContext_eq {m : Memory} {k : CtxContent} (h : ContentGives s [m] rtp sid k)
    (hmiss : ∀ l ∈ s.cache.ctx, l.sid ≠ sid) : s.fetchContext [m] rtp sid = k := by
  have hroot : ∀ {re}, ReadsEntry s.cfg [m] (rtp.toNat * 4096 + 16 * (sid.toNat / 256)) re →
      s.readEntry [m] 20 (rootEntryAddress rtp sid) = some re := readEntry_of_reads
  unfold State.fetchContext
  cases h with
  | held l hheld hsid => exact absurd hsid (hmiss l hheld)
  | rootAccess hfails => rw [show s.readEntry [m] 20 (rootEntryAddress rtp sid) = none from readEntry_eq_none.2 hfails]
  | rootNotPresent re hreads hpresent =>
    have hpresent : rootPresent re = false := hpresent
    simp [hroot hreads, hpresent]
  | rootReserved re hreads hpresent hres => simp [hroot hreads, rootPresent, hpresent, hres]
  | contextAccess re hreads hpresent hres hfails =>
    have hctx : s.readEntry [m] 21 (contextEntryAddress s.cfg re sid) = none := readEntry_eq_none.2 hfails
    simp [hroot hreads, rootPresent, hpresent, hres, hctx]
  | entry ce hreads =>
    obtain ⟨re, hreads, hpresent, hres, hce⟩ := hreads
    have hctx : s.readEntry [m] 21 (contextEntryAddress s.cfg re sid) = some ce := readEntry_of_reads hce
    simp [hroot hreads, rootPresent, hpresent, hres, hctx]

theorem ContentGives.contextContent_eq {m : Memory} {k : CtxContent} (h : ContentGives s [m] rtp sid k)
    (hmiss : ∀ l ∈ s.cache.ctx, l.sid ≠ sid) : (s.contextContent [m] rtp sid).1 = k :=
  (contextContent_of_miss hmiss).trans (h.fetchContext_eq hmiss)

end Context

/-! ## The checks on a context-entry -/

section Checks

variable {cfg : Config} {k : CtxContent}

theorem contentChecks_contentAnswer : ContentChecks cfg k (contentAnswer cfg k) := by
  cases k with
  | fault r => exact .fault r
  | entry ce =>
    rw [contentAnswer, checkContext]
    cases hpresent : ctxPresent ce with
    | false => exact .notPresent ce hpresent
    | true =>
      cases hres : ctxReserved cfg ce with
      | true => exact .reserved ce hpresent hres
      | false =>
        cases hinv : ctxInvalid cfg ce with
        | true => exact .invalid ce hpresent hres hinv
        | false => exact .sound ce ⟨hpresent, hres, hinv⟩

/-- The checks have one outcome only. -/
theorem ContentChecks.contentAnswer_eq {a : CtxAnswer} (h : ContentChecks cfg k a) : contentAnswer cfg k = a := by
  cases h with
  | fault r => rfl
  | notPresent ce hpresent =>
    have hpresent : ctxPresent ce = false := hpresent
    simp [contentAnswer, checkContext, hpresent, ctxFpd]
  | reserved ce hpresent hres => simp [contentAnswer, checkContext, ctxPresent, hpresent, hres, ctxFpd]
  | invalid ce hpresent hres hinv => simp [contentAnswer, checkContext, ctxPresent, hpresent, hres, hinv, ctxFpd]
  | sound ce hsound =>
    obtain ⟨hpresent, hres, hinv⟩ := hsound
    simp [contentAnswer, checkContext, ctxPresent, hpresent, hres, hinv]

theorem contentChecks_iff {a : CtxAnswer} : ContentChecks cfg k a ↔ contentAnswer cfg k = a :=
  ⟨ContentChecks.contentAnswer_eq, fun h => h ▸ contentChecks_contentAnswer⟩

/-- What passes the checks is a sound context-entry. -/
theorem contentAnswer_eq_entry {ce : BitVec 128} :
    contentAnswer cfg k = .entry ce ↔ k = .entry ce ∧ ContextSound cfg ce := by
  constructor
  · intro h
    cases contentChecks_iff.2 h with
    | sound _ hsound => exact ⟨rfl, hsound⟩
  · rintro ⟨rfl, hsound⟩
    exact (ContentChecks.sound ce hsound).contentAnswer_eq

variable {s : State} {vs : List Memory} {rtp : PageNumber} {sid : SourceId} {ce : BitVec 128}

theorem findsContext_of_contentAnswer (hvs : vs ≠ [])
    (h : contentAnswer s.cfg (s.contextContent vs rtp sid).1 = .entry ce) : s.FindsContext vs rtp sid ce := by
  obtain ⟨hcontent, hsound⟩ := contentAnswer_eq_entry.1 h
  exact ⟨hcontent ▸ contentGives_contextContent hvs, hsound⟩

theorem State.FindsContext.contentAnswer_eq {m : Memory} (h : s.FindsContext [m] rtp sid ce)
    (hmiss : ∀ l ∈ s.cache.ctx, l.sid ≠ sid) : contentAnswer s.cfg (s.contextContent [m] rtp sid).1 = .entry ce := by
  obtain ⟨hgives, hsound⟩ := h
  exact contentAnswer_eq_entry.2 ⟨hgives.contextContent_eq hmiss, hsound⟩

end Checks

/-! ## What a cache line answers -/

section Lines

variable {s : State} {vs : List Memory} {sid : SourceId} {did : DomainId} {dva : Nat} {need : Need} {g : WalkGoal}

theorem faultHit_of_pick {site : Nat} {r : FaultReason} {kept : Bool}
    (h : s.pick site (s.faultMatches did sid dva) = some (r, kept)) : s.FaultHit did sid dva r kept := by
  have hmem := pick_mem h
  unfold State.faultMatches at hmem
  split at hmem
  case isFalse => cases hmem
  case isTrue hcm =>
    obtain ⟨l, hl, hline⟩ := List.mem_filterMap.1 hmem
    split at hline
    case h_1 r' kept' hcontent =>
      split at hline
      case isTrue hkey =>
        cases hline
        simp only [Bool.and_eq_true, beq_iff_eq] at hkey
        obtain ⟨⟨hdid, hsid⟩, hpage⟩ := hkey
        exact ⟨hcm, l, hl, hdid, hsid, hpage, hcontent⟩
      case isFalse => cases hline
    all_goals cases hline

theorem iotlbHit_of_pick {site : Nat} {l : IotlbLine} (h : s.pick site (s.iotlbMatches did sid dva) = some l) :
    s.IotlbHit did sid dva l := by
  obtain ⟨hheld, hkey⟩ := List.mem_filter.1 (pick_mem h)
  simp only [Bool.and_eq_true, Bool.or_eq_true, beq_iff_eq] at hkey
  obtain ⟨⟨hdid, hpage⟩, hsid⟩ := hkey
  exact ⟨hheld, hdid, hpage, hsid⟩

theorem pdeHit_of_pick {site : Nat} {l : PdeLine} (h : s.pick site (s.pdeMatches g) = some l) : s.PdeHit g l := by
  obtain ⟨hheld, hkey⟩ := List.mem_filter.1 (pick_mem h)
  simp only [Bool.and_eq_true, beq_iff_eq, decide_eq_true_eq] at hkey
  obtain ⟨⟨⟨hdid, hlow⟩, htop⟩, hspan⟩ := hkey
  exact ⟨hheld, hdid, hlow, htop, hspan⟩

theorem faultMatches_of_empty (h : s.cache.iotlb = []) : s.faultMatches did sid dva = [] := by
  simp [State.faultMatches, h]

theorem Need.reason_eq (hn : need ≠ .device) : need.reason = if need = .write then .writeDenied else .readDenied := by
  cases need with
  | device => exact absurd rfl hn
  | write | read | zeroRead => rfl

theorem Need.ne_device_of_not_permitted {r w : Bool} (h : need.permitted r w = false) : need ≠ .device := by
  rintro rfl; cases h

/-- What the model answers from an IOTLB entry, as the end of a walk. -/
def lineAnswer (need : Need) : IotlbContent → WalkAnswer
  | .fault r _ => .fault r
  | .erroneous _ r w => .fault (erroneousReason need r w)
  | .mapping m => mappingAnswer need m

theorem lineAnswers_mappingAnswer (m : Mapping) : LineAnswers need (.mapping m) (mappingAnswer need m) := by
  by_cases hn : need = .device
  · subst hn
    cases hperm : m.r || m.w with
    | false =>
      obtain ⟨hr, hw⟩ := Bool.or_eq_false_iff.1 hperm
      simpa [mappingAnswer, hr, hw] using .without m rfl hr hw
    | true =>
      have hanswer : mappingAnswer .device m = .mapped m := by
        rw [mappingAnswer, ← Bool.not_or, hperm]; rfl
      exact hanswer ▸ .mapped m rfl fun _ => hperm
  · cases hperm : need.permitted m.r m.w with
    | false => simpa [mappingAnswer, hn, hperm, Need.reason_eq hn] using .denied m hperm
    | true => simpa [mappingAnswer, hn, hperm] using .mapped m hperm fun h => absurd h hn

theorem lineAnswers_lineAnswer (c : IotlbContent) : LineAnswers need c (lineAnswer need c) := by
  cases c with
  | fault r kept => exact .fault r kept
  | mapping m => exact lineAnswers_mappingAnswer m
  | erroneous level r w =>
    cases hperm : need.permitted r w with
    | true => simpa [lineAnswer, erroneousReason, hperm] using .erroneous level r w hperm
    | false =>
      have hn := Need.ne_device_of_not_permitted hperm
      simpa [lineAnswer, erroneousReason, hperm, Need.reason_eq hn] using .erroneousDenied level r w hperm

end Lines

/-! ## The walk of a context-entry -/

section Walk

variable {s : State} {vs : List Memory} {ce : BitVec 128} {dva : Nat} {need : Need}

/-- A walk that starts at a PDE-cache entry ends as that entry decides, or as the tables below it do. -/
theorem walkStarts_walkCached {g : WalkGoal} {l : PdeLine} (hvs : vs ≠ []) (hhit : s.PdeHit g l) :
    WalkStarts s vs g ce (s.walkCached vs g l).answer := by
  unfold State.walkCached
  split
  case h_1 a hv => exact .heldStop l a hhit (entryDecides_iff.2 hv)
  case h_2 m hv => exact .heldLeaf l m hhit (entryDecides_iff.2 hv)
  case h_3 hv =>
    rw [nextTable_eq]
    exact .heldNext l _ hhit (entryDecides_iff.2 hv) (walkGives_walkTable hvs _ _ _ _)

theorem walkGoalOf_eq (cfg : Config) (ce : BitVec 128) (dva : Nat) (need : Need) : walkGoalOf cfg ce dva need =
    { did := ctxDomain cfg ce, dva := dva, need := need, top := topLevel (ctxAw ce) } := rfl

theorem walk_of_pick {l : PdeLine} (h : s.pick 24 (s.pdeMatches (walkGoalOf s.cfg ce dva need)) = some l) :
    s.walk vs ce dva need = s.walkCached vs (walkGoalOf s.cfg ce dva need) l := by
  rw [walkGoalOf_eq] at h ⊢
  simp only [State.walk, h]

theorem walk_of_pick_none (h : s.pick 24 (s.pdeMatches (walkGoalOf s.cfg ce dva need)) = none) : s.walk vs ce dva need =
    s.walkTable vs (walkGoalOf s.cfg ce dva need) (walkGoalOf s.cfg ce dva need).top (ctxRoot s.cfg ce) true true := by
  rw [walkGoalOf_eq] at h ⊢
  simp only [State.walk, h]

theorem walkStarts_walk (hvs : vs ≠ []) :
    WalkStarts s vs (walkGoalOf s.cfg ce dva need) ce (s.walk vs ce dva need).answer := by
  cases hpick : s.pick 24 (s.pdeMatches (walkGoalOf s.cfg ce dva need)) with
  | some l => rw [walk_of_pick hpick]; exact walkStarts_walkCached hvs (pdeHit_of_pick hpick)
  | none => rw [walk_of_pick_none hpick]; exact .top _ (walkGives_walkTable hvs _ _ _ _)

theorem WalkStarts.walk_answer {m : Memory} {a : WalkAnswer} (h : WalkStarts s [m] (walkGoalOf s.cfg ce dva need) ce a)
    (hempty : s.cache.pde = []) : (s.walk [m] ce dva need).answer = a := by
  have hmiss : ∀ {g l}, ¬ s.PdeHit g l := fun ⟨hheld, _⟩ => by simp [hempty] at hheld
  rw [walk_of_pick_none (by rw [State.pdeMatches, hempty]; rfl)]
  cases h with
  | top a hgives => exact hgives.walkTable_answer
  | heldStop | heldLeaf | heldNext => exact absurd ‹_› hmiss

theorem WalkGives.permitted {cfg : Config} {g : WalkGoal} {level base : Nat} {r w : Bool} {m : Mapping}
    (h : WalkGives cfg vs g level base r w (.mapped m)) : g.need.permitted m.r m.w = true := by
  generalize ha : WalkAnswer.mapped m = a at h
  induction h with
  | topAccess | tableAccess => cases ha
  | stop level base r w e a _ hv => exact absurd ha.symm (entryVerdict_stop hv.entryVerdict_eq m)
  | leaf level base r w e m' _ hv => 
    cases ha
    obtain ⟨rfl, -, -, hperm, -⟩ := entryVerdict_leaf hv.entryVerdict_eq
    exact hperm
  | next level base r w e a _ _ _ ih => exact ih ha

end Walk

/-! ## One translation -/

section Translation

variable {s : State} {vs : List Memory} {rtp : PageNumber} {sid : SourceId} {ce : BitVec 128} {dva : Nat} {need : Need}
  {c : Option CtxLine}

theorem translatePage_answer_of_beyondMgaw (h : 2 ^ s.cfg.mgawBits ≤ dva) :
    (s.translatePage vs ce sid dva need c).answer = beyondWidthAnswer ce need := by
  rw [State.translatePage, if_pos h]; rfl

theorem translatePage_answer_of_hit {l : IotlbLine} (h : dva < 2 ^ s.cfg.mgawBits)
    (hpick : s.pick 25 (s.iotlbMatches (ctxDomain s.cfg ce) sid dva) = some l) :
    (s.translatePage vs ce sid dva need c).answer =
      .ofWalk (ctxDomain s.cfg ce) (ctxFpd ce) (lineAnswer need l.content) := by
  rw [State.translatePage, if_neg (Nat.not_le.2 h), hpick]
  cases hl : l.content with
  | fault | erroneous => simp only [hl]; rfl
  | mapping m => simp only [hl, lineAnswer]; cases mappingAnswer need m <;> rfl

theorem translatePage_answer_of_beyondWidth (hwidth : 2 ^ addressWidth s.cfg ce ≤ dva)
    (hpick : s.pick 25 (s.iotlbMatches (ctxDomain s.cfg ce) sid dva) = none) :
    (s.translatePage vs ce sid dva need c).answer = beyondWidthAnswer ce need := by
  by_cases hmgaw : 2 ^ s.cfg.mgawBits ≤ dva
  · exact translatePage_answer_of_beyondMgaw hmgaw
  · rw [State.translatePage, if_neg hmgaw, hpick]
    simp only [if_pos hwidth]; rfl

/-- The width of an entry with page tables is not above MGAW (R236). -/
theorem addressWidth_le_mgaw : 2 ^ addressWidth s.cfg ce ≤ 2 ^ s.cfg.mgawBits :=
  Nat.pow_le_pow_right Nat.two_pos (Nat.min_le_left _ _)

theorem translatePage_answer_of_walk (h : dva < 2 ^ addressWidth s.cfg ce)
    (hpick : s.pick 25 (s.iotlbMatches (ctxDomain s.cfg ce) sid dva) = none) :
    (s.translatePage vs ce sid dva need c).answer =
      .ofWalk (ctxDomain s.cfg ce) (ctxFpd ce) (s.walk vs ce dva need).answer := by
  rw [State.translatePage, if_neg (Nat.not_le.2 (h.trans_le addressWidth_le_mgaw)), hpick]
  simp only [if_neg (Nat.not_le.2 h)]
  cases (s.walk vs ce dva need).answer <;> rfl

/-- 4h, or no permission for a translation request (R236; 41_device_iotlb.md R273), of an entry with page tables. -/
theorem translationGives_beyondWidthAnswer (hfinds : s.FindsContext vs rtp sid ce)
    (hpages : ctxType ce ≠ 2) (hdevice : need = .device → ctxType ce = 1) (hwidth : 2 ^ addressWidth s.cfg ce ≤ dva) :
    TranslationGives s vs rtp sid dva need (beyondWidthAnswer ce need) := by
  by_cases hn : need = .device
  · subst hn
    exact .beyondWidthDevice ce hfinds rfl (hdevice rfl) hwidth
  · have hpages : ce.extractLsb' 2 2 ≠ 2 := hpages
    rw [beyondWidthAnswer, if_neg (by simpa using hn)]
    exact .beyondWidth ce hfinds hn (by rw [if_neg hpages]; exact hwidth)

theorem translationGives_translatePage (hvs : vs ≠ []) (hfinds : s.FindsContext vs rtp sid ce)
    (hpages : ctxType ce ≠ 2) (hdevice : need = .device → ctxType ce = 1) :
    TranslationGives s vs rtp sid dva need (s.translatePage vs ce sid dva need c).answer := by
  cases hpick : s.pick 25 (s.iotlbMatches (ctxDomain s.cfg ce) sid dva) with
  | some l =>
    rcases Nat.lt_or_ge dva (2 ^ s.cfg.mgawBits) with hmgaw | hbeyond
    · rw [translatePage_answer_of_hit hmgaw hpick]
      exact .hit ce l _ hfinds hpages hdevice hmgaw (iotlbHit_of_pick hpick) (lineAnswers_lineAnswer _)
    · rw [translatePage_answer_of_beyondMgaw hbeyond]
      exact translationGives_beyondWidthAnswer hfinds hpages hdevice (addressWidth_le_mgaw.trans hbeyond)
  | none =>
    rcases Nat.lt_or_ge dva (2 ^ addressWidth s.cfg ce) with hwidth | hbeyond
    · rw [translatePage_answer_of_walk hwidth hpick]
      exact .walk ce _ hfinds hpages hdevice hwidth (walkStarts_walk hvs)
    · rw [translatePage_answer_of_beyondWidth hbeyond hpick]
      exact translationGives_beyondWidthAnswer hfinds hpages hdevice hbeyond

theorem translationGives_contextFault {r : FaultReason} {fpd : Bool} (hvs : vs ≠ [])
    (hfault : contentAnswer s.cfg (s.contextContent vs rtp sid).1 = .fault r fpd) :
    TranslationGives s vs rtp sid dva need (s.contextFault (s.contextContent vs rtp sid) sid dva r fpd).answer := by
  have hgives : ContentGives s vs rtp sid (s.contextContent vs rtp sid).1 := contentGives_contextContent hvs
  unfold State.contextFault
  split
  case h_1 r' kept hpick => exact .contextFaultHeld _ r r' fpd kept hgives (contentChecks_iff.2 hfault) (faultHit_of_pick hpick)
  case h_2 => exact .contextFault _ r fpd hgives (contentChecks_iff.2 hfault)

section Cases

variable (hheld : s.pick 26 (s.faultMatches 0 sid dva) = none)
include hheld

theorem translate_of_contextFault {r : FaultReason} {fpd : Bool}
    (hfault : contentAnswer s.cfg (s.contextContent vs rtp sid).1 = .fault r fpd) :
    s.translate vs rtp sid dva need = s.contextFault (s.contextContent vs rtp sid) sid dva r fpd := by
  simp only [State.translate, hheld, hfault]

variable (hentry : contentAnswer s.cfg (s.contextContent vs rtp sid).1 = .entry ce)
include hentry

theorem translate_answer_of_typeBlocked (hn : need = .device) (htype : ctxType ce ≠ 1) :
    (s.translate vs rtp sid dva need).answer = .fault .typeBlocked (ctxFpd ce) := by
  have hblocked : (need == .device && !(ctxType ce == 1)) = true := by rw [hn, beq_false_of_ne htype]; rfl
  simp only [State.translate, hheld, hentry, hblocked, if_true, Translation.plain]

theorem translate_answer_of_passThrough (hn : need ≠ .device) (htype : ctxType ce = 2) :
    (s.translate vs rtp sid dva need).answer =
      if 2 ^ s.cfg.mgawBits ≤ dva then .fault .beyondWidth (ctxFpd ce) else .passThrough (ctxDomain s.cfg ce) := by
  have hblocked : (need == .device && !(ctxType ce == 1)) = false := by rw [beq_false_of_ne hn]; rfl
  simp only [State.translate, hheld, hentry, hblocked, Bool.false_eq_true, if_false, beq_iff_eq.2 htype, if_true]
  split <;> rfl

theorem translate_of_pages (hpages : ctxType ce ≠ 2) (hdevice : need = .device → ctxType ce = 1) :
    s.translate vs rtp sid dva need = s.translatePage vs ce sid dva need (s.contextContent vs rtp sid).2 := by
  have hblocked : (need == .device && !(ctxType ce == 1)) = false := by simpa using hdevice
  simp only [State.translate, hheld, hentry, hblocked, beq_false_of_ne hpages, Bool.false_eq_true, if_false]

end Cases

/-- The model's translation is one that the caches and the structures in memory give. -/
theorem translationGives_translate (hvs : vs ≠ []) :
    TranslationGives s vs rtp sid dva need (s.translate vs rtp sid dva need).answer := by
  cases hheld : s.pick 26 (s.faultMatches 0 sid dva) with
  | some line =>
    obtain ⟨r, kept⟩ := line
    simpa only [State.translate, hheld] using .heldFault r kept (faultHit_of_pick hheld)
  | none =>
    cases hentry : contentAnswer s.cfg (s.contextContent vs rtp sid).1 with
    | fault r fpd =>
      rw [translate_of_contextFault hheld hentry]
      exact translationGives_contextFault hvs hentry
    | entry ce =>
      have hfinds := findsContext_of_contentAnswer hvs hentry
      by_cases hdevice : need = .device → ctxType ce = 1
      case neg =>
        obtain ⟨hn, htype⟩ := Classical.not_imp.1 hdevice
        rw [translate_answer_of_typeBlocked hheld hentry hn htype]
        exact .typeBlocked ce hfinds hn htype
      case pos =>
        by_cases htype : ctxType ce = 2
        case neg =>
          rw [translate_of_pages hheld hentry htype hdevice]
          exact translationGives_translatePage hvs hfinds htype hdevice
        case pos =>
          have hn : need ≠ .device := fun h => absurd ((hdevice h).symm.trans htype) (by decide)
          have hpass : ce.extractLsb' 2 2 = 2 := htype
          rw [translate_answer_of_passThrough hheld hentry hn htype]
          split
          case isTrue hbeyond => exact .beyondWidth ce hfinds hn (by rw [if_pos hpass]; exact hbeyond)
          case isFalse hbelow => exact .passThrough ce hfinds hn hpass (Nat.not_le.1 hbelow)

/-- Where no cache holds anything for the device and the reads see one memory, one translation only is given. -/
theorem TranslationGives.translate_answer {m : Memory} {a : TransAnswer} (h : TranslationGives s [m] rtp sid dva need a)
    (hmiss : s.cachesMiss sid) : (s.translate [m] rtp sid dva need).answer = a := by
  obtain ⟨hctx, hiotlb, hpde⟩ := hmiss
  have hnofault : ∀ {did r kept}, ¬ s.FaultHit did sid dva r kept := fun ⟨_, l, hl, _⟩ => by simp [hiotlb] at hl
  have hnoline : ∀ {did l}, ¬ s.IotlbHit did sid dva l := fun ⟨hl, _⟩ => by simp [hiotlb] at hl
  have hheld : ∀ {site did}, s.pick site (s.faultMatches did sid dva) = none := fun {_ _} => by
    rw [faultMatches_of_empty hiotlb, pick_nil]
  have hpick : ∀ {did}, s.pick 25 (s.iotlbMatches did sid dva) = none := fun {_} => by
    rw [State.iotlbMatches, hiotlb]; rfl
  cases h with
  | heldFault r kept hhit => exact absurd hhit hnofault
  | contextFaultHeld k found r fpd kept _ _ hhit => exact absurd hhit hnofault
  | hit ce l a _ _ _ _ hhit _ => exact absurd hhit hnoline
  | contextFault k r fpd hgives hchecks =>
    have hfault : contentAnswer s.cfg (s.contextContent [m] rtp sid).1 = .fault r fpd :=
      (hgives.contextContent_eq hctx).symm ▸ hchecks.contentAnswer_eq
    rw [translate_of_contextFault hheld hfault, State.contextFault, hheld]
    rfl
  | typeBlocked ce hfinds hn htype => exact translate_answer_of_typeBlocked hheld (hfinds.contentAnswer_eq hctx) hn htype
  | passThrough ce hfinds hn htype hbelow =>
    rw [translate_answer_of_passThrough hheld (hfinds.contentAnswer_eq hctx) hn htype, if_neg (Nat.not_le.2 hbelow)]
    rfl
  | beyondWidth ce hfinds hn hbeyond =>
    have hentry := hfinds.contentAnswer_eq hctx
    by_cases htype : ctxType ce = 2
    · have hpass : ce.extractLsb' 2 2 = 2 := htype
      rw [if_pos hpass] at hbeyond
      rw [translate_answer_of_passThrough hheld hentry hn htype, if_pos hbeyond]
      rfl
    · have hpages : ce.extractLsb' 2 2 ≠ 2 := htype
      rw [if_neg hpages] at hbeyond
      rw [translate_of_pages hheld hentry htype fun h => absurd h hn, translatePage_answer_of_beyondWidth hbeyond hpick,
        beyondWidthAnswer, if_neg (by simpa using hn)]
      rfl
  | beyondWidthDevice ce hfinds hn htype hbeyond =>
    subst hn
    have htype : ctxType ce = 1 := htype
    rw [translate_of_pages hheld (hfinds.contentAnswer_eq hctx) (by rw [htype]; decide) fun _ => htype,
      translatePage_answer_of_beyondWidth hbeyond hpick]
    rfl
  | walk ce a hfinds hpages hdevice hbelow hwalk =>
    rw [translate_of_pages hheld (hfinds.contentAnswer_eq hctx) hpages hdevice, translatePage_answer_of_walk hbelow hpick,
      hwalk.walk_answer hpde]
    rfl

/-! ## Permissions -/

theorem LineAnswers.permitted {line : IotlbContent} {m : Mapping} (h : LineAnswers need line (.mapped m)) :
    need.permitted m.r m.w = true := by
  cases h with
  | mapped m hperm _ => exact hperm

theorem WalkStarts.permitted {g : WalkGoal} {m : Mapping} (h : WalkStarts s vs g ce (.mapped m)) :
    g.need.permitted m.r m.w = true := by
  cases h with
  | top _ hgives => exact hgives.permitted
  | heldStop l _ _ hv => exact absurd rfl (entryVerdict_stop hv.entryVerdict_eq m)
  | heldLeaf l m _ hv =>
    obtain ⟨rfl, -, -, hperm, -⟩ := entryVerdict_leaf hv.entryVerdict_eq
    exact hperm
  | heldNext l _ _ _ hgives => exact hgives.permitted

/-- Only the end of a walk that maps the address is a mapping. -/
theorem ofWalk_eq_mapped {did d : DomainId} {fpd : Bool} {a : WalkAnswer} {m : Mapping}
    (h : TransAnswer.ofWalk did fpd a = .mapped d m) : a = .mapped m := by
  cases a with
  | mapped m' => cases h; rfl
  | fault | noAccess => cases h

/-- A translation grants the permission that the request needs (R238, R250, R260). -/
theorem TranslationGives.permitted {did : DomainId} {m : Mapping}
    (h : TranslationGives s vs rtp sid dva need (.mapped did m)) : need.permitted m.r m.w = true := by
  generalize ha : TransAnswer.mapped did m = a at h
  cases h with
  | hit ce l w _ _ _ _ _ hline =>
    obtain rfl := ofWalk_eq_mapped ha.symm
    exact hline.permitted
  | walk ce w _ _ _ _ hwalk =>
    obtain rfl := ofWalk_eq_mapped ha.symm
    exact hwalk.permitted
  | heldFault | contextFault | contextFaultHeld | typeBlocked | passThrough | beyondWidth | beyondWidthDevice => cases ha

/-- A translation that no race concerns sees memory as it is. -/
theorem translate_nil : s.translate [] rtp sid dva need = s.translate [s.mem] rtp sid dva need := by
  have hcontext : s.contextContent [] rtp sid = s.contextContent [s.mem] rtp sid := rfl
  have hwalk : ∀ ce, s.walk [] ce dva need = s.walk [s.mem] ce dva need := fun ce => by
    simp only [State.walk, State.walkCached, walkTable_nil]
  simp only [State.translate, State.translatePage, hcontext, hwalk]

theorem translate_permitted {did : DomainId} {m : Mapping}
    (h : (s.translate vs rtp sid dva need).answer = .mapped did m) : need.permitted m.r m.w = true := by
  by_cases hvs : vs = []
  · subst hvs
    rw [translate_nil] at h
    exact (h ▸ translationGives_translate (List.cons_ne_nil _ _)).permitted
  · exact (h ▸ translationGives_translate hvs).permitted

end Translation

/-- Settles O45: the model's answer and `TranslationGives` agree, and what the relation maps is permitted. -/
theorem translationsGrantTheNeededPermission : Obligations.TranslationsGrantTheNeededPermission := by
  refine ⟨fun s vs rtp sid dva need => ⟨translationGives_translate, ?single, fun did m => translate_permitted⟩, rfl⟩
  case single =>
    rintro hmiss m a rfl h
    exact h.translate_answer hmiss

end Sys2Proof.Machine
end

section
/-! DMA requests (40_dma_remapping.md R230 to R258; 20_memory.md R146, R147): what becomes of an untranslated request, with remapping
disabled, and piece by piece with it enabled. -/

namespace Sys2Proof.Machine

variable {s : State} {r : Request} {vs : List Memory} {p : Piece}

/-! ## Blocking and faulting -/

/-- A blocked request is answered as one, and nothing else happens to it (R258). -/
theorem disposeBlocked_eq (s : State) (r : Request) (a k : Nat) :
    ∃ o n, o.isBlocked = true ∧ s.disposeBlocked r a k = { s with out := o :: s.out, draws := n } := by
  unfold State.disposeBlocked
  split
  case h_1 => exact ⟨.writeDropped r.sid a, s.draws, rfl, rfl⟩
  case h_2 =>
    split
    · exact ⟨.readError r.sid a, s.draws, rfl, rfl⟩
    · split
      · exact ⟨.readError r.sid a, s.draws, rfl, rfl⟩
      · exact ⟨.dummyData r.sid a (s.freeBytes 13 k), s.draws + 1, rfl, rfl⟩

/-- A fault of a DMA request adds its record to those that wait, unless FPD suppresses it (R235). -/
theorem raiseDmaFault_eq (s : State) (reason : FaultReason) (fpd : Bool) (sid : SourceId) (addr : Nat) (t : Bool)
    (atype : BitVec 2) : s.raiseDmaFault reason fpd sid addr t atype = { s with unlogged := s.unlogged ++
      (if reason.qualified && fpd then [] else [faultRecord reason.code sid (dmaFaultInfo s.cfg addr) t atype]) } := by
  unfold State.raiseDmaFault
  split
  · rw [List.append_nil]
  · rfl

/-! ## Forwarding -/

/-- The request in flight that a piece becomes. -/
def Piece.inFlight (p : Piece) (r : Request) (hpa : Nat) (did : Option DomainId) (snoop : Bool) : InFlight :=
  { kind := r.kind, atype := r.atype, sid := r.sid, did := did, dva := p.addr, hpa := hpa, enables := p.enables, data := p.data,
    snoop := snoop }

/-- System memory takes a forwarded request in flight, another address sends it to a peer (R257). -/
def State.accept (s : State) (f : InFlight) : State :=
  if isSystemMemory s.cfg f.hpa f.enables.length then { s with inflight := s.inflight ++ [f] }
  else { s with out := .peer f :: s.out }

theorem forward_eq_accept {hpa : Nat} {did : Option DomainId} {snoop : Bool} (hrange : meetsInterruptRange hpa 1 = false)
    (hpages : meetsRegisterPages s.cfg hpa p.enables.length = false) :
    s.forward r p hpa did snoop = .next (s.accept (p.inFlight r hpa did snoop)) := by
  simp only [State.forward, hrange, hpages, Bool.false_eq_true, if_false, State.accept, apply_ite Host.Outcome.next]
  rfl

theorem accept_of_system {f : InFlight} (h : isSystemMemory s.cfg f.hpa f.enables.length = true) :
    s.accept f = { s with inflight := s.inflight ++ [f] } := if_pos h

theorem accept_of_peer {f : InFlight} (h : isSystemMemory s.cfg f.hpa f.enables.length = false) :
    s.accept f = { s with out := .peer f :: s.out } := if_neg (by simp [h])

/-- A remapped piece is forwarded, or, where it meets an enabled protected region, perhaps blocked (93 U9). -/
theorem forwardRemapped_accepts_or_blocks {hpa : Nat} {did : Option DomainId} {snoop : Bool}
    (hrange : meetsInterruptRange hpa 1 = false) (hpages : meetsRegisterPages s.cfg hpa p.enables.length = false) :
    s.forwardRemapped r p hpa did snoop = .next (s.tick.accept (p.inFlight r hpa did snoop)) ∨
      (s.prs = true ∧ overlapsProtected s.cfg s.reg hpa p.enables.length = true ∧ ∃ o n, o.isBlocked = true ∧
        s.forwardRemapped r p hpa did snoop = .next { s with out := o :: s.out, draws := n }) := by
  unfold State.forwardRemapped
  split
  case isFalse => exact .inl (forward_eq_accept hrange hpages)
  case isTrue hblock =>
    simp only [Bool.and_eq_true] at hblock
    obtain ⟨⟨hprs, hprotected⟩, -⟩ := hblock
    obtain ⟨o, n, ho, heq⟩ := disposeBlocked_eq s.tick r p.addr p.enables.length
    exact .inr ⟨hprs, hprotected, o, n, ho, by rw [heq]; rfl⟩

/-! ## One piece -/

section Piece

/-- The unit looks a piece up in its tables: it is no read of FEEx_xxxxh (20 R147), and no request beyond MGAW that is reported
through AER alone (R236, 93 U10). -/
def Piece.remaps (p : Piece) (cfg : Config) (r : Request) : Prop :=
  (r.kind = .write ∨ meetsInterruptRange p.addr 1 = false) ∧ (cfg.mgawAer = false ∨ p.addr < 2 ^ cfg.mgawBits)

theorem Piece.remaps_iff {cfg : Config} : p.remaps cfg r ↔
    (r.kind == .read && meetsInterruptRange p.addr 1) = false ∧
      (cfg.mgawAer && decide (2 ^ cfg.mgawBits ≤ p.addr)) = false := by
  have hkind : (r.kind == .read) = false ↔ r.kind = .write := by cases r.kind <;> decide
  rw [Piece.remaps, Bool.and_eq_false_iff, Bool.and_eq_false_iff, hkind, decide_eq_false_iff_not, Nat.not_le]

theorem processPiece_of_not_remaps (h : ¬ p.remaps s.cfg r) :
    ∃ o n, o.isBlocked = true ∧ s.processPiece r vs p = .next { s with out := o :: s.out, draws := n } := by
  unfold State.processPiece
  split
  case isTrue => exact ⟨.readError r.sid p.addr, s.draws, rfl, rfl⟩
  case isFalse hrange =>
    split
    case isTrue =>
      obtain ⟨o, n, ho, heq⟩ := disposeBlocked_eq s r p.addr p.enables.length
      exact ⟨o, n, ho, congrArg _ heq⟩
    case isFalse hwidth => exact absurd (Piece.remaps_iff.2 ⟨Bool.eq_false_iff.2 hrange, Bool.eq_false_iff.2 hwidth⟩) h

/-- The state that has looked the piece up: the caches may have been filled. -/
def State.lookedUp (s : State) (r : Request) (vs : List Memory) (p : Piece) (rtp : PageNumber) : State :=
  (s.fillCaches (s.translate vs rtp r.sid p.addr (r.need s.cfg))).tick

variable {rtp : PageNumber} (hremaps : p.remaps s.cfg r) (hrtp : s.latch.rtp = some rtp)
include hremaps hrtp

theorem processPiece_of_fault {reason : FaultReason} {fpd : Bool}
    (hfault : (s.translate vs rtp r.sid p.addr (r.need s.cfg)).answer = .fault reason fpd) :
    ∃ o n, o.isBlocked = true ∧ s.processPiece r vs p = .next { s with
      cache := (s.lookedUp r vs p rtp).cache
      unlogged := (s.raiseDmaFault reason fpd r.sid p.addr (r.kind == .read) r.atype).unlogged
      out := o :: s.out
      draws := n } := by
  obtain ⟨hrange, hwidth⟩ := Piece.remaps_iff.1 hremaps
  simp only [State.processPiece, hrange, hwidth, hrtp, hfault, Bool.false_eq_true, if_false, raiseDmaFault_eq]
  obtain ⟨o, n, ho, heq⟩ := disposeBlocked_eq _ r p.addr p.enables.length
  exact ⟨o, n, ho, congrArg _ heq⟩

theorem processPiece_of_mapped {did : DomainId} {m : Mapping}
    (h : (s.translate vs rtp r.sid p.addr (r.need s.cfg)).answer = .mapped did m) : s.processPiece r vs p =
      (s.lookedUp r vs p rtp).forwardRemapped r p (m.hpa + p.addr % 2 ^ pageBits m.level) (some did) (m.snp || !r.ns) := by
  obtain ⟨hrange, hwidth⟩ := Piece.remaps_iff.1 hremaps
  simp only [State.processPiece, hrange, hwidth, hrtp, h, Bool.false_eq_true, if_false, State.lookedUp]

theorem processPiece_of_passThrough {did : DomainId}
    (h : (s.translate vs rtp r.sid p.addr (r.need s.cfg)).answer = .passThrough did) :
    s.processPiece r vs p = (s.lookedUp r vs p rtp).forwardRemapped r p p.addr (some did) (!r.ns) := by
  obtain ⟨hrange, hwidth⟩ := Piece.remaps_iff.1 hremaps
  simp only [State.processPiece, hrange, hwidth, hrtp, h, Bool.false_eq_true, if_false, State.lookedUp]

end Piece

/-- Settles O36: the fault raises no record, and the piece is disposed of as a blocked one. -/
theorem faultProcessingDisableSuppressesTheRecord : Obligations.FaultProcessingDisableSuppressesTheRecord := by
  intro s r vs p rtp reason hrtp hrange hwidth hfault hqualified
  obtain ⟨o, n, ho, hnext⟩ := processPiece_of_fault ⟨hrange, hwidth⟩ hrtp hfault
  refine ⟨_, o, hnext, rfl, ho, rfl, rfl, ?norecord, rfl, rfl, rfl⟩
  case norecord => simp [raiseDmaFault_eq, hqualified]

/-- Settles O37: a piece that is looked up and faults is blocked with its record waiting; one that is not is blocked at once. -/
theorem faultingRequestReachesNoMemory : Obligations.FaultingRequestReachesNoMemory := by
  intro s t r vs p rtp reason fpd hrtp hfault hnext
  by_cases hremaps : p.remaps s.cfg r
  case pos =>
    obtain ⟨o, n, ho, heq⟩ := processPiece_of_fault hremaps hrtp hfault
    cases heq.symm.trans hnext
    exact ⟨rfl, rfl, ⟨o, rfl, ho⟩, rfl, rfl, rfl, fun _ _ => by rw [raiseDmaFault_eq]; rfl⟩
  case neg =>
    obtain ⟨o, n, ho, heq⟩ := processPiece_of_not_remaps hremaps
    cases heq.symm.trans hnext
    exact ⟨rfl, rfl, ⟨o, rfl, ho⟩, rfl, rfl, rfl, fun hrange hwidth => absurd ⟨hrange, hwidth⟩ hremaps⟩

/-! ## The request as a whole -/

/-- A request that the bus carries has a doubleword at least, and a write has the data of its length (R203, log 17). -/
theorem length_of_not_malformed {cfg : Config} (h : r.malformed cfg = false) :
    0 < r.size ∧ (r.kind = .write → r.data.length = r.size) := by
  simp only [Request.malformed, Bool.or_eq_false_iff] at h
  obtain ⟨⟨-, hlen⟩, hdata⟩ := h
  refine ⟨Nat.mul_pos (by decide) (Nat.pos_of_ne_zero (by simpa using hlen)), fun hk => ?_⟩
  simpa [hk, Request.size] using hdata

@[simp] theorem enables_length (r : Request) : r.enables.length = r.size := by
  unfold Request.enables Request.size
  split
  case h_1 h => simp [h]
  case h_2 h => simp [h, enableBits]
  case h_3 n h => simp [h, enableBits]; omega

theorem meetsInterruptRange_first {a n : Nat} (hn : 0 < n) (h : meetsInterruptRange a n = false) :
    meetsInterruptRange a 1 = false := by
  simp only [meetsInterruptRange, overlaps, Bool.and_eq_false_iff, decide_eq_false_iff_not] at h ⊢
  omega

/-- A request starts in FEEx_xxxxh where its first byte lies there. -/
theorem inInterruptRange_eq (r : Request) : r.inInterruptRange = meetsInterruptRange r.base 1 := by
  rw [Bool.eq_iff_iff]
  simp only [Request.inInterruptRange, meetsInterruptRange, overlaps, beq_iff_eq, Bool.and_eq_true, decide_eq_true_eq]
  have hlt := r.addr.isLt
  rw [Request.base, ← BitVec.toNat_inj, BitVec.extractLsb'_toNat, Nat.shiftRight_eq_div_pow,
    show (0xFEE : BitVec 44).toNat = 0xFEE from rfl]
  omega

/-- With no move racing, an untranslated request that is no interrupt is processed in memory as it is (R200, R230). -/
theorem handle_untranslated (hatype : r.atype = 0) (hformed : r.malformed s.cfg = false) (hscope : inScope s.cfg r.sid = true)
    (hirq : r.isInterrupt = false) : s.handle (.request r []) = s.processUntranslated r [s.mem] := by
  have hhandle : s.handle (.request r []) = andThen (s.processUntranslated r [s.mem]) .next := by
    simp [State.handle, State.processRequest, hformed, hscope, hirq, hatype, State.views, State.processorMoves]
  rw [hhandle]
  cases s.processUntranslated r [s.mem] <;> rfl

theorem processUntranslated_of_read_inRange (hkind : r.kind = .read) (hin : r.inInterruptRange = true) :
    s.processUntranslated r vs = .next (s.emit (.readError r.sid r.base)) := by
  simp [State.processUntranslated, hkind, hin]

section Splits

variable (hcross : r.crossesPage = false ∨ s.cfg.crossPage = .unitSplits)
include hcross

/-- The platform does not block the request for a page that it crosses (R252). -/
theorem not_platform_blocks : (r.crossesPage && s.cfg.crossPage == .platformBlocks) = false := by
  rcases hcross with h | h <;> rw [h]
  · rfl
  · exact Bool.and_false _

theorem processUntranslated_of_write_inRange (hkind : r.kind = .write) (hin : r.inInterruptRange = true) :
    s.processUntranslated r vs = .refused .interruptRangeWrite := by
  simp only [State.processUntranslated, not_platform_blocks hcross, hkind, hin]
  rfl

theorem processUntranslated_of_outside (hout : r.inInterruptRange = false) :
    s.processUntranslated r vs = if s.tes then s.processPieces r vs r.pieces else s.processDisabled r := by
  simp only [State.processUntranslated, not_platform_blocks hcross, hout, Bool.and_false, Bool.false_eq_true, if_false]

end Splits

/-! ## Remapping disabled (R231) -/

theorem processDisabled_blocks
    (h : (s.prs = true ∧ overlapsProtected s.cfg s.reg r.base r.size = true) ∨
      (r.kind = .read ∧ meetsInterruptRange r.base r.size = true)) :
    ∃ o n, o.isBlocked = true ∧ s.processDisabled r = .next { s with out := o :: s.out, draws := n } := by
  unfold State.processDisabled
  split
  case isTrue =>
    obtain ⟨o, n, ho, heq⟩ := disposeBlocked_eq s r r.base r.size
    exact ⟨o, n, ho, congrArg _ heq⟩
  case isFalse hfree =>
    rw [Bool.and_eq_true] at hfree
    obtain ⟨hkind, hmeets⟩ := h.resolve_left hfree
    rw [hkind, hmeets]
    exact ⟨.readError r.sid r.base, s.draws, rfl, rfl⟩

theorem processDisabled_forwards (hfree : s.prs = true → overlapsProtected s.cfg s.reg r.base r.size = false)
    (hread : r.kind = .read → meetsInterruptRange r.base r.size = false) (hout : r.inInterruptRange = false)
    (hpages : meetsRegisterPages s.cfg r.base r.enables.length = false) :
    s.processDisabled r = .next (s.accept (r.whole.inFlight r r.base none (!r.ns))) := by
  unfold State.processDisabled
  rw [if_neg (by simpa using hfree), if_neg (by simpa using hread)]
  exact forward_eq_accept (inInterruptRange_eq r ▸ hout) hpages

/-- Settles O41: by where the request starts and what it meets. -/
theorem disabledRemappingForwardsOrBlocks : Obligations.DisabledRemappingForwardsOrBlocks := by
  intro s r htes hatype hformed hscope hcross
  have hdisabled : r.inInterruptRange = false → s.handle (.request r []) = s.processDisabled r := fun hout => by
    rw [handle_untranslated hatype hformed hscope (by simp [Request.isInterrupt, hout]),
      processUntranslated_of_outside hcross hout, if_neg (by simp [htes])]
  refine ⟨fun hout hread => ⟨fun hfree hpages => ?forwarded, fun hprs hprotected => ?protectedRegion⟩,
    fun hkind hmeets => ?interruptRead, fun hkind hin hlen => ?interruptWrite⟩
  case forwarded =>
    exact ⟨_, rfl, (hdisabled hout).trans (processDisabled_forwards hfree hread hout hpages)⟩
  case protectedRegion =>
    obtain ⟨o, n, ho, heq⟩ := processDisabled_blocks (.inl ⟨hprs, hprotected⟩)
    exact ⟨_, o, (hdisabled hout).trans heq, rfl, ho, rfl⟩
  case interruptRead =>
    cases hin : r.inInterruptRange with
    | true =>
      rw [handle_untranslated hatype hformed hscope (by simp [Request.isInterrupt, hkind]),
        processUntranslated_of_read_inRange hkind hin]
      exact ⟨_, .readError r.sid r.base, rfl, rfl, rfl, rfl⟩
    | false =>
      obtain ⟨o, n, ho, heq⟩ := processDisabled_blocks (.inr ⟨hkind, hmeets⟩)
      exact ⟨_, o, (hdisabled hin).trans heq, rfl, ho, rfl⟩
  case interruptWrite =>
    rw [handle_untranslated hatype hformed hscope (by simp [Request.isInterrupt, hlen]),
      processUntranslated_of_write_inRange hcross hkind hin]

/-! ## Remapping enabled (R240) -/

/-- The one piece of a request within a page. -/
def Request.onlyPiece (r : Request) : Piece :=
  { addr := r.base, enables := r.enables, data := r.data.take (4096 - r.base % 4096) }

/-- A request within a page is not split (R252). -/
theorem pieces_of_one_page {cfg : Config} (hformed : r.malformed cfg = false) (hpage : r.crossesPage = false) :
    r.pieces = [r.onlyPiece] := by
  obtain ⟨hsize, -⟩ := length_of_not_malformed hformed
  have hfits : r.enables.length ≤ 4096 - r.base % 4096 := by
    rw [enables_length]
    have hend := of_decide_eq_false hpage
    omega
  have hsome : r.enables.isEmpty = false := by
    rw [List.isEmpty_eq_false_iff, ← List.length_pos_iff, enables_length]; exact hsize
  have hrest : ∀ fuel a ds, splitPieces fuel a [] ds = [] := fun fuel a ds => by cases fuel <;> rfl
  rw [Request.pieces, splitPieces, hsome, List.take_of_length_le hfits, List.drop_of_length_le hfits, hrest]
  rfl

theorem onlyPiece_data {cfg : Config} (hformed : r.malformed cfg = false) (hpage : r.crossesPage = false)
    (hkind : r.kind = .write) : r.onlyPiece.data = r.data := by
  obtain ⟨-, hdata⟩ := length_of_not_malformed hformed
  have hend := of_decide_eq_false hpage
  exact List.take_of_length_le (by rw [hdata hkind]; omega)

theorem handle_of_one_page (htes : s.tes = true) (hatype : r.atype = 0) (hformed : r.malformed s.cfg = false)
    (hscope : inScope s.cfg r.sid = true) (hpage : r.crossesPage = false) (hout : r.inInterruptRange = false) :
    s.handle (.request r []) = s.processPiece r [s.mem] r.onlyPiece := by
  rw [handle_untranslated hatype hformed hscope (by simp [Request.isInterrupt, hout]),
    processUntranslated_of_outside (.inl hpage) hout, if_pos htes, pieces_of_one_page hformed hpage]
  simp only [State.processPieces]
  cases s.processPiece r [s.mem] r.onlyPiece <;> rfl

/-- A piece whose address translates, or passes through, is forwarded to the address that the translation gives (R240). -/
theorem processPiece_of_target {rtp : PageNumber} {did : DomainId} {hpa : Nat} {snoop : Bool} (hremaps : p.remaps s.cfg r)
    (hrtp : s.latch.rtp = some rtp)
    (h : (∃ m, (s.translate vs rtp r.sid p.addr (r.need s.cfg)).answer = .mapped did m ∧
        hpa = m.hpa + p.addr % 2 ^ pageBits m.level ∧ snoop = (m.snp || !r.ns)) ∨
      ((s.translate vs rtp r.sid p.addr (r.need s.cfg)).answer = .passThrough did ∧ hpa = p.addr ∧ snoop = !r.ns)) :
    s.processPiece r vs p = (s.lookedUp r vs p rtp).forwardRemapped r p hpa (some did) snoop := by
  rcases h with ⟨m, hmapped, rfl, rfl⟩ | ⟨hpass, rfl, rfl⟩
  · exact processPiece_of_mapped hremaps hrtp hmapped
  · exact processPiece_of_passThrough hremaps hrtp hpass

/-- Settles O42: the request is one piece, which is forwarded or blocked once it is looked up. -/
theorem remappedRequestsReachTheirFrame : Obligations.RemappedRequestsReachTheirFrame := by
  intro s r rtp did hpa snoop a htes hatype hformed hscope hrange hpage hwidth hrtp htranslates htarget hframe hpages
  obtain ⟨hsize, -⟩ := length_of_not_malformed hformed
  have hfirst := meetsInterruptRange_first hsize hrange
  have hanswer : (s.translate [s.mem] rtp r.sid r.base (r.need s.cfg)).answer = a :=
    htranslates.elim id fun ⟨hmiss, hgives⟩ => hgives.translate_answer hmiss
  subst hanswer
  rw [handle_of_one_page htes hatype hformed hscope hpage ((inInterruptRange_eq r).trans hfirst),
    processPiece_of_target (p := r.onlyPiece) ⟨.inr hfirst, hwidth⟩ hrtp htarget]
  have hlength : r.onlyPiece.enables.length = r.size := enables_length r
  rcases forwardRemapped_accepts_or_blocks (s := s.lookedUp r [s.mem] r.onlyPiece rtp) (r := r) (p := r.onlyPiece)
      (did := some did) (snoop := snoop) (meetsInterruptRange_first hsize hframe) (hlength ▸ hpages) with heq | hblocked
  case inr =>
    obtain ⟨hprs, hprotected, o, n, ho, heq⟩ := hblocked
    exact ⟨_, heq, .inr ⟨hprs, hlength ▸ hprotected, rfl, o, rfl, ho⟩, rfl⟩
  case inl =>
    refine ⟨_, heq, .inl ⟨r.onlyPiece.inFlight r hpa (some did) snoop, rfl, hatype, rfl, rfl, rfl, rfl, rfl,
      onlyPiece_data hformed hpage, rfl, ?accepted⟩, ?frame⟩
    case accepted =>
      split
      case isTrue hsystem => rw [accept_of_system (hlength.symm ▸ hsystem)]; exact ⟨rfl, rfl⟩
      case isFalse hpeer => rw [accept_of_peer (hlength.symm ▸ Bool.eq_false_iff.2 hpeer)]; exact ⟨rfl, rfl⟩
    case frame =>
      unfold State.accept
      split <;> rfl

end Sys2Proof.Machine
end

section
/-! ATS Invalidation Completions (41_device_iotlb.md R279, R292, R295; 44_queued_invalidation.md R406; 60_exceptions.md R510): the
three outcomes of a message, and what a valid one does to the tags, to the queue engine and to the device's requests. -/

namespace Sys2Proof.Machine

/-! ## ICE -/

theorem releaseFaultEvent_fsts (s : State) : s.releaseFaultEvent.reg.fsts = s.reg.fsts := by
  unfold State.releaseFaultEvent
  split <;> rfl

/-- Raising a status Sets its bit, whether or not it generates an event (R510). -/
theorem raiseStatus_fsts (s : State) (b : Nat) : (s.raiseStatus b).reg.fsts = setBit s.reg.fsts b true := by
  unfold State.raiseStatus
  split
  · rfl
  · exact releaseFaultEvent_fsts _

theorem raiseIce_ice (s : State) : s.raiseIce.ice = true := by
  rw [State.ice, State.raiseIce, raiseStatus_fsts]
  exact getLsbD_setBit_self _ _ _ (by decide)

variable {s : State} {sid : SourceId} {vec : BitVec 32} {cc : BitVec 3}

/-! ## The vector -/

/-- A vector is valid where each tag that it names is allocated to the device (R292). -/
theorem badVector_eq_false_iff : s.badVector sid vec = false ↔
    ∀ k, k < 32 → vec.getLsbD k = true → ∃ g, s.tag k = some g ∧ g.sid = sid := by
  simp [State.badVector, Option.map_eq_some_iff]

theorem badVector_of_foreign_tag {k : Nat} (hk : k < 32) (hnamed : vec.getLsbD k = true)
    (hforeign : ∀ g, s.tag k = some g → g.sid ≠ sid) : s.badVector sid vec = true := by
  rw [← Bool.not_eq_false, badVector_eq_false_iff]
  intro hvalid
  obtain ⟨g, htag, hsid⟩ := hvalid k hk hnamed
  exact hforeign g htag hsid

/-! ## The three outcomes -/

theorem atsCompletion_of_unsupported (h : s.tes = false ∨ s.cfg.di = false) :
    s.atsCompletion sid vec cc = s.emit (.unsupported sid) :=
  if_pos (by simpa using h)

section Supported

variable (htes : s.tes = true) (hdi : s.cfg.di = true)
include htes hdi

theorem atsCompletion_of_badVector (h : s.badVector sid vec = true) : s.atsCompletion sid vec cc = s.raiseIce := by
  simp [State.atsCompletion, htes, hdi, h]

theorem atsCompletion_of_valid (h : s.badVector sid vec = false) : s.atsCompletion sid vec cc =
    { s.pushTranslated sid with
      itags := s.itags.mapIdx (countTag vec cc)
      iq := { s.iq with
        pending := s.iq.pending.filter (fun p => !(s.completedBy vec cc).contains p.seq)
        lastWait := s.iq.lastWait && (s.completedBy vec cc).isEmpty } } := by
  simp [State.atsCompletion, htes, hdi, h]

end Supported

/-! ## What a valid message counts -/

/-- Counting goes tag by tag. -/
theorem tag_of_counted {t : State} (h : t.itags = s.itags.mapIdx (countTag vec cc)) (k : Nat) :
    t.tag k = countTag vec cc k (s.tag k) := by
  rw [State.tag, h, List.getElem?_mapIdx, State.tag]
  cases s.itags[k]? <;> rfl

theorem countTag_of_not_named {k : Nat} (h : vec.getLsbD k = false) (g : Option ITag) : countTag vec cc k g = g := by
  cases g <;> simp [countTag, h]

theorem countTag_of_named {k : Nat} (h : vec.getLsbD k = true) (g : ITag) : countTag vec cc k (some g) =
    if g.count + 1 = expectedCompletions cc then none else some { g with count := g.count + 1 } := by
  simp [countTag, h]

theorem lt_length_of_tag {k : Nat} {g : ITag} (h : s.tag k = some g) : k < s.itags.length := by
  by_contra hout
  simp [State.tag, List.getElem?_eq_none (Nat.le_of_not_lt hout)] at h

/-- A message completes the descriptors whose tag it names for the last time. -/
theorem mem_completedBy {n : Nat} : n ∈ s.completedBy vec cc ↔
    ∃ k g, vec.getLsbD k = true ∧ s.tag k = some g ∧ g.count + 1 = expectedCompletions cc ∧ g.seq = n := by
  simp only [State.completedBy, List.mem_filterMap, List.mem_range]
  constructor
  · rintro ⟨k, -, hseq⟩
    split at hseq
    · cases hseq
    next g htag =>
      rw [Option.ite_none_right_eq_some, Bool.and_eq_true, beq_iff_eq] at hseq
      obtain ⟨⟨hnamed, hcount⟩, hseq⟩ := hseq
      exact ⟨k, g, hnamed, htag, hcount, Option.some.inj hseq⟩
  · rintro ⟨k, g, hnamed, htag, hcount, rfl⟩
    exact ⟨k, lt_length_of_tag htag, by simp [htag, hnamed, hcount]⟩

/-- Settles O51: by the three outcomes of the message; of a valid one, tag by tag and descriptor by descriptor. -/
theorem completionsCountAndFreeTags : Obligations.CompletionsCountAndFreeTags := by
  intro s sid vec cc
  refine ⟨fun hoff => atsCompletion_of_unsupported hoff, fun htes hdi k hk hnamed hforeign => ?dropped,
    fun htes hdi hvalid => ?counted⟩
  case dropped =>
    rw [atsCompletion_of_badVector htes hdi (badVector_of_foreign_tag hk hnamed hforeign)]
    have hevents : SameButEvents s s.raiseIce := events_raiseStatus s 5 (by decide)
    exact ⟨raiseIce_ice s, hevents.itags, hevents.iq, hevents.mem, hevents.inflight⟩
  case counted =>
    rw [atsCompletion_of_valid htes hdi (badVector_eq_false_iff.2 hvalid)]
    have hdrained : Drained s (s.pushTranslated sid) (fun f => f.atype == 2 && f.sid == sid) := drained_drainWhere s s.cache _
    have hpush : SameUnit s (s.pushTranslated sid) := sameUnit_drainWhere s _
    refine ⟨fun k hnot => ?other, fun k g hnamed htag => ?named, fun p => ?pending,
      ⟨hdrained.inflight, hdrained.mem, hdrained.wbuf, hdrained.dirty, hdrained.out⟩, hpush.reg⟩
    case other => rw [tag_of_counted rfl, countTag_of_not_named hnot]
    case named =>
      rw [tag_of_counted rfl, htag]
      exact countTag_of_named hnamed g
    case pending =>
      have hleft : p.seq ∉ s.completedBy vec cc ↔ ∀ k g, vec.getLsbD k = true → s.tag k = some g → g.seq = p.seq →
          g.count + 1 ≠ expectedCompletions cc := by
        rw [mem_completedBy]
        exact ⟨fun h k g hnamed htag hseq hcount => h ⟨k, g, hnamed, htag, hcount, hseq⟩,
          fun h ⟨k, g, hnamed, htag, hcount, hseq⟩ => h k g hnamed htag hseq hcount⟩
      exact List.mem_filter.trans (and_congr_right fun _ => Iff.trans (by simp) hleft)

end Sys2Proof.Machine
end

section
/-! Translated requests (41_device_iotlb.md R279, R282 to R285): the check of the device's context-entry, and what becomes of the
request. -/

namespace Sys2Proof.Machine

variable {s : State} {r : Request} {vs : List Memory} {rtp : PageNumber} {sid : SourceId}

/-! ## The check (R282, R283) -/

theorem checkTranslated_of_contextFault {reason : FaultReason} {fpd : Bool}
    (h : contentAnswer s.cfg (s.contextContent vs rtp sid).1 = .fault reason fpd) :
    (s.checkTranslated vs rtp sid).1 = .fault reason fpd := by
  rw [State.checkTranslated, h]

theorem checkTranslated_of_entry {ce : BitVec 128} (h : contentAnswer s.cfg (s.contextContent vs rtp sid).1 = .entry ce) :
    (s.checkTranslated vs rtp sid).1 = if ctxType ce = 1 then .entry ce else .fault .typeBlocked (ctxFpd ce) := by
  simp only [State.checkTranslated, h, beq_iff_eq]
  split <;> rfl

theorem translatedCheckGives_checkTranslated (hvs : vs ≠ []) :
    TranslatedCheckGives s vs rtp sid (s.checkTranslated vs rtp sid).1 := by
  cases hchecks : contentAnswer s.cfg (s.contextContent vs rtp sid).1 with
  | fault reason fpd =>
    rw [checkTranslated_of_contextFault hchecks]
    exact .fault _ reason fpd (contentGives_contextContent hvs) (contentChecks_iff.2 hchecks)
  | entry ce =>
    have hfinds := findsContext_of_contentAnswer hvs hchecks
    rw [checkTranslated_of_entry hchecks]
    split
    case isTrue htype => exact .entry ce hfinds htype
    case isFalse htype => exact .typeBlocked ce hfinds htype

/-- With one memory, a device of which the context cache holds no line has one check only. -/
theorem TranslatedCheckGives.checkTranslated_eq {m : Memory} {a : CtxAnswer} (h : TranslatedCheckGives s [m] rtp sid a)
    (hmiss : ∀ l ∈ s.cache.ctx, l.sid ≠ sid) : (s.checkTranslated [m] rtp sid).1 = a := by
  cases h with
  | fault k reason fpd hgives hchecks =>
    refine checkTranslated_of_contextFault ?_
    rw [hgives.contextContent_eq hmiss, hchecks.contentAnswer_eq]
  | typeBlocked ce hfinds htype =>
    rw [checkTranslated_of_entry (hfinds.contentAnswer_eq hmiss)]
    exact if_neg htype
  | entry ce hfinds htype =>
    rw [checkTranslated_of_entry (hfinds.contentAnswer_eq hmiss)]
    exact if_pos htype

/-- The check lets through only a device whose context-entry has T = 01b. -/
theorem TranslatedCheckGives.ctxType_eq {ce : BitVec 128} (h : TranslatedCheckGives s vs rtp sid (.entry ce)) : ctxType ce = 1 := by
  cases h with
  | entry _ _ htype => exact htype

/-! ## The request -/

/-- With no move racing, a request of the unit's scope goes where its kind and address type say, in memory as it is (R200). -/
theorem handle_request (hformed : r.malformed s.cfg = false) (hscope : inScope s.cfg r.sid = true) : s.handle (.request r []) =
    if r.isInterrupt then s.processInterrupt r [s.mem]
    else if r.atype = 0 then s.processUntranslated r [s.mem]
    else if r.atype = 1 then s.processTranslationRequest r [s.mem]
    else s.processTranslated r [s.mem] := by
  have hself : ∀ x : Result, andThen x .next = x := fun x => by cases x <;> rfl
  simp only [State.handle, State.processRequest, hformed, hscope, Bool.not_true, Bool.false_eq_true, if_false]
  exact hself _

/-- An interrupt request is an untranslated one (R200). -/
theorem isInterrupt_of_atype (h : r.atype ≠ 0) : r.isInterrupt = false := by
  rw [Request.isInterrupt, beq_eq_false_iff_ne.2 h, Bool.and_false]

theorem handle_translated (hatype : r.atype = 2) (hformed : r.malformed s.cfg = false) (hscope : inScope s.cfg r.sid = true) :
    s.handle (.request r []) = s.processTranslated r [s.mem] := by
  rw [handle_request hformed hscope, isInterrupt_of_atype (by simp [hatype]), hatype]
  rfl

section Processed

variable (hcross : r.crossesPage = false ∨ s.cfg.crossPage = .unitSplits)
include hcross

theorem processTranslated_of_refused
    (h : s.tes = false ∨ meetsInterruptRange r.base r.size = true ∨ 2 ^ s.cfg.mgawBits ≤ r.addr.toNat) :
    s.processTranslated r vs = .next (s.refuseTranslated r) := by
  rw [State.processTranslated, not_platform_blocks hcross]
  split
  · rfl
  case isFalse htes =>
    split
    · rfl
    case isFalse hrange =>
      have hbeyond := (h.resolve_left (by simpa using htes)).resolve_left hrange
      exact if_pos hbeyond

/-- The state that has checked the request: the context cache may have been filled. -/
def State.checked (s : State) (r : Request) (vs : List Memory) (rtp : PageNumber) : State :=
  ({ s with cache := { s.cache with ctx := s.fill 27 (s.checkTranslated vs rtp r.sid).2 s.cache.ctx } }).tick

variable (htes : s.tes = true) (hrange : meetsInterruptRange r.base r.size = false) (hwidth : r.addr.toNat < 2 ^ s.cfg.mgawBits)
  (hrtp : s.latch.rtp = some rtp)
include htes hrange hwidth hrtp

theorem processTranslated_of_entry {ce : BitVec 128} (h : (s.checkTranslated vs rtp r.sid).1 = .entry ce) :
    s.processTranslated r vs = (s.checked r vs rtp).forwardRemapped r r.whole r.base none (!r.ns) := by
  simp only [State.processTranslated, not_platform_blocks hcross, htes, hrange, Nat.not_le.2 hwidth, hrtp, h, Bool.not_true,
    Bool.false_eq_true, if_false, State.checked]

theorem processTranslated_of_fault {reason : FaultReason} {fpd : Bool}
    (h : (s.checkTranslated vs rtp r.sid).1 = .fault reason fpd) :
    ∃ o n, o.isBlocked = true ∧ s.processTranslated r vs = .next { s with
      cache := (s.checked r vs rtp).cache
      unlogged := (s.raiseDmaFault reason fpd r.sid r.addr.toNat (r.kind == .read) r.atype).unlogged
      out := o :: s.out
      draws := n } := by
  simp only [State.processTranslated, not_platform_blocks hcross, htes, hrange, Nat.not_le.2 hwidth, hrtp, h, Bool.not_true,
    Bool.false_eq_true, if_false, raiseDmaFault_eq]
  obtain ⟨o, n, ho, heq⟩ := disposeBlocked_eq _ r r.base r.size
  exact ⟨o, n, ho, congrArg _ heq⟩

end Processed

/-- Settles O44: a request is refused at once, or checked; a checked one is forwarded as it is, or blocked with its record. -/
theorem translatedRequestsAreChecked : Obligations.TranslatedRequestsAreChecked := by
  intro s r hatype hformed hscope hcross
  rw [handle_translated hatype hformed hscope]
  refine ⟨fun hrefused => ?refused, fun rtp htes hrange hwidth hrtp => ⟨translatedCheckGives_checkTranslated (by simp),
    fun hmiss a hgives => hgives.checkTranslated_eq hmiss, fun ce hentry => ⟨?entryType, fun hpages hsystem hfree => ?forwarded⟩,
    fun reason fpd hfault => ?blocked⟩⟩
  case refused =>
    rw [processTranslated_of_refused hcross hrefused]
    cases hkind : r.kind <;> exact ⟨_, _, rfl, by rw [State.refuseTranslated, hkind]; rfl, rfl⟩
  case entryType =>
    have hgives : TranslatedCheckGives s [s.mem] rtp r.sid (s.checkTranslated [s.mem] rtp r.sid).1 :=
      translatedCheckGives_checkTranslated (by simp)
    exact TranslatedCheckGives.ctxType_eq (hentry ▸ hgives)
  case forwarded =>
    obtain ⟨hsize, -⟩ := length_of_not_malformed hformed
    have hlength : r.whole.enables.length = r.size := enables_length r
    rw [processTranslated_of_entry hcross htes hrange hwidth hrtp hentry]
    rcases forwardRemapped_accepts_or_blocks (s := s.checked r [s.mem] rtp) (r := r) (p := r.whole) (did := none) (snoop := !r.ns)
        (meetsInterruptRange_first hsize hrange) (hlength ▸ hpages) with heq | ⟨hprs, hprotected, -⟩
    case inl =>
      rw [accept_of_system (hlength.symm ▸ hsystem)] at heq
      exact ⟨_, heq, by rw [← hatype]; rfl, rfl⟩
    case inr =>
      rw [hlength] at hprotected
      exact absurd ((hfree hprs).symm.trans hprotected) Bool.false_ne_true
  case blocked =>
    obtain ⟨o, n, ho, heq⟩ := processTranslated_of_fault hcross htes hrange hwidth hrtp hfault
    exact ⟨_, o, heq, rfl, ho, by simp only [raiseDmaFault_eq, hatype]; rfl, rfl⟩

end Sys2Proof.Machine
end

section
/-! Translation requests (41_device_iotlb.md R272 to R278; 30_encoding.md R207): the entries and the header of a completion, page
by page, and what becomes of the request. -/

namespace Sys2Proof.Machine

variable {s : State} {r : Request} {vs : List Memory} {rtp : PageNumber} {sid : SourceId}

/-! ## Entries and headers -/

theorem entryIs_nullEntry (s : State) : TransAnswer.noAccess.entryIs s.nullEntry :=
  ⟨fun _ => ⟨rfl, rfl, rfl, rfl⟩, fun _ _ h => nomatch h⟩

theorem entryIs_entryOf (s : State) (did : DomainId) (m : Mapping) : (TransAnswer.mapped did m).entryIs (s.entryOf m) := by
  refine ⟨fun h => (nomatch h), fun _ _ h => ?_⟩
  cases h
  exact ⟨rfl, rfl, rfl, rfl, rfl, fun htm => by rw [State.entryOf, if_neg (by simp [htm])]; rfl⟩

theorem completionHeader_lengthDw (s : State) (r : Request) (n : Nat) : (s.completionHeader r n).lengthDw = 2 * n := by
  unfold State.completionHeader
  split
  case isTrue h => rw [h.1]
  case isFalse => rfl

/-- One translation for a request of several (R207, R278 item 1). -/
theorem completionHeader_of_one {n : Nat} (hn : n = 1) (h : 2 < r.lenDw) :
    s.completionHeader r n = { lengthDw := 2, byteCount := 8, lowerAddress := s.cfg.rcb - 8 } := if_pos ⟨hn, h⟩

theorem completion_eq (reason : FaultReason) : reason.completion =
    if reason = .rootNotPresent ∨ reason = .contextNotPresent ∨ reason = .typeBlocked then .unsupportedRequest
    else .completerAbort := by
  cases reason <;> rfl

/-! ## Page by page -/

/-- The entry answers the translation of the address `j` pages of `level` above `addr`, which the interrupt range does not meet
but for the first (R278, log 23). -/
def State.AnswersPage (s : State) (rtp : PageNumber) (sid : SourceId) (addr level j : Nat) (e : TranslationEntry) : Prop :=
  ∃ a : TransAnswer, a = ((s.afterTranslations rtp sid addr (2 ^ pageBits level) j).translate [s.mem] rtp sid
      (addr + j * 2 ^ pageBits level) .device).answer ∧
    a.hasLevel level ∧ a.entryIs e ∧ (0 < j → meetsInterruptRange (addr + j * 2 ^ pageBits level) 1 = false)

/-- The entries answer contiguous pages, from `addr` up (R278). -/
def State.PagesAnswered (s : State) (rtp : PageNumber) (sid : SourceId) (addr level : Nat) (es : List TranslationEntry) : Prop :=
  ∀ j e, es[j]? = some e → s.AnswersPage rtp sid addr level j e

section Pages

variable {addr level : Nat} {es : List TranslationEntry} {e : TranslationEntry}

theorem pagesAnswered_nil : s.PagesAnswered rtp sid addr level [] := fun _ _ h => nomatch h

theorem State.PagesAnswered.append (h : s.PagesAnswered rtp sid addr level es)
    (he : s.AnswersPage rtp sid addr level es.length e) : s.PagesAnswered rtp sid addr level (es ++ [e]) := by
  intro j f hj
  by_cases hold : j < es.length
  case pos => exact h j f (by rwa [List.getElem?_append_left hold] at hj)
  case neg =>
    obtain ⟨hlt, -⟩ := List.getElem?_eq_some_iff.1 hj
    obtain rfl : j = es.length := by rw [List.length_append, List.length_singleton] at hlt; omega
    rw [List.getElem?_concat_length] at hj
    cases hj
    exact he

/-- A completion stops, or has an entry for one page more (R278, decision D21). -/
theorem moreEntries_stops_or_continues (u : State) (fuel addr : Nat) (acc : List TranslationEntry) :
    u.moreEntries vs rtp sid level (fuel + 1) addr acc = (u.tick, acc) ∨
      ∃ e, (u.translate vs rtp sid addr .device).answer.hasLevel level ∧
        (u.translate vs rtp sid addr .device).answer.entryIs e ∧ meetsInterruptRange addr 1 = false ∧
        u.moreEntries vs rtp sid level (fuel + 1) addr acc =
          (u.fillCaches (u.translate vs rtp sid addr .device)).tick.moreEntries vs rtp sid level fuel (addr + 2 ^ pageBits level)
            (acc ++ [e]) := by
  rw [State.moreEntries]
  by_cases hstop : (u.coin 51 || meetsInterruptRange addr 1) = true
  case pos => exact .inl (if_pos hstop)
  case neg =>
    have hrange : meetsInterruptRange addr 1 = false := Bool.eq_false_iff.2 fun h => hstop (by rw [h, Bool.or_true])
    rw [if_neg hstop]
    cases hanswer : (u.translate vs rtp sid addr .device).answer with
    | passThrough did => exact .inl rfl
    | fault reason fpd => exact .inl rfl
    | mapped did m =>
      by_cases hlevel : m.level = level
      · exact .inr ⟨u.entryOf m, .inr ⟨did, m, rfl, hlevel⟩, entryIs_entryOf u did m, hrange, if_pos hlevel⟩
      · exact .inl (if_neg hlevel)
    | noAccess =>
      by_cases hlevel : level = 0
      · subst hlevel
        exact .inr ⟨u.nullEntry, .inl ⟨rfl, rfl⟩, entryIs_nullEntry u, hrange, rfl⟩
      · exact .inl (if_neg hlevel)

/-- Further entries may fill the caches, and change nothing else. -/
theorem moreEntries_frame (fuel : Nat) : ∀ (u : State) (addr : Nat) (acc : List TranslationEntry),
    ∃ c n, (u.moreEntries vs rtp sid level fuel addr acc).1 = { u with cache := c, draws := n } := by
  induction fuel with
  | zero => exact fun u addr acc => ⟨u.cache, u.draws, rfl⟩
  | succ fuel ih =>
    intro u addr acc
    rcases moreEntries_stops_or_continues u fuel addr acc with hstops | ⟨e, -, -, -, hmore⟩
    · exact ⟨u.cache, u.draws + 1, by rw [hstops]; rfl⟩
    · obtain ⟨c, n, hframe⟩ :=
        ih (u.fillCaches (u.translate vs rtp sid addr .device)).tick (addr + 2 ^ pageBits level) (acc ++ [e])
      exact ⟨c, n, by rw [hmore, hframe]; rfl⟩

/-- Entries for contiguous pages, with further ones, are entries for contiguous pages. -/
theorem State.PagesAnswered.moreEntries (fuel : Nat) : ∀ {acc es : List TranslationEntry},
    s.PagesAnswered rtp sid addr level acc →
    es = ((s.afterTranslations rtp sid addr (2 ^ pageBits level) acc.length).moreEntries [s.mem] rtp sid level fuel
      (addr + acc.length * 2 ^ pageBits level) acc).2 →
    s.PagesAnswered rtp sid addr level es ∧ acc.length ≤ es.length ∧ es.length ≤ acc.length + fuel := by
  induction fuel with
  | zero => rintro acc _ h rfl; exact ⟨h, Nat.le_refl _, Nat.le_refl _⟩
  | succ fuel ih =>
    rintro acc es h hes
    rcases moreEntries_stops_or_continues (s.afterTranslations rtp sid addr (2 ^ pageBits level) acc.length) fuel
      (addr + acc.length * 2 ^ pageBits level) acc with hstops | ⟨e, hlevel, hentry, hrange, hmore⟩
    · rw [hstops] at hes
      subst hes
      exact ⟨h, Nat.le_refl _, Nat.le_add_right _ _⟩
    · have hlength : (acc ++ [e]).length = acc.length + 1 := List.length_append
      have hnext : addr + acc.length * 2 ^ pageBits level + 2 ^ pageBits level =
          addr + (acc.length + 1) * 2 ^ pageBits level := by rw [Nat.succ_mul, Nat.add_assoc]
      rw [hmore, hnext] at hes
      obtain ⟨hpages, hle, hge⟩ :=
        ih (es := es) (h.append ⟨_, rfl, hlevel, hentry, fun _ => hrange⟩) (by rw [hlength]; exact hes)
      exact ⟨hpages, by omega, by omega⟩

end Pages

/-! ## The completion -/

/-- A completion that starts with the entry of the first page holds entries for contiguous pages, as many as the request asks for
at most (R278); its header is one for their number. -/
theorem completeTranslation_answers {level : Nat} {e : TranslationEntry} {u : State} (hlen : 2 ≤ r.lenDw)
    (hu : u = s.afterTranslations rtp r.sid r.addr.toNat (2 ^ pageBits level) 1)
    (he : s.PagesAnswered rtp r.sid r.addr.toNat level [e]) :
    ∃ v es, (∃ c n, v = { u with cache := c, draws := n }) ∧ es ≠ [] ∧ 2 * es.length ≤ r.lenDw ∧
      (u.cfg.multiTranslation = .single → es.length = 1) ∧ s.PagesAnswered rtp r.sid r.addr.toNat level es ∧
      u.completeTranslation r [s.mem] rtp level e =
        (v.emit (.translation r.sid (.success (v.completionHeader r es.length) es))).tick := by
  unfold State.completeTranslation
  split
  case h_1 => exact ⟨u, [e], ⟨u.cache, u.draws, rfl⟩, by simp, hlen, fun _ => rfl, he, rfl⟩
  case h_2 hmultiple =>
    obtain ⟨hpages, hle, hge⟩ := he.moreEntries (r.lenDw / 2 - 1) rfl
    rw [List.length_singleton, Nat.one_mul, ← hu] at hpages hle hge
    refine ⟨_, _, moreEntries_frame _ u _ [e], List.ne_nil_of_length_pos hle, by omega, fun hsingle => ?_, hpages, rfl⟩
    rw [hmultiple] at hsingle
    cases hsingle

/-! ## The request -/

/-- A translation request asks for one or more whole entries of two doublewords (R203, R278). -/
theorem lenDw_of_translationRequest {cfg : Config} (hatype : r.atype = 1) (hformed : r.malformed cfg = false) : 2 ≤ r.lenDw := by
  obtain ⟨hsize, -⟩ := length_of_not_malformed hformed
  have heven : r.lenDw % 2 = 0 := by
    cases hkind : r.kind with
    | write => simp [Request.malformed, hkind, hatype] at hformed
    | read =>
      simp [Request.malformed, hkind, hatype] at hformed
      omega
  rw [Request.size] at hsize
  omega

theorem handle_translationRequest (hatype : r.atype = 1) (hformed : r.malformed s.cfg = false)
    (hscope : inScope s.cfg r.sid = true) : s.handle (.request r []) = s.processTranslationRequest r [s.mem] := by
  rw [handle_request hformed hscope, isInterrupt_of_atype (by simp [hatype]), hatype]
  rfl

theorem processTranslationRequest_of_disabled (htes : s.tes = false) :
    s.processTranslationRequest r vs = .next (s.emit (.translation r.sid .unsupportedRequest)) :=
  if_pos (by simp [htes])

theorem processTranslationRequest_of_inRange (htes : s.tes = true) (hin : r.inInterruptRange = true) :
    s.processTranslationRequest r vs =
      .next (s.emit (.translation r.sid (.success (s.completionHeader r 1) [s.interruptEntry]))).tick := by
  simp [State.processTranslationRequest, htes, hin]

section Translated

variable (htes : s.tes = true) (hout : r.inInterruptRange = false) (hrtp : s.latch.rtp = some rtp)
include htes hout hrtp

theorem processTranslationRequest_of_fault {reason : FaultReason} {fpd : Bool}
    (h : (s.translate vs rtp r.sid r.addr.toNat .device).answer = .fault reason fpd) : s.processTranslationRequest r vs =
      .next (((s.fillCaches (s.translate vs rtp r.sid r.addr.toNat .device)).tick.raiseDmaFault reason fpd r.sid r.addr.toNat
        true r.atype).emit (.translation r.sid reason.completion)) := by
  simp [State.processTranslationRequest, htes, hout, hrtp, h]

/-- A translation, also one without any permission, is completed from its own entry on (R275, R278). -/
theorem processTranslationRequest_of_hasLevel {level : Nat}
    (h : (s.translate vs rtp r.sid r.addr.toNat .device).answer.hasLevel level) :
    ∃ e, (s.translate vs rtp r.sid r.addr.toNat .device).answer.entryIs e ∧ s.processTranslationRequest r vs =
      .next ((s.fillCaches (s.translate vs rtp r.sid r.addr.toNat .device)).tick.completeTranslation r vs rtp level e) := by
  rcases h with ⟨hanswer, rfl⟩ | ⟨did, m, hanswer, rfl⟩
  · exact ⟨s.nullEntry, hanswer ▸ entryIs_nullEntry s, by simp [State.processTranslationRequest, htes, hout, hrtp, hanswer]⟩
  · exact ⟨s.entryOf m, hanswer ▸ entryIs_entryOf s did m, by simp [State.processTranslationRequest, htes, hout, hrtp, hanswer]⟩

end Translated

/-- Settles O43: by what the request meets; a completion, entry by entry. -/
theorem translationRequestsAreAnswered : Obligations.TranslationRequestsAreAnswered := by
  intro s r hatype hformed hscope
  rw [handle_translationRequest hatype hformed hscope]
  refine ⟨fun htes => processTranslationRequest_of_disabled htes, fun htes hin => ?interruptRange, fun rtp htes hout hrtp =>
    ⟨fun reason fpd hfault => ?faulted, fun level hlevel => ?completed⟩⟩
  case interruptRange =>
    exact ⟨_, s.completionHeader r 1, s.interruptEntry, processTranslationRequest_of_inRange htes hin, rfl, rfl, rfl, rfl, rfl,
      completionHeader_of_one rfl, rfl⟩
  case faulted =>
    refine ⟨_, processTranslationRequest_of_fault htes hout hrtp hfault, ?_⟩
    rw [raiseDmaFault_eq, completion_eq, hatype]
    exact ⟨rfl, rfl, rfl⟩
  case completed =>
    obtain ⟨e, hentry, hnext⟩ := processTranslationRequest_of_hasLevel htes hout hrtp hlevel
    have hfirst : s.PagesAnswered rtp r.sid r.addr.toNat level [e] :=
      pagesAnswered_nil.append ⟨_, by simp [State.afterTranslations], hlevel, hentry, fun h => absurd h (Nat.lt_irrefl 0)⟩
    obtain ⟨_, es, ⟨c, n, rfl⟩, hsome, hlength, hsingle, hpages, hcompletes⟩ :=
      completeTranslation_answers (u := (s.fillCaches (s.translate [s.mem] rtp r.sid r.addr.toNat .device)).tick)
        (lenDw_of_translationRequest hatype hformed) (by simp [State.afterTranslations]) hfirst
    exact ⟨_, _, es, hnext.trans (congrArg _ hcompletes), rfl, hsome, hlength, hsingle, completionHeader_lengthDw _ r _,
      completionHeader_of_one, hpages, rfl⟩

end Sys2Proof.Machine
end

section
/-! Interrupt requests (42_interrupt_remapping.md R303 to R312, R315): one equation for each way through
`State.processInterrupt` and `State.remapInterrupt`, what a blocked request leaves behind, and the table entry against
`InterruptEntryGives` (R309; 43_caching_and_register_invalidation.md R334). -/

namespace Sys2Proof.Machine

/-! ## A blocked request -/

/-- A blocked request is dropped, and its record waits unless FPD suppresses it; nothing else changes but the draws. -/
theorem blockInterrupt_spec (s : State) (r : Request) (reason : FaultReason) (fpd : Bool) (index : Option Nat) :
    ∃ n b a, s.blockInterrupt r reason fpd index =
      { s with unlogged := s.unlogged ++ (if reason.qualified && fpd then [] else
                 [faultRecord reason.code r.sid (interruptFaultInfo (index.getD n)) b a])
               out := .writeDropped r.sid r.base :: s.out
               draws := (s.blockInterrupt r reason fpd index).draws } := by
  obtain ⟨n, b, a, hraise⟩ := raiseInterruptFault_spec s reason fpd r.sid index
  exact ⟨n, b, a, by rw [State.blockInterrupt, hraise]; rfl⟩

/-- A reason that FPD does not qualify is always recorded (21_structures.md R191). -/
theorem blockInterrupt_unqualified (s : State) (r : Request) {reason : FaultReason} (h : reason.qualified = false) (fpd : Bool)
    (index : Option Nat) : ∃ n b a, s.blockInterrupt r reason fpd index =
      { s with unlogged := s.unlogged ++ [faultRecord reason.code r.sid (interruptFaultInfo (index.getD n)) b a]
               out := .writeDropped r.sid r.base :: s.out
               draws := (s.blockInterrupt r reason fpd index).draws } := by
  simpa [h] using blockInterrupt_spec s r reason fpd index

@[simp] theorem State.blockInterrupt_irqs (s : State) (r : Request) (reason : FaultReason) (fpd : Bool) (index : Option Nat) :
    (s.blockInterrupt r reason fpd index).irqs = s.irqs := by
  obtain ⟨_, _, _, hblock⟩ := blockInterrupt_spec s r reason fpd index
  rw [hblock]

/-! ## The fields of a Remappable request -/

theorem irqReserved_eq_false {addr : BitVec 64} {data : BitVec 32} :
    irqReserved addr data = false ↔ (addr.getLsbD 3 = true → data.extractLsb' 16 16 = 0) := by
  simp [irqReserved, irqShv]

theorem irqReserved_eq_true {addr : BitVec 64} {data : BitVec 32} :
    irqReserved addr data = true ↔ addr.getLsbD 3 = true ∧ data.extractLsb' 16 16 ≠ 0 := by
  simp [irqReserved, irqShv]

/-- The index is the handle, and the subhandle added to it where SHV is Set (R308). -/
theorem interruptIndex_eq (addr : BitVec 64) (data : BitVec 32) : interruptIndex addr data =
    (addr.extractLsb' 2 1 ++ addr.extractLsb' 5 15 : BitVec 16).toNat
      + (if addr.getLsbD 3 then (data.extractLsb' 0 16).toNat else 0) := by
  unfold interruptIndex irqShv
  split <;> rfl

/-! ## The table entry -/

section Entry

variable {s : State} {vs : List Memory} {p : InterruptTablePointer} {index : Nat}

theorem interruptEntryGives_readIrte (hvs : vs ≠ []) : InterruptEntryGives s vs p index (s.readIrte vs p index) := by
  unfold State.readIrte
  split
  case h_1 l hpick =>
    obtain ⟨hheld, hkey⟩ := List.mem_filter.1 (pick_mem hpick)
    exact .held l hheld (eq_of_beq hkey)
  case h_2 =>
    cases hread : s.readEntry vs 41 (p.base.toNat * 4096 + 16 * index) with
    | none => exact .fails (readEntry_eq_none.1 hread)
    | some e => exact .read e (readEntry_reads hvs hread)

/-- An index of which the interrupt entry cache holds no line is looked up in the table. -/
theorem readIrte_of_miss (hmiss : ∀ l ∈ s.cache.iec, l.index ≠ index) :
    s.readIrte vs p index = s.readEntry vs 41 (p.base.toNat * 4096 + 16 * index) := by
  have hnone : s.cache.iec.filter (fun l => l.index == index) = [] :=
    List.filter_eq_nil_iff.2 fun l hl => by simpa using hmiss l hl
  unfold State.readIrte
  rw [hnone, pick_nil]

/-- With one memory, an index of which the interrupt entry cache holds no line has one entry only. -/
theorem InterruptEntryGives.readIrte_eq {m : Memory} {a : Option (BitVec 128)} (h : InterruptEntryGives s [m] p index a)
    (hmiss : ∀ l ∈ s.cache.iec, l.index ≠ index) : s.readIrte [m] p index = a := by
  rw [readIrte_of_miss hmiss]
  cases h with
  | held l hheld hkey => exact absurd hkey (hmiss l hheld)
  | read e hreads => exact readEntry_of_reads hreads
  | fails hfails => exact readEntry_eq_none.2 hfails

end Entry

/-! ## The checks on a table entry -/

section Checks

variable {cfg : Config} {e : BitVec 128} {sid : SourceId}

theorem irteFault_eq_none :
    irteFault cfg e sid = none ↔ irtePresent e = true ∧ irteReserved cfg e = false ∧ irteSidOk e sid = true := by
  unfold irteFault
  split_ifs <;> simp_all

/-- The reason of an entry that fails a check, in the order of decision D35; FPD qualifies each of the three. -/
theorem irteFault_eq_some {reason : FaultReason} (h : irteFault cfg e sid = some reason) : reason.qualified = true ∧
    reason.code = if irtePresent e = false then 0x22 else if irteReserved cfg e then 0x24 else 0x26 := by
  unfold irteFault at h
  split at h
  case isTrue habsent =>
    cases h; exact ⟨rfl, (if_pos (by simpa using habsent)).symm⟩
  case isFalse hpresent =>
    rw [if_neg (by simpa using hpresent)]
    split at h
    case isTrue hreserved => cases h; exact ⟨rfl, (if_pos hreserved).symm⟩
    case isFalse hformed =>
      split at h
      · cases h; exact ⟨rfl, (if_neg hformed).symm⟩
      · cases h

theorem irteDest_eq (cfg : Config) (e : BitVec 128) :
    irteDest cfg e = if cfg.arch = .intel64 then (e.extractLsb' 40 8).setWidth 16 else e.extractLsb' 32 16 := by
  unfold irteDest
  cases cfg.arch <;> rfl

/-- Only the Fixed and Lowest Priority delivery modes keep the trigger mode (R312). -/
theorem remappedInterrupt_tm (cfg : Config) (e : BitVec 128) : (remappedInterrupt cfg e).tm =
    (decide (e.extractLsb' 5 3 = 0 ∨ e.extractLsb' 5 3 = 1) && e.getLsbD 4) := by
  rw [Bool.decide_or]; rfl

end Checks

/-! ## Processing -/

section Process

variable {s : State} {r : Request} {vs : List Memory}

theorem processInterrupt_of_disabled (h : s.ires = false) : s.processInterrupt r vs = .next (s.forwardInterrupt r) := by
  simp [State.processInterrupt, h]

theorem processInterrupt_of_remappable (h : s.ires = true) (hformat : irqRemappable r.addr = true) :
    s.processInterrupt r vs = s.remapInterrupt r vs := by
  simp [State.processInterrupt, h, hformat]

/-- The Compatibility format of Intel 64 (R304). -/
theorem processInterrupt_of_compatibility (h : s.ires = true) (hformat : irqRemappable r.addr = false)
    (harch : s.cfg.arch = .intel64) : s.processInterrupt r vs =
      if s.cfis then .next (s.forwardInterrupt r) else .next (s.blockInterrupt r .compatibilityBlocked false none) := by
  simp [State.processInterrupt, h, hformat, harch]

theorem processInterrupt_of_itanium (h : s.ires = true) (hformat : irqRemappable r.addr = false) (harch : s.cfg.arch = .itanium) :
    s.processInterrupt r vs = .next (s.blockInterrupt r .requestReserved false none) := by
  simp [State.processInterrupt, h, hformat, harch]

end Process

section Remap

variable {s : State} {r : Request} {vs : List Memory} {p : InterruptTablePointer} {e : BitVec 128}

theorem remapInterrupt_of_reserved (h : irqReserved r.addr r.irqData = true) :
    s.remapInterrupt r vs = .next (s.blockInterrupt r .requestReserved false none) := if_pos h

variable (hformed : irqReserved r.addr r.irqData = false) (hp : s.latch.irtp = some p)
include hformed hp

theorem remapInterrupt_of_beyond (h : 2 ^ (p.size.toNat + 1) ≤ interruptIndex r.addr r.irqData) :
    s.remapInterrupt r vs = .next (s.blockInterrupt r .indexTooLarge false (some (interruptIndex r.addr r.irqData))) := by
  simp [State.remapInterrupt, hformed, hp, h]

variable (hbelow : interruptIndex r.addr r.irqData < 2 ^ (p.size.toNat + 1))
include hbelow

theorem remapInterrupt_of_unreadable (h : s.readIrte vs p (interruptIndex r.addr r.irqData) = none) :
    s.remapInterrupt r vs = .next (s.blockInterrupt r .irteAccess false (some (interruptIndex r.addr r.irqData))) := by
  simp [State.remapInterrupt, hformed, hp, Nat.not_le.2 hbelow, h]

variable (hread : s.readIrte vs p (interruptIndex r.addr r.irqData) = some e)
include hread

theorem remapInterrupt_of_faulty {reason : FaultReason} (h : irteFault s.cfg e r.sid = some reason) :
    s.remapInterrupt r vs = .next ((s.fillIec (interruptIndex r.addr r.irqData) e r.sid).tick.blockInterrupt r reason (irteFpd e)
      (some (interruptIndex r.addr r.irqData))) := by
  simp [State.remapInterrupt, hformed, hp, Nat.not_le.2 hbelow, hread, h]

theorem remapInterrupt_of_sound (h : irteFault s.cfg e r.sid = none) :
    s.remapInterrupt r vs = .next ((s.fillIec (interruptIndex r.addr r.irqData) e r.sid).tick.sendInterrupt
      (some (interruptIndex r.addr r.irqData)) (.remapped (remappedInterrupt s.cfg e))) := by
  simp [State.remapInterrupt, hformed, hp, Nat.not_le.2 hbelow, hread, h]

end Remap

/-- Remapping delivers nothing, or the interrupt of an entry that passed the checks (R305). -/
theorem remapInterrupt_cases {s t : State} {r : Request} {vs : List Memory} (h : s.remapInterrupt r vs = .next t) :
    t.irqs = s.irqs ∨ ∃ p e, s.latch.irtp = some p ∧ s.readIrte vs p (interruptIndex r.addr r.irqData) = some e ∧
      irteFault s.cfg e r.sid = none ∧ t.irqs = s.irqs ++
        [{ index := some (interruptIndex r.addr r.irqData), message := .remapped (remappedInterrupt s.cfg e) }] := by
  cases hformed : irqReserved r.addr r.irqData with
  | true =>
    rw [remapInterrupt_of_reserved hformed] at h
    cases h; exact .inl (by simp)
  | false =>
    cases hp : s.latch.irtp with
    | none => simp [State.remapInterrupt, hformed, hp] at h
    | some p =>
      rcases Nat.lt_or_ge (interruptIndex r.addr r.irqData) (2 ^ (p.size.toNat + 1)) with hbelow | hbeyond
      · cases hread : s.readIrte vs p (interruptIndex r.addr r.irqData) with
        | none =>
          rw [remapInterrupt_of_unreadable hformed hp hbelow hread] at h
          cases h; exact .inl (by simp)
        | some e =>
          cases hfault : irteFault s.cfg e r.sid with
          | some reason =>
            rw [remapInterrupt_of_faulty hformed hp hbelow hread hfault] at h
            cases h; exact .inl (by simp)
          | none =>
            rw [remapInterrupt_of_sound hformed hp hbelow hread hfault] at h
            cases h; exact .inr ⟨p, e, rfl, hread, hfault, by simp⟩
      · rw [remapInterrupt_of_beyond hformed hp hbeyond] at h
        cases h; exact .inl (by simp)

/-! ## The obligations -/

/-- Settles O47, by the format and the architecture. -/
theorem compatibilityInterruptsFollowCfis : Obligations.CompatibilityInterruptsFollowCfis := by
  intro s r vs
  refine ⟨processInterrupt_of_disabled, fun hires hformat harch => ?intel64, fun hires hformat harch => ?itanium⟩
  case intel64 =>
    rw [processInterrupt_of_compatibility hires hformat harch]
    refine ⟨fun hcfis => if_pos hcfis, fun hcfis => ?_⟩
    obtain ⟨n, b, a, hblock⟩ := blockInterrupt_unqualified s r (reason := .compatibilityBlocked) rfl false none
    exact ⟨_, n, b, a, if_neg (by simp [hcfis]), hblock⟩
  case itanium =>
    obtain ⟨n, b, a, hblock⟩ := blockInterrupt_unqualified s r (reason := .requestReserved) rfl false none
    exact ⟨_, n, b, a, processInterrupt_of_itanium hires hformat harch, hblock⟩

/-- Settles O48: the index is compared before anything is read. -/
theorem interruptIndexBound : Obligations.InterruptIndexBound := by
  rintro s r vs p index hires hformat hdata hp hindex hbeyond
  obtain rfl := hindex.trans (interruptIndex_eq _ _).symm
  obtain ⟨_, b, a, hblock⟩ :=
    blockInterrupt_unqualified s r (reason := .indexTooLarge) rfl false (some (interruptIndex r.addr r.irqData))
  exact ⟨_, b, a, (processInterrupt_of_remappable hires hformat).trans
    (remapInterrupt_of_beyond (irqReserved_eq_false.2 hdata) hp hbeyond), hblock⟩

/-- Settles O49, by `remapInterrupt_cases`: what is delivered is the interrupt of an entry that passed the checks. -/
theorem remappedInterruptsComeFromCheckedEntries : Obligations.RemappedInterruptsComeFromCheckedEntries := by
  intro s t r vs h
  refine (remapInterrupt_cases h).imp_right ?_
  rintro ⟨p, e, hp, hread, hfault, hirqs⟩
  obtain ⟨hpresent, hformed, hsid⟩ := irteFault_eq_none.1 hfault
  exact ⟨p, e, remappedInterrupt s.cfg e, hp, hread, hpresent, hformed, hsid,
    fun hvs => hread ▸ interruptEntryGives_readIrte hvs, irteDest_eq _ _, rfl, rfl, rfl, remappedInterrupt_tm _ _, rfl, hirqs⟩

/-- Settles O50, by what the request meets: a reserved bit, an unreadable entry, a sound one, one that fails a check. -/
theorem remappableInterruptsAreDeliveredOrBlocked : Obligations.RemappableInterruptsAreDeliveredOrBlocked := by
  intro s r vs hires hformat
  rw [processInterrupt_of_remappable hires hformat]
  refine ⟨fun hshv hset => ?reserved, fun hdata p index hp hindex hbelow => ?_⟩
  case reserved =>
    obtain ⟨n, b, a, hblock⟩ := blockInterrupt_unqualified s r (reason := .requestReserved) rfl false none
    exact ⟨_, n, b, a, remapInterrupt_of_reserved (irqReserved_eq_true.2 ⟨hshv, hset⟩), hblock⟩
  have hformed := irqReserved_eq_false.2 hdata
  obtain rfl := hindex.trans (interruptIndex_eq _ _).symm
  refine ⟨interruptEntryGives_readIrte, ?determined, fun hnone => ?unreadable, fun e hread => ?entry⟩
  case determined =>
    rintro hmiss m a rfl hgives
    exact hgives.readIrte_eq hmiss
  case unreadable =>
    obtain ⟨_, b, a, hblock⟩ :=
      blockInterrupt_unqualified s r (reason := .irteAccess) rfl false (some (interruptIndex r.addr r.irqData))
    exact ⟨_, b, a, remapInterrupt_of_unreadable hformed hp hbelow hnone, hblock⟩
  case entry =>
    cases hfault : irteFault s.cfg e r.sid with
    | none =>
      refine ⟨_, remapInterrupt_of_sound hformed hp hbelow hread hfault, fun _ _ _ => ⟨rfl, rfl⟩, fun hnot => ?_⟩
      exact absurd (irteFault_eq_none.1 hfault) hnot
    | some reason =>
      obtain ⟨hqualified, hcode⟩ := irteFault_eq_some hfault
      obtain ⟨_, b, a, hblock⟩ := blockInterrupt_spec (s.fillIec (interruptIndex r.addr r.irqData) e r.sid).tick r reason
        (irteFpd e) (some (interruptIndex r.addr r.irqData))
      refine ⟨_, remapInterrupt_of_faulty hformed hp hbelow hread hfault, fun hpresent hwell hsid => ?_,
        fun _ => ⟨b, a, ?_, ?_⟩⟩
      · simp [irteFault_eq_none.2 ⟨hpresent, hwell, hsid⟩] at hfault
      · rw [hblock, hqualified, hcode, Bool.true_and]; rfl
      · rw [hblock]; rfl

end Sys2Proof.Machine
end

section
/-! The caches along a step (43_caching_and_register_invalidation.md R330 to R335): with CAP.CM = 0 only `State.fillCaches`,
`State.fillIec` and the fill of a translated request add lines, and what they add is present and well-formed; every other operation
removes lines at most. -/

namespace Sys2Proof.Machine

/-- Settles O55: each operation of a step keeps the validity of the caches (`Keeps.valid`), and so does the step
(`keeps_of_step`). -/
theorem noStepCachesAFault : Obligations.NoStepCachesAFault := by
  intro s t hs h
  exact (keeps_of_step h).valid hs

end Sys2Proof.Machine
end

section
/-! Register-based invalidation of the context cache (43_caching_and_register_invalidation.md R340 to R342, R350): what
`State.invalidateContext` removes, by the granularity that it performs, and what CCMD.ICC reports of it. -/

namespace Sys2Proof

/-- A field reads back what it was given. -/
theorem extractLsb'_setField_self {w n : Nat} (v : BitVec w) (lo : Nat) (x : BitVec n) (h : lo + n ≤ w) :
    (setField v lo x).extractLsb' lo n = x := by
  refine BitVec.eq_of_getLsbD_eq fun k hk => ?_
  have hfield : lo ≤ lo + k ∧ lo + k < lo + n ∧ lo + k < w := by omega
  rw [BitVec.getLsbD_extractLsb', getLsbD_setField v lo x _ (by omega), if_pos hfield]
  simp [hk]

theorem getLsbD_setField_of_outside {w n : Nat} (v : BitVec w) {lo k : Nat} (x : BitVec n) (hn : 0 < n)
    (h : k < lo ∨ lo + n ≤ k) : (setField v lo x).getLsbD k = v.getLsbD k := by
  rw [getLsbD_setField v lo x k hn, if_neg (by omega)]

end Sys2Proof

namespace Sys2Proof.Machine

variable {s t : State} {code : BitVec 2} {did : DomainId} {sid : SourceId} {fm : BitVec 2}

/-! ## The granularity performed -/

theorem ctxGranCode_of_ctxGranOf {g : Option CtxGran} (h : ctxGranOf code = g) : ctxGranCode g = code := by
  subst h
  revert code
  decide

theorem ctxGranCode_eq_one {g : Option CtxGran} : ctxGranCode g = 1 ↔ g = some .global := by
  rcases g with _ | (_ | _ | _) <;> decide

theorem ctxGranCode_eq_two {g : Option CtxGran} : ctxGranCode g = 2 ↔ g = some .domain := by
  rcases g with _ | (_ | _ | _) <;> decide

/-- What is performed is what is asked, the domain in place of a device, or all (R341). -/
theorem coarsenCtx_cases (asked : CtxGran) (k : Nat) :
    coarsenCtx asked k = asked ∨ (coarsenCtx asked k = .domain ∧ asked = .device) ∨ coarsenCtx asked k = .global := by
  cases asked with
  | global => exact .inl rfl
  | domain | device => simp only [coarsenCtx]; split_ifs <;> simp

theorem ctxGranCode_coarsenCtx_le (asked : CtxGran) (k : Nat) :
    ctxGranCode (some (coarsenCtx asked k)) ≤ ctxGranCode (some asked) := by
  obtain hasked | ⟨hdomain, rfl⟩ | hglobal := coarsenCtx_cases asked k
  · rw [hasked]
    exact BitVec.le_refl _
  · rw [hdomain]
    decide
  · rw [hglobal]
    cases asked <;> decide

theorem one_le_ctxGranCode (g : CtxGran) : 1 ≤ ctxGranCode (some g) := by
  cases g <;> decide

/-- CAIG for a request that is not of the reserved code. -/
theorem ctxGranCode_contextGranularity (h : code ≠ 0) :
    1 ≤ ctxGranCode (s.contextGranularity code) ∧ ctxGranCode (s.contextGranularity code) ≤ code := by
  cases hasked : ctxGranOf code with
  | none => exact absurd (ctxGranCode_of_ctxGranOf hasked).symm h
  | some asked =>
    have hcoarser := ctxGranCode_coarsenCtx_le asked (s.free 3)
    rw [ctxGranCode_of_ctxGranOf hasked] at hcoarser
    rw [State.contextGranularity, hasked]
    exact ⟨one_le_ctxGranCode _, hcoarser⟩

/-- Whatever the granularity asked selects, a coarser one selects too. -/
theorem ctxSelected_of_coarsened {cfg : Config} {asked : CtxGran} {k : Nat} {d : DomainId} {extra : Bool} {l : CtxLine}
    (h : ctxSelected cfg (coarsenCtx asked k) d sid fm extra l = false) : ctxSelected cfg asked d sid fm false l = false := by
  obtain hasked | ⟨hdomain, rfl⟩ | hglobal := coarsenCtx_cases asked k
  · rw [hasked] at h
    cases asked with
    | global | domain => exact h
    | device =>
      simp only [ctxSelected, Bool.and_eq_false_iff, Bool.or_eq_false_iff, and_true] at h ⊢
      exact h.imp_right And.left
  · rw [hdomain] at h
    have hdid : (l.content.domain cfg == d) = false := h
    simp [ctxSelected, hdid]
  · rw [hglobal] at h
    cases h

/-! ## What is removed -/

theorem mem_ctx_of_mem_invalidateContext {l : CtxLine} (h : l ∈ (s.invalidateContext code did sid fm).cache.ctx) :
    l ∈ s.cache.ctx := by
  rw [invalidateContext_spec] at h
  exact List.mem_of_mem_filter h

/-- No line that the granularity performed selects is left. -/
theorem not_ctxSelected_performed {g : CtxGran} (hg : s.contextGranularity code = some g) {l : CtxLine}
    (h : l ∈ (s.invalidateContext code did sid fm).cache.ctx) :
    ctxSelected s.cfg g (s.cfg.domain did) sid fm (s.coin 4) l = false := by
  obtain ⟨asked, hasked, rfl⟩ := Option.map_eq_some_iff.1 hg
  rw [invalidateContext_spec] at h
  simpa [hasked] using List.of_mem_filter h

/-- No line that the granularity asked surely selects is left. -/
theorem not_ctxSelected_asked {asked : CtxGran} (hasked : ctxGranOf code = some asked) {l : CtxLine}
    (h : l ∈ (s.invalidateContext code did sid fm).cache.ctx) :
    ctxSelected s.cfg asked (s.cfg.domain did) sid fm false l = false :=
  ctxSelected_of_coarsened (not_ctxSelected_performed (congrArg _ hasked) h)

/-- A context-cache invalidation does what `ContextInvalidated` says. -/
theorem contextInvalidated_invalidateContext (s : State) (code : BitVec 2) (did : DomainId) (sid : SourceId) (fm : BitVec 2) :
    ContextInvalidated s (s.invalidateContext code did sid fm) code did sid fm where
  fewer _ := mem_ctx_of_mem_invalidateContext
  global := by
    rintro rfl
    exact List.eq_nil_iff_forall_not_mem.2 fun l hl => Bool.noConfusion (not_ctxSelected_asked (asked := .global) rfl hl)
  domain := by
    rintro rfl l hl
    simpa [ctxSelected] using not_ctxSelected_asked (asked := .domain) rfl hl
  device := by
    rintro rfl l hl
    simpa [ctxSelected] using not_ctxSelected_asked (asked := .device) rfl hl
  reserved := by
    rintro rfl
    rw [invalidateContext_spec]
    exact List.filter_true _
  flushed hrwbf := by simp [invalidateContext_spec, flushWriteBuffer_spec, hrwbf]
  unflushed hrwbf := by simp [invalidateContext_spec, flushWriteBuffer_spec, hrwbf]
  view := by
    rw [invalidateContext_spec]
    exact flushWriteBuffer_cpuView s
  memory hwf a ha := by
    rw [invalidateContext_spec]
    exact flushWriteBuffer_read s hwf a ha
  frame := by
    rw [invalidateContext_spec, flushWriteBuffer_spec]
    rfl

/-- The registers are the caller's. -/
theorem ContextInvalidated.withReg (h : ContextInvalidated s t code did sid fm) (r : Regs) :
    ContextInvalidated s { t with reg := r } code did sid fm :=
  { h with
    view := h.view
    frame := congrArg (fun u : State => { u with reg := r }) h.frame }

/-! ## The report -/

section Report

variable (g : Option CtxGran)

theorem reportContext_caig : (s.reportContext g).reg.ccmd.extractLsb' 59 2 = ctxGranCode g :=
  extractLsb'_setField_self _ _ _ (by decide)

theorem reportContext_icc : (s.reportContext g).reg.ccmd.getLsbD 63 = false := by
  rw [State.reportContext, getLsbD_setField_of_outside _ _ (by decide) (by decide), getLsbD_setBit_self _ _ _ (by decide)]

theorem reportContext_others {k : Nat} (h63 : k ≠ 63) (h60 : k ≠ 60) (h59 : k ≠ 59) :
    (s.reportContext g).reg.ccmd.getLsbD k = s.reg.ccmd.getLsbD k := by
  rw [State.reportContext, getLsbD_setField_of_outside _ _ (by decide) (by omega), getLsbD_setBit_of_ne _ _ h63]

end Report

/-- Settles O17: the removal is `contextInvalidated_invalidateContext`, and the report is of the granularity performed. -/
theorem ccmdIccReportsWhatItDid : Obligations.CcmdIccReportsWhatItDid := by
  intro cirg fm sid did s
  have hcaig : ((s.invalidateContext cirg did sid fm).reportContext (s.contextGranularity cirg)).reg.ccmd.extractLsb' 59 2 =
      ctxGranCode (s.contextGranularity cirg) := reportContext_caig _
  refine ⟨_, rfl, (contextInvalidated_invalidateContext s cirg did sid fm).withReg _, ?frame, reportContext_icc _,
    fun k h63 h60 h59 => ?others, ?_⟩
  case frame => rw [State.reportContext_reg, State.invalidateContext_reg]
  case others => rw [reportContext_others _ h63 h60 h59, State.invalidateContext_reg]
  rw [hcaig]
  refine ⟨?reserved, ?global, ?domain, ?device, fun h => ?allGone, fun h l hl => ?domainGone⟩
  case reserved => rintro rfl; rfl
  case global => rintro rfl; rfl
  case domain =>
    rintro rfl
    obtain ⟨hmin, hmax⟩ := ctxGranCode_contextGranularity (s := s) (code := 2) (by decide)
    bv_omega
  case device =>
    rintro rfl
    obtain ⟨hmin, -⟩ := ctxGranCode_contextGranularity (s := s) (code := 3) (by decide)
    bv_omega
  case allGone =>
    exact List.eq_nil_iff_forall_not_mem.2 fun l hl =>
      Bool.noConfusion (not_ctxSelected_performed (ctxGranCode_eq_one.1 h) hl)
  case domainGone => simpa [ctxSelected] using not_ctxSelected_performed (ctxGranCode_eq_two.1 h) hl

end Sys2Proof.Machine
end

section
/-! IOTLB invalidation (43_caching_and_register_invalidation.md R345 to R350, R361, R363): what `State.invalidateIotlb` removes and
drains, by the granularity that it performs, and what IOTLB.IVT reports of it. -/

namespace Sys2Proof.Machine

/-! ## The granularity performed -/

section Granularity

variable {s : State} {cfg : Config} {code : BitVec 3} {am : BitVec 6} {reports : Bool} {asked g : IotlbGran} {k : Nat}

theorem iotlbGranCode_of_iotlbGranOf (h : iotlbGranOf code = some asked) : iotlbGranCode (some asked) = code := by
  have hcodes : ∀ c : BitVec 3, iotlbGranOf c ≠ none → iotlbGranCode (iotlbGranOf c) = c := by decide
  rw [← h]
  exact hcodes code (by simp [h])

theorem iotlbGranCode_eq_zero {g : Option IotlbGran} : iotlbGranCode g = 0 ↔ g = none := by
  rcases g with _ | (_ | _ | _) <;> decide

theorem iotlbGranCode_eq_one {g : Option IotlbGran} : iotlbGranCode g = 1 ↔ g = some .global := by
  rcases g with _ | (_ | _ | _) <;> decide

theorem iotlbGranCode_eq_two {g : Option IotlbGran} : iotlbGranCode g = 2 ↔ g = some .domain := by
  rcases g with _ | (_ | _ | _) <;> decide

/-- What is performed is what is asked, the domain in place of a page range, or all (R346). -/
theorem coarsenIotlb_cases (cfg : Config) (asked : IotlbGran) (k : Nat) : coarsenIotlb cfg asked k = asked ∨
    (coarsenIotlb cfg asked k = .domain ∧ asked = .page) ∨ coarsenIotlb cfg asked k = .global := by
  cases asked with
  | global => exact .inl rfl
  | domain | page => simp only [coarsenIotlb]; split_ifs <;> simp

theorem iotlbGranCode_coarsenIotlb_le (cfg : Config) (asked : IotlbGran) (k : Nat) :
    iotlbGranCode (some (coarsenIotlb cfg asked k)) ≤ iotlbGranCode (some asked) := by
  obtain hasked | ⟨hdomain, rfl⟩ | hglobal := coarsenIotlb_cases cfg asked k
  · rw [hasked]
    exact BitVec.le_refl _
  · rw [hdomain]
    decide
  · rw [hglobal]
    cases asked <;> decide

/-- Without CAP.PSI a page-selective request is performed as a domain-selective one would be (decision D28). -/
theorem coarsenIotlb_page_of_not_psi (h : cfg.psi = false) (k : Nat) : coarsenIotlb cfg .page k = coarsenIotlb cfg .domain k := by
  simp [coarsenIotlb, h]

theorem iotlbGranularity_eq_some : s.iotlbGranularity reports code am = some g ↔ ∃ asked, iotlbGranOf code = some asked ∧
    iotlbIgnored s.cfg reports code am (s.free 5) = false ∧ coarsenIotlb s.cfg asked (s.free 5) = g := by
  unfold State.iotlbGranularity
  cases iotlbIgnored s.cfg reports code am (s.free 5) <;> simp

theorem iotlbGranularity_eq_none : s.iotlbGranularity reports code am = none ↔
    iotlbIgnored s.cfg reports code am (s.free 5) = true := by
  have hreserved : iotlbGranOf code = none → iotlbIgnored s.cfg reports code am (s.free 5) = true := by
    intro h
    simp [iotlbIgnored, h]
  unfold State.iotlbGranularity
  cases hignored : iotlbIgnored s.cfg reports code am (s.free 5) with
  | true => simp
  | false => simpa [hignored] using hreserved

/-- A valid request is not ignored (R346). -/
theorem iotlbIgnored_of_valid (h : iotlbRequestValid cfg reports code am = true) : iotlbIgnored cfg reports code am k = false := by
  simp only [iotlbRequestValid, Bool.or_eq_true, Bool.and_eq_true, beq_iff_eq] at h
  rcases h with (rfl | rfl) | ⟨rfl, hpage⟩
  · rfl
  · rfl
  · rw [iotlbIgnored, show iotlbGranOf 3 = some .page from rfl]
    cases hpsi : cfg.psi <;> simp_all

/-- An incorrect request is ignored (R346). -/
theorem iotlbIgnored_of_incorrect (h : iotlbRequestIncorrect cfg code am = true) : iotlbIgnored cfg reports code am k = true := by
  simp only [iotlbRequestIncorrect, Bool.or_eq_true, Bool.and_eq_true, Bool.not_eq_true', beq_iff_eq] at h
  rcases h with hreserved | ⟨⟨rfl, hpsi⟩, hmask⟩
  · have hnone : iotlbGranOf code = none := by
      revert code
      decide
    rw [iotlbIgnored, hnone]
  · rw [iotlbIgnored, show iotlbGranOf 3 = some .page from rfl]
    simp [hpsi, hmask]

theorem iotlbGranularity_of_valid (h : iotlbRequestValid s.cfg reports code am = true) :
    ∃ g, s.iotlbGranularity reports code am = some g := by
  rw [← Option.isSome_iff_exists, Option.isSome_iff_ne_none, Ne, iotlbGranularity_eq_none, iotlbIgnored_of_valid h]
  exact Bool.false_ne_true

theorem iotlbGranCode_ne_zero_of_valid (h : iotlbRequestValid s.cfg reports code am = true) :
    iotlbGranCode (s.iotlbGranularity reports code am) ≠ 0 := by
  obtain ⟨g, hg⟩ := iotlbGranularity_of_valid h
  rw [Ne, iotlbGranCode_eq_zero, hg]
  exact Option.some_ne_none g

theorem iotlbGranularity_of_incorrect (h : iotlbRequestIncorrect s.cfg code am = true) :
    s.iotlbGranularity reports code am = none := iotlbGranularity_eq_none.2 (iotlbIgnored_of_incorrect h)

end Granularity

/-! ## What is removed and drained -/

section Removed

variable {cfg : Config} {asked : IotlbGran} {k base size : Nat} {d : DomainId} {ih : Bool}

/-- Whatever the granularity asked selects in the IOTLB, a coarser one selects too. -/
theorem iotlbSelected_of_coarsened {l : IotlbLine} (h : iotlbSelected (coarsenIotlb cfg asked k) d base size l = false) :
    iotlbSelected asked d base size l = false := by
  obtain hasked | ⟨hdomain, rfl⟩ | hglobal := coarsenIotlb_cases cfg asked k
  · rwa [hasked] at h
  · rw [hdomain] at h
    have hdid : (l.did == d) = false := h
    simp [iotlbSelected, hdid]
  · rw [hglobal] at h
    cases h

/-- The same of the PDE caches. -/
theorem pdeSelected_of_coarsened {l : PdeLine} (h : pdeSelected (coarsenIotlb cfg asked k) d base size ih l = false) :
    pdeSelected asked d base size ih l = false := by
  obtain hasked | ⟨hdomain, rfl⟩ | hglobal := coarsenIotlb_cases cfg asked k
  · rwa [hasked] at h
  · rw [hdomain] at h
    have hdid : (l.did == d) = false := h
    simp [pdeSelected, hdid]
  · rw [hglobal] at h
    cases h

end Removed

/-- The flush changes no byte but those that a buffered store goes to, where there is a buffer (20_memory.md R155). -/
theorem flushed_read {s : State} (hwf : s.mem.wf = true) {a : Nat} (ha : s.cfg.rwbf = true → s.bufferedAt a = false) :
    s.flushed.mem.read a = s.mem.read a := by
  cases hrwbf : s.cfg.rwbf with
  | true =>
    rw [← flushWriteBuffer_eq]
    exact flushWriteBuffer_read s hwf a (ha hrwbf)
  | false => simp [State.flushed, hrwbf]

section Invalidation

variable {s t : State} {reports : Bool} {code : BitVec 3} {dr dw : Bool} {did : DomainId} {addr : PageNumber} {am : BitVec 6}
  {ih : Bool} {g : IotlbGran}

/-- An ignored request flushes the write buffer and does nothing else (R346, R350). -/
theorem invalidateIotlb_of_ignored (h : s.iotlbGranularity reports code am = none) :
    s.invalidateIotlb reports code dr dw did addr am ih = s.flushed.tick := by
  rw [iotlbGranularity_eq_none] at h
  unfold State.invalidateIotlb
  rw [flushWriteBuffer_eq]
  split
  · rfl
  · rw [if_pos h]

/-- The lines that a granularity does not select, those of the IOTLB and of the PDE caches. -/
def Caches.withoutTranslations (c : Caches) (cfg : Config) (g : IotlbGran) (d : DomainId) (addr : PageNumber) (am : BitVec 6)
    (ih : Bool) : Caches :=
  { c with
    iotlb := c.iotlb.filter (fun l => !iotlbSelected g d (pageRangeBase cfg addr am) (pageRangeSize am) l)
    pde := c.pde.filter (fun l => !pdeSelected g d (pageRangeBase cfg addr am) (pageRangeSize am) ih l) }

/-- A request that is performed removes by the granularity performed, and drains in the scope of the one asked (R363). -/
theorem invalidateIotlb_of_performed (h : s.iotlbGranularity reports code am = some g) :
    s.invalidateIotlb reports code dr dw did addr am ih =
      ({ s.flushed.tick with cache := s.cache.withoutTranslations s.cfg g (s.cfg.domain did) addr am ih } : State).drainWhere
        (drainedBy s.cfg code dr dw did addr am) := by
  obtain ⟨asked, hasked, hdone, rfl⟩ := iotlbGranularity_eq_some.1 h
  have hscope : drainedBy s.cfg code dr dw did addr am = fun f =>
      ((dr && s.cfg.drd && drainable .read f) || (dw && s.cfg.dwd && drainable .write f)) &&
        inDrainScope asked (s.cfg.domain did) (pageRangeBase s.cfg addr am) (pageRangeSize am) f := by
    funext f
    simp only [drainedBy, inRequestedScope, hasked]
  unfold State.invalidateIotlb
  rw [flushWriteBuffer_eq, hasked, hscope]
  simp only [hdone]
  rfl

/-! ### An ignored request -/

section Ignored

variable (h : s.iotlbGranularity reports code am = none)
include h

theorem untouched_of_ignored : (s.invalidateIotlb reports code dr dw did addr am ih).cache = s.cache ∧
    Drained s.flushed.tick (s.invalidateIotlb reports code dr dw did addr am ih) (fun _ => false) := by
  rw [invalidateIotlb_of_ignored h]
  exact ⟨rfl, drained_nothing _⟩

theorem iotlbInvalidated_of_ignored :
    IotlbInvalidated s (s.invalidateIotlb reports code dr dw did addr am ih) reports code dr dw did addr am ih := by
  have hinvalid : iotlbRequestValid s.cfg reports code am ≠ true := fun hv => by
    obtain ⟨g, hg⟩ := iotlbGranularity_of_valid hv
    cases h.symm.trans hg
  have hcode : code ≠ 1 ∧ code ≠ 2 := by
    constructor <;> (rintro rfl; exact hinvalid rfl)
  have huntouched : (s.invalidateIotlb reports code dr dw did addr am ih).cache = s.cache ∧
      Drained s.flushed.tick (s.invalidateIotlb reports code dr dw did addr am ih) (fun _ => false) := untouched_of_ignored h
  rw [invalidateIotlb_of_ignored h] at huntouched ⊢
  exact
    { fewerIotlb := fun _ hl => hl
      fewerPde := fun _ hl => hl
      global := fun h1 => absurd h1 hcode.1
      domain := fun h2 => absurd h2 hcode.2
      page := fun _ hv => absurd hv hinvalid
      coarse := fun _ _ hv => absurd hv hinvalid
      done := fun hv => absurd hv hinvalid
      ignored := fun _ => huntouched
      either := .inr huntouched
      reads := fun _ _ hv => absurd hv hinvalid
      writes := fun _ _ hv => absurd hv hinvalid
      flushed := fun hrwbf => if_pos hrwbf
      memory := fun hwf a hbuf _ => flushed_read hwf hbuf
      frame := rfl }

end Ignored

/-! ### A performed request -/

section Performed

variable (h : s.iotlbGranularity reports code am = some g)
include h

theorem cache_invalidateIotlb_of_performed : (s.invalidateIotlb reports code dr dw did addr am ih).cache =
    s.cache.withoutTranslations s.cfg g (s.cfg.domain did) addr am ih := by
  rw [invalidateIotlb_of_performed h]
  exact (sameUnit_drainWhere _ _).cache

theorem drained_invalidateIotlb_of_performed :
    Drained s.flushed.tick (s.invalidateIotlb reports code dr dw did addr am ih) (drainedBy s.cfg code dr dw did addr am) := by
  rw [invalidateIotlb_of_performed h]
  exact drained_drainWhere s.flushed.tick _ _

/-- No IOTLB line that the granularity performed selects is left. -/
theorem not_iotlbSelected_performed {l : IotlbLine} (hl : l ∈ (s.invalidateIotlb reports code dr dw did addr am ih).cache.iotlb) :
    l ∈ s.cache.iotlb ∧
      iotlbSelected g (s.cfg.domain did) (pageRangeBase s.cfg addr am) (pageRangeSize am) l = false := by
  rw [cache_invalidateIotlb_of_performed h] at hl
  simpa [Caches.withoutTranslations] using hl

/-- No line of the PDE caches that the granularity performed selects is left. -/
theorem not_pdeSelected_performed {l : PdeLine} (hl : l ∈ (s.invalidateIotlb reports code dr dw did addr am ih).cache.pde) :
    l ∈ s.cache.pde ∧
      pdeSelected g (s.cfg.domain did) (pageRangeBase s.cfg addr am) (pageRangeSize am) ih l = false := by
  rw [cache_invalidateIotlb_of_performed h] at hl
  simpa [Caches.withoutTranslations] using hl

theorem translations_gone_of_global (hg : g = .global) :
    (s.invalidateIotlb reports code dr dw did addr am ih).cache.iotlb = [] ∧
      (s.invalidateIotlb reports code dr dw did addr am ih).cache.pde = [] := by
  subst hg
  exact ⟨List.eq_nil_iff_forall_not_mem.2 fun l hl => Bool.noConfusion (not_iotlbSelected_performed h hl).2,
    List.eq_nil_iff_forall_not_mem.2 fun l hl => Bool.noConfusion (not_pdeSelected_performed h hl).2⟩

/-- A granularity of the domain's, or coarser, leaves no line of the domain. -/
theorem domain_gone_of_coarsened {k : Nat} (hg : coarsenIotlb s.cfg .domain k = g) :
    (∀ l ∈ (s.invalidateIotlb reports code dr dw did addr am ih).cache.iotlb, l.did ≠ s.cfg.domain did) ∧
      ∀ l ∈ (s.invalidateIotlb reports code dr dw did addr am ih).cache.pde, l.did ≠ s.cfg.domain did := by
  subst hg
  refine ⟨fun l hl => ?_, fun l hl => ?_⟩
  · simpa [iotlbSelected] using iotlbSelected_of_coarsened (not_iotlbSelected_performed h hl).2
  · simpa [pdeSelected] using pdeSelected_of_coarsened (not_pdeSelected_performed h hl).2

/-- A granularity of the page range's, or coarser, leaves no line of the domain that meets the range; with IH Set lines of the PDE
caches may stay (R347, R348). -/
theorem range_gone_of_coarsened {k : Nat} (hg : coarsenIotlb s.cfg .page k = g) :
    (∀ l ∈ (s.invalidateIotlb reports code dr dw did addr am ih).cache.iotlb, l.did = s.cfg.domain did →
      rangesMeet (l.page * 2 ^ pageBits l.level) (2 ^ pageBits l.level) (pageRangeBase s.cfg addr am) (pageRangeSize am)
        = false) ∧
    (ih = false → ∀ l ∈ (s.invalidateIotlb reports code dr dw did addr am ih).cache.pde, l.did = s.cfg.domain did →
      rangesMeet (l.span * 2 ^ pageBits l.level) (2 ^ pageBits l.level) (pageRangeBase s.cfg addr am) (pageRangeSize am)
        = false) := by
  subst hg
  refine ⟨fun l hl hdid => ?_, fun hih l hl hdid => ?_⟩
  · simpa [iotlbSelected, hdid] using iotlbSelected_of_coarsened (not_iotlbSelected_performed h hl).2
  · simpa [pdeSelected, hih, hdid] using pdeSelected_of_coarsened (not_pdeSelected_performed h hl).2

/-- A request in flight that is left is none of those drained (R361, R363). -/
theorem not_drainedBy_of_mem_inflight {f : InFlight} (hf : f ∈ (s.invalidateIotlb reports code dr dw did addr am ih).inflight) :
    drainedBy s.cfg code dr dw did addr am f = false := by
  rw [(drained_invalidateIotlb_of_performed h).inflight] at hf
  simpa using List.of_mem_filter hf

/-- A byte that neither a buffered store nor a drained write goes to stays. -/
theorem read_invalidateIotlb_of_performed (hwf : s.mem.wf = true) {a : Nat} (hbuf : s.cfg.rwbf = true → s.bufferedAt a = false)
    (hwrite : s.writtenInFlight
      (fun f => dw && s.cfg.dwd && drainable .write f && inRequestedScope s.cfg code did addr am f) a = false) :
    (s.invalidateIotlb reports code dr dw did addr am ih).mem.read a = s.mem.read a := by
  have hflushed : s.flushed.mem.wf = true := by
    rw [← flushWriteBuffer_eq]
    exact (sameUnit_flushWriteBuffer s).wf hwf
  rw [invalidateIotlb_of_performed h]
  refine (drainWhere_read { s.flushed.tick with cache := _ } _ hflushed a fun f hf hp hkind c hc hca => ?_).trans
    (flushed_read hwf hbuf)
  have hread : drainable .read f = false := by simp [drainable, hkind]
  have htouched : touches (enabledCells f.hpa f.enables f.data) a = true := List.any_eq_true.2 ⟨c, hc, beq_iff_eq.2 hca⟩
  have hnot := List.any_eq_false.1 hwrite f hf
  rw [drainedBy, hread, Bool.and_false, Bool.false_or] at hp
  simp [hp, hkind, htouched] at hnot

theorem iotlbInvalidated_of_performed :
    IotlbInvalidated s (s.invalidateIotlb reports code dr dw did addr am ih) reports code dr dw did addr am ih := by
  obtain ⟨asked, hasked, hdone, hg⟩ := iotlbGranularity_eq_some.1 h
  have hdrained : Drained s.flushed.tick (s.invalidateIotlb reports code dr dw did addr am ih)
      (drainedBy s.cfg code dr dw did addr am) := drained_invalidateIotlb_of_performed h
  exact
    { fewerIotlb := fun _ hl => (not_iotlbSelected_performed h hl).1
      fewerPde := fun _ hl => (not_pdeSelected_performed h hl).1
      global := by
        rintro rfl
        cases hasked
        exact translations_gone_of_global h hg.symm
      domain := by
        rintro rfl
        cases hasked
        exact domain_gone_of_coarsened h hg
      page := by
        rintro rfl -
        cases hasked
        exact range_gone_of_coarsened h hg
      coarse := by
        rintro rfl hpsi -
        cases hasked
        exact domain_gone_of_coarsened h ((coarsenIotlb_page_of_not_psi hpsi _).symm.trans hg)
      done := fun _ => hdrained
      ignored := fun hbad => absurd (h.symm.trans (iotlbGranularity_of_incorrect hbad)) (Option.some_ne_none g)
      either := .inl hdrained
      reads := fun hdr hdrd _ f hf hread => by
        simpa [drainedBy, hdr, hdrd, hread] using not_drainedBy_of_mem_inflight h hf
      writes := fun hdw hdwd _ f hf hwrite => by
        simpa [drainedBy, hdw, hdwd, hwrite] using not_drainedBy_of_mem_inflight h hf
      flushed := fun hrwbf => by
        rw [invalidateIotlb_of_performed h]
        exact drainWhere_wbuf_nil _ _ (if_pos hrwbf)
      memory := fun hwf a hbuf hwrite => read_invalidateIotlb_of_performed h hwf hbuf hwrite
      frame := by
        obtain ⟨_, _, _, _, _, _, _, _, hframe⟩ := invalidateIotlb_frame s reports code dr dw did addr am ih
        rw [hframe] }

end Performed

/-- An IOTLB invalidation, of the registers or of the queue, does what `IotlbInvalidated` says. -/
theorem iotlbInvalidated_invalidateIotlb (s : State) (reports : Bool) (code : BitVec 3) (dr dw : Bool) (did : DomainId)
    (addr : PageNumber) (am : BitVec 6) (ih : Bool) :
    IotlbInvalidated s (s.invalidateIotlb reports code dr dw did addr am ih) reports code dr dw did addr am ih := by
  cases h : s.iotlbGranularity reports code am with
  | none => exact iotlbInvalidated_of_ignored h
  | some g => exact iotlbInvalidated_of_performed h

theorem Drained.withReg {p : InFlight → Bool} (h : Drained s t p) (r : Regs) : Drained s { t with reg := r } p :=
  ⟨h.inflight, h.mem, h.wbuf, h.dirty, h.out⟩

/-- The registers are the caller's. -/
theorem IotlbInvalidated.withReg (h : IotlbInvalidated s t reports code dr dw did addr am ih) (r : Regs) :
    IotlbInvalidated s { t with reg := r } reports code dr dw did addr am ih :=
  { h with
    done := fun hv => (h.done hv).withReg r
    ignored := fun hbad => (h.ignored hbad).imp_right fun hd => hd.withReg r
    either := h.either.imp (fun hd => hd.withReg r) (fun hc => hc.imp_right fun hd => hd.withReg r)
    frame := congrArg (fun u : State => { u with reg := r }) h.frame }

end Invalidation

/-! ## The report -/

section Report

variable {s : State} (g : Option IotlbGran)

theorem reportIotlb_iaig : (s.reportIotlb g).reg.iotlb.extractLsb' 57 3 = iotlbGranCode g :=
  extractLsb'_setField_self _ _ _ (by decide)

theorem reportIotlb_ivt : (s.reportIotlb g).reg.iotlb.getLsbD 63 = false := by
  rw [State.reportIotlb, getLsbD_setField_of_outside _ _ (by decide) (by decide), getLsbD_setBit_self _ _ _ (by decide)]

theorem reportIotlb_others {k : Nat} (h63 : k ≠ 63) (h59 : k ≠ 59) (h58 : k ≠ 58) (h57 : k ≠ 57) :
    (s.reportIotlb g).reg.iotlb.getLsbD k = s.reg.iotlb.getLsbD k := by
  rw [State.reportIotlb, getLsbD_setField_of_outside _ _ (by decide) (by omega), getLsbD_setBit_of_ne _ _ h63]

end Report

/-- IAIG is never finer than the request (R346); 000b, an ignored request, is below every code. -/
theorem iotlbGranCode_iotlbGranularity_le (s : State) (reports : Bool) (code : BitVec 3) (am : BitVec 6) :
    iotlbGranCode (s.iotlbGranularity reports code am) ≤ code := by
  cases h : s.iotlbGranularity reports code am with
  | none => exact Nat.zero_le _
  | some g =>
    obtain ⟨asked, hasked, -, rfl⟩ := iotlbGranularity_eq_some.1 h
    rw [← iotlbGranCode_of_iotlbGranOf hasked]
    exact iotlbGranCode_coarsenIotlb_le ..

/-- Without CAP.PSI IAIG is never page-selective (R346). -/
theorem iotlbGranCode_iotlbGranularity_of_not_psi {s : State} {reports : Bool} {am : BitVec 6} (hpsi : s.cfg.psi = false) :
    iotlbGranCode (s.iotlbGranularity reports 3 am) ≤ 2 := by
  cases h : s.iotlbGranularity reports 3 am with
  | none => exact Nat.zero_le _
  | some g =>
    obtain ⟨asked, hasked, -, rfl⟩ := iotlbGranularity_eq_some.1 h
    cases hasked
    rw [coarsenIotlb_page_of_not_psi hpsi]
    exact iotlbGranCode_coarsenIotlb_le ..

/-- A performed domain-selective granularity leaves no line of the domain. -/
theorem domain_gone_of_domain {s : State} {reports : Bool} {code : BitVec 3} {dr dw : Bool} {did : DomainId} {addr : PageNumber}
    {am : BitVec 6} {ih : Bool} (h : s.iotlbGranularity reports code am = some .domain) :
    (∀ l ∈ (s.invalidateIotlb reports code dr dw did addr am ih).cache.iotlb, l.did ≠ s.cfg.domain did) ∧
      ∀ l ∈ (s.invalidateIotlb reports code dr dw did addr am ih).cache.pde, l.did ≠ s.cfg.domain did :=
  domain_gone_of_coarsened h (k := 0) rfl

/-- Settles O18: the removal and the drain are `iotlbInvalidated_invalidateIotlb`, and the report is of the granularity
performed. -/
theorem iotlbIvtReportsWhatItDid : Obligations.IotlbIvtReportsWhatItDid := by
  intro iirg dr dw did s
  have hiaig : ((s.invalidateIotlb true iirg dr dw did (ivaAddr s.reg.iva) (ivaMask s.reg.iva) (ivaHint s.reg.iva)).reportIotlb
      (s.iotlbGranularity true iirg (ivaMask s.reg.iva))).reg.iotlb.extractLsb' 57 3 =
      iotlbGranCode (s.iotlbGranularity true iirg (ivaMask s.reg.iva)) := reportIotlb_iaig _
  refine ⟨_, rfl, (iotlbInvalidated_invalidateIotlb s true iirg dr dw did _ _ _).withReg _, ?frame, reportIotlb_ivt _,
    fun k h63 h59 h58 h57 => ?others, ?_⟩
  case frame => rw [State.reportIotlb_reg, State.invalidateIotlb_reg]
  case others => rw [reportIotlb_others _ h63 h59 h58 h57, State.invalidateIotlb_reg]
  rw [hiaig]
  refine ⟨fun hbad => ?incorrect, fun hvalid => ⟨?reported, iotlbGranCode_iotlbGranularity_le ..⟩, fun h => ?ignored,
    fun h => ?performed, fun h3 hpsi => ?coarse, fun h => ?global, fun h => ?domain⟩
  case incorrect => exact iotlbGranCode_eq_zero.2 (iotlbGranularity_of_incorrect hbad)
  case reported => exact iotlbGranCode_ne_zero_of_valid hvalid
  case ignored =>
    obtain ⟨hcache, hdrained⟩ := untouched_of_ignored (iotlbGranCode_eq_zero.1 h)
    exact ⟨hcache, hdrained.withReg _⟩
  case performed =>
    obtain ⟨g, hg⟩ := Option.ne_none_iff_exists'.1 (mt iotlbGranCode_eq_zero.2 h)
    exact (drained_invalidateIotlb_of_performed hg).withReg _
  case coarse =>
    subst h3
    exact iotlbGranCode_iotlbGranularity_of_not_psi hpsi
  case global => exact translations_gone_of_global (iotlbGranCode_eq_one.1 h) rfl
  case domain => exact domain_gone_of_domain (iotlbGranCode_eq_two.1 h)

end Sys2Proof.Machine
end

section
/-! Accepted submissions (10_state.md R30, R35; 43_caching_and_register_invalidation.md R340, R345; 45_global_commands.md R420, R421,
R435): what a write of a command register stores, and which command it makes pending. -/

namespace Sys2Proof

theorem getLsbD_setWidth_of_le {w v : Nat} (x : BitVec w) (h : w ≤ v) (m : Nat) : (x.setWidth v).getLsbD m = x.getLsbD m := by
  rw [BitVec.getLsbD_setWidth]
  by_cases hm : m < v
  · rw [decide_eq_true hm, Bool.true_and]
  · rw [BitVec.getLsbD_of_ge x m (by omega), Bool.and_false]

/-- A field that a mask covers is kept. -/
theorem extractLsb'_and_of_covered {w lo n : Nat} (x : BitVec w) {m : BitVec w} (hm : m.extractLsb' lo n = BitVec.allOnes n) :
    (x &&& m).extractLsb' lo n = x.extractLsb' lo n := by
  rw [BitVec.extractLsb'_and, hm, BitVec.and_allOnes]

theorem getLsbD_and_of_covered {w k : Nat} (x : BitVec w) {m : BitVec w} (hm : m.getLsbD k = true) :
    (x &&& m).getLsbD k = x.getLsbD k := by
  rw [BitVec.getLsbD_and, hm, Bool.and_true]

/-- Values that agree under a mask differ nowhere under it. -/
theorem xor_and_eq_zero {w : Nat} {x y m : BitVec w} (h : x &&& m = y &&& m) : (x ^^^ y) &&& m = 0#w := by
  refine BitVec.eq_of_getLsbD_eq fun k hk => ?_
  have hbit := congrArg (BitVec.getLsbD · k) h
  simp only [BitVec.getLsbD_and] at hbit
  rw [BitVec.getLsbD_and, BitVec.getLsbD_xor, Bool.and_xor_distrib_right, hbit, Bool.xor_self, BitVec.getLsbD_zero]

/-- A field is determined by its bits. -/
theorem extractLsb'_congr {w : Nat} {x y : BitVec w} {lo n : Nat} (h : ∀ j, j < n → x.getLsbD (lo + j) = y.getLsbD (lo + j)) :
    x.extractLsb' lo n = y.extractLsb' lo n :=
  BitVec.eq_of_getLsbD_eq fun j hj => by rw [BitVec.getLsbD_extractLsb', BitVec.getLsbD_extractLsb', h j hj]

/-- Domain-ids that agree in the supported bits name the same domain (12_registers_b.md R121). -/
theorem Config.domain_congr {cfg : Config} {a b : DomainId} (h : ∀ k, k < cfg.domainBits → a.getLsbD k = b.getLsbD k) :
    cfg.domain a = cfg.domain b := by
  refine BitVec.eq_of_getLsbD_eq fun k hk => ?_
  simp only [Config.domain, BitVec.getLsbD_and, BitVec.getLsbD_ofNat, Nat.testBit_two_pow_sub_one]
  by_cases hbit : k < cfg.domainBits
  · rw [h k hbit]
  · simp [hbit]

end Sys2Proof

namespace Sys2Proof.Machine

variable {s : State} {r : RegId} {k off : Nat}

/-! ## What a submission accepts -/

theorem submitCommand_nothing {c : CmdWrite} (h : decodeCommand s.cmdContext c = .nothing) : s.submitCommand c = .next s := by
  simp [State.submitCommand, h]

/-- A supported command is pending (10_state.md R30); of the queue only the register-based invalidations take heed. -/
theorem submitCommand_accepted {c : CmdWrite} {i : Instr} (h : decodeCommand s.cmdContext c = .instr i)
    (hw : wellFormed s.cfg i = true) (hq : isInvalidationRegister c.reg = true → s.qies = false) :
    s.submitCommand c = .next { s.beginCommand i with cmd := some c } := by
  have hfree : ¬ (isInvalidationRegister c.reg && s.qies) = true := by
    rw [Bool.and_eq_true, not_and, Bool.not_eq_true]
    exact hq
  simp only [State.submitCommand, h, hw, if_neg hfree]
  rfl

/-- A register whose fields stand for a command where `b` says so, and for nothing otherwise. -/
theorem submitCommand_trigger {c : CmdWrite} {i : Instr} {b : Bool} (hc : s.cmd = none)
    (hdec : decodeCommand s.cmdContext c = if b then .instr i else .nothing) (hw : wellFormed s.cfg i = true)
    (hbegin : s.beginCommand i = s) (hq : b = true → isInvalidationRegister c.reg = true → s.qies = false) :
    s.submitCommand c = .next { s with cmd := if b then some c else none } := by
  cases b with
  | false =>
    have hsame : { s with cmd := none } = s := by rw [← hc]
    exact (submitCommand_nothing hdec).trans (congrArg Host.Outcome.next hsame.symm)
  | true =>
    have haccepted := submitCommand_accepted hdec hw (hq rfl)
    rwa [hbegin] at haccepted

/-! ## Stores that change nothing, and stores of a quadword -/

/-- A register that is given what it holds stays. -/
theorem setReg_regValue (hr : r.isStored = true) : s.setReg r (s.regValue r) = s := by
  cases r <;> simp_all [RegId.isStored, RegId.isPlain, State.setReg, State.regValue]

theorem stored_eq_self (hr : r.isStored = true) (hk : k < 4) {v : BitVec 32} (h : ∀ j, j < 32 →
    (writableBits s.cfg r).getLsbD (32 * k + j) = true → v.getLsbD j = (s.regValue r).getLsbD (32 * k + j)) :
    s.stored r k v = s := by
  have hsame : writtenValue s.cfg r (s.regValue r) ((v.setWidth 128) <<< (32 * k)) (dwordMask k) = s.regValue r := by
    refine BitVec.eq_of_getLsbD_eq fun m hm => ?_
    rw [getLsbD_writtenValue (clearableBits_eq_zero _ hr) _ _ hk hm]
    split
    next hwritten =>
      obtain ⟨rfl, hwritable⟩ := hwritten
      have hplace : 32 * (m / 32) + m % 32 = m := by omega
      have hbit := h (m % 32) (by omega)
      rw [hplace] at hbit
      exact hbit hwritable
    next => rfl
  rw [State.stored, hsame, setReg_regValue hr]

/-- The state in which both doublewords of a quadword are stored, the lower first, before the side effects of the upper. -/
def State.storedQuad (s : State) (r : RegId) (v : BitVec 64) : State :=
  (s.stored r 0 (v.setWidth 32)).stored r 1 (v.extractLsb' 32 32)

@[simp] theorem storedQuad_cmd (v : BitVec 64) : (s.storedQuad r v).cmd = s.cmd := by
  rw [State.storedQuad, stored_cmd, stored_cmd]

@[simp] theorem storedQuad_qies (v : BitVec 64) : (s.storedQuad r v).qies = s.qies := by
  rw [State.storedQuad, stored_qies, stored_qies]

/-- A quadword register takes every writable bit of the written value and keeps every other bit (10_state.md R35). -/
theorem getLsbD_regValue_storedQuad (hr : r.isStored = true) (hwidth : r.width = 64) (v : BitVec 64) {m : Nat} {p : Prop}
    [Decidable p] (hp : m < 64 → ((writableBits s.cfg r).getLsbD m = true ↔ p)) :
    ((s.storedQuad r v).regValue r).getLsbD m = if p then v.getLsbD m else (s.regValue r).getLsbD m := by
  have hk0 : 32 * 0 + 32 ≤ r.width := by omega
  have hk1 : 32 * 1 + 32 ≤ r.width := by omega
  rw [State.storedQuad]
  rcases Nat.lt_or_ge m 32 with hlow | hm
  · have hbit := getLsbD_regValue_stored (s := s) hr hk0 (v.setWidth 32) hlow
    rw [getLsbD_regValue_stored_of_ne hr hk1 _ (by omega)]
    simpa only [hp (by omega), getLsbD_low_half v hlow, Nat.mul_zero, Nat.zero_add] using hbit
  rcases Nat.lt_or_ge m 64 with hhigh | hm
  · obtain ⟨j, rfl⟩ : ∃ j, m = 32 * 1 + j := ⟨m - 32, by omega⟩
    have hj : j < 32 := by omega
    rw [getLsbD_regValue_stored hr hk1 _ hj, getLsbD_regValue_stored_of_ne hr hk0 _ (by omega), stored_cfg, getLsbD_high_half v hj]
    simp only [hp hhigh]
  · have hwide : r.width ≤ m := by omega
    rw [getLsbD_regValue_of_width_le hr hwide, getLsbD_regValue_of_width_le hr hwide, BitVec.getLsbD_of_ge v m hm, ite_self]

/-! ## CCMD_REG and IOTLB_REG -/

section Invalidation

variable (hr : r = .ccmd ∨ r = .iotlb) (hc : s.cmd = none) {v : BitVec 64}
include hr hc

/-- A write of the lower doubleword alone stores it and requests nothing. -/
theorem writeDword_invalidation_low (hat : registerAt s.cfg off = some (r, 0)) {d : BitVec 32}
    (hkeeps : s.KeepsReserved r 0 ((d.setWidth 128) <<< (32 * 0))) : s.writeDword off d = .next (s.stored r 0 d) := by
  rw [writeDword_accepted hat (writeRefusal_invalidation hr hc hkeeps), afterWrite_low_invalidation hr]

theorem writeDword_invalidation_high (hat : registerAt s.cfg off = some (r, 1)) {d : BitVec 32}
    (hkeeps : s.KeepsReserved r 1 ((d.setWidth 128) <<< (32 * 1))) :
    s.writeDword off d = (s.stored r 1 d).afterWrite r 1 ((d.setWidth 128) <<< (32 * 1)) :=
  writeDword_accepted hat (writeRefusal_invalidation hr hc hkeeps)

variable (hhigh : registerAt s.cfg (off + 4) = some (r, 1))
  (hkeepsHigh : s.KeepsReserved r 1 (((v.extractLsb' 32 32).setWidth 128) <<< (32 * 1)))
include hhigh hkeepsHigh

/-- A quadword write stores both doublewords, and what follows is what follows the upper one. -/
theorem registerWrite_invalidation_quad (hlow : registerAt s.cfg off = some (r, 0)) (hgood : goodAccess s.cfg 8 off = true)
    (hkeepsLow : s.KeepsReserved r 0 (((v.setWidth 32).setWidth 128) <<< (32 * 0))) :
    s.registerWrite 8 off v =
      (s.storedQuad r v).afterWrite r 1 (((v.extractLsb' 32 32).setWidth 128) <<< (32 * 1)) := by
  rw [registerWrite_eight hgood, writeDword_invalidation_low hr hc hlow hkeepsLow]
  exact writeDword_invalidation_high hr ((stored_cmd ..).trans hc) (by rwa [stored_cfg]) ((keepsReserved_stored ..).2 hkeepsHigh)

/-- A write of the upper doubleword alone does the same, where the lower one would be stored as it is. -/
theorem registerWrite_invalidation_high (hgood : goodAccess s.cfg 4 (off + 4) = true)
    (hsame : s.stored r 0 (v.setWidth 32) = s) :
    s.registerWrite 4 (off + 4) ((v.extractLsb' 32 32).setWidth 64) =
      (s.storedQuad r v).afterWrite r 1 (((v.extractLsb' 32 32).setWidth 128) <<< (32 * 1)) := by
  rw [registerWrite_four hgood, State.storedQuad, hsame]
  exact writeDword_invalidation_high hr hc hhigh hkeepsHigh

end Invalidation

theorem goodAccess_upper {cfg : Config} (h : goodAccess cfg 8 off = true) : goodAccess cfg 4 (off + 4) = true := by
  simp only [goodAccess, Bool.and_eq_true, decide_eq_true_eq] at h ⊢
  obtain ⟨hpages, hwide⟩ := h
  have haligned : off % 8 = 0 := by simp_all
  have hpages' : off + 4 + 4 ≤ 4096 * cfg.registerPages := by omega
  have hupper : (off + 4) % 4 = 0 := by omega
  simp [hpages', hupper]

/-! ### CCMD_REG -/

section Ccmd

theorem getLsbD_regValue_ccmd (s : State) (m : Nat) : (s.regValue .ccmd).getLsbD m = s.reg.ccmd.getLsbD m :=
  getLsbD_setWidth_of_le _ (by decide) m

/-- The writable bits of CCMD_REG (11_registers_a.md R66; 12_registers_b.md R121). -/
theorem writableBits_ccmd (cfg : Config) {m : Nat} (hm : m < 64) : (writableBits cfg .ccmd).getLsbD m = true ↔
    61 ≤ m ∨ (16 ≤ m ∧ m ≤ 33) ∨ m < cfg.domainBits := by
  have hfixed : ∀ m < 64, (0xE0000003FFFF0000 : BitVec 128).getLsbD m = decide (61 ≤ m ∨ (16 ≤ m ∧ m ≤ 33)) := by decide
  have hbits : 0 < cfg.domainBits := by unfold Config.domainBits; omega
  have hdomain : m ≤ cfg.domainBits - 1 ↔ m < cfg.domainBits := by omega
  rw [writableBits, BitVec.getLsbD_or, hfixed m hm, getLsbD_maskBits_low _ m (by omega)]
  simp [hdomain, or_assoc]

theorem getLsbD_storedQuad_ccmd (s : State) (v : BitVec 64) (m : Nat) : (s.storedQuad .ccmd v).reg.ccmd.getLsbD m =
    if 61 ≤ m ∨ (16 ≤ m ∧ m ≤ 33) ∨ m < s.cfg.domainBits then v.getLsbD m else s.reg.ccmd.getLsbD m := by
  rw [← getLsbD_regValue_ccmd, getLsbD_regValue_storedQuad rfl rfl v (writableBits_ccmd s.cfg), getLsbD_regValue_ccmd]

/-- The command that CCMD_REG asks for when its uppermost byte is written. -/
def ccmdCommand (x : BitVec 64) : Option CmdWrite :=
  if x.getLsbD 63 then some { reg := .ccmd, value := x &&& 0xE0000003FFFFFFFF } else none

theorem decodeCcmd_stored (x : BitVec 64) : decodeCcmd (x &&& 0xE0000003FFFFFFFF) =
    if x.getLsbD 63 then .instr (.ccmdIcc (x.extractLsb' 61 2) (x.extractLsb' 32 2) (x.extractLsb' 16 16) (x.extractLsb' 0 16))
    else .nothing := by
  have hreserved : x &&& 0xE0000003FFFFFFFF &&& 0x07FFFFFC00000000 = 0 := by
    rw [BitVec.and_assoc]
    exact BitVec.and_zero
  rw [decodeCcmd, if_pos hreserved, getLsbD_and_of_covered x (by decide), extractLsb'_and_of_covered x (by decide),
    extractLsb'_and_of_covered x (by decide), extractLsb'_and_of_covered x (by decide), extractLsb'_and_of_covered x (by decide)]

theorem afterWrite_ccmd_high (hc : s.cmd = none) (hq : s.reg.ccmd.getLsbD 63 = true → s.qies = false) (w : BitVec 128) :
    s.afterWrite .ccmd 1 w = .next { s with cmd := ccmdCommand s.reg.ccmd } :=
  submitCommand_trigger hc (decodeCcmd_stored s.reg.ccmd) rfl rfl fun hicc _ => hq hicc

/-- The state after a write of CCMD_REG. -/
def State.ccmdWritten (s : State) (v : BitVec 64) : State :=
  { s.storedQuad .ccmd v with cmd := ccmdCommand (s.storedQuad .ccmd v).reg.ccmd }

variable {v : BitVec 64}

theorem getLsbD_storedQuad_icc (s : State) (v : BitVec 64) : (s.storedQuad .ccmd v).reg.ccmd.getLsbD 63 = v.getLsbD 63 :=
  (getLsbD_storedQuad_ccmd s v 63).trans (if_pos (.inl (by decide)))

theorem ccmdWritten_cmd_of_clear (h : v.getLsbD 63 = false) : (s.ccmdWritten v).cmd = none :=
  if_neg (by rw [getLsbD_storedQuad_icc, h]; exact Bool.false_ne_true)

/-- The pending command is that of the written fields, of the domain-id the supported bits (R121). -/
theorem ccmdWritten_cmd_of_set (h : v.getLsbD 63 = true) : ∃ w did, (s.ccmdWritten v).cmd = some w ∧
    s.cfg.domain did = s.cfg.domain (v.extractLsb' 0 16) ∧ decodeCommand (s.ccmdWritten v).cmdContext w =
      .instr (.ccmdIcc (v.extractLsb' 61 2) (v.extractLsb' 32 2) (v.extractLsb' 16 16) did) := by
  have hicc := (getLsbD_storedQuad_icc s v).trans h
  have hbit := getLsbD_storedQuad_ccmd s v
  have hkept : ∀ lo n, (61 ≤ lo ∨ (16 ≤ lo ∧ lo + n ≤ 34)) →
      (s.storedQuad .ccmd v).reg.ccmd.extractLsb' lo n = v.extractLsb' lo n :=
    fun lo n hin => extractLsb'_congr fun j hj => (hbit _).trans (if_pos (by omega))
  refine ⟨_, (s.storedQuad .ccmd v).reg.ccmd.extractLsb' 0 16, if_pos hicc, Config.domain_congr fun k hk => ?domain, ?fields⟩
  case domain =>
    rw [BitVec.getLsbD_extractLsb', BitVec.getLsbD_extractLsb', hbit, if_pos (by omega)]
  case fields =>
    refine (decodeCcmd_stored _).trans ?_
    rw [if_pos hicc, hkept 61 2 (by decide), hkept 32 2 (by decide), hkept 16 16 (by decide)]

section Write

variable (hc : s.cmd = none)
include hc

theorem afterWrite_storedQuad_ccmd (hq : v.getLsbD 63 = true → s.qies = false) (w : BitVec 128) :
    (s.storedQuad .ccmd v).afterWrite .ccmd 1 w = .next (s.ccmdWritten v) := by
  refine afterWrite_ccmd_high ((storedQuad_cmd v).trans hc) (fun hicc => ?_) w
  rw [storedQuad_qies]
  exact hq ((getLsbD_storedQuad_icc s v).symm.trans hicc)

variable (hv : v &&& 0x07FFFFFC00000000 = 0)
include hv

theorem registerWrite_ccmd (hq : v.getLsbD 63 = true → s.qies = false) :
    s.registerWrite 8 0x28 v = .next (s.ccmdWritten v) := by
  obtain ⟨hlow, hhigh⟩ := registerAt_ccmd s.cfg
  rw [registerWrite_invalidation_quad (.inl rfl) hc hhigh (keepsReserved_ccmd hv (by decide) fun _ => getLsbD_high_half v) hlow
    (goodAccess_eight (by decide) (by decide) hlow hhigh) (keepsReserved_ccmd hv (by decide) fun _ => getLsbD_low_half v)]
  exact afterWrite_storedQuad_ccmd hc hq _

/-- The lower doubleword stored as it is leaves the state alone. -/
theorem registerWrite_ccmd_upper (hq : v.getLsbD 63 = true → s.qies = false) (hsame : v.setWidth 32 = s.reg.ccmd.setWidth 32) :
    s.registerWrite 4 0x2C ((v.extractLsb' 32 32).setWidth 64) = .next (s.ccmdWritten v) := by
  obtain ⟨-, hhigh⟩ := registerAt_ccmd s.cfg
  have hstored : s.stored .ccmd 0 (v.setWidth 32) = s := stored_eq_self rfl (by decide) fun j hj _ => by
    rw [hsame, getLsbD_regValue_ccmd, getLsbD_low_half _ hj]
  rw [registerWrite_invalidation_high (off := 0x28) (.inl rfl) hc hhigh
    (keepsReserved_ccmd hv (by decide) fun _ => getLsbD_high_half v) (goodAccess_four (by decide) (by decide)) hstored]
  exact afterWrite_storedQuad_ccmd hc hq _

theorem registerWrite_ccmd_lower :
    s.registerWrite 4 0x28 ((v.setWidth 32).setWidth 64) = .next (s.stored .ccmd 0 (v.setWidth 32)) := by
  obtain ⟨hlow, -⟩ := registerAt_ccmd s.cfg
  rw [registerWrite_four (goodAccess_four (by decide) (by decide))]
  exact writeDword_invalidation_low (.inl rfl) hc hlow (keepsReserved_ccmd hv (by decide) fun _ => getLsbD_low_half v)

end Write

/-- What a write of the lower doubleword alone stores is what the quadword write stores there. -/
theorem getLsbD_stored_ccmd_low (s : State) (v : BitVec 64) (m : Nat) :
    (s.stored .ccmd 0 (v.setWidth 32)).reg.ccmd.getLsbD m =
      if m < 32 then (s.ccmdWritten v).reg.ccmd.getLsbD m else s.reg.ccmd.getLsbD m := by
  rw [← getLsbD_regValue_ccmd, ← getLsbD_regValue_ccmd s]
  split
  next hlow =>
    have hquad := getLsbD_regValue_stored_of_ne (s := s.stored .ccmd 0 (v.setWidth 32)) (r := .ccmd) (k := 1) rfl (by decide)
      (v.extractLsb' 32 32) (m := m) (by omega)
    exact hquad.symm.trans (getLsbD_regValue_ccmd _ m)
  next hhigh => exact getLsbD_regValue_stored_of_ne rfl (by decide) _ (by omega)

end Ccmd

/-! ### IOTLB_REG -/

section Iotlb

theorem getLsbD_regValue_iotlb (s : State) (m : Nat) : (s.regValue .iotlb).getLsbD m = s.reg.iotlb.getLsbD m :=
  getLsbD_setWidth_of_le _ (by decide) m

/-- The writable bits of IOTLB_REG (11_registers_a.md R67; 12_registers_b.md R121). -/
theorem writableBits_iotlb (cfg : Config) {m : Nat} (hm : m < 64) : (writableBits cfg .iotlb).getLsbD m = true ↔
    60 ≤ m ∨ m = 49 ∨ m = 48 ∨ (32 ≤ m ∧ m < 32 + cfg.domainBits) := by
  have hfixed : ∀ m < 64, (0xF003000000000000 : BitVec 128).getLsbD m = decide (60 ≤ m ∨ m = 49 ∨ m = 48) := by decide
  have hdomain : m ≤ 31 + cfg.domainBits ↔ m < 32 + cfg.domainBits := by omega
  have hin : m < 128 := by omega
  rw [writableBits, BitVec.getLsbD_or, hfixed m hm, getLsbD_maskBits _ _ _ _ (by omega)]
  simp [hdomain, hin, or_assoc]

theorem getLsbD_storedQuad_iotlb (s : State) (v : BitVec 64) (m : Nat) : (s.storedQuad .iotlb v).reg.iotlb.getLsbD m =
    if 60 ≤ m ∨ m = 49 ∨ m = 48 ∨ (32 ≤ m ∧ m < 32 + s.cfg.domainBits) then v.getLsbD m else s.reg.iotlb.getLsbD m := by
  rw [← getLsbD_regValue_iotlb, getLsbD_regValue_storedQuad rfl rfl v (writableBits_iotlb s.cfg), getLsbD_regValue_iotlb]

/-- The lower doubleword of IOTLB_REG has no writable bit. -/
theorem stored_iotlb_low (s : State) (d : BitVec 32) : s.stored .iotlb 0 d = s :=
  stored_eq_self rfl (by decide) fun j hj hwritable => by
    have hbit := (writableBits_iotlb s.cfg (by omega)).1 hwritable
    omega

/-- The command that IOTLB_REG asks for when its uppermost byte is written. -/
def iotlbCommand (x : BitVec 64) : Option CmdWrite :=
  if x.getLsbD 63 then some { reg := .iotlb, value := x &&& 0xF003FFFF00000000 } else none

theorem decodeIotlb_stored (x : BitVec 64) : decodeIotlb (x &&& 0xF003FFFF00000000) =
    if x.getLsbD 63 then .instr (.iotlbIvt (x.extractLsb' 60 3) (x.getLsbD 49) (x.getLsbD 48) (x.extractLsb' 32 16))
    else .nothing := by
  have hreserved : x &&& 0xF003FFFF00000000 &&& 0x01FC000000000000 = 0 := by
    rw [BitVec.and_assoc]
    exact BitVec.and_zero
  rw [decodeIotlb, if_pos hreserved, getLsbD_and_of_covered x (by decide), getLsbD_and_of_covered x (by decide),
    getLsbD_and_of_covered x (by decide), extractLsb'_and_of_covered x (by decide), extractLsb'_and_of_covered x (by decide)]

theorem afterWrite_iotlb_high (hc : s.cmd = none) (hq : s.reg.iotlb.getLsbD 63 = true → s.qies = false) (w : BitVec 128) :
    s.afterWrite .iotlb 1 w = .next { s with cmd := iotlbCommand s.reg.iotlb } :=
  submitCommand_trigger hc (decodeIotlb_stored s.reg.iotlb) rfl rfl fun hivt _ => hq hivt

/-- The state after a write of IOTLB_REG. -/
def State.iotlbWritten (s : State) (v : BitVec 64) : State :=
  { s.storedQuad .iotlb v with cmd := iotlbCommand (s.storedQuad .iotlb v).reg.iotlb }

variable {v : BitVec 64}

theorem getLsbD_storedQuad_ivt (s : State) (v : BitVec 64) : (s.storedQuad .iotlb v).reg.iotlb.getLsbD 63 = v.getLsbD 63 :=
  (getLsbD_storedQuad_iotlb s v 63).trans (if_pos (.inl (by decide)))

theorem iotlbWritten_cmd_of_clear (h : v.getLsbD 63 = false) : (s.iotlbWritten v).cmd = none :=
  if_neg (by rw [getLsbD_storedQuad_ivt, h]; exact Bool.false_ne_true)

/-- The pending command is that of the written fields, of the domain-id the supported bits (R121). -/
theorem iotlbWritten_cmd_of_set (h : v.getLsbD 63 = true) : ∃ w did, (s.iotlbWritten v).cmd = some w ∧
    s.cfg.domain did = s.cfg.domain (v.extractLsb' 32 16) ∧ decodeCommand (s.iotlbWritten v).cmdContext w =
      .instr (.iotlbIvt (v.extractLsb' 60 3) (v.getLsbD 49) (v.getLsbD 48) did) := by
  have hivt := (getLsbD_storedQuad_ivt s v).trans h
  have hbit := getLsbD_storedQuad_iotlb s v
  have hkept : ∀ k, (60 ≤ k ∨ k = 49 ∨ k = 48) → (s.storedQuad .iotlb v).reg.iotlb.getLsbD k = v.getLsbD k :=
    fun k hin => (hbit k).trans (if_pos (by omega))
  have hgran : (s.storedQuad .iotlb v).reg.iotlb.extractLsb' 60 3 = v.extractLsb' 60 3 :=
    extractLsb'_congr fun j hj => hkept _ (by omega)
  refine ⟨_, (s.storedQuad .iotlb v).reg.iotlb.extractLsb' 32 16, if_pos hivt, Config.domain_congr fun k hk => ?domain, ?fields⟩
  case domain =>
    rw [BitVec.getLsbD_extractLsb', BitVec.getLsbD_extractLsb', hbit, if_pos (by omega)]
  case fields =>
    refine (decodeIotlb_stored _).trans ?_
    rw [if_pos hivt, hgran, hkept 49 (by decide), hkept 48 (by decide)]

section Write

variable (hc : s.cmd = none) (hq : v.getLsbD 63 = true → s.qies = false)
include hc hq

theorem afterWrite_storedQuad_iotlb (w : BitVec 128) :
    (s.storedQuad .iotlb v).afterWrite .iotlb 1 w = .next (s.iotlbWritten v) := by
  refine afterWrite_iotlb_high ((storedQuad_cmd v).trans hc) (fun hivt => ?_) w
  rw [storedQuad_qies]
  exact hq ((getLsbD_storedQuad_ivt s v).symm.trans hivt)

variable (hgood : goodAccess s.cfg 8 off = true) (hhigh : registerAt s.cfg (off + 4) = some (.iotlb, 1))
  (hv : v &&& 0x01FC000000000000 = 0)
include hgood hhigh hv

theorem registerWrite_iotlb (hlow : registerAt s.cfg off = some (.iotlb, 0)) (hp : v.setWidth 32 = s.preserved.iotlb) :
    s.registerWrite 8 off v = .next (s.iotlbWritten v) := by
  rw [registerWrite_invalidation_quad (.inr rfl) hc hhigh (keepsReserved_iotlb_high hv) hlow hgood (keepsReserved_iotlb_low hv hp)]
  exact afterWrite_storedQuad_iotlb hc hq _

/-- The lower doubleword is stored as it is anyway. -/
theorem registerWrite_iotlb_upper :
    s.registerWrite 4 (off + 4) ((v.extractLsb' 32 32).setWidth 64) = .next (s.iotlbWritten v) := by
  rw [registerWrite_invalidation_high (.inr rfl) hc hhigh (keepsReserved_iotlb_high hv) (goodAccess_upper hgood)
    (stored_iotlb_low s _)]
  exact afterWrite_storedQuad_iotlb hc hq _

end Write

end Iotlb

/-! ## PMEN_REG -/

section Pmen

theorem getLsbD_regValue_pmen (s : State) (m : Nat) : (s.regValue .pmen).getLsbD m = s.reg.pmen.getLsbD m :=
  getLsbD_setWidth_of_le _ (by decide) m

/-- Of PMEN_REG only EPM is writable (12_registers_b.md R107). -/
theorem getLsbD_stored_pmen (hregion : (s.cfg.plmr || s.cfg.phmr) = true) (v : BitVec 32) (m : Nat) :
    (s.stored .pmen 0 v).reg.pmen.getLsbD m = if m = 31 then v.getLsbD 31 else s.reg.pmen.getLsbD m := by
  have hwritable : ∀ m < 32, (0x80000000 : BitVec 128).getLsbD m = decide (m = 31) := by decide
  rcases Nat.lt_or_ge m 32 with hm | hm
  · have hbit := getLsbD_regValue_stored (s := s) (r := .pmen) (k := 0) rfl (by decide) v hm
    rw [writableBits, whenHas, if_pos hregion, Nat.mul_zero, Nat.zero_add, hwritable m hm, getLsbD_regValue_pmen,
      getLsbD_regValue_pmen] at hbit
    rw [hbit]
    by_cases h31 : m = 31 <;> simp [h31]
  · rw [BitVec.getLsbD_of_ge _ m hm, BitVec.getLsbD_of_ge _ m hm, if_neg (by omega)]

theorem prs_stored_pmen (hregion : (s.cfg.plmr || s.cfg.phmr) = true) (v : BitVec 32) : (s.stored .pmen 0 v).prs = s.prs :=
  (getLsbD_stored_pmen hregion v 0).trans (if_neg (by decide))

/-- The command that a write of PMEN_REG asks for, EPM being compared with PRS (45_global_commands.md R435). -/
def pmenCommand (prs : Bool) (v : BitVec 32) : Option CmdWrite :=
  if v.getLsbD 31 != prs then some { reg := .pmen, value := v.setWidth 64 } else none

theorem pmenCommand_of_eq {prs : Bool} {v : BitVec 32} (h : v.getLsbD 31 = prs) : pmenCommand prs v = none :=
  if_neg (by rw [h, bne_self_eq_false]; exact Bool.false_ne_true)

theorem pmenCommand_of_ne {prs : Bool} {v : BitVec 32} (h : v.getLsbD 31 ≠ prs) :
    pmenCommand prs v = some { reg := .pmen, value := v.setWidth 64 } := if_pos (bne_iff_ne.2 h)

theorem decodePmen_eq (prs : Bool) (v : BitVec 32) : decodePmen prs ((v.setWidth 64).setWidth 32) =
    if v.getLsbD 31 != prs then .instr (.pmenEpm (v.getLsbD 31)) else .nothing := by
  rw [BitVec.setWidth_setWidth_of_le _ (by decide), BitVec.setWidth_eq, decodePmen]
  cases v.getLsbD 31 <;> cases prs <;> rfl

theorem registerWrite_pmen (hc : s.cmd = none) (hregion : (s.cfg.plmr || s.cfg.phmr) = true) {v : BitVec 32}
    (hv : v &&& 0x7FFFFFFE = s.preserved.pmen &&& 0x7FFFFFFE) :
    s.registerWrite 4 0x64 (v.setWidth 64) = .next { s.stored .pmen 0 v with cmd := pmenCommand s.prs v } := by
  have hat : registerAt s.cfg 0x64 = some (.pmen, 0) := rfl
  have hlast : (v.setWidth 128 ^^^ s.lastRead .pmen) &&& preservedBits s.cfg .pmen = 0 := by
    have hnarrow : (v ^^^ s.preserved.pmen) &&& 0x7FFFFFFE = 0 := xor_and_eq_zero hv
    rw [preservedBits, whenHas, if_pos hregion, State.lastRead, ← BitVec.setWidth_xor]
    exact congrArg (BitVec.setWidth 128) hnarrow
  have hkeeps : s.KeepsReserved .pmen 0 ((v.setWidth 128) <<< (32 * 0)) := by
    refine ⟨.inl BitVec.and_zero, ?_⟩
    rw [Nat.mul_zero, BitVec.shiftLeft_zero, hlast]
    exact BitVec.zero_and
  have hvalue : (((v.setWidth 128) <<< (32 * 0) : BitVec 128)).setWidth 64 = v.setWidth 64 := by simp
  have hdec : decodeCommand (s.stored .pmen 0 v).cmdContext { reg := .pmen, value := v.setWidth 64 } =
      if v.getLsbD 31 != s.prs then .instr (.pmenEpm (v.getLsbD 31)) else .nothing := by
    rw [← decodePmen_eq, ← prs_stored_pmen hregion v]
    rfl
  rw [registerWrite_four (goodAccess_four (by decide) (by decide)),
    writeDword_accepted hat (by simpa [RegId.isRegion] using writeRefusal_of_no_command hkeeps hc), State.afterWrite, stored_cfg,
    if_pos hregion, hvalue]
  exact submitCommand_trigger ((stored_cmd ..).trans hc) hdec hregion rfl fun _ h => nomatch h

end Pmen

/-! ## GCMD_REG -/

/-- A write of GCMD_REG that leaves every level field as the status has it and Sets no one-shot field requests nothing (R421). -/
theorem decodeGcmd_nothing {gsts v : BitVec 32} (hreserved : v &&& 0x007FFFFF = 0)
    (hlevel : ∀ k, k = 31 ∨ k = 28 ∨ k = 26 ∨ k = 25 ∨ k = 23 → v.getLsbD k = gsts.getLsbD k)
    (hshot : ∀ k, k = 30 ∨ k = 29 ∨ k = 27 ∨ k = 24 → v.getLsbD k = false) : decodeGcmd gsts v = .nothing := by
  have hnone : gcmdRequests gsts v = [] := by
    simp (disch := decide) only [gcmdRequests, levelRequest, oneShotRequest, hlevel, hshot, if_true, if_false, Bool.false_eq_true,
      List.append_nil]
  rw [decodeGcmd, if_pos hreserved, hnone]

theorem registerWrite_gcmd_nothing (hc : s.cmd = none) {v : BitVec 32} (hreserved : v &&& 0x007FFFFF = 0)
    (hdec : decodeGcmd s.reg.gsts v = .nothing) : s.registerWrite 4 0x18 (v.setWidth 64) = .next s := by
  have hcommand : decodeCommand s.cmdContext { reg := .gcmd, value := v.setWidth 64 } = .nothing := by
    simpa [decodeCommand, State.cmdContext] using hdec
  rw [registerWrite_gcmd hc hreserved, submitCommand_nothing hcommand]

/-! ## The obligation -/

/-- Settles O27, register by register: what is stored is `State.stored` of each doubleword, and what becomes pending is said by
`ccmdCommand`, `iotlbCommand` and `pmenCommand`. -/
theorem registerWritesSubmitTheirCommand : Obligations.RegisterWritesSubmitTheirCommand := by
  intro s hc
  refine ⟨fun v hq hv => ?ccmd, fun off v hgood hlow hhigh hq hv hp => ?iotlb, fun v hregion hv => ?pmen,
    fun v hreserved hlevel hshot => registerWrite_gcmd_nothing hc hreserved (decodeGcmd_nothing hreserved hlevel hshot)⟩
  case ccmd =>
    refine ⟨s.ccmdWritten v, registerWrite_ccmd hc hv hq, getLsbD_storedQuad_ccmd s v, ccmdWritten_cmd_of_clear,
      ccmdWritten_cmd_of_set, rfl, registerWrite_ccmd_upper hc hv hq, _, registerWrite_ccmd_lower hc hv,
      getLsbD_stored_ccmd_low s v⟩
  case iotlb =>
    exact ⟨s.iotlbWritten v, registerWrite_iotlb hc hq hgood hhigh hv hlow hp, getLsbD_storedQuad_iotlb s v,
      iotlbWritten_cmd_of_clear, iotlbWritten_cmd_of_set, rfl, registerWrite_iotlb_upper hc hq hgood hhigh hv⟩
  case pmen =>
    refine ⟨_, registerWrite_pmen hc hregion hv, pmenCommand_of_eq, fun h => ⟨_, pmenCommand_of_ne h, ?_⟩,
      getLsbD_stored_pmen hregion v, rfl⟩
    have hchanges : v.getLsbD 31 ≠ (s.stored .pmen 0 v).prs := by rwa [prs_stored_pmen hregion]
    exact (decodePmen_eq _ v).trans (if_pos (bne_iff_ne.2 hchanges))

end Sys2Proof.Machine
end
section
/-! The status bits of absent facilities along a step (45_global_commands.md R431): bits of GSTS_REG are Set by the submission of
GCMD.WBF and by commands that are performed, both of which need the facility; everything else leaves the register alone. -/

namespace Sys2Proof

/-- The implementation has the facility that the bit of GSTS_REG is the status of (11_registers_a.md R64, 45_global_commands.md
R431). -/
def Config.hasStatus (c : Config) : Nat → Bool
  | 29 => c.afl
  | 28 => c.afl
  | 27 => c.rwbf
  | 26 => c.qi
  | 25 => c.ir
  | 24 => c.ir
  | 23 => c.ir && c.arch == .intel64
  | _ => true

end Sys2Proof

namespace Sys2Proof.Machine

variable {s t : State}

/-! ## The invariant, bit by bit -/

theorem compatibility_absent_iff (c : Config) : c.hasStatus 23 = false ↔ c.ir = false ∨ c.arch = .itanium := by
  cases harch : c.arch <;> simp [Config.hasStatus, harch]

theorem implemented_iff :
    s.Implemented ↔ (∀ b, s.cfg.hasStatus b = false → s.reg.gsts.getLsbD b = false) ∧ s.HoldsDescriptors := by
  constructor
  · intro k
    refine ⟨fun b hb => ?_, k.pending⟩
    unfold Config.hasStatus at hb
    split at hb
    · exact (k.log hb).1
    · exact (k.log hb).2
    · exact k.flush hb
    · exact k.queue hb
    · exact (k.interrupts hb).1
    · exact (k.interrupts hb).2
    · exact k.compatibility ((compatibility_absent_iff s.cfg).1 hb)
    · cases hb
  · rintro ⟨hoff, hpending⟩
    exact
      { log := fun h => ⟨hoff 29 h, hoff 28 h⟩
        flush := hoff 27
        queue := hoff 26
        interrupts := fun h => ⟨hoff 25 h, hoff 24 h⟩
        compatibility := fun h => hoff 23 ((compatibility_absent_iff s.cfg).2 h)
        pending := hpending }

/-- What Sets bits of present facilities only, and puts only descriptors in the queue engine, keeps the invariant. -/
theorem State.Implemented.of_gained (k : s.Implemented) (hcfg : t.cfg = s.cfg)
    (hgsts : ∀ b, s.cfg.hasStatus b = false → t.reg.gsts.getLsbD b = true → s.reg.gsts.getLsbD b = true)
    (hpending : ∀ p ∈ t.iq.pending, p ∈ s.iq.pending ∨ p.instr.isDescriptor = true) : t.Implemented := by
  obtain ⟨hoff, hd⟩ := implemented_iff.1 k
  refine implemented_iff.2 ⟨fun b hb => ?_, fun p hp => (hpending p hp).elim (hd p) id⟩
  rw [hcfg] at hb
  exact Bool.eq_false_iff.2 fun hset => Bool.eq_false_iff.1 (hoff b hb) (hgsts b hb hset)

/-- What leaves GSTS_REG alone and puts nothing in the queue engine keeps the invariant. -/
theorem State.Implemented.of_same_gsts (k : s.Implemented) (hcfg : t.cfg = s.cfg) (hgsts : t.reg.gsts = s.reg.gsts)
    (hpending : ∀ p ∈ t.iq.pending, p ∈ s.iq.pending) : t.Implemented :=
  k.of_gained hcfg (fun _ _ hset => hgsts ▸ hset) fun p hp => .inl (hpending p hp)

theorem State.Implemented.setGsts (k : s.Implemented) (b : Nat) {v : Bool} (hv : v = true → s.cfg.hasStatus b = true) :
    (s.setGsts b v).Implemented := by
  refine k.of_gained rfl (fun b' habsent hset => ?_) fun p hp => .inl hp
  rw [State.setGsts_reg] at hset
  by_cases hb : b' = b
  · subst hb
    rw [getLsbD_setBit] at hset
    split at hset
    · rw [hv hset] at habsent
      cases habsent
    · exact hset
  · rwa [getLsbD_setBit_of_ne _ _ hb] at hset

/-! ## Operations that leave GSTS_REG and the queue engine alone -/

theorem SameUnit.implemented (h : SameUnit s t) (k : s.Implemented) : t.Implemented :=
  k.of_same_gsts h.cfg h.gsts fun _ hp => h.iq ▸ hp

theorem SameButEvents.implemented (h : SameButEvents s t) (k : s.Implemented) : t.Implemented :=
  k.of_same_gsts h.cfg h.gsts fun _ hp => h.iq ▸ hp

theorem SameButFaultLog.implemented (h : SameButFaultLog s t) (k : s.Implemented) : t.Implemented :=
  k.of_same_gsts h.cfg h.gsts fun _ hp => h.iq ▸ hp

theorem RequestEffect.implemented (h : RequestEffect s t) (k : s.Implemented) : t.Implemented :=
  k.of_same_gsts h.cfg h.gsts fun _ hp => h.iq ▸ hp

/-! ## The meanings of the instructions -/

@[simp] theorem State.resetPfIndex_iq (s : State) : s.resetPfIndex.iq = s.iq := by
  unfold State.resetPfIndex
  split <;> rfl

@[simp] theorem State.invalidateContext_iq (s : State) (code : BitVec 2) (did : DomainId) (sid : SourceId) (fm : BitVec 2) :
    (s.invalidateContext code did sid fm).iq = s.iq := by
  rw [(contextInvalidated_invalidateContext s code did sid fm).frame]

@[simp] theorem State.invalidateIotlb_iq (s : State) (reports : Bool) (code : BitVec 3) (dr dw : Bool) (did : DomainId)
    (addr : PageNumber) (am : BitVec 6) (ih : Bool) : (s.invalidateIotlb reports code dr dw did addr am ih).iq = s.iq := by
  rw [(iotlbInvalidated_invalidateIotlb s reports code dr dw did addr am ih).frame]

@[simp] theorem State.invalidateIec_iq (s : State) (g : Bool) (im : BitVec 5) (iidx : BitVec 16) :
    (s.invalidateIec g im iidx).iq = s.iq := by
  rw [invalidateIec_spec]

@[simp] theorem State.issueDeviceInvalidation_iq (s : State) (sid : SourceId) (sbit : Bool) (addr : PageNumber) :
    (s.issueDeviceInvalidation sid sbit addr).iq = s.iq := by
  unfold State.issueDeviceInvalidation
  split <;> rfl

theorem implemented_of_execGcmdTe {enable : Bool} (h : execGcmdTe enable s = .next t) (k : s.Implemented) : t.Implemented := by
  unfold execGcmdTe at h
  split at h
  · split at h
    · cases h
    · cases h; exact ((sameUnit_drainAll_if_drainsDma s).implemented k).setGsts 31 fun _ => rfl
  · cases h
    have drained := (sameUnit_drainWhere s fun f => (drainable .read f || drainable .write f) && s.coin 60).implemented k
    exact (drained.setGsts 31 (v := false) nofun).of_same_gsts (by simp) (by simp) (by simp)

theorem implemented_of_execGcmdIre {enable : Bool} (hir : s.cfg.ir = true) (h : execGcmdIre enable s = .next t)
    (k : s.Implemented) : t.Implemented := by
  have present : ∀ u : State, u.cfg = s.cfg → u.cfg.hasStatus 25 = true := fun u hu => (congrArg Config.ir hu).trans hir
  unfold execGcmdIre at h
  split at h
  · split at h
    · cases h
    · cases h
      have hdrained := sameUnit_drainInterrupts s (fun _ => true)
      exact (hdrained.implemented k).setGsts 25 fun _ => present _ hdrained.cfg
  · cases h
    have drained := (sameUnit_drainInterrupts s fun _ => s.coin 61).implemented k
    exact (drained.setGsts 25 (v := false) nofun).of_same_gsts (by simp) (by simp) (by simp)

theorem implemented_of_execGcmdEafl {enable : Bool} (hafl : s.cfg.afl = true) (h : execGcmdEafl enable s = .next t)
    (k : s.Implemented) : t.Implemented := by
  unfold execGcmdEafl at h
  split at h
  · cases h
  split at h
  · cases h
  · cases h; exact k.setGsts 28 fun _ => hafl

theorem implemented_of_execGcmdQie {enable : Bool} (hqi : s.cfg.qi = true) (h : execGcmdQie enable s = .next t)
    (k : s.Implemented) : t.Implemented := by
  unfold execGcmdQie at h
  split at h
  · cases h; exact k.setGsts 26 fun _ => hqi
  split at h
  · cases h; exact (k.setGsts 26 fun _ => hqi).of_same_gsts rfl rfl fun _ hp => hp
  · cases h

theorem implemented_of_execPmenEpm {enable : Bool} (h : execPmenEpm enable s = .next t) (k : s.Implemented) :
    t.Implemented := by
  unfold execPmenEpm at h
  split at h
  · split at h
    · cases h
    · cases h; exact ((sameUnit_drainAll_if_drainsDma s).implemented k).of_same_gsts rfl rfl fun _ hp => hp
  · cases h; exact k.of_same_gsts rfl rfl fun _ hp => hp

theorem implemented_of_execDevIotlbInvDsc {mip : BitVec 5} {sid : SourceId} {sbit : Bool} {addr : PageNumber}
    (h : execDevIotlbInvDsc mip sid sbit addr s = .next t) (k : s.Implemented) : t.Implemented := by
  unfold execDevIotlbInvDsc at h
  split at h
  · cases h; exact (sameUnit_tick s).implemented k
  · cases h; exact k.of_same_gsts (by simp) (by simp) (by simp)

theorem implemented_of_execInvWaitDsc {iflag sw fn : Bool} {data : BitVec 32} {addr : BitVec 62}
    (h : execInvWaitDsc iflag sw fn data addr s = .next t) (k : s.Implemented) : t.Implemented := by
  have posted : (if sw then postStatus data addr s else s).Implemented := by
    split
    · exact k.of_same_gsts rfl rfl fun _ hp => hp
    · exact k
  unfold execInvWaitDsc at h
  split at h
  · cases h
  · cases h
    split
    · exact (events_completeWithInterrupt _).implemented posted
    · exact posted

/-- An instruction of the implementation, or a descriptor whichever, Sets no status bit of an absent facility. -/
theorem implemented_of_exec {i : Instr} (hi : i.isDescriptor = true ∨ wellFormed s.cfg i = true) (h : exec i s = .next t)
    (k : s.Implemented) : t.Implemented := by
  have present : i.isDescriptor = false → wellFormed s.cfg i = true := fun hc =>
    hi.resolve_left fun hd => Bool.noConfusion (hc.symm.trans hd)
  cases i with
  | ccInvDsc => cases h; exact k.of_same_gsts (by simp) (by simp) (by simp)
  | iotlbInvDsc => cases h; exact k.of_same_gsts (by simp) (by simp) (by simp)
  | devIotlbInvDsc => exact implemented_of_execDevIotlbInvDsc h k
  | iecInvDsc => cases h; exact k.of_same_gsts (by simp) (by simp) (by simp)
  | invWaitDsc _ _ fn => exact implemented_of_execInvWaitDsc (fn := fn) h k
  | gcmdTe => exact implemented_of_execGcmdTe h k
  | gcmdSrtp => cases h; exact (k.setGsts 30 (v := true) fun _ => rfl).of_same_gsts rfl rfl fun _ hp => hp
  | gcmdSfl => cases h; exact (k.setGsts 29 (v := true) fun _ => present rfl).of_same_gsts rfl rfl fun _ hp => hp
  | gcmdEafl => exact implemented_of_execGcmdEafl (present rfl) h k
  | gcmdWbf => cases h; exact ((sameUnit_flushWriteBuffer s).implemented k).setGsts 27 nofun
  | gcmdQie => exact implemented_of_execGcmdQie (present rfl) h k
  | gcmdIre => exact implemented_of_execGcmdIre (present rfl) h k
  | gcmdSirtp => cases h; exact (k.setGsts 24 (v := true) fun _ => present rfl).of_same_gsts rfl rfl fun _ hp => hp
  | gcmdCfi => cases h; exact k.setGsts 23 fun _ => present rfl
  | ccmdIcc => cases h; exact k.of_same_gsts (by simp) (by simp) (by simp)
  | iotlbIvt => cases h; exact k.of_same_gsts (by simp) (by simp) (by simp)
  | pmenEpm => exact implemented_of_execPmenEpm h k

/-! ## Register accesses -/

theorem implemented_of_registerRead {bytes off : Nat} (h : s.registerRead bytes off = .next t) (k : s.Implemented) :
    t.Implemented := by
  have pushed := (sameUnit_flushPosted s).implemented k
  unfold State.registerRead at h
  split at h
  · cases h
  split at h <;> (cases h; exact pushed.of_same_gsts rfl rfl fun _ hp => hp)

/-- Of the submissions only that of GCMD.WBF Sets a status bit, WBFS (R426). -/
theorem implemented_beginCommand {i : Instr} (hi : wellFormed s.cfg i = true) (k : s.Implemented) :
    (s.beginCommand i).Implemented := by
  cases i with
  | gcmdSrtp => exact k.setGsts 30 fun _ => rfl
  | gcmdSfl => exact k.setGsts 29 fun _ => hi
  | gcmdWbf => exact k.setGsts 27 fun _ => hi
  | gcmdSirtp => exact k.setGsts 24 fun _ => hi
  | _ => exact k

theorem implemented_of_submitCommand {c : CmdWrite} (h : s.submitCommand c = .next t) (k : s.Implemented) :
    t.Implemented := by
  unfold State.submitCommand at h
  split at h
  · cases h
  · cases h; exact k
  next i _ =>
    split at h
    · cases h
    next hwell =>
      split at h
      · cases h
      · cases h
        exact (implemented_beginCommand (by simpa using hwell) k).of_same_gsts rfl rfl fun _ hp => hp

theorem implemented_of_afterWrite {r : RegId} {d : Nat} {w : BitVec 128} (h : s.afterWrite r d w = .next t)
    (k : s.Implemented) : t.Implemented := by
  cases r with
  | gcmd => exact implemented_of_submitCommand h k
  | pmen | ccmd | iotlb =>
    simp only [State.afterWrite] at h
    split at h
    · exact implemented_of_submitCommand h k
    · cases h; exact k
  | fsts | frcd => cases h; exact (events_serviceFaultEvent s).implemented k
  | fectl => cases h; exact (events_releaseFaultEvent s).implemented k
  | ics => cases h; exact (events_serviceInvEvent s).implemented k
  | iectl => cases h; exact (events_releaseInvEvent s).implemented k
  | iqa =>
    simp only [State.afterWrite] at h
    split at h <;> (cases h; exact k.of_same_gsts rfl rfl fun _ hp => hp)
  | iqt => cases h; exact k.of_same_gsts rfl rfl fun _ hp => hp
  | _ => cases h; exact k

theorem implemented_of_writeDword {off : Nat} {v : BitVec 32} (h : s.writeDword off v = .next t) (k : s.Implemented) :
    t.Implemented := by
  unfold State.writeDword at h
  split at h
  · cases h; exact k
  · simp only at h
    split at h
    · cases h
    · refine implemented_of_afterWrite h (k.of_same_gsts (by simp) (by simp) fun p hp => ?_)
      rwa [setReg_frame] at hp

theorem implemented_of_registerWrite {bytes off : Nat} {v : BitVec 64} (h : s.registerWrite bytes off v = .next t)
    (k : s.Implemented) : t.Implemented := by
  unfold State.registerWrite at h
  split at h
  · cases h
  split at h
  · exact implemented_of_writeDword h k
  · obtain ⟨u, hlow, hhigh⟩ := andThen_next h
    exact implemented_of_writeDword hhigh (implemented_of_writeDword hlow k)

/-! ## Processors and requests -/

theorem implemented_of_processorMove {m : CpuMove} (h : s.processorMove m = .next t) (k : s.Implemented) : t.Implemented := by
  unfold State.processorMove at h
  split at h
  · cases h
  cases m with
  | store cpu a data =>
    simp only at h
    split at h
    · split at h
      · exact implemented_of_registerWrite h k
      · cases h
    · cases h; exact (sameUnit_processorStore s cpu a data).implemented k
  | writeback cpu a => cases h; exact (sameUnit_writeback s cpu a).implemented k
  | drain => cases h; exact (sameUnit_drainStore s).implemented k

theorem implemented_of_processorMoves {ms : List CpuMove} (h : s.processorMoves ms = .next t) (k : s.Implemented) :
    t.Implemented := by
  induction ms generalizing s with
  | nil => cases h; exact k
  | cons m ms ih =>
    obtain ⟨u, hm, hms⟩ := andThen_next h
    exact ih hms (implemented_of_processorMove hm k)

theorem implemented_of_processorLoad {a n : Nat} (h : s.processorLoad a n = .next t) (k : s.Implemented) : t.Implemented := by
  unfold State.processorLoad at h
  split at h
  · cases h
  split at h
  · split at h
    · exact implemented_of_registerRead h k
    · cases h
  · cases h; exact (sameUnit_emit s _).implemented k

theorem implemented_of_processRequest {r : Request} {race : List CpuMove} (h : s.processRequest r race = .next t)
    (k : s.Implemented) : t.Implemented := by
  obtain ⟨u, hrequest, hrace⟩ := request_processRequest h
  exact implemented_of_processorMoves hrace (hrequest.implemented k)

/-! ## The engines -/

theorem implemented_of_runCommand (h : s.runCommand = .next t) (k : s.Implemented) : t.Implemented := by
  have emptied : ({ s with cmd := none } : State).Implemented := k.of_same_gsts rfl rfl fun _ hp => hp
  unfold State.runCommand at h
  split at h
  · cases h; exact k
  split at h
  · cases h
  · cases h; exact emptied
  · split at h
    next hwell => exact implemented_of_exec (s := { s with cmd := none }) (.inr hwell) h emptied
    · cases h

theorem implemented_retire (p : Pending) (k : s.Implemented) : (s.retire p).Implemented := by
  refine k.of_same_gsts (by simp) (by simp) fun q hq => ?_
  unfold State.retire at hq
  split at hq
  · exact hq
  · exact List.mem_of_mem_filter hq

theorem implemented_of_executePending {p : Pending} (hp : p ∈ s.iq.pending) (h : s.executePending p = .next t)
    (k : s.Implemented) : t.Implemented := by
  obtain ⟨u, hexec, hretire⟩ := andThen_next h
  cases hretire
  have current : ({ s with iq := { s.iq with current := p.seq } } : State).Implemented :=
    k.of_same_gsts rfl rfl fun _ hq => hq
  exact implemented_retire p (implemented_of_exec (.inl (k.pending p hp)) hexec current)

theorem implemented_of_executeSeq {seq : Nat} (h : s.executeSeq seq = .next t) (k : s.Implemented) : t.Implemented := by
  unfold State.executeSeq at h
  split at h
  · next p hfind => exact implemented_of_executePending (List.mem_of_find?_eq_some hfind) h k
  · cases h; exact k

theorem implemented_fetchDescriptor (vs : List Memory) (k : s.Implemented) : (s.fetchDescriptor vs).Implemented :=
  k.of_gained (by simp) (fun b _ hset => by rwa [State.fetchDescriptor_gsts] at hset)
    fun p hp => .inr (k.holdsDescriptors.fetchDescriptor vs p hp)

theorem implemented_fetchAhead (slot : Nat) (vs : List Memory) (k : s.Implemented) : (s.fetchAhead slot vs).Implemented := by
  unfold State.fetchAhead
  split
  · exact k.of_same_gsts rfl rfl fun _ hp => hp
  · exact k

theorem implemented_of_fetchAndRun (h : s.fetchAndRun = .next t) (k : s.Implemented) : t.Implemented := by
  unfold State.fetchAndRun at h
  split at h
  · cases h; exact implemented_fetchDescriptor _ k
  · exact implemented_of_executeSeq h (implemented_fetchDescriptor _ k)

theorem implemented_setHolds (fault inv : Bool) (k : s.Implemented) : (s.setHolds fault inv).Implemented := by
  have held : ({ s with feHold := fault, ieHold := inv } : State).Implemented := k.of_same_gsts rfl rfl fun _ hp => hp
  exact ((events_releaseFaultEvent _).trans (events_releaseInvEvent _)).implemented held

theorem implemented_of_settle (h : s.settle = .next t) (k : s.Implemented) : t.Implemented := by
  unfold State.settle at h
  split at h
  · exact (faultLog_logOldestFault h).implemented k
  split at h
  · cases h; exact (sameUnit_commitAt s 0).implemented k
  split at h
  · cases h; exact (sameUnit_commitIrqAt s 0).implemented k
  split at h
  · cases h; exact (sameUnit_deliver s 0).implemented k
  split at h
  · cases h; exact (sameUnit_drainStore s).implemented k
  split at h
  · cases h; exact implemented_setHolds false false k
  split at h
  · next p hfind => exact implemented_of_executePending (List.mem_of_find?_eq_some hfind) h k
  · cases h; exact k

theorem implemented_of_idleStep (h : s.idleStep = .next t) (k : s.Implemented) : t.Implemented := by
  unfold State.idleStep at h
  split at h
  · exact implemented_of_runCommand h k
  split at h
  · next p hfind => exact implemented_of_executePending (List.mem_of_find?_eq_some hfind) h k
  split at h
  · exact implemented_of_fetchAndRun h k
  · exact implemented_of_settle h k

/-! ## A step -/

/-- After a reset of the implementation every status bit is 0 (70_reset_and_hazards.md R530). -/
theorem implemented_initial (cfg : Config) : (State.initial cfg).Implemented :=
  implemented_iff.2 ⟨fun _ _ => BitVec.getLsbD_zero, fun _ hp => nomatch hp⟩

theorem implemented_powergood (s : State) : s.powergood.Implemented :=
  (implemented_initial s.cfg).of_same_gsts rfl rfl fun _ hp => hp

theorem implemented_atsCompletion (sid : SourceId) (vec : BitVec 32) (cc : BitVec 3) (k : s.Implemented) :
    (s.atsCompletion sid vec cc).Implemented := by
  unfold State.atsCompletion
  split
  · exact (sameUnit_emit s _).implemented k
  split
  · exact (events_raiseStatus s 5 (by decide)).implemented k
  · exact ((sameUnit_drainWhere s _).implemented k).of_same_gsts rfl rfl fun p hp =>
      (sameUnit_drainWhere s _).iq ▸ List.mem_of_mem_filter hp

theorem implemented_timeout (i : Nat) (k : s.Implemented) : (s.timeout i).Implemented := by
  unfold State.timeout
  split
  · exact k
  next g _ =>
    have freed : ({ s with
        itags := s.itags.set i none
        iq := { s.iq with pending := s.iq.pending.filter (s.survivesTimeout g.seq) } } : State).Implemented :=
      k.of_same_gsts rfl rfl fun _ hp => List.mem_of_mem_filter hp
    exact (sameUnit_tick _).implemented ((events_raiseIte _).implemented freed)

theorem implemented_of_handle {e : Event} (h : s.handle e = .next t) (k : s.Implemented) : t.Implemented := by
  cases e with
  | cpu m => exact implemented_of_processorMove h k
  | load a n => exact implemented_of_processorLoad h k
  | regRead bytes off => exact implemented_of_registerRead h k
  | regWrite bytes off v => exact implemented_of_registerWrite h k
  | request r race => exact implemented_of_processRequest h k
  | upstreamInvRequest sid => cases h; exact (sameUnit_emit s _).implemented k
  | atsCompletion sid vec cc => cases h; exact implemented_atsCompletion sid vec cc k
  | timeout i => cases h; exact implemented_timeout i k
  | powergood => cases h; exact implemented_powergood s
  | runCommand => exact implemented_of_runCommand h k
  | fetch race => exact implemented_of_processorMoves h (implemented_fetchDescriptor _ k)
  | fetchAhead slot race => exact implemented_of_processorMoves h (implemented_fetchAhead slot _ k)
  | execute seq => exact implemented_of_executeSeq h k
  | commit n => cases h; exact (sameUnit_commitAt s n).implemented k
  | commitIrq n => cases h; exact (sameUnit_commitIrqAt s n).implemented k
  | deliver n => cases h; exact (sameUnit_deliver s n).implemented k
  | evict c n => cases h; cases c <;> exact k.of_same_gsts rfl rfl fun _ hp => hp
  | prefetch sid dva race => exact implemented_of_processorMoves h ((request_prefetch s sid dva _).implemented k)
  | logFault => exact (faultLog_logOldestFault h).implemented k
  | hold fault inv => cases h; exact implemented_setHolds fault inv k

/-- Settles O56, by the two kinds of step: an event of the agenda (`implemented_of_handle`), and the engines' own move
(`implemented_of_idleStep`). -/
theorem absentFacilitiesStayOff : Obligations.AbsentFacilitiesStayOff := by
  intro s t k h
  unfold step at h
  split at h
  · exact implemented_of_idleStep h k
  · next e rest _ => exact implemented_of_handle h (s := { s with agenda := rest }) (k.of_same_gsts rfl rfl fun _ hp => hp)

end Sys2Proof.Machine
end
section
/-! The global commands (45_global_commands.md R422 to R435): what each of GCMD.TE, SRTP, SFL, EAFL, WBF, QIE, IRE, SIRTP, CFI and
PMEN.EPM does where it completes, and where it is refused. -/

namespace Sys2Proof.Machine

variable {s : State}

/-! ## One bit of a status register -/

theorem getLsbD_setBit_of_lt {w : Nat} (v : BitVec w) {i : Nat} (hi : i < w) (b : Bool) (k : Nat) :
    (setBit v i b).getLsbD k = if k = i then b else v.getLsbD k := by
  rw [getLsbD_setBit]
  refine ite_congr (propext ⟨And.left, fun h => ⟨h, h ▸ hi⟩⟩) (fun _ => rfl) fun _ => rfl

theorem getLsbD_gsts_setGsts (s : State) {b : Nat} (hb : b < 32) (v : Bool) (k : Nat) :
    (s.setGsts b v).reg.gsts.getLsbD k = if k = b then v else s.reg.gsts.getLsbD k := getLsbD_setBit_of_lt _ hb v k

theorem getLsbD_pmen_setPrs (s : State) (v : Bool) (k : Nat) :
    (s.setPrs v).reg.pmen.getLsbD k = if k = 0 then v else s.reg.pmen.getLsbD k := getLsbD_setBit_of_lt _ (by decide) v k

/-- pf_index is 0 exactly while both remappings are disabled, else it stays (10_state.md R29). -/
theorem resetPfIndex_eq (s : State) : s.resetPfIndex =
    { s with log := { s.log with pfIndex := if s.tes || s.ires then s.log.pfIndex else 0 } } := by
  unfold State.resetPfIndex
  split <;> rfl

/-! ## Draining untranslated requests (R422; 43_caching_and_register_invalidation.md R360) -/

/-- Draining applies to the request. -/
def InFlight.isDrainable (f : InFlight) : Bool := drainable .read f || drainable .write f

theorem drainAll_eq (s : State) : s.drainAll = s.drainWhere InFlight.isDrainable := rfl

theorem drained_drainWhere_self (s : State) (p : InFlight → Bool) : Drained s (s.drainWhere p) p := drained_drainWhere s s.cache p

theorem drainAll_drained (s : State) : s.drainAll.drained = true := by
  rw [State.drained, drainAll_eq, drainWhere_inflight]
  exact List.all_eq_true.2 fun f hf => List.of_mem_filter (p := fun f : InFlight => !f.isDrainable) hf

theorem drainWhere_nothing (s : State) : s.drainWhere (fun _ => false) = s := by
  rw [drainWhere_spec]
  simp [State.commits]

/-- A drain of untranslated requests changes no byte but those that untranslated writes in flight go to. -/
theorem drainWhere_read_of_drainable {p : InFlight → Bool} (hp : ∀ f, p f = true → f.isDrainable = true)
    (hwf : s.mem.wf = true) {a : Nat} (ha : s.writtenInFlight (drainable .write) a = false) :
    (s.drainWhere p).mem.read a = s.mem.read a := by
  refine drainWhere_read s p hwf a fun f hf hsel hkind c hc hca => ?_
  have hwrite : drainable .write f = true := by simpa [InFlight.isDrainable, drainable, hkind] using hp f hsel
  have htouched : touches (enabledCells f.hpa f.enables f.data) a = true := List.any_eq_true.2 ⟨c, hc, beq_iff_eq.2 hca⟩
  have hnot := List.any_eq_false.1 ha f hf
  simp [hwrite, hkind, htouched] at hnot

/-- The drain that an enabling command owes before it completes (R422, R435; log 30). -/
def State.enableDrain (s : State) : State := if s.drainsDma then s.drainAll else s

theorem enableDrain_of_drains (h : (s.cfg.drd || s.cfg.dwd) = true) : s.enableDrain = s.drainAll := if_pos h

theorem enableDrain_of_not_drains (h : (s.cfg.drd || s.cfg.dwd) = false) : s.enableDrain = s :=
  if_neg (by rw [State.drainsDma, h]; exact Bool.false_ne_true)

theorem enableDrain_frame (s : State) : ∃ fs m w d o n, s.enableDrain =
    { s with inflight := fs, mem := m, wbuf := w, dirty := d, out := o, draws := n } := by
  unfold State.enableDrain
  split
  · obtain ⟨m, w, d, o, n, h⟩ := drainWhere_frame s InFlight.isDrainable
    exact ⟨_, m, w, d, o, n, h⟩
  · exact ⟨_, _, _, _, _, _, rfl⟩

/-- What an enabling command did of the drain, where it changed registers alone besides. -/
theorem enableDrain_spec (s : State) (r : Regs) :
    ((s.cfg.drd || s.cfg.dwd) = true → ({ s.enableDrain with reg := r } : State).drained = true ∧
      Drained s { s.enableDrain with reg := r } InFlight.isDrainable) ∧
    ((s.cfg.drd || s.cfg.dwd) = false → Drained s { s.enableDrain with reg := r } (fun _ => false)) ∧
    (s.mem.wf = true → ∀ a, s.writtenInFlight (drainable .write) a = false → s.enableDrain.mem.read a = s.mem.read a) := by
  refine ⟨fun h => ?drains, fun h => ?none, fun hwf a ha => ?memory⟩
  case drains =>
    rw [enableDrain_of_drains h]
    exact ⟨drainAll_drained s, (drained_drainWhere_self s _).withReg r⟩
  case none =>
    rw [enableDrain_of_not_drains h]
    exact (drained_nothing s).withReg r
  case memory =>
    unfold State.enableDrain
    split
    · exact drainWhere_read_of_drainable (fun _ h => h) hwf ha
    · rfl

/-- The drain that a disabling command may do: everything or nothing (log 30). -/
theorem drainWhere_all_or_none (s : State) (c : Bool) :
    (s.drainWhere (fun f => f.isDrainable && c) = s.drainAll) ∨ s.drainWhere (fun f => f.isDrainable && c) = s := by
  cases c with
  | true => simp only [Bool.and_true]; exact .inl rfl
  | false => simp only [Bool.and_false]; exact .inr (drainWhere_nothing s)

/-! ## GCMD.TE (R422) -/

theorem execGcmdTe_enable (h : s.latch.rtp ≠ none) : exec (.gcmdTe true) s = .next (s.enableDrain.setGsts 31 true) :=
  if_neg (by simpa using h)

/-- TES is Clear, and the logs follow, whatever was drained. -/
theorem resetPfIndex_of_te_clear (s : State) : (s.setGsts 31 false).resetPfIndex =
    { s.setGsts 31 false with log := { s.log with pfIndex := if s.ires then s.log.pfIndex else 0 } } := by
  have hires : (s.setGsts 31 false).ires = s.ires := getLsbD_setBit_of_ne _ _ (by decide)
  rw [resetPfIndex_eq, tes_setGsts, hires]
  rfl

theorem execGcmdTe_disable (s : State) : ∃ u, u = (s.drainWhere fun f => f.isDrainable && s.coin 60).tick ∧
    exec (.gcmdTe false) s = .next { u.setGsts 31 false with log := { u.log with pfIndex := if u.ires then u.log.pfIndex else 0 } } :=
  ⟨_, rfl, congrArg Host.Outcome.next (resetPfIndex_of_te_clear _)⟩

/-- Settles O19: the enabling drain is `enableDrain_spec`, the disabling one `drainWhere_all_or_none`. -/
theorem translationEnableAndDisable : Obligations.TranslationEnableAndDisable := by
  intro s
  constructor
  · intro hrtp
    obtain ⟨hdrains, hnone, hmemory⟩ := enableDrain_spec s (s.enableDrain.setGsts 31 true).reg
    obtain ⟨fs, m, w, d, o, n, hframe⟩ := enableDrain_frame s
    refine ⟨s.enableDrain.setGsts 31 true, execGcmdTe_enable hrtp, fun k => ?_, hdrains, hnone, hmemory, ?_⟩
    · rw [getLsbD_gsts_setGsts _ (by decide), hframe]
    · rw [hframe]
      rfl
  · obtain ⟨m, w, d, o, n, hframe⟩ := drainWhere_frame s fun f => f.isDrainable && s.coin 60
    obtain ⟨u, rfl, hexec⟩ := execGcmdTe_disable s
    refine ⟨_, hexec, fun k => ?bits, ?drain, ?log, fun hwf a ha => ?memory, ?frame⟩
    case bits =>
      refine (getLsbD_gsts_setGsts _ (by decide) false k).trans ?_
      rw [hframe]
      rfl
    case drain =>
      obtain hall | hnothing := drainWhere_all_or_none s (s.coin 60)
      · rw [hall]
        have hdrained := drained_drainWhere_self s InFlight.isDrainable
        exact .inl ⟨drainAll_drained s, hdrained.inflight, hdrained.mem, hdrained.wbuf, hdrained.dirty, hdrained.out⟩
      · rw [hnothing]
        have hdrained := drained_nothing s
        exact .inr ⟨hdrained.inflight, hdrained.mem, hdrained.wbuf, hdrained.dirty, hdrained.out⟩
    case log =>
      rw [hframe]
      rfl
    case memory => exact drainWhere_read_of_drainable (fun f h => (Bool.and_eq_true _ _ ▸ h).1) hwf ha
    case frame =>
      rw [hframe]
      rfl

/-! ## The pointer commands (R423, R424, R429) -/

/-- A latched page number is bits HAW-1:12 of its register. -/
theorem getLsbD_pageNumber (cfg : Config) (v : BitVec 64) {k : Nat} (hk : k < 52) :
    (pageNumber cfg v).getLsbD k = (v.getLsbD (k + 12) && decide (k + 12 < cfg.haw)) := by
  have hin : k < cfg.haw - 12 ↔ k + 12 < cfg.haw := by omega
  have hpage : 4096 = 2 ^ 12 := rfl
  rw [pageNumber, BitVec.getLsbD_ofNat, Nat.testBit_mod_two_pow, hpage, Nat.testBit_div_two_pow, BitVec.testBit_toNat,
    decide_eq_true hk, Bool.true_and, Bool.and_comm, decide_eq_decide.2 hin]

/-- A field's bits are the register's. -/
theorem getLsbD_extractLsb'_of_lt {w : Nat} (v : BitVec w) (lo : Nat) {n k : Nat} (hk : k < n) :
    (v.extractLsb' lo n).getLsbD k = v.getLsbD (k + lo) := by
  rw [BitVec.getLsbD_extractLsb', decide_eq_true hk, Bool.true_and, Nat.add_comm]

/-- Settles O20, command by command. -/
theorem pointerCommandsLatchTheirRegister : Obligations.PointerCommandsLatchTheirRegister := by
  intro s
  refine ⟨⟨_, _, rfl, rfl, fun _ => getLsbD_pageNumber s.cfg _, getLsbD_gsts_setGsts _ (by decide) true, rfl⟩,
    ⟨_, _, rfl, rfl, fun _ => getLsbD_pageNumber s.cfg _, fun _ => getLsbD_extractLsb'_of_lt _ 9, rfl,
      getLsbD_gsts_setGsts _ (by decide) true, rfl⟩,
    ⟨_, _, rfl, rfl, fun _ => getLsbD_pageNumber s.cfg _, fun _ => getLsbD_extractLsb'_of_lt _ 0,
      getLsbD_gsts_setGsts _ (by decide) true, rfl⟩⟩

/-! ## EAFL, QIE and CFI (R425, R427, R430) -/

theorem quiesced_iff (s : State) : s.quiesced = true ↔
    s.qh = s.qt ∧ s.iq.lastWait = true ∧ s.iq.pending = [] ∧ ∀ g ∈ s.itags, g = none := by
  simp [State.quiesced, and_assoc]

/-- A remapping that is enabled bars the command before its pointer is looked at. -/
theorem execGcmdEafl_of_active (b : Bool) (h : s.tes = true ∨ s.ires = true) :
    exec (.gcmdEafl b) s = .refused .loggingMethodActive := if_pos (Bool.or_eq_true_iff.2 h)

theorem execGcmdEafl_of_inactive (b : Bool) (htes : s.tes = false) (hires : s.ires = false) : exec (.gcmdEafl b) s =
    if b && s.latch.flp.isNone then .refused .pointerNeverSet else .next (s.setGsts 28 b) := if_neg (by simp [htes, hires])

theorem execGcmdEafl_next {b : Bool} (htes : s.tes = false) (hires : s.ires = false) (hflp : b = true → s.latch.flp ≠ none) :
    exec (.gcmdEafl b) s = .next (s.setGsts 28 b) := by
  rw [execGcmdEafl_of_inactive b htes hires, if_neg (by simpa using hflp)]

theorem execGcmdQie_disable (h : s.quiesced = true) : exec (.gcmdQie false) s = .next (s.setGsts 26 false).resetHead :=
  if_pos h

/-- Settles O21, command by command. -/
theorem levelCommandsSetOneStatusBit : Obligations.LevelCommandsSetOneStatusBit := by
  intro b s
  refine ⟨fun htes hires hflp => ?eafl, ?enable, fun hempty hwait hpending htags => ?disable, ?cfi⟩
  case eafl => exact ⟨_, execGcmdEafl_next htes hires hflp, getLsbD_gsts_setGsts s (by decide) b, rfl⟩
  case enable => exact ⟨_, rfl, getLsbD_gsts_setGsts s (by decide) true, rfl⟩
  case disable =>
    exact ⟨_, execGcmdQie_disable ((quiesced_iff s).2 ⟨hempty, hwait, hpending, htags⟩), getLsbD_gsts_setGsts s (by decide) false,
      qh_eq_zero rfl, rfl⟩
  case cfi => exact ⟨_, rfl, getLsbD_gsts_setGsts s (by decide) b, rfl⟩

/-! ## GCMD.WBF (R426) -/

/-- Settles O22: the flush is `flushWriteBuffer_spec`. -/
theorem writeBufferFlushPerformsTheStores : Obligations.WriteBufferFlushPerformsTheStores := by
  intro s
  refine ⟨_, rfl, fun k => ?_, fun h => ?_, fun h => ?_, flushWriteBuffer_cpuView s, flushWriteBuffer_read s, ?_⟩
  · rw [getLsbD_gsts_setGsts _ (by decide), (sameUnit_flushWriteBuffer s).gsts]
  · simp [flushWriteBuffer_spec, h]
  · simp [flushWriteBuffer_spec, h]
  · rw [flushWriteBuffer_spec]
    rfl

/-! ## GCMD.IRE (R428; 43_caching_and_register_invalidation.md R364) -/

theorem drainInterrupts_all (s : State) : s.drainInterrupts (fun _ => true) =
    { s with irqs := [], out := (s.irqs.map (fun q => Output.interrupt q.message)).reverse ++ s.out } := by
  rw [drainInterrupts_spec, List.filter_true, Bool.not_true, List.filter_false]

theorem drainInterrupts_none (s : State) : s.drainInterrupts (fun _ => false) = s := by
  rw [drainInterrupts_spec, List.filter_false, Bool.not_false, List.filter_true]
  rfl

/-- The drain that the disabling command may do: every interrupt in flight or none (log 30). -/
theorem drainInterrupts_all_or_none (s : State) (c : Bool) :
    ((s.drainInterrupts fun _ => c).irqs = [] ∧
      (s.drainInterrupts fun _ => c).out = (s.irqs.map (fun q => Output.interrupt q.message)).reverse ++ s.out) ∨
    ((s.drainInterrupts fun _ => c).irqs = s.irqs ∧ (s.drainInterrupts fun _ => c).out = s.out) := by
  cases c with
  | true => rw [drainInterrupts_all]; exact .inl ⟨rfl, rfl⟩
  | false => rw [drainInterrupts_none]; exact .inr ⟨rfl, rfl⟩

theorem execGcmdIre_enable (h : s.latch.irtp ≠ none) :
    exec (.gcmdIre true) s = .next ((s.drainInterrupts fun _ => true).setGsts 25 true) := if_neg (by simpa using h)

/-- IRES is Clear, and the logs follow, whatever was drained. -/
theorem resetPfIndex_of_ire_clear (s : State) : (s.setGsts 25 false).resetPfIndex =
    { s.setGsts 25 false with log := { s.log with pfIndex := if s.tes then s.log.pfIndex else 0 } } := by
  have hires : (s.setGsts 25 false).ires = false := getLsbD_setBit_self _ _ _ (by decide)
  rw [resetPfIndex_eq, tes_setGsts_of_ne _ _ (by decide), hires, Bool.or_false]
  rfl

theorem execGcmdIre_disable (s : State) : ∃ u, u = (s.drainInterrupts fun _ => s.coin 61).tick ∧
    exec (.gcmdIre false) s = .next { u.setGsts 25 false with log := { u.log with pfIndex := if u.tes then u.log.pfIndex else 0 } } :=
  ⟨_, rfl, congrArg Host.Outcome.next (resetPfIndex_of_ire_clear _)⟩

/-- Settles O23: the drains are `drainInterrupts_all` and `drainInterrupts_all_or_none`. -/
theorem interruptEnableAndDisable : Obligations.InterruptEnableAndDisable := by
  intro s
  constructor
  · intro hirtp
    refine ⟨_, execGcmdIre_enable hirtp, ?_⟩
    rw [drainInterrupts_all]
    exact ⟨rfl, rfl, getLsbD_gsts_setGsts _ (by decide) true, rfl⟩
  · obtain ⟨u, rfl, hexec⟩ := execGcmdIre_disable s
    refine ⟨_, hexec, drainInterrupts_all_or_none s (s.coin 61), ?_⟩
    rw [drainInterrupts_spec]
    exact ⟨getLsbD_gsts_setGsts _ (by decide) false, rfl, rfl⟩

/-! ## PMEN.EPM (R435) -/

theorem execPmenEpm_enable (h : overlapsProtected s.cfg s.reg 0xFEE00000 0x100000 = false) :
    exec (.pmenEpm true) s = .next (s.enableDrain.setPrs true) := if_neg (by rw [h]; exact Bool.false_ne_true)

/-- Settles O24: the drain is `enableDrain_spec`. -/
theorem protectedMemoryEnableAndDisable : Obligations.ProtectedMemoryEnableAndDisable := by
  intro s
  refine ⟨fun hfree => ?_, _, rfl, getLsbD_pmen_setPrs s false, rfl⟩
  obtain ⟨hdrains, hnone, hmemory⟩ := enableDrain_spec s (s.enableDrain.setPrs true).reg
  obtain ⟨fs, m, w, d, o, n, hframe⟩ := enableDrain_frame s
  refine ⟨s.enableDrain.setPrs true, execPmenEpm_enable hfree, fun k => ?_, hdrains, hnone, hmemory, ?_⟩
  · rw [getLsbD_pmen_setPrs, hframe]
  · rw [hframe]
    rfl

/-! ## Refusals (R425, R427, R435; 70_reset_and_hazards.md R533) -/

theorem execGcmdTe_refused_iff (b : Bool) :
    exec (.gcmdTe b) s = .refused .pointerNeverSet ↔ b = true ∧ s.latch.rtp = none := by
  show execGcmdTe b s = _ ↔ _
  cases b <;> cases h : s.latch.rtp <;> simp [execGcmdTe, h]

theorem execGcmdIre_refused_iff (b : Bool) :
    exec (.gcmdIre b) s = .refused .pointerNeverSet ↔ b = true ∧ s.latch.irtp = none := by
  show execGcmdIre b s = _ ↔ _
  cases b <;> cases h : s.latch.irtp <;> simp [execGcmdIre, h]

theorem execGcmdEafl_active_iff (b : Bool) :
    exec (.gcmdEafl b) s = .refused .loggingMethodActive ↔ s.tes = true ∨ s.ires = true := by
  refine ⟨fun h => by_contra fun hinactive => ?_, execGcmdEafl_of_active b⟩
  simp only [not_or, Bool.not_eq_true] at hinactive
  rw [execGcmdEafl_of_inactive b hinactive.1 hinactive.2] at h
  split at h <;> cases h

theorem execGcmdEafl_pointer_iff (b : Bool) : exec (.gcmdEafl b) s = .refused .pointerNeverSet ↔
    s.tes = false ∧ s.ires = false ∧ b = true ∧ s.latch.flp = none := by
  by_cases hactive : s.tes = true ∨ s.ires = true
  · rw [execGcmdEafl_of_active b hactive]
    rcases hactive with htes | hires <;> simp [*]
  · simp only [not_or, Bool.not_eq_true] at hactive
    obtain ⟨htes, hires⟩ := hactive
    rw [execGcmdEafl_of_inactive b htes hires]
    cases b <;> simp [htes, hires]

theorem execGcmdQie_refused_iff (b : Bool) :
    exec (.gcmdQie b) s = .refused .queueNotQuiesced ↔ b = false ∧ ¬ s.quiesced = true := by
  show execGcmdQie b s = _ ↔ _
  cases b <;> cases h : s.quiesced <;> simp [execGcmdQie, h]

theorem execPmenEpm_refused_iff (b : Bool) : exec (.pmenEpm b) s = .refused .protectedOverInterrupts ↔
    b = true ∧ overlapsProtected s.cfg s.reg 0xFEE00000 0x100000 = true := by
  show execPmenEpm b s = _ ↔ _
  cases b <;> cases h : overlapsProtected s.cfg s.reg 0xFEE00000 0x100000 <;> simp [execPmenEpm, h]

/-- Settles O25, command by command. -/
theorem commandsRefusedExactlyWhen : Obligations.CommandsRefusedExactlyWhen := fun b s =>
  ⟨execGcmdTe_refused_iff b, execGcmdIre_refused_iff b, execGcmdEafl_active_iff b, execGcmdEafl_pointer_iff b,
    (execGcmdQie_refused_iff b).trans (and_congr_right' (not_congr (quiesced_iff s))), execPmenEpm_refused_iff b⟩

end Sys2Proof.Machine
end
section
/-! Events and fault logging (60_exceptions.md R490 to R510): what a fault event condition does, what raising a queue status does, and
what the two loggers do with a record. -/

namespace Sys2Proof.Machine

variable {s t : State}

/-! ## The fault event (R501, R503) -/

/-- What a fault event condition posts at once: the message that the registers describe, unless the mask or a transient condition
holds it (12_registers_b.md R101, R103, R104). -/
def State.faultEventPosts (s : State) : List Posted :=
  if s.feMask || s.feHold then [] else [.message .fault (messageAddress s.reg.feuaddr s.reg.feaddr) s.reg.fedata]

/-- A fault event was generated on the way from `s` to `t`: IP is Set, or the message is posted; nothing else changed. -/
structure FaultEventRaised (s t : State) : Prop where
  pending : t.fePending = (s.feMask || s.feHold)
  others : ∀ k, k ≠ 30 → t.reg.fectl.getLsbD k = s.reg.fectl.getLsbD k
  posted : t.posted = s.posted ++ s.faultEventPosts
  frame : t = { s with reg := { s.reg with fectl := t.reg.fectl }, posted := t.posted }

theorem fePending_setFePending (s : State) (v : Bool) : (s.setFePending v).fePending = v :=
  getLsbD_setBit_self s.reg.fectl 30 v (by decide)

theorem faultEventRaised_faultEventCondition (s : State) : FaultEventRaised s s.faultEventCondition := by
  obtain ⟨hmask, hhold, hsent⟩ | ⟨hheld, hkept⟩ := faultEventCondition_cases s
  · have hfree : (s.feMask || s.feHold) = false := by rw [hmask, hhold]; rfl
    rw [hsent]
    exact
      { pending := (fePending_setFePending _ false).trans hfree.symm
        others := fun k hk => (getLsbD_setBit_of_ne _ false hk).trans (getLsbD_setBit_of_ne s.reg.fectl true hk)
        posted := by rw [State.faultEventPosts, hfree]; rfl
        frame := rfl }
  · have hbarred : (s.feMask || s.feHold) = true := Bool.or_eq_true_iff.2 hheld
    rw [hkept]
    exact
      { pending := (fePending_setFePending s true).trans hbarred.symm
        others := fun k hk => getLsbD_setBit_of_ne s.reg.fectl true hk
        posted := by rw [State.faultEventPosts, hbarred]; exact (List.append_nil _).symm
        frame := rfl }

theorem FaultEventRaised.fsts (h : FaultEventRaised s t) : t.reg.fsts = s.reg.fsts := by rw [h.frame]

theorem getLsbD_fsts_setFsts (s : State) {b : Nat} (hb : b < 32) (k : Nat) :
    (s.setFsts b).reg.fsts.getLsbD k = if k = b then true else s.reg.fsts.getLsbD k := getLsbD_setBit_of_lt _ hb true k

/-! ## Raising a status of the queue (R510) -/

theorem raiseStatus_of_waiting (h : s.anyStatus = true) (b : Nat) : s.raiseStatus b = s.setFsts b := if_pos h

theorem raiseStatus_of_serviced (h : s.anyStatus = false) (b : Nat) :
    s.raiseStatus b = (s.setFsts b).faultEventCondition := if_neg (by rw [h]; exact Bool.false_ne_true)

theorem getLsbD_fsts_raiseStatus (s : State) {b : Nat} (hb : b < 32) (k : Nat) :
    (s.raiseStatus b).reg.fsts.getLsbD k = if k = b then true else s.reg.fsts.getLsbD k := by
  rw [raiseStatus_fsts, getLsbD_setBit_of_lt _ hb]

theorem raiseStatus_frame (s : State) (b : Nat) : s.raiseStatus b =
    { s with reg := { s.reg with fsts := (s.raiseStatus b).reg.fsts, fectl := (s.raiseStatus b).reg.fectl },
             posted := (s.raiseStatus b).posted } := by
  cases h : s.anyStatus with
  | true => rw [raiseStatus_of_waiting h]; rfl
  | false => rw [raiseStatus_of_serviced h, (faultEventRaised_faultEventCondition _).frame]; rfl

/-- Settles O40: with a status waiting only the bit is Set (`raiseStatus_of_waiting`), with none the event is generated too
(`faultEventRaised_faultEventCondition`). -/
theorem raisingAQueueStatus : Obligations.RaisingAQueueStatus := by
  intro s b hb
  refine ⟨getLsbD_fsts_raiseStatus s (by omega), fun hwaiting => ?_, fun hserviced => ?_, raiseStatus_frame s b⟩
  · rw [raiseStatus_of_waiting hwaiting]
    exact ⟨rfl, rfl⟩
  · have hraised := faultEventRaised_faultEventCondition (s.setFsts b)
    rw [raiseStatus_of_serviced hserviced]
    exact ⟨hraised.pending, hraised.others, hraised.posted⟩

/-! ## FAULT_COMPRESSION

The parameter decides whether a fault may be compressed away (00_scope.md R10), and nothing else that the loggers do. -/

/-- The implementation with the parameter FAULT_COMPRESSION as given. -/
def State.withCompression (s : State) (b : Bool) : State := { s with cfg := { s.cfg with faultCompression := b } }

theorem withCompression_ite (b : Bool) (p : Prop) [Decidable p] (u v : State) :
    (if p then u else v).withCompression b = if p then u.withCompression b else v.withCompression b :=
  apply_ite (State.withCompression · b) p u v

theorem faultEventCondition_eq (s : State) : s.faultEventCondition =
    if s.feMask || s.feHold then s.setFePending true else ((s.setFePending true).sendFaultEvent).setFePending false := by
  obtain ⟨hmask, hhold, hsent⟩ | ⟨hheld, hkept⟩ := faultEventCondition_cases s
  · rw [hsent, hmask, hhold]
    rfl
  · rw [hkept, if_pos (Bool.or_eq_true_iff.2 hheld)]

theorem faultEventCondition_withCompression (s : State) (b : Bool) :
    (s.withCompression b).faultEventCondition = s.faultEventCondition.withCompression b := by
  rw [faultEventCondition_eq, faultEventCondition_eq, withCompression_ite]
  rfl

/-! ## Primary logging (R491) -/

/-- `log_primary` of a fault that is neither lost to an overflow before nor compressed away. -/
def State.recordPrimary (s : State) (rec : BitVec 128) : State :=
  if recordF (s.faultReg s.log.pfIndex) then s.setFsts 0
  else if s.ppf then (s.writeFaultReg rec).advancePfIndex
  else if s.anyStatus then ((s.writeFaultReg rec).setFri s.log.pfIndex).advancePfIndex
  else (((s.writeFaultReg rec).setFri s.log.pfIndex).faultEventCondition).advancePfIndex

theorem logPrimary_eq (s : State) (rec : BitVec 128) : s.logPrimary rec =
    if s.pfo then s else if s.collapses (recordSid rec) then s else s.recordPrimary rec := rfl

theorem recordPrimary_withCompression (s : State) (rec : BitVec 128) (b : Bool) :
    (s.withCompression b).recordPrimary rec = (s.recordPrimary rec).withCompression b := by
  have hevent := faultEventCondition_withCompression ((s.writeFaultReg rec).setFri s.log.pfIndex) b
  have hadvance := congrArg State.advancePfIndex hevent
  simp only [State.recordPrimary, withCompression_ite]
  exact ite_congr rfl (fun _ => rfl) fun _ => ite_congr rfl (fun _ => rfl) fun _ => ite_congr rfl (fun _ => rfl) fun _ => hadvance

theorem recordPrimary_cfg (s : State) (rec : BitVec 128) : (s.recordPrimary rec).cfg = s.cfg := by
  unfold State.recordPrimary
  split
  · rfl
  split
  · rfl
  split
  · rfl
  · exact (events_faultEventCondition _).cfg

/-- A fault that may be compressed away has a record of its source-id pending. -/
theorem record_of_collapses {sid : SourceId} (h : s.collapses sid = true) :
    ∃ n, recordF (s.faultReg n) = true ∧ recordSid (s.faultReg n) = sid := by
  simp only [State.collapses, Bool.and_eq_true, List.any_eq_true, beq_iff_eq] at h
  obtain ⟨⟨-, rec, hmem, hrecord⟩, -⟩ := h
  obtain ⟨n, hn⟩ := List.mem_iff_getElem?.1 hmem
  have hreg : s.faultReg n = rec := by simp [State.faultReg, hn]
  exact ⟨n, hreg ▸ hrecord⟩

theorem logPrimary_without_compression (h : s.cfg.faultCompression = false) (rec : BitVec 128) :
    s.logPrimary rec = if s.pfo then s else s.recordPrimary rec := by
  have hkept : s.collapses (recordSid rec) = false := by simp [State.collapses, h]
  rw [logPrimary_eq, hkept, if_neg Bool.false_ne_true]

/-- A fault is compressed away, or logged as without compression. -/
theorem logPrimary_compressed (s : State) (rec : BitVec 128) :
    (s.logPrimary rec = s ∧ ∃ n, recordF (s.faultReg n) = true ∧ recordSid (s.faultReg n) = recordSid rec) ∨
    s.logPrimary rec = { (s.withCompression false).logPrimary rec with cfg := s.cfg } := by
  have hplain : (s.withCompression false).logPrimary rec = (if s.pfo then s else s.recordPrimary rec).withCompression false := by
    rw [logPrimary_without_compression rfl, recordPrimary_withCompression, withCompression_ite]
    rfl
  have hback : ({ (if s.pfo then s else s.recordPrimary rec).withCompression false with cfg := s.cfg } : State) =
      if s.pfo then s else s.recordPrimary rec := by
    split
    · rfl
    · rw [← recordPrimary_cfg s rec]
      rfl
  rw [hplain, hback, logPrimary_eq]
  split
  · exact .inr rfl
  · split
    next hcollapses => exact .inl ⟨rfl, record_of_collapses hcollapses⟩
    · exact .inr rfl

/-! ### A record that is taken -/

/-- The register at pf_index has the record's bits; F is Set, and AT reads 0 without Device-IOTLBs (10_state.md R39). -/
theorem faultReg_writeFaultReg (hindex : s.log.pfIndex < s.reg.frcd.length) (rec : BitVec 128) :
    (s.writeFaultReg rec).faultReg s.log.pfIndex =
      setBit (if s.cfg.di then rec else rec &&& ~~~(maskBits 128 125 124)) 127 true := by
  simp [State.writeFaultReg, State.faultReg, hindex]

theorem faultReg_writeFaultReg_of_ne {m : Nat} (hm : m ≠ s.log.pfIndex) (rec : BitVec 128) :
    (s.writeFaultReg rec).faultReg m = s.faultReg m := by
  simp [State.writeFaultReg, State.faultReg, List.getElem?_set_ne hm.symm]

theorem getLsbD_without_at (di : Bool) (rec : BitVec 128) (k : Nat) :
    (if di then rec else rec &&& ~~~(maskBits 128 125 124)).getLsbD k = (rec.getLsbD k && (di || decide (k ≠ 124 ∧ k ≠ 125))) := by
  cases di with
  | true => rw [if_pos rfl, Bool.true_or, Bool.and_true]
  | false =>
    rw [if_neg Bool.false_ne_true, BitVec.getLsbD_and, BitVec.getLsbD_not, getLsbD_maskBits _ _ _ _ (by decide), Bool.false_or]
    rcases Nat.lt_or_ge k 128 with hk | hk
    · have hout : (decide (k < 128) && !(decide (124 ≤ k) && decide (k ≤ 125) && decide (k < 128))) =
          decide (k ≠ 124 ∧ k ≠ 125) := by
        rw [Bool.eq_iff_iff]
        simp
        omega
      rw [hout]
    · rw [BitVec.getLsbD_of_ge rec k hk, Bool.false_and, Bool.false_and]

theorem advancePfIndex_log (hindex : s.log.pfIndex < s.cfg.faultRegs) : s.advancePfIndex.log = { s.log with
    pfIndex := if s.tes = false ∧ s.ires = false then 0
               else if s.log.pfIndex + 1 = s.cfg.faultRegs then 0 else s.log.pfIndex + 1 } := by
  have hwrap : (s.log.pfIndex + 1) % s.cfg.faultRegs = if s.log.pfIndex + 1 = s.cfg.faultRegs then 0 else s.log.pfIndex + 1 := by
    split
    next hlast => rw [hlast, Nat.mod_self]
    next hlast => exact Nat.mod_eq_of_lt (by omega)
  rw [State.advancePfIndex, hwrap]
  cases s.tes <;> cases s.ires <;> rfl

/-- What a taken record does besides entering its register and moving pf_index: FRI takes the index where PPF was Clear, and the
event is generated where no status was waiting (R491). -/
structure PrimaryReported (s t : State) : Prop where
  waiting : s.ppf = true → t.reg.fsts = s.reg.fsts ∧ t.reg.fectl = s.reg.fectl ∧ t.posted = s.posted
  fri : s.ppf = false → t.reg.fsts = setField s.reg.fsts 8 (BitVec.ofNat 8 s.log.pfIndex)
  silent : s.ppf = false → s.anyStatus = true → t.posted = s.posted ∧ t.reg.fectl = s.reg.fectl
  event : s.ppf = false → s.anyStatus = false → t.fePending = (s.feMask || s.feHold) ∧
    (∀ k, k ≠ 30 → t.reg.fectl.getLsbD k = s.reg.fectl.getLsbD k) ∧ t.posted = s.posted ++ s.faultEventPosts

/-- A record that is taken enters its register, then is reported, then pf_index moves on. -/
theorem recordPrimary_of_room (hroom : recordF (s.faultReg s.log.pfIndex) = false) (rec : BitVec 128) :
    ∃ u, s.recordPrimary rec = u.advancePfIndex ∧ PrimaryReported s u ∧
      u = { s with reg := { s.reg with frcd := (s.writeFaultReg rec).reg.frcd, fsts := u.reg.fsts, fectl := u.reg.fectl },
                   posted := u.posted } := by
  rw [State.recordPrimary, hroom, if_neg Bool.false_ne_true]
  cases hppf : s.ppf with
  | true =>
    exact ⟨s.writeFaultReg rec, rfl,
      { waiting := fun _ => ⟨rfl, rfl, rfl⟩
        fri := fun h => nomatch hppf.symm.trans h
        silent := fun h => nomatch hppf.symm.trans h
        event := fun h => nomatch hppf.symm.trans h }, rfl⟩
  | false =>
    cases hany : s.anyStatus with
    | true =>
      exact ⟨(s.writeFaultReg rec).setFri s.log.pfIndex, rfl,
        { waiting := fun h => nomatch hppf.symm.trans h
          fri := fun _ => rfl
          silent := fun _ _ => ⟨rfl, rfl⟩
          event := fun _ h => nomatch hany.symm.trans h }, rfl⟩
    | false =>
      have hraised := faultEventRaised_faultEventCondition ((s.writeFaultReg rec).setFri s.log.pfIndex)
      exact ⟨_, rfl,
        { waiting := fun h => nomatch hppf.symm.trans h
          fri := fun _ => hraised.fsts
          silent := fun _ h => nomatch hany.symm.trans h
          event := fun _ _ => ⟨hraised.pending, hraised.others, hraised.posted⟩ },
        hraised.frame.trans (by rw [hraised.fsts]; rfl)⟩

/-- Settles O34: compression is `logPrimary_compressed`, a full log `State.setFsts`, a record taken `recordPrimary_of_room`. -/
theorem primaryLoggingRecordsTheFault : Obligations.PrimaryLoggingRecordsTheFault := by
  intro s rec hinv
  refine ⟨fun hafls => ?selected, fun _ => logPrimary_compressed s rec, fun hplain => ?_⟩
  case selected =>
    rw [State.logFault, hafls, if_neg Bool.false_ne_true]
    rfl
  rw [logPrimary_without_compression hplain]
  refine ⟨fun hpfo => if_pos hpfo, fun hpfo hfull => ?full, fun hpfo hroom => ?room⟩
  case full =>
    rw [hpfo, if_neg Bool.false_ne_true, State.recordPrimary, if_pos hfull]
    exact ⟨getLsbD_setBit_self _ _ _ (by decide), fun k hk => getLsbD_setBit_of_ne _ true hk, rfl⟩
  case room =>
    obtain ⟨u, hrecord, hreport, hframe⟩ := recordPrimary_of_room hroom rec
    have hindex : s.log.pfIndex < s.reg.frcd.length := hinv.frcd ▸ hinv.pfIndex
    have hregs : ∀ m, u.faultReg m = (s.writeFaultReg rec).faultReg m := fun m => by rw [hframe]; rfl
    have hlog : u.advancePfIndex.log = { s.log with pfIndex := if s.tes = false ∧ s.ires = false then 0
        else if s.log.pfIndex + 1 = s.cfg.faultRegs then 0 else s.log.pfIndex + 1 } := by
      rw [hframe]
      exact advancePfIndex_log (s := { s with reg := _, posted := _ }) hinv.pfIndex
    rw [hpfo, if_neg Bool.false_ne_true, hrecord]
    refine ⟨?taken, fun k hk => ?fields, fun m hm => (hregs m).trans (faultReg_writeFaultReg_of_ne hm rec), hlog, hreport.waiting,
      fun hppf => ⟨?fri, fun k hk => ?others, hreport.silent hppf, hreport.event hppf⟩, ?frame⟩
    case taken =>
      show recordF (u.faultReg s.log.pfIndex) = true
      rw [hregs, faultReg_writeFaultReg hindex]
      exact getLsbD_setBit_self _ _ _ (by decide)
    case fields =>
      show (u.faultReg s.log.pfIndex).getLsbD k = _
      rw [hregs, faultReg_writeFaultReg hindex, getLsbD_setBit_of_ne _ _ hk, getLsbD_without_at]
    case fri => exact (congrArg _ (hreport.fri hppf)).trans (extractLsb'_setField_self _ _ _ (by decide))
    case others =>
      refine (congrArg (BitVec.getLsbD · k) (hreport.fri hppf)).trans ?_
      exact getLsbD_setField_of_outside _ _ (by decide) (by omega)
    case frame =>
      rw [hframe]
      rfl

end Sys2Proof.Machine
end
section
/-! Advanced fault logging (60_exceptions.md R495): the log's overflow, and the record that is posted to its slot. -/

namespace Sys2Proof.Machine

variable {s t : State}

/-- `log_advanced` of a fault that is neither lost to an overflow before nor compressed away. -/
def State.recordAdvanced (s : State) (p : FaultLogPointer) (rec : BitVec 128) : Result :=
  if s.log.afWrapped then .next s.overflowAdvanced
  else if unitWritable s.cfg (p.base.toNat * 4096 + 16 * s.log.afIndex) 16 then
    .next (((s.postRecord (p.base.toNat * 4096 + 16 * s.log.afIndex) rec).reportAdvanced).advanceAfIndex p.size (recordSid rec))
  else .refused .unitWriteError

/-- What FAULT_COMPRESSION drops: a fault of the source-id that was logged last, where the draw says so (log 33). -/
def State.dropsRepeat (s : State) (rec : BitVec 128) : Bool :=
  s.cfg.faultCompression && s.log.afPrevSid == some (recordSid rec) && s.coin 7

theorem logAdvanced_eq {p : FaultLogPointer} (hp : s.latch.flp = some p) (rec : BitVec 128) : s.logAdvanced rec =
    if s.afo then .next s else if s.dropsRepeat rec then .next s else s.recordAdvanced p rec := by
  rw [State.logAdvanced, hp]
  rfl

theorem logAdvanced_of_kept {p : FaultLogPointer} (hp : s.latch.flp = some p) {rec : BitVec 128} (hkept : s.dropsRepeat rec = false) :
    s.logAdvanced rec = if s.afo then .next s else s.recordAdvanced p rec := by
  rw [logAdvanced_eq hp, hkept, if_neg Bool.false_ne_true]

/-! ## The log is full (R495, R500) -/

theorem overflowAdvanced_cases (s : State) :
    s.overflowAdvanced = s.setFsts 2 ∨ s.anyStatus = false ∧ s.overflowAdvanced = (s.setFsts 2).faultEventCondition := by
  rw [State.overflowAdvanced]
  split
  next hevent => exact .inr ⟨Bool.not_eq_true' _ ▸ (Bool.and_eq_true_iff.1 hevent).1, rfl⟩
  · exact .inl rfl

theorem overflowAdvanced_withCompression (s : State) (b : Bool) :
    (s.withCompression b).overflowAdvanced = s.overflowAdvanced.withCompression b := by
  rw [State.overflowAdvanced, State.overflowAdvanced, withCompression_ite, ← faultEventCondition_withCompression]
  rfl

/-! ## The record is posted (R495) -/

/-- The two writes that carry a record, in the order of the draw (20_memory.md R144; log 44). -/
def State.recordHalves (s : State) (a : Nat) (rec : BitVec 128) : List Posted :=
  if s.coin 8 then [.logWrite (a + 8) (rec.extractLsb' 64 64 &&& 0x7FFFFFFFFFFFFFFF), .logWrite a (rec.extractLsb' 0 64)]
  else [.logWrite a (rec.extractLsb' 0 64), .logWrite (a + 8) (rec.extractLsb' 64 64 &&& 0x7FFFFFFFFFFFFFFF)]

theorem getLsbD_lower_half (rec : BitVec 128) {j : Nat} (hj : j < 64) : (rec.extractLsb' 0 64).getLsbD j = rec.getLsbD j := by
  simp [hj]

/-- Bit 127 of the record is bit 63 of its upper half, and is written as 0. -/
theorem getLsbD_upper_half (rec : BitVec 128) {j : Nat} (hj : j < 64) :
    (rec.extractLsb' 64 64 &&& 0x7FFFFFFFFFFFFFFF).getLsbD j = (rec.getLsbD (64 + j) && decide (j ≠ 63)) := by
  have hmask : (0x7FFFFFFFFFFFFFFF : BitVec 64) = maskBits 64 62 0 := rfl
  have hin : (decide (0 ≤ j) && decide (j ≤ 62) && decide (j < 64)) = decide (j ≠ 63) := by
    rw [Bool.eq_iff_iff]
    simp
    omega
  rw [hmask, BitVec.getLsbD_and, getLsbD_maskBits _ _ _ _ (by decide), hin]
  simp [hj]

theorem recordHalves_spec (s : State) (a : Nat) (rec : BitVec 128) :
    ∃ lo hi, (∀ j, j < 64 → lo.getLsbD j = rec.getLsbD j) ∧
      (∀ j, j < 64 → hi.getLsbD j = (rec.getLsbD (64 + j) && decide (j ≠ 63))) ∧
      (s.recordHalves a rec = [.logWrite a lo, .logWrite (a + 8) hi] ∨
        s.recordHalves a rec = [.logWrite (a + 8) hi, .logWrite a lo]) := by
  refine ⟨_, _, fun j hj => getLsbD_lower_half rec hj, fun j hj => getLsbD_upper_half rec hj, ?_⟩
  rw [State.recordHalves]
  split
  · exact .inr rfl
  · exact .inl rfl

/-- What a posted record does besides its two writes: the first record of the log Sets APF, and generates the event where no status
was waiting (R495, R501). -/
structure AdvancedReported (s t : State) : Prop where
  apf : ∀ k, t.reg.fsts.getLsbD k = if k = 3 ∧ s.log.afIndex = 0 then true else s.reg.fsts.getLsbD k
  others : ∀ k, k ≠ 30 → t.reg.fectl.getLsbD k = s.reg.fectl.getLsbD k
  later : s.apf = true ∨ s.log.afIndex ≠ 0 → t.reg = s.reg
  waiting : s.anyStatus = true → t.reg.fectl = s.reg.fectl
  event : s.apf = false → s.log.afIndex = 0 → s.anyStatus = false → t.fePending = (s.feMask || s.feHold)
  posted : t.posted = s.posted ++
    (if s.apf || !(s.log.afIndex == 0) || s.anyStatus || s.feMask || s.feHold then [] else
      [.message .fault (messageAddress s.reg.feuaddr s.reg.feaddr) s.reg.fedata])
  frame : t = { s with reg := { s.reg with fsts := t.reg.fsts, fectl := t.reg.fectl }, posted := t.posted }

/-- A later record of the log, or APF Set already: nothing changes. -/
theorem advancedReported_later (h : s.apf = true ∨ s.log.afIndex ≠ 0) : AdvancedReported s s where
  apf k := by
    by_cases hk : k = 3 ∧ s.log.afIndex = 0
    · rw [if_pos hk, hk.1]
      exact h.resolve_right (not_not_intro hk.2)
    · rw [if_neg hk]
  others _ _ := rfl
  later _ := rfl
  waiting _ := rfl
  event hapf hindex := absurd h (by rw [hapf, hindex]; decide)
  posted := by
    have hnone : (s.apf || !(s.log.afIndex == 0)) = true := by simpa using h
    rw [hnone]
    exact (List.append_nil _).symm
  frame := rfl

theorem getLsbD_fsts_first (hindex : s.log.afIndex = 0) (k : Nat) :
    (s.setFsts 3).reg.fsts.getLsbD k = if k = 3 ∧ s.log.afIndex = 0 then true else s.reg.fsts.getLsbD k := by
  rw [getLsbD_fsts_setFsts s (by decide) k]
  exact if_congr (iff_self_and.2 fun _ => hindex) rfl rfl

theorem advancedReported_waiting (hapf : s.apf = false) (hindex : s.log.afIndex = 0) (hany : s.anyStatus = true) :
    AdvancedReported s (s.setFsts 3) where
  apf := getLsbD_fsts_first hindex
  others _ _ := rfl
  later h := absurd h (by rw [hapf, hindex]; decide)
  waiting _ := rfl
  event _ _ h := nomatch hany.symm.trans h
  posted := by
    rw [hany, Bool.or_true, Bool.true_or, Bool.true_or, if_pos rfl, List.append_nil]
    rfl
  frame := rfl

theorem advancedReported_event (hapf : s.apf = false) (hindex : s.log.afIndex = 0) (hany : s.anyStatus = false) :
    AdvancedReported s (s.setFsts 3).faultEventCondition :=
  have hraised := faultEventRaised_faultEventCondition (s.setFsts 3)
  { apf := by rw [hraised.fsts]; exact getLsbD_fsts_first hindex
    others := hraised.others
    later := fun h => absurd h (by rw [hapf, hindex]; decide)
    waiting := fun h => nomatch hany.symm.trans h
    event := fun _ _ _ => hraised.pending
    posted := by
      rw [hraised.posted, hapf, hindex, hany]
      rfl
    frame := hraised.frame.trans (by rw [hraised.fsts]; rfl) }

theorem advancedReported_reportAdvanced (s : State) : AdvancedReported s s.reportAdvanced := by
  rw [State.reportAdvanced]
  split
  next hlater => exact advancedReported_later (by simpa using hlater)
  next hfirst =>
    obtain ⟨hapf, hindex⟩ : s.apf = false ∧ s.log.afIndex = 0 := by simpa using hfirst
    split
    next hany => exact advancedReported_waiting hapf hindex hany
    next hany => exact advancedReported_event hapf hindex (Bool.not_eq_true _ ▸ hany)

theorem advanceAfIndex_eq (hwrap : t.log.afWrapped = false) (size : BitVec 3) (sid : SourceId) :
    t.advanceAfIndex size sid = { t with log := { t.log with
      afIndex := if t.log.afIndex + 1 = 2 ^ (size.toNat + 8) then 0 else t.log.afIndex + 1
      afWrapped := decide (t.log.afIndex + 1 = 2 ^ (size.toNat + 8))
      afPrevSid := some sid } } := by
  rw [State.advanceAfIndex]
  split
  next hend => rw [decide_eq_true hend]
  next hend => rw [decide_eq_false hend, ← hwrap]

theorem reportAdvanced_withCompression (s : State) (b : Bool) :
    (s.withCompression b).reportAdvanced = s.reportAdvanced.withCompression b := by
  rw [State.reportAdvanced, State.reportAdvanced, withCompression_ite, withCompression_ite,
    ← faultEventCondition_withCompression]
  rfl

theorem advanceAfIndex_withCompression (s : State) (size : BitVec 3) (sid : SourceId) (b : Bool) :
    (s.withCompression b).advanceAfIndex size sid = (s.advanceAfIndex size sid).withCompression b := by
  rw [State.advanceAfIndex, State.advanceAfIndex, withCompression_ite]
  rfl

/-! ## FAULT_COMPRESSION -/

theorem recordAdvanced_cfg {p : FaultLogPointer} {rec : BitVec 128} (h : s.recordAdvanced p rec = .next t) : t.cfg = s.cfg := by
  rw [State.recordAdvanced] at h
  split at h
  · obtain rfl := Host.Outcome.next.inj h
    obtain hset | ⟨-, hevent⟩ := overflowAdvanced_cases s
    · rw [hset]
      rfl
    · rw [hevent, (faultEventRaised_faultEventCondition _).frame]
      rfl
  next hwrap =>
    split at h
    · obtain rfl := Host.Outcome.next.inj h
      have hreport := advancedReported_reportAdvanced (s.postRecord (p.base.toNat * 4096 + 16 * s.log.afIndex) rec)
      rw [State.advanceAfIndex, hreport.frame]
      split <;> rfl
    · exact nomatch h

theorem recordAdvanced_withCompression (s : State) (p : FaultLogPointer) (rec : BitVec 128) (b : Bool) :
    (s.withCompression b).recordAdvanced p rec = andThen (s.recordAdvanced p rec) fun t => .next (t.withCompression b) := by
  have hreport := reportAdvanced_withCompression (s.postRecord (p.base.toNat * 4096 + 16 * s.log.afIndex) rec) b
  rw [State.recordAdvanced, State.recordAdvanced, overflowAdvanced_withCompression]
  split
  next hwrap => rw [if_pos (show s.log.afWrapped = true from hwrap)]; rfl
  next hwrap =>
    rw [if_neg (show ¬ s.log.afWrapped = true from hwrap)]
    split
    next hmem =>
      rw [if_pos (show unitWritable s.cfg (p.base.toNat * 4096 + 16 * s.log.afIndex) 16 = true from hmem)]
      exact congrArg Host.Outcome.next ((congrArg (State.advanceAfIndex · p.size (recordSid rec)) hreport).trans
        (advanceAfIndex_withCompression _ _ _ b))
    next hmem =>
      rw [if_neg (show ¬ unitWritable s.cfg (p.base.toNat * 4096 + 16 * s.log.afIndex) 16 = true from hmem)]
      rfl

theorem dropsRepeat_of_other {rec : BitVec 128}
    (h : s.cfg.faultCompression = true → s.log.afPrevSid ≠ some (rec.extractLsb' 64 16)) : s.dropsRepeat rec = false := by
  rw [State.dropsRepeat, Bool.and_assoc, Bool.and_eq_false_imp]
  intro hcompress
  have hne : (s.log.afPrevSid == some (recordSid rec)) = false := beq_eq_false_iff_ne.2 (h hcompress)
  rw [hne, Bool.false_and]

/-- A fault is compressed away, or logged as without compression. -/
theorem logAdvanced_compressed {p : FaultLogPointer} (hp : s.latch.flp = some p) (rec : BitVec 128) :
    s.logAdvanced rec = .next s ∨
      s.logAdvanced rec = andThen ((s.withCompression false).logAdvanced rec) fun t => .next { t with cfg := s.cfg } := by
  have hplain : (s.withCompression false).logAdvanced rec = if s.afo then .next (s.withCompression false)
      else andThen (s.recordAdvanced p rec) fun t => .next (t.withCompression false) := by
    rw [← recordAdvanced_withCompression]
    exact logAdvanced_of_kept (s := s.withCompression false) hp rfl
  rw [hplain, logAdvanced_eq hp]
  split
  · exact .inl rfl
  split
  · exact .inl rfl
  right
  cases hrecord : s.recordAdvanced p rec with
  | next t =>
    have hcfg := recordAdvanced_cfg hrecord
    show Host.Outcome.next t = .next { t with cfg := s.cfg }
    rw [← hcfg]
  | fault e => rfl
  | refused e => rfl

theorem logFault_of_afls (hafls : s.afls = true) (rec : BitVec 128) :
    s.logFault rec = andThen (s.logAdvanced rec) fun t => .next t.tick := by
  rw [State.logFault, if_pos hafls]

/-- Settles O35: compression is `logAdvanced_compressed`, a full log `overflowAdvanced_cases`, a record taken
`advancedReported_reportAdvanced` with `recordHalves_spec`. -/
theorem advancedLoggingPostsTheRecord : Obligations.AdvancedLoggingPostsTheRecord := by
  intro s rec p hp
  refine ⟨fun hafls => ?selected, fun hafo => ?lost, fun _ _ => (logAdvanced_compressed hp rec).imp_right ?compressed,
    fun hafo hother => ?kept⟩
  case selected =>
    rw [logFault_of_afls hafls]
    exact ⟨fun t h => congrArg (andThen · _) h, fun e h => congrArg (andThen · _) h⟩
  case lost => rw [logAdvanced_eq hp, if_pos hafo]
  case compressed =>
    rintro h u rfl
    exact ⟨fun t ht => h.trans (congrArg (andThen · _) ht), fun e he => h.trans (congrArg (andThen · _) he)⟩
  case kept =>
    rw [logAdvanced_of_kept hp (dropsRepeat_of_other hother), hafo, if_neg Bool.false_ne_true, State.recordAdvanced]
    refine ⟨fun hfull => ⟨s.overflowAdvanced, if_pos hfull, ?full⟩, fun hroom a ha hmem => ?room⟩
    case full =>
      obtain hset | ⟨hany, hevent⟩ := overflowAdvanced_cases s
      · rw [hset]
        exact ⟨getLsbD_fsts_setFsts s (by decide), fun _ _ => rfl, .inl ⟨rfl, rfl⟩, rfl⟩
      · have hraised := faultEventRaised_faultEventCondition (s.setFsts 2)
        rw [hevent]
        exact ⟨by rw [hraised.fsts]; exact getLsbD_fsts_setFsts s (by decide), hraised.others,
          .inr ⟨hany, hraised.pending, hraised.posted⟩, hraised.frame.trans (by rw [hraised.fsts]; rfl)⟩
    case room =>
      subst ha
      have hreport := advancedReported_reportAdvanced (s.postRecord (p.base.toNat * 4096 + 16 * s.log.afIndex) rec)
      rw [hroom, if_neg Bool.false_ne_true, if_pos hmem]
      refine ⟨_, rfl, ?_⟩
      have hlog := congrArg State.log hreport.frame
      rw [advanceAfIndex_eq (by rw [hlog]; exact hroom), hlog]
      exact ⟨⟨_, _, hreport.posted, recordHalves_spec s _ rec, rfl⟩, rfl, hreport.apf, hreport.others, hreport.later,
        hreport.waiting, hreport.event, by rw [hreport.frame]; rfl⟩

end Sys2Proof.Machine
end
section
/-! Software's side of the two events (60_exceptions.md R502, R507, R511): unmasking, and servicing the status bits. -/

namespace Sys2Proof.Machine

variable {s : State}

/-! ## Writes that nothing but reserved bits bars -/

/-- No command, queue or protected region bars a write of the event registers. -/
def RegId.isEvent (r : RegId) : Bool := r == .fectl || r == .iectl || r == .ics || r == .fsts

theorem unbarred_of_isEvent {r : RegId} (hr : r.isEvent = true) :
    r.isCommandRegister = false ∧ (r == .iqa) = false ∧ r.isRegion = false ∧ ∀ i, ownedBy r i = false := by
  cases r with
  | fectl | iectl | ics | fsts => exact ⟨rfl, rfl, rfl, fun _ => rfl⟩
  | _ => exact nomatch hr

theorem writeRefusal_event {r : RegId} {k : Nat} {w : BitVec 128} (hr : r.isEvent = true) (h : s.KeepsReserved r k w) :
    s.writeRefusal r k w = none := by
  obtain ⟨hzero, hkept⟩ := h.tests
  obtain ⟨hcommand, hiqa, hregion, howner⟩ := unbarred_of_isEvent hr
  rw [State.writeRefusal, hzero, hkept, hcommand, hiqa, hregion]
  cases s.pendingCommand with
  | none => rfl
  | some i => simp [howner i]

theorem shiftLeft_dword_zero (v : BitVec 32) : (v.setWidth 128) <<< (32 * 0) = v.setWidth 128 := by
  rw [Nat.mul_zero, BitVec.shiftLeft_zero]

/-- The RsvdP bits of an event control register, written back as software last read them (10_state.md R35). -/
theorem keepsReserved_control {r : RegId} {v p : BitVec 32} (hv : v &&& 0x3FFFFFFF = p &&& 0x3FFFFFFF)
    (hlast : s.lastRead r = p.setWidth 128) (hpreserved : preservedBits s.cfg r = 0x3FFFFFFF)
    (hzero : mustBeZeroBits s.cfg r = 0) : s.KeepsReserved r 0 ((v.setWidth 128) <<< (32 * 0)) := by
  have hnarrow : (v ^^^ p) &&& 0x3FFFFFFF = 0 := xor_and_eq_zero hv
  have hwide : (v.setWidth 128 ^^^ p.setWidth 128) &&& 0x3FFFFFFF = 0 := by
    rw [← BitVec.setWidth_xor]
    exact congrArg (BitVec.setWidth 128) hnarrow
  refine ⟨.inl (by rw [hzero]; exact BitVec.and_zero), ?_⟩
  rw [shiftLeft_dword_zero, hlast, hpreserved, hwide]
  exact BitVec.zero_and

/-- Of an event control register software writes IM and nothing else (12_registers_b.md R101, R116). -/
theorem getLsbD_writtenValue_control {cfg : Config} {r : RegId} (hw : writableBits cfg r = 0x80000000)
    (hc : clearableBits cfg r = 0) (x v : BitVec 32) (k : Nat) :
    ((writtenValue cfg r (x.setWidth 128) ((v.setWidth 128) <<< (32 * 0)) (dwordMask 0)).setWidth 32).getLsbD k =
      if k = 31 then v.getLsbD 31 else x.getLsbD k := by
  have hwritable : ∀ m < 32, (0x80000000 : BitVec 128).getLsbD m = decide (m = 31) := by decide
  rcases Nat.lt_or_ge k 32 with hk | hk
  · have hdiv : k / 32 = 0 := by omega
    have hmod : k % 32 = k := by omega
    rw [BitVec.getLsbD_setWidth, getLsbD_writtenValue hc _ _ (by decide) (by omega), hw, hwritable k hk, hdiv, hmod,
      getLsbD_setWidth_of_le x (by decide)]
    by_cases h31 : k = 31
    · simp [h31]
    · simp [h31, hk]
  · rw [BitVec.getLsbD_of_ge _ k hk, BitVec.getLsbD_of_ge x k hk, if_neg (by omega)]

/-- A register of which software only clears bits. -/
theorem writtenValue_of_unwritable {cfg : Config} {r : RegId} (h : writableBits cfg r = 0) (old w m : BitVec 128) :
    writtenValue cfg r old w m = old &&& ~~~(w &&& clearableBits cfg r) := by
  simp only [writtenValue, h, BitVec.ofNat_eq_ofNat, BitVec.zero_and, BitVec.and_zero, BitVec.or_zero, BitVec.not_zero,
    BitVec.and_allOnes]

/-! ## Unmasking (R502, R507) -/

theorem releaseFaultEvent_sent (hp : s.fePending = true) (hm : s.feMask = false) (hh : s.feHold = false) :
    s.releaseFaultEvent = (s.sendFaultEvent).setFePending false := if_pos (by rw [hp, hm, hh]; rfl)

theorem releaseInvEvent_sent (hp : s.iePending = true) (hm : s.ieMask = false) (hh : s.ieHold = false) :
    s.releaseInvEvent = (s.sendInvEvent).setIePending false := if_pos (by rw [hp, hm, hh]; rfl)

theorem registerWrite_fectl {v : BitVec 32} (hv : v &&& 0x3FFFFFFF = s.preserved.fectl &&& 0x3FFFFFFF) :
    s.registerWrite 4 0x38 (v.setWidth 64) = .next (s.stored .fectl 0 v).releaseFaultEvent := by
  have hat : registerAt s.cfg 0x38 = some (.fectl, 0) := rfl
  have hok := writeRefusal_event rfl (keepsReserved_control (s := s) (r := .fectl) hv rfl rfl rfl)
  rw [registerWrite_four (goodAccess_four (by decide) (by decide)), writeDword_accepted hat hok]
  rfl

theorem registerWrite_iectl (hqi : s.cfg.qi = true) {v : BitVec 32}
    (hv : v &&& 0x3FFFFFFF = s.preserved.iectl &&& 0x3FFFFFFF) :
    s.registerWrite 4 0xA0 (v.setWidth 64) = .next (s.stored .iectl 0 v).releaseInvEvent := by
  have hat : registerAt s.cfg 0xA0 = some (.iectl, 0) := rfl
  have hok := writeRefusal_event rfl (keepsReserved_control (s := s) (r := .iectl) hv rfl
    (by rw [preservedBits, whenHas, if_pos hqi]) (by rw [mustBeZeroBits, unlessHas, if_pos hqi]))
  rw [registerWrite_four (goodAccess_four (by decide) (by decide)), writeDword_accepted hat hok]
  rfl

theorem getLsbD_stored_fectl (s : State) (v : BitVec 32) (k : Nat) :
    (s.stored .fectl 0 v).reg.fectl.getLsbD k = if k = 31 then v.getLsbD 31 else s.reg.fectl.getLsbD k :=
  getLsbD_writtenValue_control (cfg := s.cfg) rfl rfl s.reg.fectl v k

theorem getLsbD_stored_iectl (hqi : s.cfg.qi = true) (v : BitVec 32) (k : Nat) :
    (s.stored .iectl 0 v).reg.iectl.getLsbD k = if k = 31 then v.getLsbD 31 else s.reg.iectl.getLsbD k := by
  rw [State.stored, State.regValue, if_pos hqi]
  exact getLsbD_writtenValue_control (cfg := s.cfg) (by rw [writableBits, whenHas, if_pos hqi]) rfl s.reg.iectl v k

/-! ## Servicing IWC (R507) -/

/-- A write of 1 to ICS_REG stores nothing: it Clears IWC (12_registers_b.md R115). -/
theorem getLsbD_stored_ics (hqi : s.cfg.qi = true) (k : Nat) :
    (s.stored .ics 0 1).reg.ics.getLsbD k = (s.reg.ics.getLsbD k && decide (k ≠ 0)) := by
  have hclear : ∀ m < 32, (((1 : BitVec 32).setWidth 128) <<< (32 * 0) &&& 1 : BitVec 128).getLsbD m = decide (m = 0) := by decide
  have hvalue : (s.stored .ics 0 1).reg.ics =
      (s.reg.ics.setWidth 128 &&& ~~~(((1 : BitVec 32).setWidth 128) <<< (32 * 0) &&& 1 : BitVec 128)).setWidth 32 := by
    rw [State.stored, writtenValue_of_unwritable rfl, clearableBits, whenHas, if_pos hqi]
    rfl
  rcases Nat.lt_or_ge k 32 with hk | hk
  · rw [hvalue, BitVec.getLsbD_setWidth, BitVec.getLsbD_and, BitVec.getLsbD_not, hclear k hk,
      getLsbD_setWidth_of_le _ (by decide), decide_eq_true hk, decide_eq_true (show k < 128 by omega), decide_not]
    simp
  · rw [BitVec.getLsbD_of_ge _ k hk, BitVec.getLsbD_of_ge s.reg.ics k hk, Bool.false_and]

theorem registerWrite_ics (hqi : s.cfg.qi = true) :
    s.registerWrite 4 0x9C 1 = .next ((s.stored .ics 0 1).setIePending false) := by
  have hat : registerAt s.cfg 0x9C = some (.ics, 0) := rfl
  have hkeeps : s.KeepsReserved .ics 0 (((1 : BitVec 32).setWidth 128) <<< (32 * 0)) :=
    ⟨.inl (by rw [mustBeZeroBits, unlessHas, if_pos hqi]; rfl), by simp [preservedBits]⟩
  have hserviced : (s.stored .ics 0 1).iwc = false :=
    (getLsbD_stored_ics hqi 0).trans (Bool.and_false _)
  rw [show (1 : BitVec 64) = (1 : BitVec 32).setWidth 64 from rfl,
    registerWrite_four (goodAccess_four (by decide) (by decide)), writeDword_accepted hat (writeRefusal_event rfl hkeeps)]
  show Host.Outcome.next (State.serviceInvEvent _) = _
  rw [State.serviceInvEvent, hserviced, if_neg Bool.false_ne_true]

/-! ## Servicing the fault status (R502) -/

/-- The status bits that software clears by writing 1 (12_registers_b.md R100). -/
def isServiced (k : Nat) : Bool := decide (k = 0 ∨ k = 2 ∨ k = 3 ∨ k = 4 ∨ k = 5 ∨ k = 6)

/-- A bit written as 1 that is not reserved is cleared where it is a status bit: those that the implementation lacks are reserved. -/
theorem clearable_of_unreserved {cfg : Config} {v : BitVec 32} (hv : v.setWidth 128 &&& mustBeZeroBits cfg .fsts = 0)
    {k : Nat} (hk : k < 32) :
    (v.setWidth 128 &&& clearableBits cfg .fsts).getLsbD k = (v.getLsbD k && isServiced k) := by
  have hbits : ∀ afl qi di : Bool, ∀ m < 32,
      ((0x1 ||| whenHas afl 0xC ||| whenHas qi 0x10 ||| whenHas di 0x60 : BitVec 128).getLsbD m = isServiced m) ∨
      (0xFFFF0080 ||| unlessHas afl 0 0xC ||| unlessHas qi 0 0x10 ||| unlessHas di 0 0x60 : BitVec 128).getLsbD m = true := by
    decide
  have hreserved := congrArg (BitVec.getLsbD · k) hv
  simp only [BitVec.getLsbD_and, getLsbD_setWidth_of_le v (show 32 ≤ 128 by decide) k] at hreserved
  rw [BitVec.getLsbD_and, getLsbD_setWidth_of_le v (by decide)]
  obtain hclear | hzero := hbits cfg.afl cfg.qi cfg.di k hk
  · exact congrArg (v.getLsbD k && ·) hclear
  · have hclearBit : v.getLsbD k = false := by
      rw [show (mustBeZeroBits cfg .fsts).getLsbD k = true from hzero, Bool.and_true] at hreserved
      exact hreserved.trans BitVec.getLsbD_zero
    rw [hclearBit, Bool.false_and, Bool.false_and]

theorem getLsbD_stored_fsts {v : BitVec 32} (hv : v.setWidth 128 &&& mustBeZeroBits s.cfg .fsts = 0) {k : Nat} (hk : k ≠ 1) :
    (s.stored .fsts 0 v).reg.fsts.getLsbD k = (s.reg.fsts.getLsbD k && !(v.getLsbD k && isServiced k)) := by
  have hvalue : (s.stored .fsts 0 v).reg.fsts =
      setBit ((s.fstsValue.setWidth 128 &&& ~~~(v.setWidth 128 &&& clearableBits s.cfg .fsts)).setWidth 32) 1 false := by
    rw [State.stored, writtenValue_of_unwritable rfl, shiftLeft_dword_zero]
    rfl
  rcases Nat.lt_or_ge k 32 with hlt | hge
  · rw [hvalue, getLsbD_setBit_of_ne _ _ hk, BitVec.getLsbD_setWidth, BitVec.getLsbD_and, BitVec.getLsbD_not,
      clearable_of_unreserved hv hlt, getLsbD_setWidth_of_le _ (by decide), State.fstsValue, getLsbD_setBit_of_ne _ _ hk,
      decide_eq_true hlt, decide_eq_true (show k < 128 by omega), Bool.true_and, Bool.true_and]
  · rw [BitVec.getLsbD_of_ge _ k hge, BitVec.getLsbD_of_ge s.reg.fsts k hge, Bool.false_and]

theorem registerWrite_fsts {v : BitVec 32} (hv : v.setWidth 128 &&& mustBeZeroBits s.cfg .fsts = 0) :
    s.registerWrite 4 0x34 (v.setWidth 64) = .next (s.stored .fsts 0 v).serviceFaultEvent := by
  have hat : registerAt s.cfg 0x34 = some (.fsts, 0) := rfl
  have hkeeps : s.KeepsReserved .fsts 0 ((v.setWidth 128) <<< (32 * 0)) :=
    ⟨.inl (by rw [shiftLeft_dword_zero]; exact hv), by simp [preservedBits]⟩
  rw [registerWrite_four (goodAccess_four (by decide) (by decide)), writeDword_accepted hat (writeRefusal_event rfl hkeeps)]
  rfl

/-- Settles O33: each write is one of `registerWrite_fectl`, `registerWrite_iectl`, `registerWrite_ics` and `registerWrite_fsts`. -/
theorem unmaskingAndServicingEvents : Obligations.UnmaskingAndServicingEvents := by
  intro s v
  refine ⟨fun him hkept hpending hhold => ⟨_, registerWrite_fectl hkept, ?fault⟩,
    fun hqi him hkept hpending hhold => ⟨_, registerWrite_iectl hqi hkept, ?invalidation⟩,
    fun hqi => ⟨_, registerWrite_ics hqi, ?iwc⟩, fun hzero => ⟨_, registerWrite_fsts hzero, ?status⟩⟩
  case fault =>
    have hmask : (s.stored .fectl 0 v).feMask = false := (getLsbD_stored_fectl s v 31).trans him
    rw [releaseFaultEvent_sent ((getLsbD_stored_fectl s v 30).trans hpending) hmask hhold]
    exact ⟨(getLsbD_setBit_of_ne _ false (by decide)).trans hmask, getLsbD_setBit_self _ 30 false (by decide), rfl, rfl⟩
  case invalidation =>
    have hmask : (s.stored .iectl 0 v).ieMask = false := (getLsbD_stored_iectl hqi v 31).trans him
    rw [releaseInvEvent_sent ((getLsbD_stored_iectl hqi v 30).trans hpending) hmask hhold]
    exact ⟨(getLsbD_setBit_of_ne _ false (by decide)).trans hmask, getLsbD_setBit_self _ 30 false (by decide), rfl, rfl⟩
  case iwc =>
    exact ⟨(getLsbD_stored_ics hqi 0).trans (Bool.and_false _), getLsbD_setBit_self _ 30 false (by decide),
      fun k hk => (getLsbD_stored_ics hqi k).trans (by rw [decide_eq_true hk, Bool.and_true]),
      fun k hk => getLsbD_setBit_of_ne _ false hk, rfl⟩
  case status =>
    have hframe := serviceFaultEvent_frame (s.stored .fsts 0 v)
    refine ⟨fun k hk => ?bits, ?pending, fun k hk => getLsbD_fectl_serviceFaultEvent _ hk, fun hiqe hite => ?fetching, ?frame⟩
    case bits =>
      rw [hframe]
      exact getLsbD_stored_fsts hzero hk
    case pending =>
      rw [fePending_serviceFaultEvent, anyStatus_serviceFaultEvent]
      rfl
    case fetching =>
      rw [State.fetchEnabled, hiqe, hite, hframe, Bool.not_false, Bool.and_true, Bool.and_true]
      rfl
    case frame =>
      rw [hframe]
      rfl

end Sys2Proof.Machine
end
section
/-! The five invalidation descriptors (44_queued_invalidation.md R380 to R397), and the time-out of a Device-IOTLB invalidation
(41_device_iotlb.md R293). -/

namespace Sys2Proof.Machine

variable {s t : State}

/-! ## cc_inv_dsc and iotlb_inv_dsc (R380 to R384) -/

/-- Settles O11. -/
theorem ccInvDscInvalidatesTheContextCache : Obligations.CcInvDscInvalidatesTheContextCache := fun g did sid fm s =>
  ⟨_, rfl, contextInvalidated_invalidateContext s g did sid fm, State.invalidateContext_reg s g did sid fm⟩

/-- Settles O12. -/
theorem iotlbInvDscRemovesAndDrains : Obligations.IotlbInvDscRemovesAndDrains := fun g dw dr did am ih addr s =>
  ⟨_, rfl, iotlbInvalidated_invalidateIotlb s false (g.setWidth 3) dr dw did addr am ih,
    State.invalidateIotlb_reg s false (g.setWidth 3) dr dw did addr am ih⟩

/-! ## dev_iotlb_inv_dsc (R386, 41_device_iotlb.md R291) -/

/-- A tag is allocated, or freed. -/
def State.setTag (s : State) (k : Nat) (g : Option ITag) : State := { s with itags := s.itags.set k g }

theorem tag_setTag_self {k : Nat} (hk : k < s.itags.length) (g : Option ITag) : (s.setTag k g).tag k = g := by
  simp [State.setTag, State.tag, hk]

theorem tag_setTag_of_ne {i k : Nat} (hi : i ≠ k) (g : Option ITag) : (s.setTag k g).tag i = s.tag i := by
  simp [State.setTag, State.tag, List.getElem?_set_ne hi.symm]

theorem issueDeviceInvalidation_of_freeTag {k : Nat} (hk : s.freeTag = some k) (sid : SourceId) (b : Bool) (addr : PageNumber) :
    s.issueDeviceInvalidation sid b addr =
      ((s.setTag k (some { sid := sid, count := 0, seq := s.iq.current })).emit (.invRequest sid k addr b)).tick := by
  rw [State.issueDeviceInvalidation, hk]
  rfl

theorem issueDeviceInvalidation_of_no_freeTag (hk : s.freeTag = none) (sid : SourceId) (b : Bool) (addr : PageNumber) :
    s.issueDeviceInvalidation sid b addr = s := by
  rw [State.issueDeviceInvalidation, hk]

theorem tagsOf_of_throttled {mip : BitVec 5} {sid : SourceId} (h : throttled mip sid s = true) :
    mip ≠ 0 ∧ mip.toNat ≤ s.tagsOf sid := by
  simp only [throttled, Bool.and_eq_true, Bool.not_eq_true', beq_eq_false_iff_ne, decide_eq_true_eq] at h
  exact h.1

/-- Settles O13: deferred by the hint, deferred for want of a tag, or issued with the free tag that the draw takes. -/
theorem devIotlbInvDscIssuesOrDefers : Obligations.DevIotlbInvDscIssuesOrDefers := by
  intro mip sid b addr s
  show ∃ t, (if throttled mip sid s then .next s.tick else .next (s.issueDeviceInvalidation sid b addr)) = Host.Outcome.next t ∧ _
  cases hhint : throttled mip sid s with
  | true => exact ⟨s.tick, rfl, .inl ⟨rfl, .inr (tagsOf_of_throttled hhint)⟩⟩
  | false =>
    refine ⟨s.issueDeviceInvalidation sid b addr, rfl, ?_⟩
    cases hfree : s.freeTag with
    | none =>
      rw [issueDeviceInvalidation_of_no_freeTag hfree]
      exact .inl ⟨rfl, .inl (freeTag_none hfree)⟩
    | some k =>
      obtain ⟨hlt, hnone⟩ := freeTag_some hfree
      rw [issueDeviceInvalidation_of_freeTag hfree]
      exact .inr ⟨k, hlt, hnone, tag_setTag_self hlt _, fun i hi => tag_setTag_of_ne hi _, rfl, rfl⟩

/-! ## iec_inv_dsc (R390, R391) -/

theorem iecDrains_global (s : State) (im : BitVec 5) (iidx : BitVec 16) (q : IrqInFlight) : s.iecDrains false im iidx q = true := by
  rw [State.iecDrains]
  split <;> rfl

section Selective

variable {im : BitVec 5} {iidx : BitVec 16}

theorem iecSelects_of_le (h : im.toNat ≤ s.cfg.mhmv) (k : Nat) : s.iecSelects true im iidx k = inIndexRange iidx im k :=
  (if_pos rfl).trans (if_neg (Nat.not_lt.2 h))

theorem iecSelects_of_lt (h : s.cfg.mhmv < im.toNat) (k : Nat) : s.iecSelects true im iidx k = s.coin 6 :=
  (if_pos rfl).trans (if_pos h)

theorem iecDrains_of_le (h : im.toNat ≤ s.cfg.mhmv) (q : IrqInFlight) :
    s.iecDrains true im iidx q = match q.index with | some k => inIndexRange iidx im k | none => false := by
  rw [State.iecDrains]
  cases q.index with
  | some k => exact iecSelects_of_le h k
  | none => exact (if_pos rfl).trans (by rw [decide_eq_false (Nat.not_lt.2 h), Bool.false_and])

theorem iecDrains_of_lt (h : s.cfg.mhmv < im.toNat) (q : IrqInFlight) : s.iecDrains true im iidx q = s.coin 6 := by
  rw [State.iecDrains]
  cases q.index with
  | some k => exact iecSelects_of_lt h k
  | none => exact (if_pos rfl).trans (by rw [decide_eq_true h, Bool.true_and])

end Selective

/-- Settles O14: the removal and the drain follow one selection (`State.iecSelects`), taken apart by granularity and MHMV. -/
theorem iecInvDscInvalidatesAndDrains : Obligations.IecInvDscInvalidatesAndDrains := by
  intro g im iidx s
  refine ⟨s.invalidateIec g im iidx, s.iecDrains g im iidx, rfl, ?global, ?within, ?beyond, ?_⟩
  case global =>
    rintro rfl
    rw [invalidateIec_spec]
    exact ⟨List.filter_eq_nil_iff.2 fun l _ => by simp [State.iecSelects], iecDrains_global s im iidx⟩
  case within =>
    rintro rfl hle
    rw [invalidateIec_spec]
    refine ⟨fun l => ?_, iecDrains_of_le hle⟩
    simp only [iecSelects_of_le hle, List.mem_filter, Bool.not_eq_true']
  case beyond =>
    rintro rfl hlt
    rw [invalidateIec_spec]
    simp only [iecSelects_of_lt hlt, iecDrains_of_lt hlt]
    cases s.coin 6 with
    | true => exact .inr ⟨List.filter_false _, fun _ => rfl⟩
    | false => exact .inl ⟨List.filter_true _, fun _ => rfl⟩
  rw [invalidateIec_spec, flushWriteBuffer_eq]
  exact ⟨rfl, rfl, rfl, rfl, fun hwf a ha => flushed_read hwf fun _ => ha, rfl⟩

/-! ## inv_wait_dsc (R395 to R397) -/

/-- The invalidation completion event was generated on the way from `s` to `t` (60_exceptions.md R506): IWC is Set, and IP is Set or
the message is posted; nothing else changed. -/
structure CompletionRaised (s t : State) : Prop where
  iwc : t.iwc = true
  pending : t.iePending = (s.ieMask || s.ieHold)
  ics : ∀ k, k ≠ 0 → t.reg.ics.getLsbD k = s.reg.ics.getLsbD k
  iectl : ∀ k, k ≠ 30 → t.reg.iectl.getLsbD k = s.reg.iectl.getLsbD k
  posted : t.posted = s.posted ++ if !s.ieMask && !s.ieHold then
    [.message .invalidation (messageAddress s.reg.ieuaddr s.reg.ieaddr) s.reg.iedata] else []
  frame : t = { s with reg := { s.reg with ics := t.reg.ics, iectl := t.reg.iectl }, posted := t.posted }

/-- The state in which the completion event has become pending. -/
def State.completionPending (s : State) : State := (s.setIwc).setIePending true

theorem completionRaised_pending (h : (s.ieMask || s.ieHold) = true) : CompletionRaised s s.completionPending where
  iwc := getLsbD_setBit_self _ 0 true (by decide)
  pending := (getLsbD_setBit_self _ 30 true (by decide)).trans h.symm
  ics _ hk := getLsbD_setBit_of_ne _ true hk
  iectl _ hk := getLsbD_setBit_of_ne _ true hk
  posted := by
    rw [← Bool.not_or, h]
    exact (List.append_nil _).symm
  frame := rfl

theorem completionRaised_sent (h : (s.ieMask || s.ieHold) = false) :
    CompletionRaised s ((s.completionPending.sendInvEvent).setIePending false) where
  iwc := getLsbD_setBit_self _ 0 true (by decide)
  pending := (getLsbD_setBit_self _ 30 false (by decide)).trans h.symm
  ics _ hk := getLsbD_setBit_of_ne _ true hk
  iectl _ hk := (getLsbD_setBit_of_ne _ false hk).trans (getLsbD_setBit_of_ne s.reg.iectl true hk)
  posted := by
    rw [← Bool.not_or, h]
    rfl
  frame := rfl

theorem completionRaised_completeWithInterrupt (h : s.iwc = false) : CompletionRaised s s.completeWithInterrupt := by
  have hpending : s.completionPending.iePending = true := getLsbD_setBit_self _ 30 true (by decide)
  have hmask : s.completionPending.ieMask = s.ieMask := getLsbD_setBit_of_ne s.reg.iectl true (by decide)
  have hhold : s.completionPending.ieHold = s.ieHold := rfl
  rw [State.completeWithInterrupt, h, if_neg Bool.false_ne_true]
  show CompletionRaised s s.completionPending.releaseInvEvent
  rw [State.releaseInvEvent, hpending, hmask, hhold, Bool.true_and, ← Bool.not_or]
  cases hheld : s.ieMask || s.ieHold with
  | true => exact completionRaised_pending hheld
  | false => exact completionRaised_sent hheld

/-- The status write of a wait descriptor that asks for one. -/
def State.withStatus (s : State) (sw : Bool) (d : BitVec 32) (a : BitVec 62) : State := if sw then postStatus d a s else s

theorem withStatus_frame (s : State) (sw : Bool) (d : BitVec 32) (a : BitVec 62) :
    s.withStatus sw d a = { s with posted := s.posted ++ if sw then [.statusWrite (a.toNat * 4) d] else [] } := by
  cases sw with
  | true => rfl
  | false => exact congrArg (fun l => { s with posted := l }) (List.append_nil s.posted).symm

theorem execInvWaitDsc_eq (iflag sw fn : Bool) (d : BitVec 32) (a : BitVec 62) (s : State) :
    exec (.invWaitDsc iflag sw fn d a) s = if sw && !unitWritable s.cfg (a.toNat * 4) 4 then .refused .unitWriteError
      else .next (if iflag then (s.withStatus sw d a).completeWithInterrupt else s.withStatus sw d a) := by
  rfl

/-- What a completed wait leaves, when its status write is posted and its event is generated where IWC was Clear. -/
structure WaitCompleted (s t : State) (iflag : Bool) : Prop where
  iwc : t.iwc = (s.iwc || iflag)
  pending : t.iePending = if iflag && !s.iwc then s.ieMask || s.ieHold else s.iePending
  ics : ∀ k, k ≠ 0 → t.reg.ics.getLsbD k = s.reg.ics.getLsbD k
  iectl : ∀ k, k ≠ 30 → t.reg.iectl.getLsbD k = s.reg.iectl.getLsbD k
  posted : t.posted = s.posted ++ if iflag && !s.iwc && !s.ieMask && !s.ieHold then
    [.message .invalidation (messageAddress s.reg.ieuaddr s.reg.ieaddr) s.reg.iedata] else []
  frame : t = { s with reg := { s.reg with ics := t.reg.ics, iectl := t.reg.iectl }, posted := t.posted }

theorem waitCompleted_silent {iflag : Bool} (h : (iflag && !s.iwc) = false) (hflag : (s.iwc || iflag) = s.iwc) :
    WaitCompleted s s iflag where
  iwc := hflag.symm
  pending := by
    rw [h]
    rfl
  ics _ _ := rfl
  iectl _ _ := rfl
  posted := by
    rw [h]
    exact (List.append_nil _).symm
  frame := rfl

theorem CompletionRaised.waitCompleted (hiwc : s.iwc = false) (h : CompletionRaised s t) : WaitCompleted s t true where
  iwc := h.iwc.trans (Bool.or_true _).symm
  pending := by
    rw [h.pending, hiwc]
    rfl
  ics := h.ics
  iectl := h.iectl
  posted := by
    rw [h.posted, hiwc]
    rfl
  frame := h.frame

theorem waitCompleted_complete (s : State) (iflag : Bool) :
    WaitCompleted s (if iflag then s.completeWithInterrupt else s) iflag := by
  cases iflag with
  | false => exact waitCompleted_silent rfl (Bool.or_false _)
  | true =>
    rw [if_pos rfl]
    cases hiwc : s.iwc with
    | true =>
      have hsame : s.completeWithInterrupt = s := if_pos hiwc
      rw [hsame]
      exact waitCompleted_silent (by rw [hiwc]; rfl) (by rw [hiwc]; rfl)
    | false => exact (completionRaised_completeWithInterrupt hiwc).waitCompleted hiwc

/-- Settles O15: the refusal is the one test of `execInvWaitDsc_eq`, the completion `waitCompleted_complete` after the status write. -/
theorem invWaitDscPostsStatusAndEvent : Obligations.InvWaitDscPostsStatusAndEvent := by
  intro iflag sw fn d a s
  rw [execInvWaitDsc_eq]
  refine ⟨?refused, fun hmem => ?completes⟩
  case refused =>
    cases hbad : sw && !unitWritable s.cfg (a.toNat * 4) 4 with
    | true => simpa using hbad
    | false =>
      rw [if_neg Bool.false_ne_true]
      refine ⟨nofun, ?_⟩
      rintro ⟨rfl, hno⟩
      rw [hno] at hbad
      exact nomatch hbad
  case completes =>
    have hgood : (sw && !unitWritable s.cfg (a.toNat * 4) 4) = false := by
      rw [Bool.and_eq_false_imp]
      intro hsw
      rw [hmem hsw]
      rfl
    have hdone := waitCompleted_complete (s.withStatus sw d a) iflag
    rw [hgood, if_neg Bool.false_ne_true]
    revert hdone
    generalize (if iflag then (s.withStatus sw d a).completeWithInterrupt else s.withStatus sw d a) = t
    rw [withStatus_frame]
    exact fun hdone => ⟨t, rfl, ⟨_, _, hdone.posted, rfl, rfl⟩, hdone.iwc, hdone.pending, hdone.ics, hdone.iectl,
      fun x => by rw [hdone.frame], hdone.frame⟩

/-! ## Time-outs (R404, R405; 41_device_iotlb.md R293) -/

/-- The state in which a tag is freed and the time-out's descriptors are gone, before ITE. -/
def State.timedOut (s : State) (i : Nat) (g : ITag) : State :=
  { s.setTag i none with iq := { s.iq with pending := s.iq.pending.filter (s.survivesTimeout g.seq) } }

theorem timeout_of_tag {i : Nat} {g : ITag} (h : s.tag i = some g) : s.timeout i = ((s.timedOut i g).raiseIte).tick := by
  rw [State.timeout, h]
  rfl

/-- Raising a status posts a fault event message at most. -/
theorem mem_posted_raiseStatus {b : Nat} {q : Posted} (h : q ∈ (s.raiseStatus b).posted) :
    q ∈ s.posted ∨ ∃ ma d, q = .message .fault ma d := by
  cases hany : s.anyStatus with
  | true => exact .inl (by rwa [raiseStatus_of_waiting hany] at h)
  | false =>
    rw [raiseStatus_of_serviced hany, (faultEventRaised_faultEventCondition _).posted, List.mem_append] at h
    refine h.imp_right fun hevent => ?_
    rw [State.faultEventPosts] at hevent
    split at hevent
    · exact nomatch hevent
    · exact ⟨_, _, List.mem_singleton.1 hevent⟩

theorem raiseIte_frame (s : State) : s.raiseIte =
    { s with reg := { s.reg with fsts := s.raiseIte.reg.fsts, fectl := s.raiseIte.reg.fectl }, posted := s.raiseIte.posted } := by
  rw [State.raiseIte]
  split
  · exact raiseStatus_frame s 6
  · rfl

theorem ite_raiseIte (s : State) : s.raiseIte.ite = (s.ite || s.cfg.di) := by
  rw [State.raiseIte]
  cases s.cfg.di with
  | true => exact (getLsbD_fsts_raiseStatus s (by decide) 6).trans (Bool.or_true _).symm
  | false => exact (Bool.or_false _).symm

theorem statusWrite_of_mem_raiseIte {a : Nat} {d : BitVec 32} (h : Posted.statusWrite a d ∈ s.raiseIte.posted) :
    Posted.statusWrite a d ∈ s.posted := by
  rw [State.raiseIte] at h
  split at h
  · exact (mem_posted_raiseStatus h).resolve_right nofun
  · exact h

/-- A time-out keeps no wait and not the failed descriptor; what is ahead of every Device-IOTLB descriptor stays. -/
theorem survivesTimeout_spec {failed : Nat} {p : Pending} (h : s.survivesTimeout failed p = true) :
    isWait p.instr = false ∧ p.seq ≠ failed := by
  simp only [State.survivesTimeout, Bool.and_eq_true, Bool.not_eq_true', beq_eq_false_iff_ne] at h
  exact h.1

theorem survivesTimeout_of_ahead {failed : Nat} {p : Pending} (hwait : isWait p.instr = false) (hne : p.seq ≠ failed)
    (hahead : ∀ q ∈ s.iq.pending, isDevInv q.instr = true → p.seq < q.seq) : s.survivesTimeout failed p = true := by
  have hbehind : s.behindDevInv p.seq = false := by
    rw [State.behindDevInv, List.any_eq_false]
    intro q hq hdev
    obtain ⟨hdev, hle⟩ := Bool.and_eq_true_iff.1 hdev
    exact absurd (of_decide_eq_true hle) (Nat.not_le.2 (hahead q hq hdev))
  rw [State.survivesTimeout, hwait, beq_eq_false_iff_ne.2 hne, hbehind]
  rfl

/-- Settles O52: which descriptors stay is `State.survivesTimeout`; after it only ITE and its event change (`raiseIte_frame`). -/
theorem timeOutCompletesNoWait : Obligations.TimeOutCompletesNoWait := by
  intro s i g htag
  have hframe := raiseIte_frame (s.timedOut i g)
  have hpending : (s.timeout i).iq.pending = s.iq.pending.filter (s.survivesTimeout g.seq) := by
    rw [timeout_of_tag htag]
    exact congrArg (·.iq.pending) hframe
  have htags : ∀ k, (s.timeout i).tag k = (s.setTag i none).tag k := fun k => by
    rw [timeout_of_tag htag]
    exact (congrArg (State.tag · k) hframe :)
  rw [hpending]
  refine ⟨fun p hp => ?stays, fun p hp hwait hne hahead => List.mem_filter.2 ⟨hp, survivesTimeout_of_ahead hwait hne hahead⟩,
    fun a d h => ?status, ?_⟩
  case stays =>
    obtain ⟨hmem, hsurvives⟩ := List.mem_filter.1 hp
    exact ⟨hmem, survivesTimeout_spec hsurvives⟩
  case status =>
    rw [timeout_of_tag htag] at h
    exact statusWrite_of_mem_raiseIte (s := s.timedOut i g) h
  rw [htags, tag_setTag_self (lt_length_of_tag htag)]
  refine ⟨?_, ?_, ?_, rfl, fun k hk => (htags k).trans (tag_setTag_of_ne hk none), ?_⟩
  all_goals rw [timeout_of_tag htag]
  · exact congrArg (·.reg.ics) hframe
  · exact congrArg (·.iq.lastWait) hframe
  · exact ite_raiseIte (s.timedOut i g)
  · exact ⟨(congrArg State.mem hframe :), (congrArg State.cache hframe :)⟩

end Sys2Proof.Machine
end
section
/-! The order of the descriptors (44_queued_invalidation.md R400 to R403), the pending command (45_global_commands.md R420), and the
reset (70_reset_and_hazards.md R530 to R534). -/

namespace Sys2Proof.Machine

variable {s : State} {p q : Pending}

/-! ## A descriptor that may not be executed -/

/-- A descriptor that is not runnable is executed by no execute event and by no idle step. -/
structure HeldBack (s : State) (p : Pending) : Prop where
  runnable : s.runnable p = false
  ready : s.ready p = false
  executes : s.executeSeq p.seq = .next s
  notFound : s.iq.pending.find? s.runnable ≠ some p
  notServed : s.iq.pending.find? s.ready ≠ some p

theorem find?_ne_of_false {α : Type} {f : α → Bool} {a : α} (h : f a = false) (l : List α) : l.find? f ≠ some a :=
  fun hfound => nomatch h.symm.trans (List.find?_some hfound)

theorem heldBack_of_not_runnable (honly : ∀ r ∈ s.iq.pending, r.seq = p.seq → r = p) (h : s.runnable p = false) :
    HeldBack s p := by
  have hready : s.ready p = false := by rw [State.ready, h, Bool.false_and]
  have hnone : s.iq.pending.find? (fun r => r.seq == p.seq && s.runnable r) = none := by
    refine List.find?_eq_none.2 fun r hr hfound => ?_
    obtain ⟨hseq, hrun⟩ := Bool.and_eq_true_iff.1 hfound
    rw [honly r hr (eq_of_beq hseq), h] at hrun
    exact nomatch hrun
  exact
    { runnable := h
      ready := hready
      executes := by rw [State.executeSeq, hnone]
      notFound := find?_ne_of_false h _
      notServed := find?_ne_of_false hready _ }

theorem HeldBack.all (h : HeldBack s p) : s.runnable p = false ∧ s.ready p = false ∧ s.executeSeq p.seq = .next s ∧
    s.iq.pending.find? s.runnable ≠ some p ∧ s.iq.pending.find? s.ready ≠ some p :=
  ⟨h.runnable, h.ready, h.executes, h.notFound, h.notServed⟩

/-- What one descriptor holds back is not runnable (R400, R401, R403). -/
theorem not_runnable_of_holdsBack (hq : q ∈ s.iq.pending) (h : holdsBack p q = true) : s.runnable p = false := by
  have hmay : s.mayExecute p = false := by
    rw [State.mayExecute, List.any_eq_true.2 ⟨q, hq, h⟩]
    rfl
  rw [State.runnable, hmay, Bool.false_and, Bool.false_and]

/-- A wait is not runnable while a descriptor since the previous wait is pending (R402). -/
theorem not_runnable_of_not_waitReady (hwait : isWait p.instr = true) (hq : q ∈ s.iq.pending) (hseq : q.seq < p.seq)
    (hepoch : q.epoch = p.epoch) : s.runnable p = false := by
  have hnot : s.waitReady p = false := by
    have hahead : (decide (q.seq < p.seq) && (s.cfg.waitInOrder || q.epoch == p.epoch)) = true := by
      rw [decide_eq_true hseq, hepoch, beq_self_eq_true, Bool.or_true, Bool.and_true]
    rw [State.waitReady, List.any_eq_true.2 ⟨q, hq, hahead⟩]
    rfl
  rw [State.runnable, hnot, hwait, Bool.not_true, Bool.or_false, Bool.and_false, Bool.false_and]

/-- Settles O8. -/
theorem iotlbWaitsForContextCache : Obligations.IotlbWaitsForContextCache := by
  rintro s p q - hq hseq ⟨g, dw, dr, did, am, ih, addr, hp⟩ ⟨g', did', sid, fm, hcc⟩ honly
  have hholds : holdsBack p q = true := by
    rw [holdsBack, hp, hcc, decide_eq_true hseq]
    rfl
  exact (heldBack_of_not_runnable honly (not_runnable_of_holdsBack hq hholds)).all

/-- Settles O9. -/
theorem deviceIotlbWaitsForIotlbAndIec : Obligations.DeviceIotlbWaitsForIotlbAndIec := by
  rintro s p q - hq hseq ⟨mip, sid, b, addr, hp⟩ hahead honly
  have hholds : holdsBack p q = true := by
    rw [holdsBack, hp, decide_eq_true hseq]
    obtain ⟨g, dw, dr, did, am, ih, addr', hiotlb⟩ | ⟨g, im, iidx, hiec⟩ := hahead
    · rw [hiotlb]
      rfl
    · rw [hiec]
      rfl
  exact (heldBack_of_not_runnable honly (not_runnable_of_holdsBack hq hholds)).all

theorem isWait_invWaitDsc (f sw fn : Bool) (d : BitVec 32) (a : BitVec 62) : isWait (.invWaitDsc f sw fn d a) = true := by
  cases fn <;> rfl

/-- Settles O10. -/
theorem waitsAndFencesHoldBack : Obligations.WaitsAndFencesHoldBack := by
  rintro s p q - hq hseq (⟨⟨f, sw, fn, d, a, hp⟩, hepoch⟩ | ⟨f, sw, d, a, hfence⟩) honly
  · have hwait : isWait p.instr = true := by rw [hp, isWait_invWaitDsc]
    exact (heldBack_of_not_runnable honly (not_runnable_of_not_waitReady hwait hq hseq hepoch)).all
  · have hholds : holdsBack p q = true := by
      rw [holdsBack, hfence, decide_eq_true hseq]
      exact Bool.or_true _
    exact (heldBack_of_not_runnable honly (not_runnable_of_holdsBack hq hholds)).all

/-! ## Commands (45_global_commands.md R420, R421) -/

theorem step_of_no_agenda (h : s.agenda = []) : step s = s.idleStep := by rw [step, h]

/-- Settles O4. -/
theorem stepRunsThePendingCommand : Obligations.StepRunsThePendingCommand := by
  intro s w i hagenda hcmd hdec hwf
  have hsome : s.cmd.isSome = true := by rw [hcmd]; rfl
  rw [step_of_no_agenda hagenda, State.idleStep, if_pos hsome, State.runCommand, hcmd]
  simp only [hdec, hwf, if_true]

/-- Only a write that Sets no reserved bit requests a command. -/
theorem reserved_of_decodeGcmd {gsts v : BitVec 32} {i : Instr} (h : decodeGcmd gsts v = .instr i) : v &&& 0x007FFFFF = 0 := by
  by_contra hreserved
  rw [decodeGcmd, if_neg hreserved] at h
  exact nomatch h

theorem beginCommand_frame (s : State) (i : Instr) :
    s.beginCommand i = { s with reg := { s.reg with gsts := (s.beginCommand i).reg.gsts } } := by
  cases i <;> rfl

/-- The status bits that the submission of a command changes (R423, R424, R426, R429). -/
theorem getLsbD_gsts_beginCommand (s : State) (i : Instr) (k : Nat) : (s.beginCommand i).reg.gsts.getLsbD k =
    if i = .gcmdSrtp ∧ k = 30 then false else if i = .gcmdSfl ∧ k = 29 then false
    else if i = .gcmdWbf ∧ k = 27 then true else if i = .gcmdSirtp ∧ k = 24 then false else s.reg.gsts.getLsbD k := by
  cases i with
  | gcmdSrtp =>
    refine (getLsbD_gsts_setGsts s (b := 30) (by decide) false k).trans ?_
    simp
  | gcmdSfl =>
    refine (getLsbD_gsts_setGsts s (b := 29) (by decide) false k).trans ?_
    simp
  | gcmdWbf =>
    refine (getLsbD_gsts_setGsts s (b := 27) (by decide) true k).trans ?_
    simp
  | gcmdSirtp =>
    refine (getLsbD_gsts_setGsts s (b := 24) (by decide) false k).trans ?_
    simp
  | _ => simp [State.beginCommand]

/-- Settles O26. -/
theorem gcmdWriteSubmitsOneCommand : Obligations.GcmdWriteSubmitsOneCommand := by
  intro s v i hc hdec hwf
  have hcommand : decodeCommand s.cmdContext { reg := .gcmd, value := v.setWidth 64 } = .instr i := by
    simpa [decodeCommand, State.cmdContext] using hdec
  rw [registerWrite_gcmd hc (reserved_of_decodeGcmd hdec), submitCommand_accepted hcommand hwf nofun]
  exact ⟨_, rfl, rfl, getLsbD_gsts_beginCommand s i, by rw [beginCommand_frame]⟩

/-! ## Reset (70_reset_and_hazards.md R530 to R534) -/

/-- Settles O54. -/
theorem resetHasTheInvariants : Obligations.ResetHasTheInvariants :=
  ⟨{ mem := rfl
     frcd := List.length_replicate
     itags := List.length_replicate
     gsts := rfl
     fsts := rfl
     pfIndex := faultRegs_pos _
     afIndex := nofun
     wbuf := fun _ => rfl
     dirty := fun _ => rfl
     dirtyOnce := List.nodup_nil },
   implemented_initial Config.full, { ctx := nofun, iotlb := nofun, pde := nofun, iec := nofun }⟩

theorem recordF_initial (cfg : Config) (n : Nat) : recordF ((State.initial cfg).faultReg n) = false := by
  have hzero : (State.initial cfg).faultReg n = 0 := by
    rw [State.faultReg, List.getD_eq_getElem?_getD]
    show ((List.replicate cfg.faultRegs 0)[n]?).getD 0 = 0
    rw [List.getElem?_replicate]
    split <;> rfl
  rw [hzero]
  exact BitVec.getLsbD_zero

theorem itags_initial (cfg : Config) : (∀ g ∈ (State.initial cfg).itags, g = none) ∧
    (State.initial cfg).itags.length = cfg.nItags :=
  ⟨fun _ hg => List.eq_of_mem_replicate hg, List.length_replicate⟩

theorem step_powergood {rest : List Event} (h : s.agenda = .powergood :: rest) :
    step s = .next { State.initial s.cfg with mem := s.mem, agenda := rest, out := s.out, draws := s.draws } := by
  rw [step, h]
  rfl

/-- Settles O59. -/
theorem resetAndPowergoodValues : Obligations.ResetAndPowergoodValues := by
  obtain ⟨hfree, hlength⟩ := itags_initial Config.full
  refine ⟨?reset, fun s t rest hagenda hstep => ?powergood⟩
  case reset =>
    exact ⟨rfl, rfl, rfl, rfl, rfl, rfl, rfl, rfl, rfl, rfl, recordF_initial Config.full, rfl, rfl, rfl, rfl, rfl, rfl, rfl, rfl,
      rfl, rfl, rfl, rfl, rfl, rfl, rfl, rfl, rfl, rfl, rfl, rfl, rfl, rfl, rfl, rfl, rfl, rfl, rfl, hfree, hlength, rfl, rfl, rfl, rfl⟩
  case powergood =>
    obtain ⟨hfree', hlength'⟩ := itags_initial s.cfg
    obtain rfl := Host.Outcome.next.inj ((step_powergood hagenda).symm.trans hstep)
    exact ⟨rfl, rfl, rfl, rfl, rfl, rfl, hfree', hlength', rfl, rfl, rfl, rfl, rfl, rfl, rfl, rfl, rfl, rfl, rfl, fun _ => rfl⟩

end Sys2Proof.Machine
end
section
/-! The queue engine's fetch (44_queued_invalidation.md R373 to R378) and the schedule of an empty agenda (70_reset_and_hazards.md
R557; log 27). -/

namespace Sys2Proof.Machine

variable {s t : State}

/-! ## Reading a slot (20_memory.md R144) -/

theorem Memory.readBytes_append (m : Memory) (a n k : Nat) : m.readBytes a (n + k) = m.readBytes a n ++ m.readBytes (a + n) k := by
  rw [Memory.readBytes_eq, Memory.readBytes_eq, Memory.readBytes_eq, List.range_add, List.map_append, List.map_map]
  exact congrArg _ (List.map_congr_left fun i _ => congrArg m.read (Nat.add_assoc a n i).symm)

theorem readSlot_mem {vs : List Memory} (hv : vs ≠ []) (question a : Nat) :
    ∃ m ∈ vs, ∃ m' ∈ vs, s.readSlot vs question a = m.readBytes a 8 ++ m'.readBytes (a + 8) 8 :=
  ⟨_, view_mem s _ hv, _, view_mem s _ hv, rfl⟩

/-- Without a race there is one memory to read. -/
theorem readSlot_singleton (s : State) (m : Memory) (question a : Nat) : s.readSlot [m] question a = m.readBytes a 16 :=
  (Memory.readBytes_append m a 8 8).symm

/-! ## Reading ahead (20_memory.md R153) -/

/-- The slot is read before its turn: it lies between head and tail, fetching is enabled, and the slot is memory. -/
def State.ReadsAhead (s : State) (slot : Nat) : Prop :=
  s.fetchEnabled = true ∧ s.qt < s.queueSlots ∧ slot < s.queueSlots ∧
    (if s.qh ≤ s.qt then s.qh ≤ slot ∧ slot < s.qt else s.qh ≤ slot ∨ slot < s.qt) ∧
    accessError s.cfg (s.slotAddress slot) 16 = false

theorem readsAhead_iff (s : State) (slot : Nat) : s.ReadsAhead slot ↔
    (s.fetchEnabled && s.slotQueued slot && !accessError s.cfg (s.slotAddress slot) 16) = true := by
  rw [Bool.and_eq_true, Bool.and_eq_true, Bool.not_eq_true', slotQueued_iff, State.ReadsAhead, and_assoc, and_assoc, and_assoc]
  exact and_congr_right fun _ => and_left_comm

theorem fetchAhead_of_readsAhead {slot : Nat} (h : s.ReadsAhead slot) (vs : List Memory) : s.fetchAhead slot vs =
    { s with iq := { s.iq with
               ahead := { slot := slot, bits := BitVec.ofNat 128 (natOfBytes (s.readSlot vs 82 (s.slotAddress slot))) }
                 :: s.iq.ahead }
             draws := s.draws + 1 } := if_pos ((readsAhead_iff s slot).1 h)

theorem fetchAhead_of_not_readsAhead {slot : Nat} (h : ¬ s.ReadsAhead slot) (vs : List Memory) : s.fetchAhead slot vs = s :=
  if_neg fun hread => h ((readsAhead_iff s slot).2 hread)

/-! ## What a fetch gives (R374, R376 to R378) -/

theorem fetched_of_bad_slot (vs : List Memory) (h : s.queueSlots ≤ s.qt ∨ accessError s.cfg (s.slotAddress s.qh) 16 = true) :
    s.fetched vs = none := by
  rw [State.fetched]
  split
  · rfl
  next htail => exact if_pos (h.resolve_left htail)

theorem fetched_eq_some {vs : List Memory} {i : Instr} (h : s.fetched vs = some i) :
    queueBytes s.cfg (s.fetchBytes vs) = some i := by
  rw [State.fetched] at h
  split at h
  · exact nomatch h
  split at h
  · exact nomatch h
  · exact h

/-- The bytes are those of a copy of the head's slot that was read ahead, or memory's. -/
theorem fetchBytes_cases {vs : List Memory} (hv : vs ≠ []) :
    (∃ c ∈ s.iq.ahead, c.slot = s.qh ∧ s.fetchBytes vs = bytesOfNat 16 c.bits.toNat) ∨
      ∃ m ∈ vs, ∃ m' ∈ vs,
        s.fetchBytes vs = m.readBytes (s.slotAddress s.qh) 8 ++ m'.readBytes (s.slotAddress s.qh + 8) 8 := by
  rw [State.fetchBytes]
  split
  next c hcopy =>
    obtain ⟨hmem, hslot⟩ := List.mem_filter.1 (pick_mem hcopy)
    exact .inl ⟨c, hmem, eq_of_beq hslot, rfl⟩
  · exact .inr (readSlot_mem hv _ _)

theorem fetchDescriptor_of_some {vs : List Memory} {i : Instr} (hon : s.fetchEnabled = true) (h : s.fetched vs = some i) :
    s.fetchDescriptor vs = (s.acceptDescriptor i).tick := by
  rw [State.fetchDescriptor, if_pos hon, h]

theorem fetchDescriptor_of_none {vs : List Memory} (hon : s.fetchEnabled = true) (h : s.fetched vs = none) :
    s.fetchDescriptor vs = s.raiseIqe.tick := by
  rw [State.fetchDescriptor, if_pos hon, h]

/-! ### A valid descriptor -/

theorem queueSlots_le (s : State) : s.queueSlots ≤ 2 ^ 15 :=
  Nat.pow_le_pow_right (by decide) (by have := (s.reg.iqa.extractLsb' 0 3).isLt; omega)

theorem queueSlots_pos (s : State) : 0 < s.queueSlots := Nat.two_pow_pos _

/-- An index field holds the index of a slot. -/
theorem extractLsb'_queueIndex {n : Nat} (hn : n < 2 ^ 15) : ((queueIndex n).extractLsb' 4 15).toNat = n := by
  have hsmall : 16 * n < 2 ^ 64 := by omega
  have hplace : (16 * n) >>> 4 = n := by rw [Nat.shiftRight_eq_div_pow]; omega
  rw [queueIndex, BitVec.extractLsb'_toNat, BitVec.toNat_ofNat, Nat.mod_eq_of_lt hsmall, hplace, Nat.mod_eq_of_lt hn]

theorem qh_acceptDescriptor (s : State) (i : Instr) : (s.acceptDescriptor i).qh = (s.qh + 1) % s.queueSlots :=
  extractLsb'_queueIndex (Nat.lt_of_lt_of_le (Nat.mod_lt _ (queueSlots_pos s)) (queueSlots_le s))

theorem qh_tick (s : State) : s.tick.qh = s.qh := rfl
theorem qt_tick (s : State) : s.tick.qt = s.qt := rfl
theorem qt_congr (h : t.reg.iqt = s.reg.iqt) : t.qt = s.qt := by rw [State.qt, h, State.qt]
theorem qt_acceptDescriptor (s : State) (i : Instr) : (s.acceptDescriptor i).qt = s.qt := qt_congr rfl

theorem iq_acceptDescriptor (s : State) (i : Instr) : (s.acceptDescriptor i).iq = { s.iq with
    pending := s.iq.pending ++ [{ seq := s.iq.nextSeq, epoch := s.iq.epoch, instr := i }]
    nextSeq := s.iq.nextSeq + 1
    epoch := if isWait i then s.iq.epoch + 1 else s.iq.epoch
    ahead := s.iq.ahead.filter (fun a => !(a.slot == s.qh)) } := rfl

theorem not_isWait {i : Instr} (h : ∀ f sw fn d a, i ≠ .invWaitDsc f sw fn d a) : isWait i = false := by
  cases i with
  | invWaitDsc f sw fn d a => exact absurd rfl (h f sw fn d a)
  | _ => rfl

theorem epoch_acceptDescriptor_wait (s : State) (f sw fn : Bool) (d : BitVec 32) (a : BitVec 62) :
    (s.acceptDescriptor (.invWaitDsc f sw fn d a)).iq.epoch = s.iq.epoch + 1 := if_pos (isWait_invWaitDsc f sw fn d a)

theorem epoch_acceptDescriptor {i : Instr} (h : ∀ f sw fn d a, i ≠ .invWaitDsc f sw fn d a) :
    (s.acceptDescriptor i).iq.epoch = s.iq.epoch := if_neg (by rw [not_isWait h]; exact Bool.false_ne_true)

/-! ### An invalid one -/

/-- The state in which the copy of the head's slot is dropped, before IQE. -/
def State.headCopyDropped (s : State) : State :=
  { s with iq := { s.iq with ahead := s.iq.ahead.filter (fun a => !(a.slot == s.qh)) } }

theorem raiseIqe_frame (s : State) : s.raiseIqe = { s.headCopyDropped with
    reg := { s.reg with fsts := s.raiseIqe.reg.fsts, fectl := s.raiseIqe.reg.fectl }, posted := s.raiseIqe.posted } :=
  raiseStatus_frame s.headCopyDropped 4

theorem iqe_raiseIqe (s : State) : s.raiseIqe.iqe = true :=
  (getLsbD_fsts_raiseStatus s.headCopyDropped (by decide) 4).trans (if_pos rfl)

theorem not_fetchEnabled_of_iqe (h : s.iqe = true) : s.fetchEnabled = false := by
  rw [State.fetchEnabled, h, Bool.not_true, Bool.and_false, Bool.false_and]

/-- Settles O6: a read ahead is `fetchAhead_of_readsAhead`, a fetch `fetchDescriptor_of_some` or `fetchDescriptor_of_none`. -/
theorem fetchAdvancesOrHoldsTheHead : Obligations.FetchAdvancesOrHoldsTheHead := by
  refine ⟨fun s vs slot a ha => ?ahead, fun s vs hon => ⟨fetched_of_bad_slot vs, fun hv i hi => ?bytes, fun i hi => ?accepted,
    fun hnone => ?rejected⟩⟩
  case ahead =>
    subst ha
    by_cases hread : s.ReadsAhead slot
    · refine Eq.mpr (if_pos hread) ⟨_, rfl, fun hv => ?_, fetchAhead_of_readsAhead hread vs⟩
      obtain ⟨m, hm, m', hm', hbytes⟩ := readSlot_mem (s := s) hv 82 (s.slotAddress slot)
      exact ⟨m, hm, m', hm', congrArg (fun bs => BitVec.ofNat 128 (natOfBytes bs)) hbytes⟩
    · exact Eq.mpr (if_neg hread) (fetchAhead_of_not_readsAhead hread vs)
  case bytes => exact ⟨_, fetched_eq_some hi, fetchBytes_cases hv⟩
  case accepted =>
    rw [fetchDescriptor_of_some hon hi]
    refine ⟨(qh_tick _).trans (qh_acceptDescriptor s i), (qt_tick _).trans (qt_acceptDescriptor s i), ?_, ?_,
      fun f sw fn d a hwait => ?_, fun hother => ?_, ?_⟩
    · exact congrArg QueueEngine.pending (iq_acceptDescriptor s i)
    · exact congrArg QueueEngine.nextSeq (iq_acceptDescriptor s i)
    · rw [State.tick_iq, hwait, epoch_acceptDescriptor_wait]
    · rw [State.tick_iq, epoch_acceptDescriptor hother]
    · rfl
  case rejected =>
    have hframe := raiseIqe_frame s
    rw [fetchDescriptor_of_none hon hnone]
    exact ⟨iqe_raiseIqe s, (congrArg (·.reg.iqh) hframe :), (congrArg (·.reg.iqt) hframe :), s.raiseIqe_pending,
      (congrArg State.mem hframe :), (congrArg State.cache hframe :), not_fetchEnabled_of_iqe (iqe_raiseIqe s)⟩

/-! ## The step that runs the descriptor at the head (R374, R375) -/

theorem queueBytes_reference {cfg : Config} (hlayout : cfg.dscLayout = .reference) (hrule : cfg.invalidDsc = .decisionD7)
    (bs : List Byte) (i : Instr) : queueBytes cfg bs = some i ↔ decodeBytes bs = .instr i ∧ wellFormed cfg i = true := by
  rw [queueBytes, decodeBytes]
  split
  · rw [queueDescriptor, hlayout, hrule]
    show (decodeDescriptor (BitVec.ofNat 128 (natOfBytes bs))).instr?.filter (wellFormed cfg) = some i ↔ _
    rw [Option.filter_eq_some_iff]
    refine and_congr_left fun _ => ?_
    cases decodeDescriptor (BitVec.ofNat 128 (natOfBytes bs)) with
    | instr j => exact ⟨fun h => congrArg Decoded.instr (Option.some.inj h), fun h => congrArg some (Decoded.instr.inj h)⟩
    | nothing => exact ⟨nofun, nofun⟩
    | rejected e => exact ⟨nofun, nofun⟩
  · exact ⟨nofun, fun h => nomatch h.1⟩

/-- With nothing read ahead and no race a fetch reads the processors' view of the slot. -/
theorem fetched_of_readable {m : Memory} (hahead : s.iq.ahead = []) (htail : s.qt < s.queueSlots)
    (hreadable : accessError s.cfg (s.slotAddress s.qh) 16 = false) :
    s.fetched [m] = queueBytes s.cfg (m.readBytes (s.slotAddress s.qh) 16) := by
  have hcopy : s.aheadCopy = none := by
    rw [State.aheadCopy, hahead]
    rfl
  rw [State.fetched, if_neg (Nat.not_le.2 htail), hreadable, if_neg Bool.false_ne_true, State.fetchBytes, hcopy, readSlot_singleton]

theorem issued_congr (h : t.itags = s.itags) (seq : Nat) : t.issued seq = s.issued seq := by rw [State.issued, h, State.issued]

theorem tag_congr (h : t.itags = s.itags) (k : Nat) : t.tag k = s.tag k := by rw [State.tag, h, State.tag]

theorem freeTag_isSome {j : Nat} (hj : j < s.itags.length) (hfree : s.tag j = none) : s.freeTag.isSome = true := by
  cases h : s.freeTag with
  | some k => rfl
  | none => exact absurd hfree (freeTag_none h j hj)

/-- A descriptor that is pending alone waits for none; a Device-IOTLB one needs a free tag and not to have been issued. -/
theorem runnable_of_alone {p : Pending} (halone : s.iq.pending = [p])
    (hdev : isDevInv p.instr = true → s.issued p.seq = false ∧ s.freeTag.isSome = true) : s.runnable p = true := by
  have hmay : s.mayExecute p = true := by simp [State.mayExecute, halone, holdsBack]
  have hwait : s.waitReady p = true := by simp [State.waitReady, halone]
  rw [State.runnable, hmay, hwait, Bool.or_true, Bool.true_and, Bool.true_and]
  cases hkind : isDevInv p.instr with
  | false => rfl
  | true =>
    obtain ⟨hissued, hfree⟩ := hdev hkind
    rw [hissued, hfree]
    rfl

theorem executeSeq_of_alone {p : Pending} (halone : s.iq.pending = [p]) (hrun : s.runnable p = true) :
    s.executeSeq p.seq = s.executePending p := by
  rw [State.executeSeq, halone, List.find?_cons_of_pos (by rw [beq_self_eq_true, hrun]; rfl)]

/-- Settles O5: the fetch is `fetched_of_readable`, and what it accepts is runnable at once (`runnable_of_alone`). -/
theorem stepRunsTheDescriptorAtTheHead : Obligations.StepRunsTheDescriptorAtTheHead := by
  intro s i bs hbytes
  refine ⟨fun hlayout hrule => queueBytes_reference hlayout hrule bs i,
    fun hagenda hcmd hpending hahead hon htail hreadable hvalid hdev => ?_⟩
  have hfetched : s.fetched [s.cpuView] = some i := by rw [fetched_of_readable hahead htail hreadable, ← hbytes, hvalid]
  have halone : (s.acceptDescriptor i).tick.iq.pending = [{ seq := s.iq.nextSeq, epoch := s.iq.epoch, instr := i }] :=
    congrArg (· ++ _) hpending
  have htags : (s.acceptDescriptor i).tick.itags = s.itags := rfl
  have hnew : ¬ (s.acceptDescriptor i).tick.iq.nextSeq = s.iq.nextSeq := Nat.succ_ne_self _
  have hidle : step s = s.fetchAndRun := by
    rw [step_of_no_agenda hagenda, State.idleStep, hcmd, hpending, hon]
    rfl
  have hrun := runnable_of_alone halone fun hkind =>
    have ⟨⟨_, hlt, hfree⟩, hissued⟩ := hdev hkind
    ⟨(issued_congr htags _).trans hissued, freeTag_isSome (by rw [htags]; exact hlt) ((tag_congr htags _).trans hfree)⟩
  rw [hidle, State.fetchAndRun, fetchDescriptor_of_some hon hfetched, if_neg hnew]
  exact executeSeq_of_alone halone hrun

end Sys2Proof.Machine
end
section
/-! The schedule of an empty agenda (70_reset_and_hazards.md R557; log 27): what the unit owes is served. -/

namespace Sys2Proof.Machine

variable {s t : State}

/-! ## Descriptors that can go on (R375) -/

/-- A descriptor leaves the queue engine when it is retired, unless it waits for a Device-IOTLB (R375). -/
theorem not_mem_pending_retire {p : Pending} (h : isDevInv p.instr = false) : p ∉ (s.retire p).iq.pending := by
  rw [State.retire, h, if_neg Bool.false_ne_true]
  intro hmem
  obtain ⟨-, hne⟩ := List.mem_filter.1 hmem
  rw [beq_self_eq_true] at hne
  exact nomatch hne

theorem retire_of_isDevInv {p : Pending} (h : isDevInv p.instr = true) : s.retire p = s := if_pos h

theorem exists_of_isDevInv {i : Instr} (h : isDevInv i = true) : ∃ mip sid b addr, i = .devIotlbInvDsc mip sid b addr := by
  cases i with
  | devIotlbInvDsc mip sid b addr => exact ⟨mip, sid, b, addr, rfl⟩
  | _ => exact nomatch h

/-- The state in which a descriptor is executed. -/
def State.withCurrent (s : State) (seq : Nat) : State := { s with iq := { s.iq with current := seq } }

theorem executePending_eq (s : State) (p : Pending) :
    s.executePending p = andThen (exec p.instr (s.withCurrent p.seq)) fun t => .next (t.retire p) := rfl

theorem issued_setTag {k : Nat} (hk : k < s.itags.length) (g : ITag) : (s.setTag k (some g)).issued g.seq = true :=
  List.any_eq_true.2 ⟨some g, List.mem_set hk (some g), beq_self_eq_true g.seq⟩

theorem issued_issueDeviceInvalidation {sid : SourceId} {b : Bool} {addr : PageNumber} (h : s.freeTag.isSome = true) :
    (s.issueDeviceInvalidation sid b addr).issued s.iq.current = true := by
  obtain ⟨k, hk⟩ := Option.isSome_iff_exists.1 h
  rw [issueDeviceInvalidation_of_freeTag hk]
  exact issued_setTag (freeTag_some hk).1 { sid := sid, count := 0, seq := s.iq.current }

theorem freeTag_of_runnable {p : Pending} (hrun : s.runnable p = true) (hdev : isDevInv p.instr = true) :
    s.freeTag.isSome = true := by
  rw [State.runnable, hdev, Bool.not_true, Bool.false_or] at hrun
  exact (Bool.and_eq_true_iff.1 (Bool.and_eq_true_iff.1 hrun).2).2

/-- A Device-IOTLB descriptor that is ready is issued. -/
theorem issued_of_ready_devInv {p : Pending} (hready : s.ready p = true) (hdev : isDevInv p.instr = true)
    (h : s.executePending p = .next t) : t.issued p.seq = true := by
  obtain ⟨mip, sid, b, addr, hp⟩ := exists_of_isDevInv hdev
  obtain ⟨hrun, hhint⟩ := Bool.and_eq_true_iff.1 hready
  have hfalse : throttled mip sid s = false := by simpa [hp, State.heldByHint] using hhint
  have hunheld : ¬ throttled mip sid (s.withCurrent p.seq) = true := fun hheld => Bool.false_ne_true (hfalse.symm.trans hheld)
  have hfree : s.freeTag.isSome = true := freeTag_of_runnable hrun hdev
  have hissue : exec p.instr (s.withCurrent p.seq) = .next ((s.withCurrent p.seq).issueDeviceInvalidation sid b addr) := by
    rw [hp]
    exact if_neg hunheld
  rw [executePending_eq, hissue] at h
  obtain rfl : _ = t := Host.Outcome.next.inj h
  rw [retire_of_isDevInv hdev]
  exact issued_issueDeviceInvalidation (s := s.withCurrent p.seq) hfree

theorem served_of_executePending {p : Pending} (hready : s.ready p = true) (h : s.executePending p = .next t) :
    p ∉ t.iq.pending ∨ t.issued p.seq = true := by
  cases hdev : isDevInv p.instr with
  | true => exact .inr (issued_of_ready_devInv hready hdev h)
  | false =>
    rw [executePending_eq] at h
    obtain ⟨u, -, hu⟩ := andThen_next h
    obtain rfl : _ = t := Host.Outcome.next.inj hu
    exact .inl (not_mem_pending_retire hdev)

/-! ## The count of the fetched descriptors (R374) -/

theorem nextSeq_of_execGcmdTe {b : Bool} (h : execGcmdTe b s = .next t) : t.iq.nextSeq = s.iq.nextSeq := by
  unfold execGcmdTe at h
  split at h
  · split at h
    · exact nomatch h
    · cases h; exact congrArg _ (sameUnit_drainAll_if_drainsDma s).iq
  · cases h
    rw [State.resetPfIndex_iq]
    exact congrArg QueueEngine.nextSeq (sameUnit_drainWhere s _).iq

theorem nextSeq_of_execGcmdEafl {b : Bool} (h : execGcmdEafl b s = .next t) : t.iq.nextSeq = s.iq.nextSeq := by
  unfold execGcmdEafl at h
  split at h
  · exact nomatch h
  split at h
  · exact nomatch h
  · cases h; rfl

theorem nextSeq_of_execGcmdQie {b : Bool} (h : execGcmdQie b s = .next t) : t.iq.nextSeq = s.iq.nextSeq := by
  unfold execGcmdQie at h
  split at h
  · cases h; rfl
  split at h
  · cases h; rfl
  · exact nomatch h

theorem nextSeq_of_execGcmdIre {b : Bool} (h : execGcmdIre b s = .next t) : t.iq.nextSeq = s.iq.nextSeq := by
  unfold execGcmdIre at h
  split at h
  · split at h
    · exact nomatch h
    · cases h; exact congrArg QueueEngine.nextSeq (sameUnit_drainInterrupts s _).iq
  · cases h
    rw [State.resetPfIndex_iq]
    exact congrArg QueueEngine.nextSeq (sameUnit_drainInterrupts s _).iq

theorem nextSeq_of_execPmenEpm {b : Bool} (h : execPmenEpm b s = .next t) : t.iq.nextSeq = s.iq.nextSeq := by
  unfold execPmenEpm at h
  split at h
  · split at h
    · exact nomatch h
    · cases h; exact congrArg QueueEngine.nextSeq (sameUnit_drainAll_if_drainsDma s).iq
  · cases h; rfl

theorem nextSeq_of_execDevIotlbInvDsc {mip : BitVec 5} {sid : SourceId} {b : Bool} {addr : PageNumber}
    (h : execDevIotlbInvDsc mip sid b addr s = .next t) : t.iq.nextSeq = s.iq.nextSeq := by
  unfold execDevIotlbInvDsc at h
  split at h
  · cases h; rfl
  · cases h; rw [State.issueDeviceInvalidation_iq]

theorem nextSeq_of_execInvWaitDsc {iflag sw fn : Bool} {d : BitVec 32} {a : BitVec 62}
    (h : exec (.invWaitDsc iflag sw fn d a) s = .next t) : t.iq.nextSeq = s.iq.nextSeq := by
  have hstatus : (s.withStatus sw d a).iq = s.iq := by rw [withStatus_frame]
  rw [execInvWaitDsc_eq] at h
  split at h
  · exact nomatch h
  · cases h
    split
    · rw [(events_completeWithInterrupt _).iq, hstatus]
    · rw [hstatus]

/-- Only a fetch counts. -/
theorem nextSeq_of_exec {i : Instr} (h : exec i s = .next t) : t.iq.nextSeq = s.iq.nextSeq := by
  cases i with
  | ccInvDsc => cases h; rw [State.invalidateContext_iq]
  | iotlbInvDsc => cases h; rw [State.invalidateIotlb_iq]
  | devIotlbInvDsc => exact nextSeq_of_execDevIotlbInvDsc h
  | iecInvDsc => cases h; rw [State.invalidateIec_iq]
  | invWaitDsc => exact nextSeq_of_execInvWaitDsc h
  | gcmdTe => exact nextSeq_of_execGcmdTe h
  | gcmdEafl => exact nextSeq_of_execGcmdEafl h
  | gcmdWbf => cases h; exact congrArg QueueEngine.nextSeq (sameUnit_flushWriteBuffer s).iq
  | gcmdQie => exact nextSeq_of_execGcmdQie h
  | gcmdIre => exact nextSeq_of_execGcmdIre h
  | ccmdIcc => cases h; rw [State.reportContext_iq, State.invalidateContext_iq]
  | iotlbIvt => cases h; rw [State.reportIotlb_iq, State.invalidateIotlb_iq]
  | pmenEpm => exact nextSeq_of_execPmenEpm h
  | gcmdSrtp | gcmdSfl | gcmdSirtp | gcmdCfi => cases h; rfl

theorem nextSeq_retire (s : State) (p : Pending) : (s.retire p).iq.nextSeq = s.iq.nextSeq := by
  rw [State.retire]
  split <;> rfl

theorem nextSeq_of_executeSeq {seq : Nat} (h : s.executeSeq seq = .next t) : t.iq.nextSeq = s.iq.nextSeq := by
  rw [State.executeSeq] at h
  split at h
  · rw [executePending_eq] at h
    obtain ⟨u, hu, ht⟩ := andThen_next h
    obtain rfl : _ = t := Host.Outcome.next.inj ht
    rw [nextSeq_retire, nextSeq_of_exec hu]
    rfl
  · cases h; rfl

/-- A fetch accepts a descriptor or Sets IQE. -/
theorem advances_of_fetchAndRun (hon : s.fetchEnabled = true) (h : s.fetchAndRun = .next t) :
    t.iq.nextSeq = s.iq.nextSeq + 1 ∨ t.iqe = true := by
  rw [State.fetchAndRun] at h
  cases hfetched : s.fetched [s.cpuView] with
  | some i =>
    have hnew : (s.acceptDescriptor i).tick.iq.nextSeq = s.iq.nextSeq + 1 :=
      congrArg QueueEngine.nextSeq (iq_acceptDescriptor s i)
    rw [fetchDescriptor_of_some hon hfetched, if_neg (by rw [hnew]; exact Nat.succ_ne_self _)] at h
    exact .inl ((nextSeq_of_executeSeq h).trans hnew)
  | none =>
    have hsame : s.raiseIqe.tick.iq.nextSeq = s.iq.nextSeq := (congrArg (·.iq.nextSeq) (raiseIqe_frame s) :)
    rw [fetchDescriptor_of_none hon hfetched, if_pos hsame] at h
    obtain rfl : _ = t := Host.Outcome.next.inj h
    exact .inr (iqe_raiseIqe s)

/-! ## The rest of what is owed -/

theorem settle_fault {rec : BitVec 128} {rest : List (BitVec 128)} (h : s.unlogged = rec :: rest) :
    s.settle = { s with unlogged := rest }.logFault rec := by
  rw [State.settle, h, State.logOldestFault, h]
  rfl

theorem commitAt_zero {f : InFlight} {fs : List InFlight} (h : s.inflight = f :: fs) :
    s.commitAt 0 = { s with inflight := fs }.commitRequest f := by
  rw [State.commitAt, h]
  rfl

theorem commitIrqAt_zero {q : IrqInFlight} {qs : List IrqInFlight} (h : s.irqs = q :: qs) :
    s.commitIrqAt 0 = { s with irqs := qs, out := .interrupt q.message :: s.out } := by
  rw [State.commitIrqAt, h]
  rfl

theorem drainStore_of_cons {cells : List Host.Cell} {rest : List (List Host.Cell)} (h : s.wbuf = cells :: rest) :
    s.drainStore = { s with mem := s.mem.writeCells cells, wbuf := rest } := by
  rw [State.drainStore, h]

section Settled

variable (hfaults : s.unlogged = [])
include hfaults

theorem settle_inflight {f : InFlight} {fs : List InFlight} (h : s.inflight = f :: fs) : s.settle = .next (s.commitAt 0) := by
  rw [State.settle, hfaults, h]
  rfl

variable (hinflight : s.inflight = [])
include hinflight

theorem settle_interrupt {q : IrqInFlight} {qs : List IrqInFlight} (h : s.irqs = q :: qs) :
    s.settle = .next (s.commitIrqAt 0) := by
  rw [State.settle, hfaults, hinflight, h]
  rfl

variable (hirqs : s.irqs = [])
include hirqs

theorem settle_posted (h : s.posted ≠ []) : s.settle = .next (s.deliver 0) := by
  have hsome : s.posted.isEmpty = false := by rwa [List.isEmpty_eq_false_iff]
  rw [State.settle, hfaults, hinflight, hirqs, hsome]
  rfl

variable (hposted : s.posted = [])
include hposted

theorem settle_store {cells : List Host.Cell} {rest : List (List Host.Cell)} (h : s.wbuf = cells :: rest) :
    s.settle = .next s.drainStore := by
  rw [State.settle, hfaults, hinflight, hirqs, hposted, h]
  rfl

theorem settle_held (hwbuf : s.wbuf = []) (h : s.heldBack = true) : s.settle = .next (s.setHolds false false) := by
  rw [State.settle, hfaults, hinflight, hirqs, hposted, hwbuf, h]
  rfl

end Settled

theorem heldBack_iff (s : State) : s.heldBack = true ↔ (s.fePending = true ∧ s.feMask = false ∧ s.feHold = true) ∨
    (s.iePending = true ∧ s.ieMask = false ∧ s.ieHold = true) := by
  simp [State.heldBack, and_assoc]

/-- Settles O7: the idle step's tests in their order, each with what it serves. -/
theorem theScheduleServesAllThatIsOwed : Obligations.TheScheduleServesAllThatIsOwed := by
  intro s hagenda hcmd
  have hidle : step s = match s.iq.pending.find? s.ready with
      | some p => s.executePending p
      | none => if s.fetchEnabled then s.fetchAndRun else s.settle := by
    rw [step_of_no_agenda hagenda, State.idleStep, hcmd]
    rfl
  refine ⟨fun p t hfound hstep => ?ready, fun hnone => ⟨fun hon t hstep => ?fetch, fun hoff => ?settle⟩⟩
  case ready =>
    rw [hidle, hfound] at hstep
    exact served_of_executePending (List.find?_some hfound) hstep
  case fetch =>
    rw [hidle, hnone] at hstep
    exact advances_of_fetchAndRun hon ((if_pos hon).symm.trans hstep)
  case settle =>
    have hsettle : step s = s.settle := by
      rw [hidle, hnone]
      exact if_neg (by rw [hoff]; exact Bool.false_ne_true)
    rw [hsettle]
    refine ⟨fun rec rest h => settle_fault h, fun hfaults => ⟨fun f fs h => ?inflight, fun hinflight =>
      ⟨fun q qs h => ?interrupt, fun hirqs => ⟨settle_posted hfaults hinflight hirqs, fun hposted =>
        ⟨fun cells rest h => ?store, fun hwbuf hheld => ?held⟩⟩⟩⟩⟩
    case inflight => rw [settle_inflight hfaults h, commitAt_zero h]
    case interrupt => rw [settle_interrupt hfaults hinflight h, commitIrqAt_zero h]
    case store => rw [settle_store hfaults hinflight hirqs hposted h, drainStore_of_cons h]
    obtain ⟨hfe, hie, hmessages⟩ := setHolds_ended s
    rw [hposted, List.nil_append] at hmessages
    exact ⟨_, settle_held hfaults hinflight hirqs hposted hwbuf ((heldBack_iff s).2 hheld), hfe, hie, hmessages⟩

end Sys2Proof.Machine
end
section
/-! Posted items that become visible (20_memory.md R141, R158 to R160; 44_queued_invalidation.md R396; 60_exceptions.md R495;
70_reset_and_hazards.md R542). -/

namespace Sys2Proof

/-! ## Bytes of a value (20_memory.md R141) -/

theorem bytesOfNat_eq (n v : Nat) : bytesOfNat n v = (List.range n).map fun i => BitVec.ofNat 8 (v / 256 ^ i) := by
  induction n generalizing v with
  | zero => rfl
  | succ n ih =>
    have hplace : ∀ i, v / 256 / 256 ^ i = v / 256 ^ (i + 1) := fun i => by rw [Nat.div_div_eq_div_mul, Nat.pow_succ']
    rw [bytesOfNat, ih, List.range_succ_eq_map, List.map_cons, List.map_map, Nat.pow_zero, Nat.div_one]
    exact congrArg _ (List.map_congr_left fun i _ => congrArg _ (hplace i))

/-- The least significant byte comes first (decision D1). -/
theorem bytesOfNat_toNat {w : Nat} (n : Nat) (d : BitVec w) :
    bytesOfNat n d.toNat = (List.range n).map fun i => d.extractLsb' (8 * i) 8 := by
  have hplace : ∀ i, d.toNat / 256 ^ i = d.toNat >>> (8 * i) := fun i => by
    rw [Nat.shiftRight_eq_div_pow, Nat.pow_mul]
  rw [bytesOfNat_eq]
  exact List.map_congr_left fun i _ => congrArg (BitVec.ofNat 8) (hplace i)

theorem getElem?_bytesOfNat {w n i : Nat} (d : BitVec w) (hi : i < n) :
    (bytesOfNat n d.toNat)[i]? = some (d.extractLsb' (8 * i) 8) := by
  rw [bytesOfNat_toNat, List.getElem?_map, List.getElem?_range hi, Option.map_some]

/-! ## An item of a list, with those before it and those after it -/

theorem take_eq_append_cons {α : Type} {l : List α} {j k : Nat} {a : α} (hj : j < k) (h : l[j]? = some a) :
    l.take k = l.take j ++ a :: (l.take k).drop (j + 1) := by
  have hat : (l.take k)[j]? = some a := (List.getElem?_take_of_lt hj).trans h
  obtain ⟨hlt, hget⟩ := List.getElem?_eq_some_iff.1 hat
  calc l.take k = (l.take k).take j ++ (l.take k).drop j := (List.take_append_drop j _).symm
    _ = l.take j ++ a :: (l.take k).drop (j + 1) := by
      rw [List.take_take, Nat.min_eq_left hj.le, List.drop_eq_getElem_cons hlt, hget]

theorem exists_of_mem_drop_take {α : Type} {l : List α} {j k : Nat} {a : α} (h : a ∈ (l.take k).drop (j + 1)) :
    ∃ m, j < m ∧ m < k ∧ l[m]? = some a := by
  obtain ⟨n, hn⟩ := List.mem_iff_getElem?.1 h
  rw [List.getElem?_drop, List.getElem?_take] at hn
  split at hn
  next hlt => exact ⟨j + 1 + n, by omega, hlt, hn⟩
  · exact nomatch hn

theorem exists_of_mem_take {α : Type} {l : List α} {k : Nat} {a : α} (h : a ∈ l.take k) : ∃ m, m < k ∧ l[m]? = some a := by
  obtain ⟨m, hm⟩ := List.mem_iff_getElem?.1 h
  rw [List.getElem?_take] at hm
  split at hm
  next hlt => exact ⟨m, hlt, hm⟩
  · exact nomatch hm

end Sys2Proof

namespace Sys2Proof.Machine

variable {s t : State} {a k : Nat}

/-! ## One item (`State.perform`) -/

theorem stored_perform_status (hwf : s.mem.wf = true) (a : Nat) (d : BitVec 32) :
    Stored s (s.perform (.statusWrite a d)) a ((List.range 4).map fun i => d.extractLsb' (8 * i) 8) := by
  rw [← bytesOfNat_toNat]
  exact stored_writeCoherent s hwf a _

theorem stored_perform_log (hwf : s.mem.wf = true) (a : Nat) (d : BitVec 64) :
    Stored s (s.perform (.logWrite a d)) a ((List.range 8).map fun i => d.extractLsb' (8 * i) 8) := by
  rw [← bytesOfNat_toNat]
  exact stored_writeCoherent s hwf a _

theorem Stored.emit {bs : List Byte} (h : Stored s t a bs) (o : Output) : Stored s (t.emit o) a bs where
  mem := h.mem
  view := h.view
  memElse := h.memElse
  viewElse := h.viewElse
  frame := by
    rw [h.frame]
    rfl

section Message

variable (src : EventSource) {ma : BitVec 64} (d : BitVec 32)

theorem perform_message_memory (hmem : unitWritable s.cfg ma.toNat 4 = true) : s.perform (.message src ma d) =
    (s.writeCoherent (cellsAt ma.toNat (bytesOfNat 4 d.toNat))).emit (.eventMessage src ma d) := if_pos hmem

theorem perform_message_elsewhere (hmem : unitWritable s.cfg ma.toNat 4 = false) : s.perform (.message src ma d) =
    s.emit (.eventMessage src ma d) := if_neg (by rw [hmem]; exact Bool.false_ne_true)

theorem out_perform_message (ma : BitVec 64) : (s.perform (.message src ma d)).out = .eventMessage src ma d :: s.out := by
  cases hmem : unitWritable s.cfg ma.toNat 4 with
  | true => rw [perform_message_memory src d hmem]; rfl
  | false => rw [perform_message_elsewhere src d hmem]; rfl

theorem stored_perform_message (hwf : s.mem.wf = true) (hmem : unitWritable s.cfg ma.toNat 4 = true) :
    Stored s (s.perform (.message src ma d)) ma.toNat ((List.range 4).map fun i => d.extractLsb' (8 * i) 8) := by
  rw [perform_message_memory src d hmem, ← bytesOfNat_toNat]
  exact (stored_writeCoherent s hwf ma.toNat _).emit _

/-- A byte that the message does not go to is as before, in memory and as processors see it. -/
theorem perform_message_read (hwf : s.mem.wf = true) {x : Nat}
    (hx : unitWritable s.cfg ma.toNat 4 = true → x < ma.toNat ∨ ma.toNat + 4 ≤ x) :
    (s.perform (.message src ma d)).mem.read x = s.mem.read x ∧
      (s.perform (.message src ma d)).cpuView.read x = s.cpuView.read x := by
  cases hmem : unitWritable s.cfg ma.toNat 4 with
  | true =>
    have hstored := stored_perform_message src d hwf hmem
    exact ⟨hstored.memElse x (hx hmem), hstored.viewElse x (hx hmem)⟩
  | false =>
    rw [perform_message_elsewhere src d hmem]
    exact ⟨rfl, rfl⟩

end Message

/-! ## Delivery (R160) -/

theorem deliver_of_none (h : s.posted[k]? = none) : s.deliver k = s := by rw [State.deliver, h]

theorem not_isInvMessage {p : Posted} (h : ∀ ma d, p ≠ .message .invalidation ma d) : p.isInvMessage = false := by
  cases p with
  | statusWrite _ _ => rfl
  | logWrite _ _ => rfl
  | message src ma d =>
    cases src with
    | fault => rfl
    | invalidation => exact absurd rfl (h ma d)

theorem deliver_of_other {p : Posted} (h : s.posted[k]? = some p) (hp : ∀ ma d, p ≠ .message .invalidation ma d) :
    s.deliver k = { s with posted := s.posted.eraseIdx k }.perform p := by
  rw [State.deliver, h, List.eraseIdx_eq_take_drop_succ]
  exact if_neg (by rw [not_isInvMessage hp]; exact Bool.false_ne_true)

/-- The status writes posted before place `k`. -/
def State.statusBefore (s : State) (k : Nat) : List Posted := (s.posted.take k).filter Posted.isStatus

/-- The state in which the message at place `k` and the status writes before it are no longer posted. -/
def State.withoutPushed (s : State) (k : Nat) : State :=
  { s with posted := (s.posted.take k).filter (fun q => !q.isStatus) ++ s.posted.drop (k + 1) }

/-- The state in which an invalidation event message has pushed the status writes before it. -/
def State.pushedBefore (s : State) (k : Nat) : State := (s.statusBefore k).foldl State.perform (s.withoutPushed k)

theorem wf_withoutPushed (hwf : s.mem.wf = true) (k : Nat) : (s.withoutPushed k).mem.wf = true := hwf

theorem deliver_invalidation {ma : BitVec 64} {d : BitVec 32} (h : s.posted[k]? = some (.message .invalidation ma d)) :
    s.deliver k = (s.pushedBefore k).perform (.message .invalidation ma d) := by
  rw [State.deliver, h]
  rfl

theorem isStatus_of_mem_statusBefore {q : Posted} (h : q ∈ s.statusBefore k) : q.isStatus = true := (List.mem_filter.1 h).2

theorem pushedBefore_frame (s : State) (k : Nat) : s.pushedBefore k =
    { s with posted := (s.posted.take k).filter (fun q => !q.isStatus) ++ s.posted.drop (k + 1), mem := (s.pushedBefore k).mem,
             wbuf := (s.pushedBefore k).wbuf, dirty := (s.pushedBefore k).dirty } :=
  foldl_perform_status (s.statusBefore k) (fun _ hq => isStatus_of_mem_statusBefore hq) _

theorem wf_pushedBefore (hwf : s.mem.wf = true) (k : Nat) : (s.pushedBefore k).mem.wf = true :=
  (SameUnit.foldl sameUnit_perform (s.statusBefore k) (s.withoutPushed k)).wf hwf

theorem cfg_pushedBefore (s : State) (k : Nat) : (s.pushedBefore k).cfg = s.cfg := by rw [pushedBefore_frame]

/-- The status writes before place `k`, about one of them. -/
theorem statusBefore_eq {j b : Nat} {w : BitVec 32} (hj : j < k) (h : s.posted[j]? = some (.statusWrite b w)) : s.statusBefore k =
    (s.posted.take j).filter Posted.isStatus ++
      .statusWrite b w :: ((s.posted.take k).drop (j + 1)).filter Posted.isStatus := by
  rw [State.statusBefore, take_eq_append_cons hj h, List.filter_append, List.filter_cons_of_pos rfl, ← take_eq_append_cons hj h]

/-- A byte of a status write that no later one before the message overwrites has its data. -/
theorem pushedBefore_byte (hwf : s.mem.wf = true) {j b i : Nat} {w : BitVec 32} (hj : j < k)
    (h : s.posted[j]? = some (.statusWrite b w)) (hi : i < 4)
    (hlater : ∀ j' b' w', j < j' → j' < k → s.posted[j']? = some (.statusWrite b' w') → b + i < b' ∨ b' + 4 ≤ b + i) :
    (s.pushedBefore k).mem.read (b + i) = w.extractLsb' (8 * i) 8 ∧
      (s.pushedBefore k).cpuView.read (b + i) = w.extractLsb' (8 * i) 8 := by
  have hsplit := statusBefore_eq hj h
  rw [State.pushedBefore, hsplit]
  refine foldl_perform_status_byte _ _ b w (fun q hq => isStatus_of_mem_statusBefore (hsplit ▸ hq)) _
    (wf_withoutPushed hwf k) (getElem?_bytesOfNat w hi) fun b' w' hmem => ?_
  obtain ⟨j', hlt, hk, hat⟩ := exists_of_mem_drop_take (List.mem_filter.1 hmem).1
  exact hlater j' b' w' hlt hk hat

/-- A byte that no status write before the message goes to is as before. -/
theorem pushedBefore_read (hwf : s.mem.wf = true) {x : Nat}
    (hx : ∀ j b w, j < k → s.posted[j]? = some (.statusWrite b w) → x < b ∨ b + 4 ≤ x) :
    (s.pushedBefore k).mem.read x = s.mem.read x ∧ (s.pushedBefore k).cpuView.read x = s.cpuView.read x :=
  foldl_perform_status_read (s.statusBefore k) (fun _ hq => isStatus_of_mem_statusBefore hq) _ (wf_withoutPushed hwf k) x
    fun b w hmem =>
    have ⟨j, hj, hat⟩ := exists_of_mem_take (List.mem_filter.1 hmem).1
    hx j b w hj hat

/-- Settles O16: one item is `stored_perform_status`, `stored_perform_log` or `stored_perform_message`; an invalidation event message
comes after the status writes before it (`deliver_invalidation`). -/
theorem postedItemsBecomeVisible : Obligations.PostedItemsBecomeVisible := by
  intro s a hwf
  refine ⟨fun d => ⟨stored_perform_status hwf a d, rfl⟩, fun d => ⟨stored_perform_log hwf a d, rfl⟩, fun src ma d =>
    ⟨out_perform_message src d ma, stored_perform_message src d hwf, perform_message_elsewhere src d⟩, fun k =>
    ⟨deliver_of_none, fun p h hp => deliver_of_other h hp, fun ma d h => ?_⟩⟩
  have hpushed := wf_pushedBefore hwf k
  have hcfg := cfg_pushedBefore s k
  rw [deliver_invalidation h]
  refine ⟨?posted, ?out, fun j b w i hj hat hi hlater hmessage => ?status, fun hmem i hi => ?message,
    fun x hstatus hmessage => ?others, ?frame⟩
  case posted => rw [perform_frame, pushedBefore_frame]
  case out => rw [out_perform_message, pushedBefore_frame]
  case status =>
    obtain ⟨hmem, hview⟩ := pushedBefore_byte hwf hj hat hi hlater
    obtain ⟨hmem', hview'⟩ := perform_message_read .invalidation d hpushed (x := b + i) fun hw => hmessage (hcfg ▸ hw)
    exact ⟨hmem'.trans hmem, hview'.trans hview⟩
  case message =>
    have hstored := stored_perform_message .invalidation d hpushed (ma := ma) (hcfg.symm ▸ hmem)
    have hbyte : ((List.range 4).map fun i => d.extractLsb' (8 * i) 8)[i]? = some (d.extractLsb' (8 * i) 8) := by
      rw [List.getElem?_map, List.getElem?_range hi, Option.map_some]
    exact ⟨hstored.mem i _ hbyte, hstored.view i _ hbyte⟩
  case others =>
    obtain ⟨hmem, hview⟩ := pushedBefore_read hwf hstatus
    obtain ⟨hmem', hview'⟩ := perform_message_read .invalidation d hpushed (x := x) fun hw => hmessage (hcfg ▸ hw)
    exact ⟨hmem'.trans hmem, hview'.trans hview⟩
  case frame =>
    rw [perform_frame, pushedBefore_frame]

end Sys2Proof.Machine
end
